-- ==== Sys2Proof/Word.lean ====
section
/-! DEFINITION. The word types of the Ofiran 432: bytes, press angles and the wrapping counters of its frames. -/

namespace Sys2Proof

/-- One byte as it crosses a pin (chapter 10). -/
abbrev Byte := BitVec 8

/-- A press angle: an integer 0..16,777,215, all sums and differences modulo 2^24 (section 0.5). -/
abbrev Angle := BitVec 24

/-- A number that wraps modulo 65,536: cycle numbers, revolutions, bulk sequences (R5, R12, R78). -/
abbrev Num16 := BitVec 16

end Sys2Proof
end

