-- ==== Sys2Proof/Machine/Types.lean ====
section
/-! DEFINITION. The named values of the manual's record tables and the fields of the requests of section 9.3. -/

namespace Sys2Proof

/-! ## Named values -/

/-- Trip classes in rising order (section 0.5). -/
inductive TripClass where
  | none | warn | impressionOff | stopRamp | stopFast
deriving DecidableEq, Repr

/-- The code of a trip class in every format of chapter 10, which is also its rank. -/
def TripClass.code : TripClass → Nat
  | .none => 0 | .warn => 1 | .impressionOff => 2 | .stopRamp => 3 | .stopFast => 4

/-- Role of the node, from the MASTER strap (R2). -/
inductive Role where
  | master | member
deriving DecidableEq, Repr

/-- How the node holds the press angle (1.2). -/
inductive AngleState where
  | none | tracking | coasting | lost
deriving DecidableEq, Repr

/-- The state of the whole line (1.9). -/
inductive LineState where
  | stopped | running | stopping | tripStop
deriving DecidableEq, Repr

/-- The four cycle periods (0.5). -/
inductive Period where
  | us250 | us500 | us1000 | us2000
deriving DecidableEq, Repr

/-- A cycle period in ns. -/
def Period.ns : Period → Nat
  | .us250 => 250000 | .us500 => 500000 | .us1000 => 1000000 | .us2000 => 2000000

/-- The two fibre ports (4.1). -/
inductive FibreSide where
  | a | b
deriving DecidableEq, Repr

/-- State of a fibre port (4.2). -/
inductive FibreState where
  | dark | training | up
deriving DecidableEq, Repr

/-- The ring mode (R72). -/
inductive RingMode where
  | closed | wrapA | wrapB | isolated
deriving DecidableEq, Repr

/-- Which BULK queue an output serves next when both hold frames (4.1). -/
inductive BulkTurn where
  | forwarded | localQueue
deriving DecidableEq, Repr

/-- The eight kinds of ring frame (4.1, 10.1). -/
inductive FrameKind where
  | cycle | trip | tripClear | trimStep | imageLine | screenTiles | touch | peerMessage
deriving DecidableEq, Repr

/-- State of an axis (2.1). -/
inductive AxisState where
  | free | catching | coupled | inhibited
deriving DecidableEq, Repr

/-- Cause in an AXIS_STATE notice (R45). -/
inductive AxisCause where
  | request | catchDone | port | trip | angle
deriving DecidableEq, Repr

/-- Writer in a TRIM_LIMIT notice (R45). -/
inductive TrimWriter where
  | host | localStep | remoteStep | setAxis
deriving DecidableEq, Repr

/-- State of a drive port (3.4). -/
inductive PortState where
  | off | linking | up | fault
deriving DecidableEq, Repr

/-- Cause of the FAULT in force (3.2). -/
inductive FaultReason where
  | none | miss | drive | follow
deriving DecidableEq, Repr

/-- Error mark of a received telegram (R50). -/
inductive RxMark where
  | framing | length | crc | good
deriving DecidableEq, Repr

/-- Kind of a telegram a drive sends (3.1). -/
inductive RxKind where
  | feedback | serviceReply
deriving DecidableEq, Repr

/-- The service slot of a port (3.8). -/
inductive ServiceSlot where
  | empty | waiting | sent
deriving DecidableEq, Repr

/-- Status in a SERVICE_REPLY notice, in the order of the table of 3.8. -/
inductive ServiceStatus where
  | noRoom | ok | timeout | aborted
deriving DecidableEq, Repr

/-- Conditioning of a pin source (R94). -/
inductive Conditioning where
  | levelLow | levelHigh | edgeFall | edgeRise
deriving DecidableEq, Repr

/-- State of an entry of the local trip list (5.3). -/
inductive EntryState where
  | active | acked | inactive
deriving DecidableEq, Repr

/-- Entry state as a TRIP notice shows it (R115). -/
inductive TripNoticeState where
  | active | acked | inactive | removed
deriving DecidableEq, Repr

/-- State of the keepalive window (5.7). -/
inductive WindowState where
  | off | opened | expired
deriving DecidableEq, Repr

/-- State of an image map (6.5). -/
inductive MapState where
  | off | active | faulted
deriving DecidableEq, Repr

/-- State of a mark channel (7.5). -/
inductive ChannelState where
  | off | searching | locked | lost
deriving DecidableEq, Repr

/-- Repeat phase of a mark channel (7.1): PARTIAL or OPEN for the reference; PARTIAL, WAITING or ARMED for a follower. -/
inductive RepeatPhase where
  | fragment | opened | waiting | armed
deriving DecidableEq, Repr

/-- What became of a channel's last step (R146). -/
inductive StepOutcome where
  | none | deadband | notLocked | lineNotRunning | slow | unbound | axisNotCoupled | toLocal | toRemote | queueFull
deriving DecidableEq, Repr

/-- State of the screen port (8.2). -/
inductive ScreenState where
  | off | noPanel | up
deriving DecidableEq, Repr

/-- Kind of a window (8.1). -/
inductive WindowKind where
  | tiles | webview
deriving DecidableEq, Repr

/-- Where touches on a window go (8.1). -/
inductive TouchMode where
  | toHost | toNode (node : Nat) | ignore
deriving DecidableEq, Repr

/-- Cause of the last reset (R172). -/
inductive ResetCause where
  | powerOn | restart
deriving DecidableEq, Repr

/-- Status codes of replies (9.2). -/
inductive Status where
  | ok | badFrame | unknown | range | state | busy | notMaster | tripped | notReady | conflict | full
deriving DecidableEq, Repr

/-- Strap pins MASTER and ID4..ID0 as sampled when a reset ends (R2). -/
structure Straps where
  master : Bool
  id : BitVec 5
deriving DecidableEq, Repr

/-- One character of a drive telegram with the correctness of its stop bit (R49, R50). -/
structure DriveChar where
  byte : Byte
  stopOk : Bool
deriving DecidableEq, Repr

/-! ## Fields of the requests -/

/-- SET_KEEPALIVE (R113): limits in ms. -/
structure KeepaliveLimits where
  minimum : Nat
  maximum : Nat
deriving DecidableEq, Repr

/-- SET_CYCLE (R4); period none is KEEP. -/
structure CycleFieldsReq where
  period : Option Period
  k : Nat
  lAlign : Nat
  coastLimit : Nat
  stepTolerance : Nat
deriving DecidableEq, Repr

/-- SET_RAMP (R17). -/
structure RampFields where
  vMax : Nat
  aUp : Nat
  aDown : Nat
  aTrip : Nat
deriving DecidableEq, Repr

/-- SET_AXIS (R25); binding none is unbound. -/
structure AxisFields where
  axis : Nat
  binding : Option (Nat × Nat)
  slew : Nat
  trimLimit : Nat
  catchLimit : Nat
  followLimit : Nat
  accept : Bool
deriving DecidableEq, Repr

/-- GEAR_CHANGE (R35, R36) in either mode. -/
structure GearFields where
  axis : Nat
  n : Int
  d : Nat
  angle : Angle
deriving DecidableEq, Repr

/-- An axis number with a signed offset: SET_PHASE (R37), SET_TRIM (R38). -/
structure OffsetFields where
  axis : Nat
  value : Int
deriving DecidableEq, Repr

/-- SET_PORT (R51, R52) in either form. -/
structure PortFields where
  port : Nat
  divider : Nat
  missLimit : Nat
deriving DecidableEq, Repr

/-- PORT_SERVICE (R64). -/
structure ServiceFields where
  port : Nat
  sub : Nat
  payload : List Byte
deriving DecidableEq, Repr

/-- SET_TRIP_SOURCE (R96). -/
structure SourceFields where
  source : Nat
  enable : Bool
  cls : TripClass
  priority : Nat
  conditioning : Conditioning
  filter : Nat
deriving DecidableEq, Repr

/-- SET_CAMERA (R118). -/
structure CameraFields where
  on : Bool
  width : Nat
  pitch : Nat
deriving DecidableEq, Repr

/-- SET_CAPTURE (R126). -/
structure CaptureFields where
  decimation : Nat
  hStep : Nat
  stride : Nat
deriving DecidableEq, Repr

/-- The NEW geometry of a SET_MAP (R124). -/
structure Geometry where
  origin : Nat
  stride : Nat
  slotCount : Nat
deriving DecidableEq, Repr

/-- One entry write of a SET_MAP (R124). -/
structure EntryWrite where
  page : Nat
  valid : Bool
  writeProtect : Bool
  physical : Nat
deriving DecidableEq, Repr

/-- SET_MAP (R124); geometry none is KEEP. -/
structure MapFields where
  map : Nat
  geometry : Option Geometry
  writes : List EntryWrite
deriving DecidableEq, Repr

/-- SET_MARK in its channel form (R135). -/
structure MarkFields where
  channel : Nat
  on : Bool
  c0 : Nat
  c1 : Nat
  threshold : Nat
  width : Nat
  g0 : Nat
  g1 : Nat
  spacing : Int
  span : Nat
  gain : Nat
  deadband : Nat
  stepClamp : Nat
  node : Nat
  axis : Nat
  lostLimit : Nat
  tripFlag : Bool
deriving DecidableEq, Repr

/-- SET_SCREEN (R151). -/
structure ScreenFields where
  enable : Bool
  cols : Nat
  rows : Nat
  background : Nat
deriving DecidableEq, Repr

/-- A rectangle of screen tiles (8.1). -/
structure Rect where
  x : Nat
  y : Nat
  w : Nat
  h : Nat
deriving DecidableEq, Repr

/-- A window record, carried whole by SET_WINDOW (8.1, R155). -/
structure Window where
  id : Nat
  rect : Rect
  kind : WindowKind
  tileBase : Nat
  map : Nat
  line0 : Nat
  col0 : Nat
  vStep : Nat
  hStep : Nat
  greyBase : Nat
  staleIndex : Nat
  touch : TouchMode
  freeze : Bool
  visible : Bool
deriving DecidableEq, Repr

/-- The banner's rectangle and its four class bases (8.5). -/
structure Banner where
  rect : Rect
  warn : Nat
  impressionOff : Nat
  stopRamp : Nat
  stopFast : Nat
deriving DecidableEq, Repr

/-- One tile of a PUT_TILES (R153). -/
structure TileWrite where
  tile : Nat
  pixels : List Byte
deriving DecidableEq, Repr

/-- SET_GRANT (R154). -/
structure GrantFields where
  grant : Nat
  origin : Nat
  first : Nat
  count : Nat
deriving DecidableEq, Repr

/-- A well-formed request as the control port hands it to its block (R165 case 4). Where the opcode table has one row for
each form of a request, so has this type. -/
inductive Request where
  | identify
  | status
  | keepalive
  | setKeepalive (f : KeepaliveLimits)
  | setCycle (f : CycleFieldsReq)
  | setRamp (f : RampFields)
  | setSpeed (target : Nat)
  | start
  | stop
  | readLine
  | setAxis (f : AxisFields)
  | gearChangeSmooth (f : GearFields)
  | gearChangeJump (f : GearFields)
  | setPhase (f : OffsetFields)
  | setTrim (f : OffsetFields)
  | couple (axis : Nat)
  | release (axis : Nat)
  | readAxis (axis : Nat)
  | setPortEnable (f : PortFields)
  | setPortDisable (f : PortFields)
  | resetPort (port : Nat)
  | portService (f : ServiceFields)
  | readPort (port : Nat)
  | setTripSource (f : SourceFields)
  | ackTrip (sources : Option (List Nat))
  | raiseTrip (number : Nat) (set : Bool)
  | readTrips
  | setRoster (ids : List Nat)
  | sendMessage (dest : Nat) (bytes : List Byte)
  | readRing
  | setCamera (f : CameraFields)
  | setCapture (f : CaptureFields)
  | setStream (dest : Nat)
  | setMap (f : MapFields)
  | enableMap (map : Nat) (active : Bool)
  | readStoreSlot (map : Nat) (slot : Nat)
  | readStoreSummary (map : Nat)
  | setMarkChannel (f : MarkFields)
  | setMarkUnit (vReg : Nat)
  | readMarks
  | setScreen (f : ScreenFields)
  | setWindow (w : Window)
  | raiseWindow (id : Nat)
  | removeWindow (id : Nat)
  | putTiles (dest : Nat) (tiles : List TileWrite)
  | setGrant (f : GrantFields)
  | setBanner (banner : Option Banner)
  | fetchNotice
  | restart
deriving DecidableEq, Repr

end Sys2Proof
end

