-- ==== Sys2Proof/Syntax.lean ====
section
/-! DEFINITION. The commands of the Ofiran 432: one constructor for each row of spec/opcode_table.json, with its operands.
Instants (`at`, `arrival`) are ns of the part's reference clock. A command that names no instant takes place at the instant of
the command before it, or, for a scheduled event, at the instant the state holds for it. -/

namespace Sys2Proof

/-- The commands: resets and transactions at the control port, the requests, and the events of the part's own timers, links
and pins (95_what_each_step_holds.md: each is one whole step). -/
inductive Instr where
  | powerOnReset (at_ : Nat) (straps : Straps) (trp : BitVec 12) (csLow : Bool)
  | requestTransaction (bytes : List Byte)
  | readTransaction (at_ : Nat) (clocked : Nat) (straps : Straps)
  | replyFormed (at_ : Nat)
  | identify
  | status
  | keepalive (at_ : Nat)
  | setKeepalive (at_ : Nat) (f : KeepaliveLimits)
  | setCycle (f : CycleFieldsReq)
  | setRamp (f : RampFields)
  | setSpeed (target : Nat)
  | start
  | stop
  | readLine
  | setAxis (f : AxisFields)
  | gearChangeSmooth (f : GearFields)
  | gearChangeJump (f : GearFields)
  | setPhase (f : OffsetFields)
  | setTrim (f : OffsetFields)
  | couple (axis : Nat)
  | release (axis : Nat)
  | readAxis (axis : Nat)
  | setPortEnable (f : PortFields)
  | setPortDisable (f : PortFields)
  | resetPort (port : Nat)
  | portService (f : ServiceFields)
  | readPort (port : Nat)
  | setTripSource (at_ : Nat) (f : SourceFields)
  | ackTrip (sources : Option (List Nat))
  | raiseTrip (number : Nat) (set : Bool)
  | readTrips (at_ : Nat)
  | setRoster (ids : List Nat)
  | sendMessage (dest : Nat) (bytes : List Byte)
  | readRing
  | setCamera (f : CameraFields)
  | setCapture (f : CaptureFields)
  | setStream (dest : Nat)
  | setMap (f : MapFields)
  | enableMap (map : Nat) (active : Bool)
  | readStoreSlot (map : Nat) (slot : Nat)
  | readStoreSummary (map : Nat)
  | setMarkChannel (f : MarkFields)
  | setMarkUnit (vReg : Nat)
  | readMarks
  | setScreen (at_ : Nat) (f : ScreenFields)
  | setWindow (w : Window)
  | raiseWindow (id : Nat)
  | removeWindow (id : Nat)
  | putTiles (dest : Nat) (tiles : List TileWrite)
  | setGrant (f : GrantFields)
  | setBanner (banner : Option Banner)
  | fetchNotice
  | restart
  | updateEvent
  | ownTimerUpdate
  | deadline
  | cycleTimerExpiry
  | ringFrameArrival (side : FibreSide) (arrival : Nat) (at_ : Nat) (bytes : List Byte)
  | frameTransmitEnd (side : FibreSide) (at_ : Nat)
  | idleSetSend (side : FibreSide) (at_ : Nat)
  | idleSetReceived (side : FibreSide) (arrival : Nat) (symbolsGood : Bool) (bytes : List Byte)
  | linkTrainingStart (side : FibreSide)
  | lossOfLock (side : FibreSide) (at_ : Nat)
  | telegramClosed (port : Fin 4) (chars : List DriveChar)
  | transmitterFrees (port : Fin 4)
  | localTrimStep (axis : Fin 16) (step : Int)
  | trpPinChange (pin : Fin 12) (level : Bool) (at_ : Nat)
  | filterRunEnd (pin : Fin 12)
  | keepaliveWindowExpiry
  | triggerIssue
  | lineMessage (bytes : List Byte)
  | lineWriteEnd (map : Fin 4)
  | panelMessage (at_ : Nat) (bytes : List Byte)
  | panelTimerExpiry
  | tileMessageEnd
  | shortLossOfLock (side : FibreSide)
deriving DecidableEq, Repr

end Sys2Proof
end

