-- ==== Sys2Proof/Decode.lean ====
section
/-! DEFINITION. The command a word spells by the table's bits. No row of spec/opcode_table.json gives bits (log 25): what crosses a
pin as bytes is decoded by the layouts of chapter 10, in Machine/Layouts.lean and Machine/Operands.lean. -/

namespace Sys2Proof

/-- The command a word spells: none, since no row of the table has bits. -/
def decodeTableWord (_nbits _w : Nat) : Option Instr := none

end Sys2Proof
end

