-- ==== Sys2Proof/Config.lean ====
section
/-! DEFINITION. What an implementation fixes, and the free values: constants without a body, so that no proof can see their
values. -/

namespace Sys2Proof

/-- The part's identity code (R167, R172). The manual gives neither its value nor its width: the width is a DESIGN CHOICE
(log 6), the value is free. -/
opaque Config.identityCode : BitVec 16

/-- The silicon revision number (R167, R172), as `Config.identityCode`. -/
opaque Config.siliconRevision : BitVec 8

/-- Whether a read that overlaps a line write finds the new byte (R131, R157: the bytes "may come from two lines"): a free
choice for each use (first argument, from `State.fresh`) and each byte (second argument). -/
opaque Config.tornNew : Nat → Nat → Bool

end Sys2Proof
end

