-- ==== Sys2Proof/Machine/State.lean ====
section
/-! DEFINITION. The records of the ten blocks (tables of chapters 1 to 9), the state of the machine as plain data, the reasons a
step can stop, and the state right after reset. -/

namespace Sys2Proof.Machine

/-! ## Angle unit (chapter 1) -/

/-- One slot of the status vector (R83, 10.2). Of a slot that is absent at reset, or sent absent after a missed return, R3 and R14 give
present alone; the values of its other fields, which stand here, are the model's choice (log 46). -/
structure StatusSlot where
  present : Bool := false
  passMark : Bool := false
  worst : TripClass := .none
  ringMode : RingMode := .closed
  axesCoupled : Bool := false
  marksLocked : Bool := false
deriving DecidableEq, Repr

/-- The base a cycle's updates are formed from (R11). `lag` is L, `tu` is T_u, both in ns. -/
structure Base where
  aM : Angle
  v : Nat
  period : Period
  revolution : Num16
  t0 : Int
  lag : Nat
  tu : Nat
  k : Nat
deriving DecidableEq, Repr

/-- The angle record held at every node (1.2, first table), with the state R9, R10 and R11 imply. -/
structure AngleRecord where
  role : Role
  nodeId : Nat
  state : AngleState
  masterOrigin : Option Nat
  cycleNumber : Num16 := 0
  aM : Angle := 0
  v : Nat := 0
  frameRevolution : Num16 := 0
  lineState : LineState := .stopped
  period : Period := .us1000
  k : Nat := 1
  lAlign : Nat := 50000
  coastLimit : Nat := 3
  stepTolerance : Nat := 4096
  coastCount : Nat := 0
  frameDelay : Nat := 0
  expectedArrival : Option Nat := none
  previousAngle : Angle := 0
  updateRevolution : Num16 := 0
  newBase : Bool := true
  vector : Vector StatusSlot 32 := Vector.replicate 32 {}
  coasts : Nat := 0
  angleLosses : Nat := 0
  foreignMaster : Nat := 0
  alignLate : Nat := 0
  /-- A_last of R9: the angle of the last frame actually accepted. -/
  lastA : Angle := 0
  /-- The base in force (R11). -/
  base : Option Base := none
  /-- Updates scheduled from the base and not yet taken: index and instant, in order (R11). -/
  updates : List (Nat × Nat) := []
  /-- Instant of the next own-timer update (R10). -/
  ownTimer : Option Nat := none
deriving DecidableEq, Repr

/-- The first-out record's content (R21); origin and source may be recorded as none. -/
structure FirstOut where
  origin : Option Nat
  source : Option Nat
  cls : TripClass
  cycle : Num16
deriving DecidableEq, Repr

/-- The fields held in addition at a line master (1.2, second table). -/
structure MasterRecord where
  speedTarget : Nat := 0
  vMax : Nat := 4194303
  aUp : Nat := 1000
  aDown : Nat := 1000
  aTrip : Nat := 4000
  nextV : Nat := 0
  nextA : Angle := 0
  nextRevolution : Num16 := 0
  nextCycle : Num16 := 0
  pendingPeriod : Option Period := none
  returned : Bool := true
  returnMisses : Nat := 0
  returnLoss : Bool := false
  ringDelay : Nat := 0
  firstOut : Option FirstOut := none
  /-- Instant of the next expiry of the cycle timer (R14); none at a member. -/
  cycleTimer : Option Nat := none
  /-- Number of the frame last handed to the ring controller (R15). -/
  lastHanded : Option Num16 := none
deriving DecidableEq, Repr

/-! ## Axis engine (chapter 2) -/

/-- One axis record (2.2). -/
structure Axis where
  state : AxisState := .free
  binding : Option (Fin 4 × Fin 4) := none
  n : Int := 1
  d : Nat := 1
  r : Nat := 0
  g : Angle := 0
  p : Int := 0
  t : Int := 0
  c : Int := 0
  slew : Nat := 256
  trimLimit : Nat := 65536
  catchLimit : Nat := 4194304
  followLimit : Nat := 0
  followCount : Nat := 0
  accept : Bool := false
  staged : Option (Int × Nat) := none
  f : Angle := 0
  fresh : Bool := false
  s : Angle := 0
  v : Int := 0
  applied : Nat := 0
  discarded : Nat := 0
  refused : Nat := 0
deriving DecidableEq, Repr

/-! ## Drive ports (chapter 3) -/

/-- One entry of a SETPOINT telegram (3.1). -/
structure SetpointEntry where
  sub : Fin 4
  enable : Bool
  setpoint : Angle
  feedforward : Int
deriving DecidableEq, Repr

/-- One received telegram in the queue (R55): its kind, its bytes and its error mark. -/
structure RxTelegram where
  kind : RxKind
  bytes : List Byte
  mark : RxMark
deriving DecidableEq, Repr

/-- The drive report of one sub-address (3.2). -/
structure DriveReport where
  fault : Bool := false
  enabled : Bool := false
  code : Byte := 0
deriving DecidableEq, Repr

/-- The twelve counters of a drive port (3.2). -/
structure PortCounters where
  sent : Nat := 0
  goodFeedbacks : Nat := 0
  crcErrors : Nat := 0
  framingErrors : Nat := 0
  lengthErrors : Nat := 0
  mismatched : Nat := 0
  overruns : Nat := 0
  discarded : Nat := 0
  misses : Nat := 0
  lateSends : Nat := 0
  setpointsDropped : Nat := 0
  strayReplies : Nat := 0
deriving DecidableEq, Repr

/-- One drive port record (3.2). The transmitter is the list of telegrams being sent back to back, in bytes; empty is idle. -/
structure DrivePort where
  state : PortState := .off
  divider : Nat := 3
  missLimit : Nat := 3
  missCount : Nat := 0
  linkCount : Nat := 0
  reason : FaultReason := .none
  place : Option (Fin 4 × Option (Fin 16)) := none
  queue : List RxTelegram := []
  stopped : Bool := false
  sentList : List (Fin 4) := []
  transmitter : List (List Byte) := []
  waitingSetpoint : Option (List SetpointEntry) := none
  slot : ServiceSlot := .empty
  service : Option (Fin 4 × List Byte) := none
  serviceWait : Nat := 0
  serviceAge : Nat := 0
  reports : Vector DriveReport 4 := Vector.replicate 4 {}
  counters : PortCounters := {}
deriving DecidableEq, Repr

/-! ## Ring controller (chapter 4) -/

/-- A ring frame: header fields and payload (4.1, 10.1). -/
structure Frame where
  kind : FrameKind
  restart : Bool := false
  reverse : Nat := 0
  origin : Nat
  dest : Nat
  hop : Nat := 0
  seq : Num16
  payload : List Byte
deriving DecidableEq, Repr

/-- The fields of a CYCLE payload (10.2). -/
structure CycleFields where
  period : Period
  lineState : LineState
  aM : Angle
  revolution : Num16
  v : Nat
  dAcc : Nat
  vector : Vector StatusSlot 32
deriving DecidableEq, Repr

/-- A frame waiting in a queue of an output, with what R82 and R83 need when it leaves: a frame originated here, a CYCLE frame
the master originated (its number and fields), one forwarded from the primary path, or one passed through on the reverse path
(arrival instant and link delay of the arrival port). -/
inductive Queued where
  | own (f : Frame)
  | ownCycle (number : Num16) (c : CycleFields)
  | primary (f : Frame) (arrival linkDelay : Nat)
  | reverse (f : Frame) (arrival linkDelay : Nat)
deriving DecidableEq, Repr

/-- One fibre port record (4.1). -/
structure FibrePort where
  state : FibreState := .dark
  idleRun : Nat := 0
  /-- Delay samples kept while TRAINING (R69). -/
  samples : List Nat := []
  linkDelay : Nat := 0
  peerOk : Bool := false
  okRun : Nat := 0
  usable : Bool := false
  /-- The frame on the fibre, in bytes; none while the output sends idle sets. -/
  sending : Option (List Byte) := none
  urgent : List Queued := []
  cycle : Option Queued := none
  forwarded : List Queued := []
  bulkTurn : BulkTurn := .forwarded
  crcErrors : Nat := 0
  /-- The last timestamp received since the port last entered TRAINING, with its arrival instant (R68). -/
  echo : Option (BitVec 32 × Nat) := none
  /-- The idle set last sent, in bytes (10.8): an output. -/
  idleOut : Option (List Byte) := none
  /-- The timestamps of the idle sets this port has sent (R69), latest first. -/
  stamps : List (BitVec 32) := []
deriving DecidableEq, Repr

/-- The ring controller (4.1). The roster lists its ids in rising order, each with its absence count; the lost set lists ids in
rising order. -/
structure Ring where
  a : FibrePort := {}
  b : FibrePort := {}
  mode : RingMode := .isolated
  localQueue : List Frame := []
  memory : Vector (Option (BitVec 8)) 32 := Vector.replicate 32 none
  tripSequence : BitVec 8 := 0
  restartFlag : Bool := true
  bulkSequence : Num16 := 0
  roster : List (Nat × Nat) := []
  lost : List Nat := []
  forwardDrops : Nat := 0
  strays : Nat := 0
  urgentDrops : Nat := 0
  duplicates : Nat := 0
deriving DecidableEq, Repr

/-! ## Trip unit (chapter 5) -/

/-- The record of one trip source (5.1). `run` is the instant of the pin change that started the filter run in progress. -/
structure TripSource where
  enable : Bool := false
  cls : TripClass := .stopFast
  priority : Nat := 0
  conditioning : Conditioning := .levelLow
  filter : Nat := 0
  filtered : Bool := false
  condition : Bool := false
  run : Option Nat := none
deriving DecidableEq, Repr

/-- An entry of the local trip list (5.3). -/
structure LocalEntry where
  source : Fin 24
  cls : TripClass
  priority : Nat
  latchCycle : Num16
  latchAngle : Angle
  repeats : Nat := 0
  state : EntryState
deriving DecidableEq, Repr

/-- An entry of the remote trip table (5.5). -/
structure RemoteEntry where
  origin : Nat
  source : Nat
  cls : TripClass
  priority : Nat
  cycle : Num16
  lowCount : Nat := 0
deriving DecidableEq, Repr

/-- The head trip as it is shown and reported (R112). -/
structure HeadTrip where
  origin : Nat
  source : Nat
  cls : TripClass
deriving DecidableEq, Repr

/-- The trip unit (5.1 to 5.7). Held vector class none is an absent slot. -/
structure TripUnit where
  sources : Vector TripSource 24 := Vector.replicate 24 {}
  pins : BitVec 12 := 0
  localList : List LocalEntry := []
  remote : List RemoteEntry := []
  overflow : Bool := false
  overflowClass : TripClass := .none
  held : Vector (Option TripClass) 32 := Vector.replicate 32 none
  effective : TripClass := .none
  impressionOff : Bool := false
  axesCoupled : Bool := true
  marksLocked : Bool := true
  window : WindowState := .off
  minimum : Nat := 0
  maximum : Nat := 0
  openedAt : Option Nat := none
  remoteOverflows : Nat := 0
  unmatchedClears : Nat := 0
  pruned : Nat := 0
  keepaliveFaults : Nat := 0
deriving DecidableEq, Repr

/-! ## Camera port and image store (chapter 6) -/

/-- A trigger formed and not yet issued (R119, R120). -/
structure Trigger where
  line : Nat
  stamp : Angle
  revolution : Num16
  issueAt : Nat
deriving DecidableEq, Repr

/-- An entry of the outstanding queue (6.1). -/
structure Outstanding where
  line : Nat
  tag : Nat
  stamp : Angle
  revolution : Num16
deriving DecidableEq, Repr

/-- The camera record (6.1). -/
structure Camera where
  on : Bool := false
  width : Nat := 1024
  pitch : Nat := 65536
  pointer : Option Nat := none
  lastSeen : Angle := 0
  tagCounter : Nat := 0
  triggers : List Trigger := []
  outstanding : List Outstanding := []
  issued : Nat := 0
  skipped : Nat := 0
  missing : Nat := 0
  received : Nat := 0
  unknownTags : Nat := 0
  badLines : Nat := 0
  /-- CAM_TAG3..0 as last driven with CAM_TRIG: an output. -/
  tagPins : Nat := 0
  /-- The pulses of CAM_TRIG at the last update event or trigger issue: their instants and the tags driven with them, in order
  (R120): an output. -/
  pulses : List (Nat × Nat) := []
deriving DecidableEq, Repr

/-- A good line that has taken a line number (R121, R122). -/
structure CameraLine where
  number : Nat
  stamp : Angle
  revolution : Num16
  pixels : List Byte
deriving DecidableEq, Repr

/-- One entry of an image map (6.5). -/
structure PageEntry where
  valid : Bool := false
  writeProtect : Bool := false
  page : Nat := 0
deriving DecidableEq, Repr

/-- The directory record of one slot (6.5). -/
structure SlotRecord where
  present : Bool := false
  stamp : Num16 := 0
  writeNumber : BitVec 8 := 0
  writing : Bool := false
deriving DecidableEq, Repr

/-- Where a line met an invalid page (6.5). -/
structure MapFault where
  page : Nat
  slot : Nat
  revolution : Num16
deriving DecidableEq, Repr

/-- A line for a map: waiting for the map's writer, or, with its physical address, being written (R127). -/
structure LineWrite where
  slot : Nat
  revolution : Num16
  bytes : List Byte
  address : Nat := 0
deriving DecidableEq, Repr

/-- One image map (6.5). The directory lists, in rising slot order, the slots whose record differs from the cleared record. -/
structure ImageMap where
  state : MapState := .off
  origin : Nat := 0
  stride : Nat := 512
  slotCount : Nat := 256
  entries : Vector PageEntry 64 := Vector.replicate 64 {}
  directory : List (Nat × SlotRecord) := []
  fault : Option MapFault := none
  written : Nat := 0
  frozen : Nat := 0
  dropped : Nat := 0
  /-- The write in progress (R127). -/
  write : Option LineWrite := none
  /-- Lines waiting for the writer, oldest first (R127). -/
  waiting : List LineWrite := []
deriving DecidableEq, Repr

/-- The image store (6.5). `pages` is the 256 KiB of memory, physical page k at addresses 2,048 k on. -/
structure Store where
  pages : List Host.Cell := []
  maps : Vector ImageMap 4 := Vector.replicate 4 {}
  decimation : Nat := 1
  hStep : Nat := 2
  stored : Nat := 512
  streamDest : Nat := 0
  unboundLines : Nat := 0
  streamSkips : Nat := 0
deriving DecidableEq, Repr

/-! ## Mark unit (chapter 7) -/

/-- One mark channel (7.1). -/
structure Channel where
  state : ChannelState := .off
  c0 : Nat := 0
  c1 : Nat := 64
  threshold : Nat := 128
  width : Nat := 1
  g0 : Angle := 0
  g1 : Angle := 1048576
  spacing : Int := 65536
  span : Nat := 16384
  gain : Nat := 128
  deadband : Nat := 0
  stepClamp : Nat := 1024
  node : Nat := 0
  axis : Fin 16 := 0
  lostLimit : Nat := 3
  tripFlag : Bool := false
  previous : Option Nat := none
  phase : RepeatPhase := .fragment
  armed : Option Angle := none
  edgeTaken : Option Angle := none
  lastEdge : Option Angle := none
  lastError : Int := 0
  lastStep : Int := 0
  outcome : StepOutcome := .none
  foundRun : Nat := 0
  missRun : Nat := 0
  found : Nat := 0
  missed : Nat := 0
  stepsSent : Nat := 0
  stepsWithheld : Nat := 0
  stepsLost : Nat := 0
deriving DecidableEq, Repr

/-- The mark unit (7.1). -/
structure MarkUnit where
  channels : Vector Channel 8 := Vector.replicate 8 {}
  vReg : Nat := 10000
  lastLine : Option (Nat × Angle) := none
  registerLost : Bool := false
  marksLocked : Bool := true
deriving DecidableEq, Repr

/-! ## Screen controller (chapter 8) -/

/-- A tile grant (8.1); origin 0 is off. At reset a grant is off (R150); the first tile 0 and the count 1 it holds then are the model's
choice (log 36). -/
structure Grant where
  origin : Nat := 0
  first : Nat := 0
  count : Nat := 1
deriving DecidableEq, Repr

/-- A frame in the hold queue (R153): it gets its sequence when it passes to the local queue. -/
structure HoldFrame where
  kind : FrameKind
  dest : Nat
  payload : List Byte
deriving DecidableEq, Repr

/-- The tile whose message is on the port, with the message's bytes (R160, 10.4). -/
structure InSend where
  tile : Nat
  message : List Byte
deriving DecidableEq, Repr

/-- The screen controller (8.1). `tiles` is the tile store, tile k at addresses 256 k on. `dirty` lists the dirty raster numbers
in rising order. `panelTimer` is the instant the panel timer last started from 0. -/
structure Screen where
  state : ScreenState := .off
  cols : Nat := 80
  rows : Nat := 48
  background : Byte := 0
  panelTimer : Nat := 0
  tiles : List Host.Cell := []
  grants : Vector Grant 4 := Vector.replicate 4 {}
  windows : List Window := []
  banner : Option Banner := none
  headClass : TripClass := .none
  dirty : List Nat := []
  cursor : Nat := 0
  inSend : Option InSend := none
  hold : List HoldFrame := []
  messageCount : BitVec 8 := 0
  tilesSent : Nat := 0
  peerRefused : Nat := 0
  badPanel : Nat := 0
  touchesDropped : Nat := 0
  panelLosses : Nat := 0
deriving DecidableEq, Repr

/-! ## Control port (chapter 9) -/

/-- A notice with the content of its last posting (9.4, and the notice rules of each chapter). -/
inductive Notice where
  | resetDone (cause : ResetCause) (nodeId : Nat) (role : Role)
  | lineState (state : LineState) (cycle : Num16)
  | angleState (state : AngleState) (coastCount : Nat) (origin : Option Nat) (returnLoss : Option Bool)
  | axisState (axis : Fin 16) (state : AxisState) (cause : AxisCause) (binding : Option (Fin 4 × Fin 4))
  | trimLimit (axis : Fin 16) (target : Int) (limit : Nat) (writer : TrimWriter)
  | portState (port : Fin 4) (state : PortState) (reason : FaultReason) (place : Option (Fin 4 × Option (Fin 16))) (missCount : Nat)
  | serviceReply (port : Fin 4) (status : ServiceStatus) (reply : Option (Fin 4 × List Byte))
  | ringState (aState : FibreState) (aUsable : Bool) (bState : FibreState) (bUsable : Bool) (aDelay bDelay : Option Nat)
      (mode : RingMode) (lost : Option (List Nat))
  | trip (source : Fin 24) (state : TripNoticeState) (cls : TripClass) (priority : Nat) (latchCycle : Num16) (latchAngle : Angle)
      (repeats : Nat) (effective : TripClass)
  | remoteTrips (count : Nat) (overflow : Bool) (overflowClass highest effective : TripClass) (head : Option HeadTrip)
  | mapState (map : Fin 4) (state : MapState) (fault : Option MapFault)
  | markState (channel : Fin 8) (state : ChannelState) (foundRun missRun : Nat) (lastEdge : Option Angle) (lastError lastStep : Int)
      (outcome : StepOutcome)
  | screenState (state : ScreenState) (cols rows panelLosses : Nat)
  | touch (kind : Byte) (window : Option Nat) (x y : Nat) (origin : Option Nat)
  | bannerTouch (kind : Byte) (x y : Nat) (headClass : TripClass)
  | peerMessage (origin : Nat) (sequence : Num16) (bytes : List Byte)
deriving DecidableEq, Repr

/-- The copy a slot read of the store makes between its two looks at the directory record (R131). -/
structure StoreCopy where
  map : Fin 4
  slot : Nat
  present : Bool
  stamp : Num16
  writeNumber : BitVec 8
  writing : Bool
  bytes : List Byte
deriving DecidableEq, Repr

/-- What a worked request answers with: a status and body; whether a FETCH_NOTICE found overflow set (R169); the copy a
READ_STORE has begun (R131), whose body is formed with the reply. -/
structure Answer where
  status : Status
  body : List Byte := []
  overflowBefore : Bool := false
  copy : Option StoreCopy := none
deriving DecidableEq, Repr

/-- The work left on a request in progress. -/
inductive Work where
  | todo (r : Request)
  | answered (a : Answer)
deriving DecidableEq, Repr

/-- A request in progress or waiting (9.1), with the kind and tag bytes its reply carries. -/
structure Item where
  kind : Byte
  tag : Byte
  work : Work
deriving DecidableEq, Repr

/-- The control port (9.1). -/
structure ControlPort where
  inProgress : Option Item := none
  waiting : Option Item := none
  /-- The reply formed and not yet read, in bytes (10.5). -/
  reply : Option (List Byte) := none
  lostMark : Bool := false
  restartPending : Bool := false
  notices : List Notice := []
  overflow : Bool := false
  /-- Cause of the last reset (R167, R172). -/
  cause : ResetCause := .powerOn
  /-- CS_N was low when the reset ended: the transaction under way is ignored (R172). -/
  ignoring : Bool := false
  /-- The bytes MISO carried in the last transaction (R164): an output. -/
  miso : List Byte := []
  /-- The levels of ATTN_N in the last reset, in order, low as true (R170): an output. RESET_N low releases the pin, and at the end of the
  reset it falls; a restart does not drive RESET_N (log 49). -/
  attnInReset : List Bool := []
deriving DecidableEq, Repr

/-! ## The machine -/

/-- The state of the part: the records of its blocks, the model's own clock and free-value counter, and the queue of commands. -/
structure State where
  /-- Instant of the last timed command, ns of the reference clock (log 1). -/
  now : Nat := 0
  /-- Picks the next free value of `Config.tornNew` (log 7). -/
  fresh : Nat := 0
  angle : AngleRecord
  master : MasterRecord := {}
  axes : Vector Axis 16 := Vector.replicate 16 {}
  straySteps : Nat := 0
  /-- Trim steps the mark unit has handed to the axis engine that have not yet reached their axis (R39). -/
  localSteps : List (Fin 16 × Int) := []
  ports : Vector DrivePort 4 := Vector.replicate 4 {}
  ring : Ring := {}
  trips : TripUnit := {}
  camera : Camera := {}
  store : Store := {}
  marks : MarkUnit := {}
  screen : Screen := {}
  ctl : ControlPort := {}
  /-- Commands waiting, first in, first out. -/
  pending : List Instr := []
deriving DecidableEq, Repr

/-- The reasons the part stops with a fault: there are none. What the manual calls trips, port FAULT and map FAULTED are states. -/
inductive Fault where
deriving DecidableEq, Repr

/-- The reasons the model refuses a command. -/
inductive Refusal where
  /-- Raised by `exec` alone, for a row without a meaning. Safe: nothing can be proved of such a step. No arm uses it. -/
  | notModelled (mnemonic : String)
deriving DecidableEq, Repr

/-- The level of a TRP pin; true is high. -/
def pinLevel (pins : BitVec 12) (i : Nat) : Bool := pins.getLsbD i

/-- The source records when a reset ends (R93): the filtered level of a pin is the pin's level, and with LEVEL_LOW a low pin has
its condition present; source 19 has its condition present because the ring mode is ISOLATED. The filtered level of an internal source,
which 5.1 gives to pins only, is held low (log 34). -/
def resetSources (pins : BitVec 12) : Vector TripSource 24 :=
  Vector.ofFn fun i =>
    if i.val < 12 then { filtered := pinLevel pins i.val, condition := !pinLevel pins i.val }
    else { condition := i.val == 19 }

/-- The state at the end of either kind of reset (R2, R3, R24, R48, R67, R93, R117, R123, R134, R150, R172): every record at its
table's reset value, the straps sampled, the pages kept, one RESET_DONE waiting. -/
def resetState (cause : ResetCause) (at_ : Nat) (straps : Straps) (pins : BitVec 12) (csLow : Bool) (pages : List Host.Cell)
    (fresh : Nat) (pending : List Instr) : State :=
  let role : Role := if straps.master then .master else .member
  let id := straps.id.toNat + 1
  { now := at_
    fresh := fresh
    angle :=
      { role := role
        nodeId := id
        state := if straps.master then .tracking else .none
        masterOrigin := if straps.master then some id else none
        ownTimer := if straps.master then none else some (at_ + 1000000) }
    master := { cycleTimer := if straps.master then some (at_ + 1000000) else none }
    trips := { sources := resetSources pins, pins := pins }
    store := { pages := pages }
    ctl :=
      { notices := [.resetDone cause id role]
        cause := cause
        ignoring := csLow
        attnInReset := if cause = .powerOn then [false, true] else [] }
    pending := pending }

/-- The machine right after reset: a power-on reset that ended at instant 0 with every strap and TRP pin low and CS_N high
(DESIGN CHOICE, log 4), the image store's memory reading 0 (DESIGN CHOICE, log 5), and no command waiting. -/
def State.reset : State := resetState .powerOn 0 { master := false, id := 0 } 0 false [] 0 []

end Sys2Proof.Machine
end

