-- ==== Sys2Proof/Machine/Bits.lean ====
section
/-! DEFINITION. Arithmetic of section 0.5, byte order, check sequences (R175) and sparse tables. -/

namespace Sys2Proof.Machine

/-! ## Counters, angles, clamps -/

/-- A counter rises by 1 and stays at 65,535 (R1). -/
def bump (n : Nat) : Nat := min (n + 1) 65535

/-- A counter raised `k` times. -/
def bumpBy (n k : Nat) : Nat := min (n + k) 65535

/-- Rise by 1, saturating at `m`. -/
def bumpTo (m n : Nat) : Nat := min (n + 1) m

/-- A ns field of 16 bits that saturates at 65,535. -/
def sat16 (n : Nat) : Nat := min n 65535

/-- The signed difference of two angles (section 0.5). -/
def sdiff (a b : Angle) : Int := (a - b).toInt

/-- The forward distance from `b` to `a`, modulo 2^24. -/
def forward (a b : Angle) : Nat := (a - b).toNat

/-- An angle moved by a signed number of pc, modulo 2^24. -/
def Angle.plus (a : Angle) (x : Int) : Angle := a + BitVec.ofInt 24 x

/-- A value clamped to ±m (section 0.5). -/
def clampTo (m : Nat) (x : Int) : Int := max (-(m : Int)) (min (m : Int) x)

/-- The greatest offset an axis holds (2.2). -/
def offsetMax : Nat := 8388607

/-! ## Byte order: most significant byte first (section 0.5) -/

def u8 (n : Nat) : List Byte := [BitVec.ofNat 8 n]
def u16 (n : Nat) : List Byte := [BitVec.ofNat 8 (n / 256), BitVec.ofNat 8 n]
def u24 (n : Nat) : List Byte := [BitVec.ofNat 8 (n / 65536), BitVec.ofNat 8 (n / 256), BitVec.ofNat 8 n]
def u32 (n : Nat) : List Byte :=
  [BitVec.ofNat 8 (n / 16777216), BitVec.ofNat 8 (n / 65536), BitVec.ofNat 8 (n / 256), BitVec.ofNat 8 n]

/-- A signed field of 3 bytes, two's complement (chapter 10). -/
def i24 (x : Int) : List Byte := u24 (BitVec.ofInt 24 x).toNat

/-- A signed field of 2 bytes. -/
def i16 (x : Int) : List Byte := u16 (BitVec.ofInt 16 x).toNat

/-- The number a run of bytes spells, most significant first. -/
def beNat (bs : List Byte) : Nat := bs.foldl (fun n b => n * 256 + b.toNat) 0

/-- The number spelled by `n` bytes from position `i` on; bytes past the end count as absent. -/
def fieldAt (bs : List Byte) (i n : Nat) : Nat := beNat ((bs.drop i).take n)

/-- A signed field of 3 bytes from position `i` on. -/
def signed24At (bs : List Byte) (i : Nat) : Int := (BitVec.ofNat 24 (fieldAt bs i 3)).toInt

/-- The byte at position `i`; 0 past the end. -/
def byteAt (bs : List Byte) (i : Nat) : Byte := bs.getD i 0

/-- `bs` with `new` written over it from position `i` on; nothing is written past the end. -/
def overwrite (bs : List Byte) (i : Nat) (new : List Byte) : List Byte :=
  bs.take i ++ (new.take (bs.length - i) ++ bs.drop (i + new.length))

/-! ## Check sequences (R175) -/

/-- One bit entered into the shift register. -/
def crcBit {w : Nat} (generator register : BitVec w) (bit : Bool) : BitVec w :=
  if register.msb != bit then (register <<< 1) ^^^ generator else register <<< 1

/-- One byte entered, most significant bit first. -/
def crcByte {w : Nat} (generator register : BitVec w) (b : Byte) : BitVec w :=
  [7, 6, 5, 4, 3, 2, 1, 0].foldl (fun r i => crcBit generator r (b.getLsbD i)) register

/-- The CRC-16 of control records, drive telegrams, camera lines, panel messages and idle sets. -/
def crc16 (bs : List Byte) : BitVec 16 := bs.foldl (crcByte 0x1021#16) 0xFFFF#16

/-- The CRC-32 of ring frames. -/
def crc32 (bs : List Byte) : BitVec 32 := ~~~ (bs.foldl (crcByte 0x04C11DB7#32) 0xFFFFFFFF#32)

/-- Bytes followed by their CRC-16. -/
def withCrc16 (bs : List Byte) : List Byte := bs ++ u16 (crc16 bs).toNat

/-- Bytes followed by their CRC-32. -/
def withCrc32 (bs : List Byte) : List Byte := bs ++ u32 (crc32 bs).toNat

/-- The last two bytes are the CRC-16 of the bytes before them. -/
def crc16Good (bs : List Byte) : Bool :=
  decide (2 ≤ bs.length) && decide (bs.drop (bs.length - 2) = u16 (crc16 (bs.take (bs.length - 2))).toNat)

/-- The last four bytes are the CRC-32 of the bytes before them. -/
def crc32Good (bs : List Byte) : Bool :=
  decide (4 ≤ bs.length) && decide (bs.drop (bs.length - 4) = u32 (crc32 (bs.take (bs.length - 4))).toNat)

/-! ## Sparse tables: keys strictly rising, no entry equal to the default -/

/-- The value at key `a`; the default where no entry lists it. -/
def Sparse.get {α : Type} (d : α) : List (Nat × α) → Nat → α
  | [], _ => d
  | (k, v) :: l, a => if a = k then v else Sparse.get d l a

/-- The table with `v` at key `a`; writing the default removes the entry. -/
def Sparse.set {α : Type} [DecidableEq α] (d : α) : List (Nat × α) → Nat → α → List (Nat × α)
  | [], a, v => if v = d then [] else [(a, v)]
  | (k, w) :: l, a, v =>
    if a < k then (if v = d then (k, w) :: l else (a, v) :: (k, w) :: l)
    else if a = k then (if v = d then l else (a, v) :: l)
    else (k, w) :: Sparse.set d l a v

/-- The canonical form. -/
abbrev Sparse.wf {α : Type} (d : α) (l : List (Nat × α)) : Prop :=
  l.Pairwise (fun x y => x.1 < y.1) ∧ ∀ x ∈ l, x.2 ≠ d

end Sys2Proof.Machine
end

