-- ==== Sys2Proof/Machine/Ops.lean ====
section
/-! DEFINITION. The named operations over the state: time, the two byte memories, the records of axes, ports, maps and channels, and
the posting of notices (R168), which every block shares. -/

namespace Sys2Proof.Machine

/-! ## Time -/

/-- A command that names instant `t` takes place then; the clock does not run back (log 1). -/
def State.tick (s : State) (t : Nat) : State := { s with now := max s.now t }

/-- T_u of a period and an update count, in ns (section 0.5). -/
def updateInterval (p : Period) (k : Nat) : Nat := p.ns / k

/-! ## The byte memories: the image store's pages (6.5) and the tile store (8.3) -/

/-- What an unlisted address of either memory reads as: for the tile store R150 gives 0; for the image store's power-on
contents it is a DESIGN CHOICE (log 5). -/
def Memory.blank : Byte := 0

/-- The canonical form of a memory. -/
abbrev Memory.wf (m : List Host.Cell) : Prop := Sparse.wf Memory.blank m

def Memory.read (m : List Host.Cell) (a : Nat) : Byte := Sparse.get Memory.blank m a

def Memory.write (m : List Host.Cell) (a : Nat) (b : Byte) : List Host.Cell := Sparse.set Memory.blank m a b

/-- The bytes `bs` written from address `a` on. -/
def Memory.writeBytes (m : List Host.Cell) (a : Nat) : List Byte → List Host.Cell
  | [] => m
  | b :: bs => Memory.writeBytes (Memory.write m a b) (a + 1) bs

/-- The `n` bytes from address `a` on. -/
def Memory.readBytes (m : List Host.Cell) (a : Nat) : Nat → List Byte
  | 0 => []
  | n + 1 => Memory.read m a :: Memory.readBytes m (a + 1) n

/-! ## Records held in files of like records -/

def State.axis (s : State) (i : Fin 16) : Axis := s.axes[i]
def State.setAxis (s : State) (i : Fin 16) (a : Axis) : State := { s with axes := s.axes.set i a }

def State.port (s : State) (i : Fin 4) : DrivePort := s.ports[i]
def State.setPort (s : State) (i : Fin 4) (p : DrivePort) : State := { s with ports := s.ports.set i p }

def State.map (s : State) (i : Fin 4) : ImageMap := s.store.maps[i]
def State.setMap (s : State) (i : Fin 4) (m : ImageMap) : State :=
  { s with store := { s.store with maps := s.store.maps.set i m } }

def State.channel (s : State) (i : Fin 8) : Channel := s.marks.channels[i]
def State.setChannel (s : State) (i : Fin 8) (c : Channel) : State :=
  { s with marks := { s.marks with channels := s.marks.channels.set i c } }

def State.source (s : State) (i : Fin 24) : TripSource := s.trips.sources[i]
def State.setSource (s : State) (i : Fin 24) (r : TripSource) : State :=
  { s with trips := { s.trips with sources := s.trips.sources.set i r } }

def State.fibre (s : State) : FibreSide → FibrePort
  | .a => s.ring.a
  | .b => s.ring.b

def State.setFibre (s : State) (side : FibreSide) (p : FibrePort) : State :=
  match side with
  | .a => { s with ring := { s.ring with a := p } }
  | .b => { s with ring := { s.ring with b := p } }

/-- The sixteen axis numbers, the four drive ports and the seven follower channels, in rising order. -/
def axisNumbers : List (Fin 16) := [0, 1, 2, 3, 4, 5, 6, 7, 8, 9, 10, 11, 12, 13, 14, 15]
def portNumbers : List (Fin 4) := [0, 1, 2, 3]
def followerNumbers : List (Fin 8) := [1, 2, 3, 4, 5, 6, 7]

/-- The axis bound to a port at a sub-address, if any (2.3: there is at most one). -/
def State.boundAxis (s : State) (port sub : Fin 4) : Option (Fin 16) :=
  axisNumbers.find? fun i => (s.axis i).binding = some (port, sub)

/-- The axes bound to a port with their sub-addresses, in rising sub-address order. -/
def State.boundAxes (s : State) (port : Fin 4) : List (Fin 4 × Fin 16) :=
  portNumbers.filterMap fun sub => (s.boundAxis port sub).map fun i => (sub, i)

/-! ## Notices (R168) -/

/-- The key of a state notice: its kind code and its object (R168, 10.6); an event notice has none. -/
def Notice.key : Notice → Option (Nat × Nat)
  | .resetDone .. => some (0x01, 0)
  | .lineState .. => some (0x02, 0)
  | .angleState .. => some (0x03, 0)
  | .axisState i .. => some (0x04, i.val)
  | .trimLimit i .. => some (0x05, i.val)
  | .portState p .. => some (0x06, p.val)
  | .serviceReply p .. => some (0x07, p.val)
  | .ringState .. => some (0x08, 0)
  | .trip i .. => some (0x09, i.val)
  | .remoteTrips .. => some (0x0A, 0)
  | .mapState m .. => some (0x0B, m.val)
  | .markState c .. => some (0x0C, c.val)
  | .screenState .. => some (0x0D, 0)
  | .touch .. => none
  | .bannerTouch .. => none
  | .peerMessage .. => none

/-- Room of the notice list (R168). -/
def noticeRoom : Nat := 32

/-- The list after a posting, and whether the notice was admitted (R168): a state notice whose key is present updates its
entry in place; any other notice joins at the tail if fewer than 32 are held. -/
def placeNotice (n : Notice) (l : List Notice) : List Notice × Bool :=
  if n.key.isSome && l.any (fun m => decide (m.key = n.key)) then
    (l.map fun m => if m.key = n.key then n else m, true)
  else if l.length < noticeRoom then (l ++ [n], true)
  else (l, false)

/-- A block posts a notice. -/
def State.post (s : State) (n : Notice) : State :=
  { s with ctl := { s.ctl with
      notices := (placeNotice n s.ctl.notices).1
      overflow := s.ctl.overflow || !(placeNotice n s.ctl.notices).2 } }

/-- Several notices posted in turn. -/
def State.postAll (s : State) (ns : List Notice) : State := ns.foldl State.post s

/-- ATTN_N is low between resets (R170); in a reset by RESET_N it takes the levels `attnInReset`. -/
def State.attnLow (s : State) : Bool := !s.ctl.notices.isEmpty

end Sys2Proof.Machine
end

