-- ==== Sys2Proof/Machine/Layouts.lean ====
section
/-! DEFINITION. The byte layouts of chapter 10: ring frames, the CYCLE payload, drive telegrams, idle sets, notice records and reply
records. Codes of named values follow R174: the position, from 0, in the list the manual gives (log 8). -/

namespace Sys2Proof.Machine

/-! ## Codes of named values -/

def Period.code : Period → Nat
  | .us250 => 0 | .us500 => 1 | .us1000 => 2 | .us2000 => 3

def periodOf (n : Nat) : Period :=
  if n % 4 = 0 then .us250 else if n % 4 = 1 then .us500 else if n % 4 = 2 then .us1000 else .us2000

def LineState.code : LineState → Nat
  | .stopped => 0 | .running => 1 | .stopping => 2 | .tripStop => 3

def lineStateOf (n : Nat) : LineState :=
  if n % 4 = 0 then .stopped else if n % 4 = 1 then .running else if n % 4 = 2 then .stopping else .tripStop

def RingMode.code : RingMode → Nat
  | .closed => 0 | .wrapA => 1 | .wrapB => 2 | .isolated => 3

def ringModeOf (n : Nat) : RingMode :=
  if n % 4 = 0 then .closed else if n % 4 = 1 then .wrapA else if n % 4 = 2 then .wrapB else .isolated

/-- The class of a 3-bit code; codes 5 to 7 are read as STOP_FAST (10.2). -/
def classOf (n : Nat) : TripClass :=
  if n = 0 then .none else if n = 1 then .warn else if n = 2 then .impressionOff else if n = 3 then .stopRamp else .stopFast

def FrameKind.code : FrameKind → Nat
  | .cycle => 1 | .trip => 2 | .tripClear => 3 | .trimStep => 4 | .imageLine => 5 | .screenTiles => 6 | .touch => 7 | .peerMessage => 8

def frameKindOf (n : Nat) : Option FrameKind :=
  if n = 1 then some .cycle else if n = 2 then some .trip else if n = 3 then some .tripClear else if n = 4 then some .trimStep
  else if n = 5 then some .imageLine else if n = 6 then some .screenTiles else if n = 7 then some .touch
  else if n = 8 then some .peerMessage else none

def Role.code : Role → Nat
  | .master => 0 | .member => 1

def AngleState.code : AngleState → Nat
  | .none => 0 | .tracking => 1 | .coasting => 2 | .lost => 3

def FibreState.code : FibreState → Nat
  | .dark => 0 | .training => 1 | .up => 2

def AxisState.code : AxisState → Nat
  | .free => 0 | .catching => 1 | .coupled => 2 | .inhibited => 3

def AxisCause.code : AxisCause → Nat
  | .request => 0 | .catchDone => 1 | .port => 2 | .trip => 3 | .angle => 4

def TrimWriter.code : TrimWriter → Nat
  | .host => 0 | .localStep => 1 | .remoteStep => 2 | .setAxis => 3

def PortState.code : PortState → Nat
  | .off => 0 | .linking => 1 | .up => 2 | .fault => 3

def FaultReason.code : FaultReason → Nat
  | .none => 0 | .miss => 1 | .drive => 2 | .follow => 3

def ServiceSlot.code : ServiceSlot → Nat
  | .empty => 0 | .waiting => 1 | .sent => 2

def ServiceStatus.code : ServiceStatus → Nat
  | .noRoom => 0 | .ok => 1 | .timeout => 2 | .aborted => 3

def Conditioning.code : Conditioning → Nat
  | .levelLow => 0 | .levelHigh => 1 | .edgeFall => 2 | .edgeRise => 3

def EntryState.code : EntryState → Nat
  | .active => 0 | .acked => 1 | .inactive => 2

def TripNoticeState.code : TripNoticeState → Nat
  | .active => 0 | .acked => 1 | .inactive => 2 | .removed => 3

def WindowState.code : WindowState → Nat
  | .off => 0 | .opened => 1 | .expired => 2

def MapState.code : MapState → Nat
  | .off => 0 | .active => 1 | .faulted => 2

def ChannelState.code : ChannelState → Nat
  | .off => 0 | .searching => 1 | .locked => 2 | .lost => 3

/-- PARTIAL and OPEN for the reference; PARTIAL, WAITING and ARMED for a follower: each list is counted from 0 (7.1). -/
def RepeatPhase.code : RepeatPhase → Nat
  | .fragment => 0 | .opened => 1 | .waiting => 1 | .armed => 2

def StepOutcome.code : StepOutcome → Nat
  | .none => 0 | .deadband => 1 | .notLocked => 2 | .lineNotRunning => 3 | .slow => 4 | .unbound => 5 | .axisNotCoupled => 6
  | .toLocal => 7 | .toRemote => 8 | .queueFull => 9

def ScreenState.code : ScreenState → Nat
  | .off => 0 | .noPanel => 1 | .up => 2

def ResetCause.code : ResetCause → Nat
  | .powerOn => 0 | .restart => 1

def Status.code : Status → Nat
  | .ok => 0 | .badFrame => 1 | .unknown => 2 | .range => 3 | .state => 4 | .busy => 5 | .notMaster => 6 | .tripped => 7
  | .notReady => 8 | .conflict => 9 | .full => 10

/-- A flag by its position in "set, clear", "yes, no", "present, absent" and the like: the first value is 0 (R174, log 8). A flag for
which no rule or table lists two values is coded in the same way (log 51). -/
def flagCode (b : Bool) : Nat := if b then 0 else 1

def uFlag (b : Bool) : List Byte := u8 (flagCode b)

/-- An optional field: one byte 0 when absent, 1 and the field when present (R174). That a field whose table gives it a value none beside a
range is such a field is the model's choice (log 52). -/
def uOpt {α : Type} (enc : α → List Byte) : Option α → List Byte
  | none => u8 0
  | some x => u8 1 ++ enc x

/-- A mark that a reply carries in some cases only (R131) is an optional field: R174's byte, 1 when the reply carries it and 0 when not. A mark
says nothing beyond its being there, so nothing follows (log 35). -/
def uMark (b : Bool) : List Byte := uOpt (fun _ : Unit => []) (if b then some () else none)

/-- A list of varying length: one byte with the number of its items, then the items (R174). -/
def uList {α : Type} (enc : α → List Byte) (l : List α) : List Byte := u8 l.length ++ l.flatMap enc

/-! ## The CYCLE payload and the status slot (10.2) -/

def encodeSlot (x : StatusSlot) : List Byte :=
  u8 ((if x.present then 128 else 0) + (if x.passMark then 64 else 0) + x.worst.code)
    ++ u8 (RingMode.code x.ringMode + (if x.axesCoupled then 4 else 0) + (if x.marksLocked then 8 else 0))

def decodeSlot (first second : Byte) : StatusSlot :=
  { present := first.getLsbD 7
    passMark := first.getLsbD 6
    worst := classOf (first.toNat % 8)
    ringMode := ringModeOf second.toNat
    axesCoupled := second.getLsbD 2
    marksLocked := second.getLsbD 3 }

def encodeCycle (c : CycleFields) : List Byte :=
  u8 (Period.code c.period) ++ u8 (LineState.code c.lineState) ++ u24 c.aM.toNat ++ u16 c.revolution.toNat ++ u24 c.v ++ u16 c.dAcc
    ++ c.vector.toList.flatMap encodeSlot

def decodeCycle (p : List Byte) : CycleFields :=
  { period := periodOf (byteAt p 0).toNat
    lineState := lineStateOf (byteAt p 1).toNat
    aM := BitVec.ofNat 24 (fieldAt p 2 3)
    revolution := BitVec.ofNat 16 (fieldAt p 5 2)
    v := fieldAt p 7 3 % 4194304
    dAcc := fieldAt p 10 2
    vector := Vector.ofFn fun i => decodeSlot (byteAt p (12 + 2 * i.val)) (byteAt p (13 + 2 * i.val)) }

/-! ## Ring frames (10.1) -/

def encodeFrame (f : Frame) : List Byte :=
  withCrc32 (u8 (FrameKind.code f.kind) ++ u8 ((if f.restart then 128 else 0) + f.reverse % 32) ++ u8 f.origin ++ u8 f.dest
    ++ u8 f.hop ++ u16 f.seq.toNat ++ u16 f.payload.length ++ [0, 0, 0] ++ f.payload)

/-- The check of R74: CRC-32, payload length at most 512 and equal to the bytes received less header and CRC. -/
def frameBad (bs : List Byte) : Bool :=
  decide (bs.length < 16) || !crc32Good bs || decide (512 < fieldAt bs 7 2) || decide (fieldAt bs 7 2 ≠ bs.length - 16)

/-- The frame a run of received bytes spells; none if its kind byte names none of the eight kinds. -/
def decodeFrame (bs : List Byte) : Option Frame :=
  (frameKindOf (byteAt bs 0).toNat).map fun kind =>
    { kind := kind
      restart := (byteAt bs 1).getLsbD 7
      reverse := (byteAt bs 1).toNat % 32
      origin := (byteAt bs 2).toNat
      dest := (byteAt bs 3).toNat
      hop := (byteAt bs 4).toNat
      seq := BitVec.ofNat 16 (fieldAt bs 5 2)
      payload := (bs.drop 12).take (bs.length - 16) }

/-- The payload lengths each kind allows (10.1). -/
def payloadLengthOk (kind : FrameKind) (n : Nat) : Bool :=
  match kind with
  | .cycle => n == 76
  | .trip => n == 3
  | .tripClear => n == 2
  | .trimStep => n == 4
  | .imageLine => decide (8 ≤ n ∧ n ≤ 512)
  | .screenTiles => n == 258
  | .touch => n == 6
  | .peerMessage => decide (1 ≤ n ∧ n ≤ 256)

/-- A frame on the processing input that breaks the layout tables (R173). -/
def frameStray (f : Frame) : Bool :=
  !payloadLengthOk f.kind f.payload.length || decide (f.origin = 0 ∨ 32 < f.origin) || decide (32 < f.dest)
    || (decide (f.kind = .trip ∨ f.kind = .tripClear)
      && decide (23 < (byteAt f.payload 0).toNat ∨ (byteAt f.payload 1).toNat = 0 ∨ 4 < (byteAt f.payload 1).toNat))
    || (decide (f.kind = .trip) && decide (3 < (byteAt f.payload 2).toNat))

/-! ## Drive telegrams (10.3) -/

def encodeSetpointEntry (e : SetpointEntry) : List Byte :=
  u8 ((if e.enable then 128 else 0) + e.sub.val) ++ u24 e.setpoint.toNat ++ i24 e.feedforward

def encodeSetpoint (es : List SetpointEntry) : List Byte :=
  withCrc16 ([0xA1] ++ u8 es.length ++ es.flatMap encodeSetpointEntry)

def encodeService (sub : Fin 4) (payload : List Byte) : List Byte :=
  withCrc16 ([0xA3] ++ u8 (sub.val * 64 + payload.length % 64) ++ payload)

/-- One entry of a FEEDBACK telegram (3.1). -/
structure FeedbackEntry where
  sub : Fin 4
  fault : Bool
  enabled : Bool
  position : Angle
  code : Byte
deriving DecidableEq, Repr

/-- The entry of a FEEDBACK whose five bytes begin at `i`. -/
def feedbackEntryAt (bs : List Byte) (i : Nat) : FeedbackEntry :=
  { sub := ⟨(byteAt bs i).toNat % 4, Nat.mod_lt _ (by decide)⟩
    fault := (byteAt bs i).getLsbD 7
    enabled := (byteAt bs i).getLsbD 6
    position := BitVec.ofNat 24 (fieldAt bs (i + 1) 3)
    code := byteAt bs (i + 4) }

/-- The entries of a good FEEDBACK. -/
def decodeFeedback (bs : List Byte) : List FeedbackEntry :=
  (List.range (byteAt bs 1).toNat).map fun i => feedbackEntryAt bs (2 + 5 * i)

/-- Sub-address and payload of a good SERVICE_REPLY. -/
def decodeServiceReply (bs : List Byte) : Fin 4 × List Byte :=
  (⟨(byteAt bs 1).toNat / 64 % 4, Nat.mod_lt _ (by decide)⟩, (bs.drop 2).take ((byteAt bs 1).toNat % 64))

/-- The kind of a telegram a drive may send, by its start byte (10.3). -/
def rxKindOf (b : Byte) : Option RxKind :=
  if b = 0xA2 then some .feedback else if b = 0xA4 then some .serviceReply else none

/-- The length mark of R50: the count or length byte is out of range, or more than 36 bytes were sent, or the bytes taken differ
in number from what kind and count imply. -/
def telegramLengthBad (kind : RxKind) (taken : List Byte) (sent : Nat) : Bool :=
  match kind with
  | .feedback =>
    decide (4 < (byteAt taken 1).toNat) || decide (36 < sent) || decide (taken.length ≠ 4 + 5 * (byteAt taken 1).toNat)
  | .serviceReply =>
    decide ((byteAt taken 1).toNat % 64 = 0 ∨ 32 < (byteAt taken 1).toNat % 64) || decide (36 < sent)
      || decide (taken.length ≠ 4 + (byteAt taken 1).toNat % 64)

/-- A receiver closes the run of characters between two idle gaps (R50): none if the start is abandoned. -/
def closeTelegram (chars : List DriveChar) : Option RxTelegram :=
  match chars with
  | [] => none
  | first :: _ =>
    (rxKindOf first.byte).map fun kind =>
      let taken := chars.take 36
      let bs := taken.map (·.byte)
      { kind := kind
        bytes := bs
        mark :=
          if taken.any (fun c => !c.stopOk) then .framing
          else if telegramLengthBad kind bs chars.length then .length
          else if crc16Good bs then .good else .crc }

/-! ## Idle sets (10.8) -/

structure IdleSet where
  receivingOk : Bool
  timestamp : BitVec 32
  echo : Option (BitVec 32)
  hold : BitVec 32
deriving DecidableEq, Repr

def encodeIdle (x : IdleSet) : List Byte :=
  withCrc16 (u8 ((if x.receivingOk then 128 else 0) + (if x.echo.isSome then 64 else 0)) ++ u32 x.timestamp.toNat
    ++ u32 (x.echo.getD 0).toNat ++ u32 x.hold.toNat)

/-- The idle set 15 received bytes spell; none if the check or the number of bytes is wrong (R68). -/
def decodeIdle (bs : List Byte) : Option IdleSet :=
  if bs.length = 15 ∧ crc16Good bs = true then
    some
      { receivingOk := (byteAt bs 0).getLsbD 7
        timestamp := BitVec.ofNat 32 (fieldAt bs 1 4)
        echo := if (byteAt bs 0).getLsbD 6 then some (BitVec.ofNat 32 (fieldAt bs 5 4)) else none
        hold := BitVec.ofNat 32 (fieldAt bs 9 4) }
  else none

/-! ## Notices (10.6, R174) -/

def encodeBinding (b : Fin 4 × Fin 4) : List Byte := u8 b.1.val ++ u8 b.2.val

/-- The fault place of a port; the axis it may not name is an optional field (log 52). -/
def encodePlace (p : Fin 4 × Option (Fin 16)) : List Byte := u8 p.1.val ++ uOpt (fun i : Fin 16 => u8 i.val) p.2

def encodeMapFault (f : MapFault) : List Byte := u8 f.page ++ u16 f.slot ++ u16 f.revolution.toNat

def encodeHead (h : HeadTrip) : List Byte := u8 h.origin ++ u8 h.source ++ u8 h.cls.code

def encodeAngle (a : Angle) : List Byte := u24 a.toNat

/-- The identity code and silicon revision number (R167, R172), of the widths of log 6. -/
def identityBytes : List Byte := u16 Config.identityCode.toNat ++ u8 Config.siliconRevision.toNat

/-- The content of a notice: the fields its rule names, in that order. Fields that are present or absent together, as the sub-address and
the payload of SERVICE_REPLY (R65), share one presence byte (log 41). A field present in some cases only is an optional field (log 26), and so
is one that may be none (log 52). -/
def Notice.content : Notice → List Byte
  | .resetDone cause id role => u8 (ResetCause.code cause) ++ u8 id ++ u8 (Role.code role) ++ identityBytes
  | .lineState st c => u8 (LineState.code st) ++ u16 c.toNat
  | .angleState st n o rl => u8 (AngleState.code st) ++ u8 n ++ uOpt u8 o ++ uOpt uFlag rl
  | .axisState i st c b => u8 i.val ++ u8 (AxisState.code st) ++ u8 (AxisCause.code c) ++ uOpt encodeBinding b
  | .trimLimit i t l w => u8 i.val ++ i24 t ++ u24 l ++ u8 (TrimWriter.code w)
  | .portState p st r pl m => u8 p.val ++ u8 (PortState.code st) ++ u8 (FaultReason.code r) ++ uOpt encodePlace pl ++ u8 m
  | .serviceReply _ st r =>
    u8 (ServiceStatus.code st) ++ uOpt (fun x : Fin 4 × List Byte => u8 x.1.val ++ uList (fun b => [b]) x.2) r
  | .ringState as au bs bu ad bd m l =>
    u8 (FibreState.code as) ++ uFlag au ++ u8 (FibreState.code bs) ++ uFlag bu ++ uOpt u16 ad ++ uOpt u16 bd
      ++ u8 (RingMode.code m) ++ uOpt (uList u8) l
  | .trip i st c p lc la r e =>
    u8 i.val ++ u8 (TripNoticeState.code st) ++ u8 c.code ++ u8 p ++ u16 lc.toNat ++ u24 la.toNat ++ u8 r ++ u8 e.code
  | .remoteTrips n o oc hi e h => u8 n ++ uFlag o ++ u8 oc.code ++ u8 hi.code ++ u8 e.code ++ uOpt encodeHead h
  | .mapState _ st f => u8 (MapState.code st) ++ uOpt encodeMapFault f
  | .markState c st fr mr le e sp o =>
    u8 c.val ++ u8 (ChannelState.code st) ++ u8 fr ++ u8 mr ++ uOpt encodeAngle le ++ i24 e ++ i24 sp ++ u8 (StepOutcome.code o)
  | .screenState st c r l => u8 (ScreenState.code st) ++ u8 c ++ u8 r ++ u16 l
  | .touch k w x y o => [k] ++ uOpt u8 w ++ u16 x ++ u16 y ++ uOpt u8 o
  | .bannerTouch k x y c => [k] ++ u16 x ++ u16 y ++ u8 c.code
  | .peerMessage o n bs => u8 o ++ u16 n.toNat ++ uList (fun b => [b]) bs

/-- The kind code of a notice (10.6). -/
def Notice.code : Notice → Nat
  | .resetDone .. => 0x01
  | .lineState .. => 0x02
  | .angleState .. => 0x03
  | .axisState .. => 0x04
  | .trimLimit .. => 0x05
  | .portState .. => 0x06
  | .serviceReply .. => 0x07
  | .ringState .. => 0x08
  | .trip .. => 0x09
  | .remoteTrips .. => 0x0A
  | .mapState .. => 0x0B
  | .markState .. => 0x0C
  | .screenState .. => 0x0D
  | .touch .. => 0x10
  | .bannerTouch .. => 0x11
  | .peerMessage .. => 0x12

/-- A notice record (10.6): kind code, object or 0, content length, content. -/
def Notice.record (n : Notice) : List Byte :=
  u8 n.code ++ u8 ((n.key.map (·.2)).getD 0) ++ u16 n.content.length ++ n.content

/-! ## Control port records (10.5) -/

/-- A reply record: kind with bit 7 set, tag, status, flags, body, CRC-16 over length to body. -/
def encodeReply (kind tag : Byte) (status : Status) (flags : Nat) (body : List Byte) : List Byte :=
  [0x7E] ++ withCrc16 (u16 (2 + body.length) ++ [kind ||| 0x80] ++ [tag] ++ u8 (Status.code status) ++ u8 flags ++ body)

end Sys2Proof.Machine
end

