-- ==== Sys2Proof/Machine/Pages.lean ====
section
/-! DEFINITION. Reading the image store: slots, pages, and bytes that a line write in progress makes open (R127, R131). -/

namespace Sys2Proof.Machine

/-- Bytes of one physical page (6.5). -/
def pageSize : Nat := 2048

/-- The directory record of a slot; a slot not listed holds the cleared record. -/
def ImageMap.slot (m : ImageMap) (i : Nat) : SlotRecord := Sparse.get {} m.directory i

def ImageMap.setSlot (m : ImageMap) (i : Nat) (r : SlotRecord) : ImageMap :=
  { m with directory := Sparse.set {} m.directory i r }

/-- Every slot not present, stamp 0, write number 0 (R124). -/
def ImageMap.clearDirectory (m : ImageMap) : ImageMap := { m with directory := [] }

/-- The logical page of a slot (R127). -/
def ImageMap.pageOf (m : ImageMap) (slot : Nat) : Nat := slot * m.stride / pageSize

/-- The offset of a slot in its logical page (R127). -/
def ImageMap.offsetOf (m : ImageMap) (slot : Nat) : Nat := slot * m.stride % pageSize

/-- The entry of a logical page; a page above 63 has none, which reads as an invalid entry. -/
def ImageMap.entry (m : ImageMap) (page : Nat) : PageEntry :=
  if h : page < 64 then m.entries[page] else {}

/-- The physical address of a slot's first byte. -/
def ImageMap.address (m : ImageMap) (slot : Nat) : Nat :=
  (m.entry (m.pageOf slot)).page * pageSize + m.offsetOf slot

/-- The line write in progress that covers a physical address, if any. -/
def State.writeAt (s : State) (a : Nat) : Option LineWrite :=
  portNumbers.findSome? fun i =>
    ((s.map i).write).filter fun w => decide (w.address ≤ a ∧ a < w.address + w.bytes.length)

/-- The byte at a physical address once the writes in progress have reached it. -/
def State.newestByte (s : State) (a : Nat) : Byte :=
  match s.writeAt a with
  | none => Memory.read s.store.pages a
  | some w => byteAt w.bytes (a - w.address)

/-- The byte a read finds at a physical address: under a write in progress the old byte or the new one, a free choice. -/
def State.pageByte (s : State) (nonce a : Nat) : Byte :=
  match s.writeAt a with
  | none => Memory.read s.store.pages a
  | some w => if Config.tornNew nonce a then byteAt w.bytes (a - w.address) else Memory.read s.store.pages a

end Sys2Proof.Machine
end

