-- ==== Sys2Proof/Machine/Screen.lean ====
section
/-! DEFINITION. The screen controller's own work (chapter 8): layers and composition (R157), the banner (R158), the dirty set (R159)
and the sender (R160). -/

namespace Sys2Proof.Machine

/-! ## Layers -/

def Rect.covers (q : Rect) (c r : Nat) : Bool := decide (q.x ≤ c ∧ c < q.x + q.w ∧ q.y ≤ r ∧ r < q.y + q.h)

/-- The rectangle fits a screen of `cols` by `rows` tiles (8.1). That a banner too is at least one tile wide and high is the model's choice
(log 50). -/
def Rect.fits (q : Rect) (cols rows : Nat) : Bool := decide (1 ≤ q.w ∧ 1 ≤ q.h ∧ q.x + q.w ≤ cols ∧ q.y + q.h ≤ rows)

/-- The screen tiles, by raster number. -/
def Screen.tileCount (sc : Screen) : Nat := sc.cols * sc.rows

def Screen.colOf (sc : Screen) (t : Nat) : Nat := t % sc.cols
def Screen.rowOf (sc : Screen) (t : Nat) : Nat := t / sc.cols

/-- The raster number `t` lies in the rectangle. -/
def Screen.inRect (sc : Screen) (q : Rect) (t : Nat) : Bool := Rect.covers q (sc.colOf t) (sc.rowOf t)

/-- The banner is shown while it is not none and the head class is not none (R158). -/
def Screen.bannerShown (sc : Screen) : Bool := sc.banner.isSome && decide (sc.headClass ≠ .none)

/-- The layer a screen tile is shown from (R157). -/
inductive Layer where
  | banner (b : Banner)
  | window (w : Window)
  | background
deriving DecidableEq, Repr

/-- The topmost layer that covers screen tile (c, r) (R157). -/
def Screen.topLayer (sc : Screen) (c r : Nat) : Layer :=
  match sc.banner.filter (fun b => sc.bannerShown && Rect.covers b.rect c r) with
  | some b => .banner b
  | none =>
    match sc.windows.reverse.find? (fun w => w.visible && Rect.covers w.rect c r) with
    | some w => .window w
    | none => .background

/-- The class base of a banner; WARN's for class none, where the banner is not shown. -/
def Banner.base (b : Banner) : TripClass → Nat
  | .none => b.warn
  | .warn => b.warn
  | .impressionOff => b.impressionOff
  | .stopRamp => b.stopRamp
  | .stopFast => b.stopFast

/-- The store tile a rectangle drawn from `base` puts at (c, r) (R157). -/
def tileIn (base : Nat) (q : Rect) (c r : Nat) : Nat := base + (r - q.y) * q.w + (c - q.x)

/-- The store tile that screen tile (c, r) draws, if its top layer is a TILES window or the banner (R157, R159). -/
def Screen.drawn (sc : Screen) (c r : Nat) : Option Nat :=
  match sc.topLayer c r with
  | .banner b => some (tileIn (Banner.base b sc.headClass) b.rect c r)
  | .window w => if w.kind = .tiles then some (tileIn w.tileBase w.rect c r) else none
  | .background => none

/-! ## Composition (R157) -/

/-- A web view's slot is stale by revolution: (current − stamp) mod 65,536 lies in 2..32,767. -/
def staleStamp (current stamp : Num16) : Bool := decide (2 ≤ (current - stamp).toNat ∧ (current - stamp).toNat ≤ 32767)

/-- A WEBVIEW pixel at (X, Y) of its window (R157). -/
def State.webPixel (s : State) (nonce : Nat) (w : Window) (x y : Nat) : Byte :=
  let slot := w.line0 + y * w.vStep
  let byte := w.col0 + x * w.hStep
  let stale : Byte := BitVec.ofNat 8 w.staleIndex
  if h : w.map < 4 then
    let m := s.map ⟨w.map, h⟩
    if m.state ≠ .active ∨ m.slotCount ≤ slot ∨ m.stride ≤ byte ∨ (m.entry (m.pageOf slot)).valid = false
        ∨ (m.slot slot).present = false
        ∨ (w.freeze = false ∧ staleStamp s.angle.updateRevolution (m.slot slot).stamp = true) then stale
    else BitVec.ofNat 8 (w.greyBase + (s.pageByte nonce (m.address slot + byte)).toNat / 8)
  else stale

/-- The 256 indices of store tile `t`. -/
def Screen.storeTile (sc : Screen) (t : Nat) : List Byte := Memory.readBytes sc.tiles (t * 256) 256

/-- The picture of screen tile (c, r): 256 indices, rows of 16 (R157). -/
def State.compose (s : State) (nonce c r : Nat) : List Byte :=
  match s.screen.topLayer c r with
  | .banner b => s.screen.storeTile (tileIn (Banner.base b s.screen.headClass) b.rect c r)
  | .window w =>
    match w.kind with
    | .tiles => s.screen.storeTile (tileIn w.tileBase w.rect c r)
    | .webview =>
      (List.range 256).map fun i => s.webPixel nonce w (16 * (c - w.rect.x) + i % 16) (16 * (r - w.rect.y) + i / 16)
  | .background => List.replicate 256 s.screen.background

/-! ## The sender (R160) -/

/-- The first dirty tile at or after the cursor in raster order, wrapping to tile 0. -/
def Screen.nextDirty (sc : Screen) : Option Nat :=
  match sc.dirty.find? (fun t => decide (sc.cursor ≤ t)) with
  | some t => some t
  | none => sc.dirty.head?

/-- The sender takes tile `t`: its flag is cleared, it is composed at once, its message is put on the port, the cursor moves on. -/
def State.takeTile (s : State) (t : Nat) : State :=
  let sc := s.screen
  let c := sc.colOf t
  let r := sc.rowOf t
  { s with
    fresh := s.fresh + 1
    screen := { sc with
      dirty := sc.dirty.filter (fun u => decide (u ≠ t))
      inSend := some { tile := t, message := u8 1 ++ u8 c ++ u8 r ++ [sc.messageCount] ++ s.compose s.fresh c r }
      messageCount := sc.messageCount + 1
      cursor := if t + 1 < sc.tileCount then t + 1 else 0 } }

/-- While the port is UP and no tile is in send, the sender takes the next dirty tile. -/
def State.runSender (s : State) : State :=
  if s.screen.state = .up ∧ s.screen.inSend = none then
    match s.screen.nextDirty with
    | some t => s.takeTile t
    | none => s
  else s

/-! ## The dirty set (R159) -/

/-- The flags of the tiles chosen by `p` are set; a flag already set stays set. -/
def Screen.mark (sc : Screen) (p : Nat → Bool) : Screen :=
  { sc with dirty := (List.range sc.tileCount).filter fun t => sc.dirty.contains t || p t }

/-- Every flag is set and the cursor becomes 0 (R151, R152). -/
def Screen.markAll (sc : Screen) : Screen := { sc with dirty := List.range sc.tileCount, cursor := 0 }

/-- The tiles of a rectangle are marked. -/
def Screen.markRect (sc : Screen) (q : Rect) : Screen := sc.mark (sc.inRect q)

/-- The tiles of the banner's rectangle, if it is configured, are marked. -/
def Screen.markBanner (sc : Screen) : Screen :=
  match sc.banner with
  | some b => sc.markRect b.rect
  | none => sc

/-- A write of store tile `t` marks every screen tile that draws it (R159). -/
def Screen.markDrawing (sc : Screen) (t : Nat) : Screen :=
  sc.mark fun u => decide (sc.drawn (sc.colOf u) (sc.rowOf u) = some t)

/-- A store tile is written whole and marks dirty (8.3, R159). -/
def Screen.writeTile (sc : Screen) (t : Nat) (pixels : List Byte) : Screen :=
  ({ sc with tiles := Memory.writeBytes sc.tiles (t * 256) pixels }).markDrawing t

/-- A change of the current revolution marks every unfrozen visible web view (R159). -/
def Screen.markWebViews (sc : Screen) : Screen :=
  sc.mark fun t => sc.windows.any fun w =>
    w.visible && decide (w.kind = .webview) && !w.freeze && sc.inRect w.rect t

/-- The trip unit reports the class of the head trip, none when there is none (R112); the banner's tiles are marked when it
becomes shown, ceases to be shown or changes class while shown (R158). -/
def State.reportHead (s : State) (cls : TripClass) : State :=
  if cls = s.screen.headClass then s
  else ({ s with screen := ({ s.screen with headClass := cls }).markBanner }).runSender

/-- SCREEN_STATE (R163). -/
def State.postScreenState (s : State) : State :=
  s.post (.screenState s.screen.state s.screen.cols s.screen.rows s.screen.panelLosses)

end Sys2Proof.Machine
end

