-- ==== Sys2Proof/Machine/Angle.lean ====
section
/-! DEFINITION. The angle unit's bases and the line master's emissions (R11, R12, R14, R16), and its notices (R23). -/

namespace Sys2Proof.Machine

def State.isMaster (s : State) : Bool := decide (s.angle.role = .master)

/-- LINE_STATE (R23). -/
def State.postLineState (s : State) : State := s.post (.lineState s.angle.lineState s.angle.cycleNumber)

/-- ANGLE_STATE; the return-loss flag at the master alone (R23). -/
def State.postAngleState (s : State) : State :=
  s.post (.angleState s.angle.state s.angle.coastCount s.angle.masterOrigin
    (if s.isMaster then some s.master.returnLoss else none))

/-! ## Bases and updates -/

/-- The nominal instant u_j of update j (R11). -/
def Base.nominal (b : Base) (j : Nat) : Int := b.t0 + b.lag + j * b.tu

/-- Update 0 of the base is late at `tb` (R11). -/
def Base.late (b : Base) (tb : Nat) : Bool := decide (b.nominal 0 ≤ tb)

/-- The updates a base formed at `tb` takes: update 0 at `tb` if it is late, and every update whose nominal instant is later than
`tb` at that instant; the others are skipped (R11). -/
def Base.schedule (b : Base) (tb : Nat) : List (Nat × Nat) :=
  (if b.late tb then [(0, tb)] else [])
    ++ (List.range b.k).filterMap fun j => if (tb : Int) < b.nominal j then some (j, (b.nominal j).toNat) else none

/-- A base of the record's k and L_align in force; L is T_c if L_align exceeds it (R4, R11). -/
def AngleRecord.makeBase (a : AngleRecord) (aM : Angle) (v : Nat) (period : Period) (revolution : Num16) (t0 : Int) : Base :=
  { aM := aM
    v := v
    period := period
    revolution := revolution
    t0 := t0
    lag := min a.lAlign period.ns
    tu := updateInterval period a.k
    k := a.k }

/-- Forming a base at `tb` cancels the updates of an earlier base and schedules its own (R11). -/
def State.formBase (s : State) (b : Base) (tb : Nat) : State :=
  { s with angle := { s.angle with base := some b, updates := b.schedule tb } }

/-- f_j of R12. -/
def Base.advance (b : Base) (j : Nat) : Nat := (b.v * (b.lag + j * b.tu) + b.period.ns / 2) / b.period.ns

/-- The angle of update j (R12). -/
def Base.angle (b : Base) (j : Nat) : Angle := b.aM + BitVec.ofNat 24 (b.advance j)

/-- The update revolution of update j (R12). -/
def Base.updateRevolution (b : Base) (j : Nat) : Num16 :=
  if 16777216 ≤ b.aM.toNat + b.advance j then b.revolution + 1 else b.revolution

/-- One update event: what R13 lets it carry, and the instant it is taken at (R11). `revolutionBefore` is the revolution of the update
taken before it (R159). -/
structure UpdateEvent where
  index : Nat
  angle : Angle
  delta : Int
  revolution : Num16
  tu : Nat
  angleState : AngleState
  at_ : Nat
  revolutionBefore : Num16
deriving DecidableEq, Repr

/-! ## The line master's frames -/

/-- Next V and the line state after one ramp step from V(c) (R16). -/
def rampStep (m : MasterRecord) (line : LineState) (v : Nat) : Nat × LineState :=
  match line with
  | .running =>
    if v < m.speedTarget then (min (v + m.aUp) m.speedTarget, .running)
    else if m.speedTarget < v then (max (v - m.aDown) m.speedTarget, .running)
    else (v, .running)
  | .stopping => if v - m.aDown = 0 then (0, .stopped) else (v - m.aDown, .stopping)
  | .tripStop => if v - m.aTrip = 0 then (0, .stopped) else (v - m.aTrip, .tripStop)
  | .stopped => (0, .stopped)

/-- After an emission the master computes the next frame (R16). -/
def State.computeNext (s : State) : State :=
  let a := s.angle
  let step := rampStep s.master a.lineState a.v
  let s1 : State := { s with
    angle := { a with lineState := step.2 }
    master := { s.master with
      nextA := a.aM + BitVec.ofNat 24 a.v
      nextRevolution := if 16777216 ≤ a.aM.toNat + a.v then a.frameRevolution + 1 else a.frameRevolution
      nextCycle := a.cycleNumber + 1
      nextV := step.1 } }
  if step.2 ≠ a.lineState then s1.postLineState else s1

/-- The emission of the master's own cycle frame: its start leaves the node, or it is discarded before that (R84). The record
takes the frame's values, the base is formed at this instant, and the next frame is computed (R14, R11, R16). The line state and
T_c of the record stay those in force (log 15). -/
def State.emitted (s : State) (number : Num16) (c : CycleFields) : State :=
  let a : AngleRecord := { s.angle with cycleNumber := number, aM := c.aM, v := c.v, frameRevolution := c.revolution }
  let s1 : State := { s with angle := a }
  (s1.formBase (a.makeBase c.aM c.v c.period c.revolution s.now) s.now).computeNext

end Sys2Proof.Machine
end

