-- ==== Sys2Proof/Machine/Egress.lean ====
section
/-! DEFINITION. The ring controller's egress (4.6, 4.7): roles, queues, the arbiter, what a frame is when it leaves, and the passing of
held screen frames to the local queue (R153). -/

namespace Sys2Proof.Machine

/-! ## Roles (R72) -/

/-- The processing output of a mode. -/
def RingMode.processingOutput : RingMode → Option FibreSide
  | .closed => some .b
  | .wrapB => some .a
  | .wrapA => some .b
  | .isolated => none

/-- The processing input of a mode. -/
def RingMode.processingInput : RingMode → Option FibreSide
  | .closed => some .a
  | .wrapB => some .a
  | .wrapA => some .b
  | .isolated => none

/-- The pass-through output of a mode; its input is the other side. -/
def RingMode.passOutput : RingMode → Option FibreSide
  | .closed => some .a
  | _ => none

/-- The output has a role in the mode. -/
def RingMode.hasRole (m : RingMode) (o : FibreSide) : Bool :=
  decide (RingMode.processingOutput m = some o) || decide (RingMode.passOutput m = some o)

/-! ## The trip unit's part of the status slot (R103) -/

def maxClass (a b : TripClass) : TripClass := if a.code < b.code then b else a

/-- The highest class among the entries of the local trip list. -/
def TripUnit.worst (t : TripUnit) : TripClass := t.localList.foldl (fun c e => maxClass c e.cls) .none

/-- The node's own slot, written as a CYCLE frame leaves (R83). -/
def State.ownSlot (s : State) (number : Num16) : StatusSlot :=
  { present := true
    passMark := number.getLsbD 0
    worst := s.trips.worst
    ringMode := s.ring.mode
    axesCoupled := s.trips.axesCoupled
    marksLocked := s.trips.marksLocked }

/-! ## Leaving (R79, R82, R83) -/

/-- D_acc on leaving: as carried in, plus the link delay of the arrival port, plus the residence time, saturating (R82). -/
def delayOut (carried linkDelay arrival leaving : Nat) : Nat := sat16 (carried + linkDelay + (leaving - arrival))

/-- A CYCLE payload with its D_acc raised as it leaves (R82). Of a payload too short to hold D_acc, which the pass-through input does
not check (R77, R173), only the bytes that are there are written (log 37). -/
def writeDelay (p : List Byte) (linkDelay arrival leaving : Nat) : List Byte :=
  overwrite p 10 (u16 (delayOut (fieldAt p 10 2) linkDelay arrival leaving))

/-- A CYCLE payload with the slot of node `id` written (R83). -/
def writeSlot (p : List Byte) (id : Nat) (x : StatusSlot) : List Byte := overwrite p (12 + 2 * (id - 1)) (encodeSlot x)

/-- A status vector with the slot of node `id` replaced. -/
def setSlotOf (v : Vector StatusSlot 32) (id : Nat) (x : StatusSlot) : Vector StatusSlot 32 :=
  Vector.ofFn fun i => if i.val + 1 = id then x else v[i]

/-- A queued frame as it leaves the node now. -/
def State.asSent (s : State) : Queued → Frame
  | .own f => f
  | .ownCycle number c =>
    { kind := .cycle
      origin := s.angle.nodeId
      dest := 0
      seq := number
      payload := encodeCycle { c with vector := setSlotOf c.vector s.angle.nodeId (s.ownSlot number) } }
  | .primary f arrival linkDelay =>
    if f.kind = .cycle then
      { f with payload := writeSlot (writeDelay f.payload linkDelay arrival s.now) s.angle.nodeId (s.ownSlot f.seq) }
    else f
  | .reverse f arrival linkDelay =>
    if f.kind = .cycle then { f with reverse := f.reverse + 1, payload := writeDelay f.payload linkDelay arrival s.now }
    else { f with reverse := f.reverse + 1 }

/-! ## The local queue and the hold queue (R85, R87, R153) -/

/-- Room of the local queue. -/
def localRoom : Nat := 16

/-- Room of the hold queue (8.1). -/
def holdRoom : Nat := 8

/-- A frame this node originates, with the sequence given (R78). -/
def State.ownFrame (s : State) (kind : FrameKind) (dest : Nat) (seq : Num16) (payload : List Byte) : Frame :=
  { kind := kind, origin := s.angle.nodeId, dest := dest, seq := seq, payload := payload }

/-- A BULK frame joins the local queue with the next bulk sequence. Callers have found room. -/
def State.joinLocal (s : State) (kind : FrameKind) (dest : Nat) (payload : List Byte) : State :=
  { s with ring := { s.ring with
      localQueue := s.ring.localQueue ++ [s.ownFrame kind dest s.ring.bulkSequence payload]
      bulkSequence := s.ring.bulkSequence + 1 } }

/-- A place freed in the local queue: the frame at the head of the hold queue passes to it (R87, R153). -/
def State.passHeld (s : State) : State :=
  match s.screen.hold with
  | [] => s
  | h :: rest =>
    if s.ring.localQueue.length < localRoom then
      ({ s with screen := { s.screen with hold := rest } }).joinLocal h.kind h.dest h.payload
    else s

/-! ## The arbiter (R86) -/

/-- What the arbiter of an output chooses. -/
inductive Choice where
  | urgent (q : Queued)
  | cycle (q : Queued)
  | forwarded (q : Queued) (turn : BulkTurn)
  | localFrame (f : Frame) (turn : BulkTurn)
  | nothing
deriving DecidableEq, Repr

/-- The next frame of an output, by class; BULK frames of a processing output in turn (R86). `own` is the local queue, served
by the processing output alone. -/
def FibrePort.choose (p : FibrePort) (own : List Frame) : Choice :=
  match p.urgent, p.cycle, p.forwarded, own with
  | q :: _, _, _, _ => .urgent q
  | [], some q, _, _ => .cycle q
  | [], none, q :: _, f :: _ => if p.bulkTurn = .forwarded then .forwarded q .localQueue else .localFrame f .forwarded
  | [], none, q :: _, [] => .forwarded q p.bulkTurn
  | [], none, [], f :: _ => .localFrame f p.bulkTurn
  | [], none, [], [] => .nothing

/-- The output sends the frame: its transmitter holds the bytes, CRC computed over them as sent (R79). -/
def State.transmit (s : State) (o : FibreSide) (f : Frame) : State :=
  s.setFibre o { s.fibre o with sending := some (encodeFrame f) }

/-- The frame's start leaves the node: the master's own cycle frame is emitted at this instant (R14). -/
def State.left (s : State) : Queued → State
  | .ownCycle number c => s.emitted number c
  | _ => s

/-- The arbiter of output `o` chooses and sends, if the output has a role and its transmitter is free (R86). -/
def State.arbitrate (s : State) (o : FibreSide) : State :=
  let p := s.fibre o
  if RingMode.hasRole s.ring.mode o = true ∧ p.sending = none then
    let own := if RingMode.processingOutput s.ring.mode = some o then s.ring.localQueue else []
    match p.choose own with
    | .urgent q => (s.setFibre o { p with urgent := p.urgent.tail }).transmit o (s.asSent q)
    | .cycle q => ((s.setFibre o { p with cycle := none }).transmit o (s.asSent q)).left q
    | .forwarded q turn => (s.setFibre o { p with forwarded := p.forwarded.tail, bulkTurn := turn }).transmit o (s.asSent q)
    | .localFrame f turn =>
      let s1 := s.setFibre o { p with bulkTurn := turn }
      let s2 : State := { s1 with ring := { s1.ring with localQueue := s.ring.localQueue.tail } }
      (s2.transmit o f).passHeld
    | .nothing => s
  else s

/-- The arbiters of both outputs. -/
def State.arbitrateBoth (s : State) : State := (s.arbitrate .a).arbitrate .b

/-! ## Joining (R85) -/

/-- Room of the URGENT and the forwarded queue. -/
def urgentRoom : Nat := 8
def forwardedRoom : Nat := 16

def State.dropForward (s : State) : State := { s with ring := { s.ring with forwardDrops := bump s.ring.forwardDrops } }
def State.dropUrgent (s : State) : State := { s with ring := { s.ring with urgentDrops := bump s.ring.urgentDrops } }

/-- A frame of class URGENT joins output `o`. -/
def State.joinUrgent (s : State) (o : FibreSide) (q : Queued) : State :=
  let p := s.fibre o
  if p.urgent.length < urgentRoom then (s.setFibre o { p with urgent := p.urgent ++ [q] }).arbitrate o else s.dropUrgent

/-- A CYCLE frame joins output `o`; a frame waiting there is discarded, and if it is the master's own it is emitted at the
instant of its discard (R84). -/
def State.joinCycle (s : State) (o : FibreSide) (q : Queued) : State :=
  let s1 :=
    match (s.fibre o).cycle with
    | none => s
    | some w => s.dropForward.left w
  (s1.setFibre o { s1.fibre o with cycle := some q }).arbitrate o

/-- A BULK frame of another node joins output `o`. -/
def State.joinForwarded (s : State) (o : FibreSide) (q : Queued) : State :=
  let p := s.fibre o
  if p.forwarded.length < forwardedRoom then (s.setFibre o { p with forwarded := p.forwarded ++ [q] }).arbitrate o
  else s.dropForward

/-- A frame from another node joins the queue of its class at an output (4.1, R85). -/
def State.joinByClass (s : State) (o : FibreSide) (kind : FrameKind) (q : Queued) : State :=
  match kind with
  | .cycle => s.joinCycle o q
  | .trip => s.joinUrgent o q
  | .tripClear => s.joinUrgent o q
  | .trimStep => s.joinForwarded o q
  | .imageLine => s.joinForwarded o q
  | .screenTiles => s.joinForwarded o q
  | .touch => s.joinForwarded o q
  | .peerMessage => s.joinForwarded o q

/-- The arbiter of the processing output, if there is one. -/
def State.serveLocal (s : State) : State :=
  match RingMode.processingOutput s.ring.mode with
  | some o => s.arbitrate o
  | none => s

/-- The local queue has room for a frame. -/
def State.localHasRoom (s : State) : Bool := decide (s.ring.localQueue.length < localRoom)

/-- A BULK frame is handed over by its block: it takes the next bulk sequence and joins the local queue, if it has room, and the
arbiter looks at it; the Bool says whether it joined (R85, R87). A frame discarded for want of room has used up its number (R78). -/
def State.originate (s : State) (kind : FrameKind) (dest : Nat) (payload : List Byte) : State × Bool :=
  if s.localHasRoom then ((s.joinLocal kind dest payload).serveLocal, true)
  else ({ s with ring := { s.ring with bulkSequence := s.ring.bulkSequence + 1 } }, false)

/-- A screen frame joins the hold queue, or passes straight to the local queue if the hold queue is empty and the local queue has
room (R153). Callers have found room in the hold queue. -/
def State.hold (s : State) (h : HoldFrame) : State :=
  if s.screen.hold.isEmpty && s.localHasRoom then (s.joinLocal h.kind h.dest h.payload).serveLocal
  else { s with screen := { s.screen with hold := s.screen.hold ++ [h] } }

/-- A TRIP or TRIP_CLEAR frame is handed over by the trip unit: it takes the next trip sequence and the restart flag (R78, R80,
R104) and joins the URGENT queue of the processing output, or is discarded when there is none (R85). -/
def State.sendTripFrame (s : State) (kind : FrameKind) (payload : List Byte) : State :=
  let f : Frame :=
    { kind := kind
      restart := s.ring.restartFlag
      origin := s.angle.nodeId
      dest := 0
      seq := s.ring.tripSequence.setWidth 16
      payload := payload }
  let s1 : State := { s with ring := { s.ring with tripSequence := s.ring.tripSequence + 1 } }
  match RingMode.processingOutput s1.ring.mode with
  | some o => s1.joinUrgent o (.own f)
  | none => s1.dropUrgent

end Sys2Proof.Machine
end

