-- ==== Sys2Proof/Machine/Answers.lean ====
section
/-! DEFINITION. What working a request gives: the state after it and its answer (R165). -/

namespace Sys2Proof.Machine

/-- A request taken, with the body of its reply. -/
def answered (s : State) (body : List Byte) : State × Answer := (s, { status := .ok, body := body })

/-- A request taken with OK and an empty body. -/
def taken (s : State) : State × Answer := (s, { status := .ok })

/-- A request refused: it changes nothing and its body is empty (R165). -/
def refuse (s : State) (status : Status) : State × Answer := (s, { status := status })

end Sys2Proof.Machine
end

