-- ==== Sys2Proof/Machine/Axes.lean ====
section
/-! DEFINITION. The axis engine (chapter 2): the work of one update, trim, gear changes, coupling, release and inhibit. -/

namespace Sys2Proof.Machine

/-! ## Notices (R45) -/

def State.postAxisState (s : State) (i : Fin 16) (cause : AxisCause) : State :=
  s.post (.axisState i (s.axis i).state cause (s.axis i).binding)

def State.postTrimLimit (s : State) (i : Fin 16) (writer : TrimWriter) : State :=
  s.post (.trimLimit i (s.axis i).t (s.axis i).trimLimit writer)

/-! ## Inhibit (R44) -/

/-- The axis is CATCHING or COUPLED. -/
def Axis.engaged (a : Axis) : Bool := decide (a.state = .catching ∨ a.state = .coupled)

/-- An axis reached by an inhibiting event becomes INHIBITED if it is COUPLED or CATCHING, with an AXIS_STATE notice. -/
def State.inhibit (s : State) (i : Fin 16) (cause : AxisCause) : State :=
  if (s.axis i).engaged then (s.setAxis i { s.axis i with state := .inhibited }).postAxisState i cause else s

/-- All sixteen axes are reached (STOP_FAST, LOST). -/
def State.inhibitAll (s : State) (cause : AxisCause) : State := axisNumbers.foldl (fun s i => s.inhibit i cause) s

/-- The axes bound to a port are reached (the port leaves UP). -/
def State.inhibitPort (s : State) (port : Fin 4) : State :=
  axisNumbers.foldl
    (fun s i => if ((s.axis i).binding.map (·.1)) = some port then s.inhibit i .port else s) s

/-! ## Trim (R25, R38 to R41) -/

/-- A write of the trim target is clamped to ±L_t; a clamp that changed the value posts TRIM_LIMIT. -/
def State.writeTrim (s : State) (i : Fin 16) (value : Int) (writer : TrimWriter) : State :=
  let a := s.axis i
  let t := clampTo a.trimLimit value
  let s1 := s.setAxis i { a with t := t }
  if t ≠ value then s1.postTrimLimit i writer else s1

/-- A trim step reaches an axis: applied in COUPLED, discarded in every other state (R39). -/
def State.takeTrimStep (s : State) (i : Fin 16) (step : Int) (writer : TrimWriter) : State :=
  let a := s.axis i
  if a.state = .coupled then (s.setAxis i { a with applied := bump a.applied }).writeTrim i (a.t + step) writer
  else s.setAxis i { a with discarded := bump a.discarded }

/-- A TRIM_STEP frame delivered to this node (R40): axis and signed step of 3 bytes. -/
def State.deliverTrimStep (s : State) (payload : List Byte) : State :=
  if h : (byteAt payload 0).toNat < 16 then
    let i : Fin 16 := ⟨(byteAt payload 0).toNat, h⟩
    let a := s.axis i
    if a.accept then s.takeTrimStep i (signed24At payload 1) .remoteStep
    else s.setAxis i { a with refused := bump a.refused }
  else { s with straySteps := bump s.straySteps }

/-! ## The work of one update (R27 to R34) -/

/-- A staged change is taken and the remainder rescaled (R28). -/
def Axis.takeStaged (a : Axis) : Axis :=
  match a.staged with
  | none => a
  | some (n, d) => { a with r := a.r * d / a.d, n := n, d := d, staged := none }

/-- The exact product of R29. -/
def Axis.gearInput (a : Axis) (delta : Int) : Int := delta * a.n + a.r

/-- The geared increment q (R29): the denominator is positive, so the quotient is rounded toward minus infinity. -/
def Axis.gearedIncrement (a : Axis) (delta : Int) : Int := a.gearInput delta / (a.d : Int)

/-- The increment is geared into G, with the exact remainder (R29). -/
def Axis.gear (a : Axis) (delta : Int) : Axis :=
  let q := a.gearedIncrement delta
  { a with r := (a.gearInput delta - q * a.d).toNat, g := Angle.plus a.g q }

/-- The correction goal K (R30). -/
def Axis.goal (a : Axis) : Int := clampTo offsetMax (a.p + a.t)

/-- C moved toward a goal by at most the slew (R30). -/
def slewToward (c goal : Int) (slew : Nat) : Int :=
  if (goal - c).natAbs ≤ slew then goal else if c < goal then c + slew else c - slew

/-- C after the step of R30: held in INHIBITED. -/
def Axis.correction (a : Axis) : Int := if a.engaged then slewToward a.c a.goal a.slew else a.c

/-- The follow count after the check of R33: made for an axis that was CATCHING or COUPLED at the start of the update, with a
follow limit and a fresh F, against the setpoint handed at the previous update. -/
def Axis.followed (a : Axis) (engagedAtStart : Bool) : Nat :=
  if engagedAtStart && decide (a.followLimit ≠ 0) && a.fresh then
    if a.followLimit < (sdiff a.s a.f).natAbs then min (a.followCount + 1) 3 else 0
  else a.followCount

/-- The steps R28 to R33 on one axis that follows the line. -/
def Axis.worked (a : Axis) (delta : Int) (engagedAtStart : Bool) : Axis :=
  let b := a.takeStaged
  let q := b.gearedIncrement delta
  let g := b.gear delta
  let c := g.correction
  { g with
    c := c
    followCount := g.followed engagedAtStart
    s := Angle.plus g.g c
    v := clampTo offsetMax (q + (c - g.c))
    state := if g.state = .catching ∧ c = g.goal then .coupled else g.state }

/-- The work of one update on axis `i` short of its telegram step (R27 to R33). -/
def State.workAxis (s : State) (i : Fin 16) (delta : Int) (engagedAtStart : Bool) : State :=
  let a := s.axis i
  if a.state = .free then s
  else
    let b := a.worked delta engagedAtStart
    let s1 := s.setAxis i b
    if a.state = .catching ∧ b.state = .coupled then s1.postAxisState i .catchDone else s1

/-- The follow check of this update brought the count of the axis to 3 (R33): `before` is the record before the work. -/
def followReached (before after : Axis) : Bool := decide (before.followCount < 3 ∧ after.followCount = 3)

/-- The telegram entry of an axis (R34). -/
def Axis.entry (a : Axis) (sub : Fin 4) : SetpointEntry :=
  if a.engaged then { sub := sub, enable := true, setpoint := a.s, feedforward := a.v }
  else { sub := sub, enable := false, setpoint := a.f, feedforward := 0 }

/-- The record's S and v take the setpoint and feedforward handed; an unbound axis hands no entry (R34). -/
def Axis.handed (a : Axis) : Axis :=
  if a.engaged then a else if a.binding.isSome then { a with s := a.f, v := 0 } else a

/-- The all-bound-axes-coupled flag (R47). -/
def State.allCoupled (s : State) : Bool :=
  axisNumbers.all fun i => decide ((s.axis i).binding = none ∨ (s.axis i).state = .coupled)

/-! ## Requests -/

/-- SET_AXIS's range check (R25 check 1). -/
def axisFieldsOk (f : AxisFields) : Bool :=
  decide (f.axis < 16) && (f.binding.all fun b => decide (b.1 < 4 ∧ b.2 < 4)) && decide (1 ≤ f.slew ∧ f.slew ≤ 65535)
    && decide (f.trimLimit ≤ 1048575) && decide (1 ≤ f.catchLimit ∧ f.catchLimit ≤ 8388607) && decide (f.followLimit ≤ 8388607)

/-- The binding a request carries, its numbers in range. -/
def bindingOf (b : Option (Nat × Nat)) : Option (Fin 4 × Fin 4) := b.map fun x => (Fin.ofNat 4 x.1, Fin.ofNat 4 x.2)

/-- SET_AXIS (R25). -/
def workSetAxis (f : AxisFields) (s : State) : State × Answer :=
  if axisFieldsOk f then
    let i : Fin 16 := Fin.ofNat 16 f.axis
    let a := s.axis i
    let binding := bindingOf f.binding
    if binding ≠ a.binding ∧ a.state ≠ .free then refuse s .state
    else if binding.isSome = true ∧ axisNumbers.any (fun j => decide (j ≠ i ∧ (s.axis j).binding = binding)) = true then
      refuse s .conflict
    else
      let b : Axis :=
        { a with
          binding := binding
          slew := f.slew
          trimLimit := f.trimLimit
          catchLimit := f.catchLimit
          followLimit := f.followLimit
          accept := f.accept
          fresh := if binding ≠ a.binding then false else a.fresh
          followCount := if f.followLimit = 0 then 0 else a.followCount }
      taken ((s.setAxis i b).writeTrim i a.t .setAxis)
  else refuse s .range

/-- GEAR_CHANGE's range check (R35). -/
def gearFieldsOk (f : GearFields) : Bool := decide (f.axis < 16 ∧ f.d ≠ 0)

/-- GEAR_CHANGE in mode SMOOTH (R35). -/
def workGearChangeSmooth (f : GearFields) (s : State) : State × Answer :=
  if gearFieldsOk f then
    let i : Fin 16 := Fin.ofNat 16 f.axis
    taken (s.setAxis i { s.axis i with staged := some (f.n, f.d) })
  else refuse s .range

/-- GEAR_CHANGE in mode JUMP (R36). -/
def workGearChangeJump (f : GearFields) (s : State) : State × Answer :=
  if gearFieldsOk f then
    let i : Fin 16 := Fin.ofNat 16 f.axis
    let a := s.axis i
    if a.state = .free then taken (s.setAxis i { a with n := f.n, d := f.d, r := 0, g := f.angle, staged := none })
    else refuse s .state
  else refuse s .range

/-- SET_PHASE (R37). -/
def workSetPhase (f : OffsetFields) (s : State) : State × Answer :=
  if f.axis < 16 ∧ -8388607 ≤ f.value ∧ f.value ≤ 8388607 then
    let i : Fin 16 := Fin.ofNat 16 f.axis
    taken (s.setAxis i { s.axis i with p := f.value })
  else refuse s .range

/-- SET_TRIM (R38). -/
def workSetTrim (f : OffsetFields) (s : State) : State × Answer :=
  if f.axis < 16 then taken (s.writeTrim (Fin.ofNat 16 f.axis) f.value .host) else refuse s .range

/-- COUPLE's check 4 (R42): bound to a port that is UP, F fresh, the angle TRACKING. -/
def State.readyToCouple (s : State) (i : Fin 16) : Bool :=
  match (s.axis i).binding with
  | none => false
  | some b => decide ((s.port b.1).state = .up) && (s.axis i).fresh && decide (s.angle.state = .tracking)

/-- COUPLE (R42). -/
def workCouple (axis : Nat) (s : State) : State × Answer :=
  if axis < 16 then
    let i : Fin 16 := Fin.ofNat 16 axis
    let a := s.axis i
    if a.engaged then refuse s .state
    else if s.trips.effective = .stopFast then refuse s .tripped
    else if s.readyToCouple i = false then refuse s .notReady
    else if a.catchLimit < (sdiff a.f a.g).natAbs then refuse s .range
    else
      taken ((s.setAxis i { a with c := sdiff a.f a.g, followCount := 0, state := .catching }).postAxisState i .request)
  else refuse s .range

/-- RELEASE (R43). -/
def workRelease (axis : Nat) (s : State) : State × Answer :=
  if axis < 16 then
    let i : Fin 16 := Fin.ofNat 16 axis
    let a := s.axis i
    let s1 := s.setAxis i { a with state := .free, staged := none }
    taken (if a.state = .free then s1 else s1.postAxisState i .request)
  else refuse s .range

/-- The reply body of READ_AXIS (R46): the fields of 2.2 in order, then the stray steps counter. The binding of an unbound axis is an
absent optional field (log 32), and port and sub-address share one presence byte (log 41). -/
def encodeAxis (a : Axis) (straySteps : Nat) : List Byte :=
  u8 (AxisState.code a.state) ++ uOpt encodeBinding a.binding ++ i16 a.n ++ u16 a.d ++ u16 a.r ++ u24 a.g.toNat ++ i24 a.p ++ i24 a.t
    ++ i24 a.c ++ u16 a.slew ++ u24 a.trimLimit ++ u24 a.catchLimit ++ u24 a.followLimit ++ u8 a.followCount ++ uFlag a.accept
    ++ uOpt (fun x : Int × Nat => i16 x.1 ++ u16 x.2) a.staged ++ u24 a.f.toNat ++ uFlag a.fresh ++ u24 a.s.toNat ++ i24 a.v
    ++ u16 a.applied ++ u16 a.discarded ++ u16 a.refused ++ u16 straySteps

/-- READ_AXIS (R46). -/
def workReadAxis (axis : Nat) (s : State) : State × Answer :=
  if axis < 16 then answered s (encodeAxis (s.axis (Fin.ofNat 16 axis)) s.straySteps) else refuse s .range

end Sys2Proof.Machine
end

