-- ==== Sys2Proof/Machine/Trips.lean ====
section
/-! DEFINITION. The trip unit (chapter 5): latching and spreading of trips, the remote trip table, the effective class and its
reactions, the head trip, the keepalive window, and its requests. -/

namespace Sys2Proof.Machine

/-! ## Head trip and effective class -/

/-- The candidates of R112 in the order their lists keep, local entries first, each with its priority. -/
def TripUnit.candidates (t : TripUnit) (own : Nat) : List (HeadTrip × Nat) :=
  t.localList.map (fun e => ({ origin := own, source := e.source.val, cls := e.cls }, e.priority))
    ++ t.remote.map (fun e => ({ origin := e.origin, source := e.source, cls := e.cls }, e.priority))

/-- `b` is chosen over the earlier candidate `a`: higher class, or equal class and higher priority (R112). -/
def headBetter (a b : HeadTrip × Nat) : Bool :=
  decide (a.1.cls.code < b.1.cls.code) || (decide (a.1.cls.code = b.1.cls.code) && decide (a.2 < b.2))

/-- The best of a list of candidates, the earliest among equals. -/
def headOf : List (HeadTrip × Nat) → Option (HeadTrip × Nat)
  | [] => none
  | x :: l => some (l.foldl (fun a b => if headBetter a b then b else a) x)

/-- The head trip (R112). -/
def State.headTrip (s : State) : Option HeadTrip := (headOf (s.trips.candidates s.angle.nodeId)).map (·.1)

/-- The highest class among the entries of the remote trip table. -/
def TripUnit.highestRemote (t : TripUnit) : TripClass := t.remote.foldl (fun c e => maxClass c e.cls) .none

/-- The highest worst class of the present held slots. -/
def TripUnit.highestHeld (t : TripUnit) : TripClass := t.held.toList.foldl (fun c x => maxClass c (x.getD .none)) .none

/-- The effective class as R109 forms it. -/
def TripUnit.formed (t : TripUnit) : TripClass :=
  maxClass (maxClass t.worst t.highestRemote) (maxClass (if t.overflow then t.overflowClass else .none) t.highestHeld)

/-- The class asserts IMPRESSION_OFF (R110). -/
def assertsImpressionOff (c : TripClass) : Bool := decide (2 ≤ c.code)

/-! ## Notices (R115) -/

def EntryState.shown : EntryState → TripNoticeState
  | .active => .active
  | .acked => .acked
  | .inactive => .inactive

/-- TRIP for an entry, showing the state given. -/
def State.postTrip (s : State) (e : LocalEntry) (st : TripNoticeState) : State :=
  s.post (.trip e.source st e.cls e.priority e.latchCycle e.latchAngle e.repeats s.trips.effective)

/-- REMOTE_TRIPS. -/
def State.postRemoteTrips (s : State) : State :=
  s.post (.remoteTrips s.trips.remote.length s.trips.overflow s.trips.overflowClass s.trips.highestRemote s.trips.effective s.headTrip)

/-! ## Reactions (R20, R21, R110, R111) -/

/-- The present slot of highest class in a status vector, the lowest node id among equals: its node id and class (R21). -/
def highestSlot (v : Vector StatusSlot 32) : Option (Nat × TripClass) :=
  v.toList.zipIdx.foldl
    (fun best x =>
      if x.1.present then
        match best with
        | none => some (x.2 + 1, x.1.worst)
        | some b => if b.2.code < x.1.worst.code then some (x.2 + 1, x.1.worst) else some b
      else best)
    none

/-- The first-out record a trip reaction writes (R21). -/
def State.firstOutNow (s : State) : FirstOut :=
  let eff := s.trips.effective
  let fromSlot : FirstOut :=
    if s.angle.vector.toList.any (fun x => x.present && decide (x.worst = eff)) then
      match highestSlot s.angle.vector with
      | some b => { origin := some b.1, source := none, cls := b.2, cycle := s.angle.cycleNumber }
      | none => { origin := none, source := none, cls := s.trips.overflowClass, cycle := s.angle.cycleNumber }
    else { origin := none, source := none, cls := s.trips.overflowClass, cycle := s.angle.cycleNumber }
  match s.headTrip with
  | some h =>
    if h.cls = eff then { origin := some h.origin, source := some h.source, cls := h.cls, cycle := s.angle.cycleNumber }
    else fromSlot
  | none => fromSlot

/-- The line is RUNNING or STOPPING. -/
def LineState.moving (l : LineState) : Bool := decide (l = .running ∨ l = .stopping)

/-- The line state a change of the effective class leads to (R20). -/
def lineAfterTrip (l : LineState) (cls : TripClass) : LineState :=
  if cls = .stopFast then .stopped else if cls = .stopRamp ∧ LineState.moving l = true then .tripStop else l

/-- The master's reaction to a change of its effective class (R20, R21). -/
def State.lineReaction (s : State) : State :=
  let cls := s.trips.effective
  let line := lineAfterTrip s.angle.lineState cls
  let m := { s.master with
    nextV := if cls = .stopFast then 0 else s.master.nextV
    firstOut := if line ≠ s.angle.lineState ∧ LineState.moving s.angle.lineState = true then some s.firstOutNow else s.master.firstOut }
  let s1 : State := { s with master := m, angle := { s.angle with lineState := line } }
  if line ≠ s.angle.lineState then s1.postLineState else s1

/-- The effective class is formed again; a change of it posts REMOTE_TRIPS and applies the reactions (R109 to R111). -/
def State.reform (s : State) : State :=
  let cls := s.trips.formed
  if cls = s.trips.effective then s
  else
    let s1 : State := { s with trips := { s.trips with effective := cls, impressionOff := assertsImpressionOff cls } }
    let s2 := s1.postRemoteTrips
    let s3 := if cls = .stopFast then s2.inhibitAll .trip else s2
    if s3.isMaster then s3.lineReaction else s3

/-- The head trip is chosen again and reported to the screen controller (R112). -/
def State.reportHeadTrip (s : State) : State := s.reportHead ((s.headTrip.map (·.cls)).getD .none)

/-- What follows every change of the lists: the effective class, then the head trip. -/
def State.listsChanged (s : State) : State := s.reform.reportHeadTrip

/-! ## The local trip list (5.3) -/

/-- The entry of a source, if it holds one. -/
def State.entryOf (s : State) (i : Fin 24) : Option LocalEntry := s.trips.localList.find? fun e => decide (e.source = i)

/-- The entry of a source takes the state and repeat count given; it keeps its place, class, priority and latch values. -/
def State.setEntry (s : State) (e : LocalEntry) : State :=
  { s with trips := { s.trips with
      localList := s.trips.localList.map fun x =>
        if x.source = e.source then { x with state := e.state, repeats := e.repeats } else x } }

/-- A source latches (R98). -/
def State.latch (s : State) (i : Fin 24) (st : EntryState) : State :=
  let r := s.source i
  let e : LocalEntry :=
    { source := i
      cls := r.cls
      priority := r.priority
      latchCycle := s.angle.cycleNumber
      latchAngle := s.angle.previousAngle
      state := st }
  let s1 : State := { s with trips := { s.trips with localList := s.trips.localList ++ [e] } }
  ((s1.sendTripFrame .trip (u8 i.val ++ u8 r.cls.code ++ u8 r.priority)).postTrip e (EntryState.shown st)).listsChanged

/-- An entry is removed (R102). -/
def State.removeEntry (s : State) (e : LocalEntry) : State :=
  let s1 : State := { s with trips := { s.trips with localList := s.trips.localList.filter fun x => decide (x.source ≠ e.source) } }
  ((s1.sendTripFrame .tripClear (u8 e.source.val ++ u8 e.cls.code)).postTrip e .removed).listsChanged

/-- A repeat (R99): the count rises, saturating at 255; a level or event entry that was INACTIVE becomes ACTIVE. -/
def State.repeatEntry (s : State) (e : LocalEntry) (st : EntryState) : State :=
  let e1 : LocalEntry := { e with repeats := bumpTo 255 e.repeats, state := st }
  (s.setEntry e1).postTrip e1 (EntryState.shown st)

/-- The condition of a level or event source appears (R98, R99). -/
def State.appears (s : State) (i : Fin 24) : State :=
  match s.entryOf i with
  | none => if (s.source i).enable then s.latch i .active else s
  | some e => if e.state = .inactive then s.repeatEntry e .active else s

/-- An edge occurs on an edge source (R98, R99). -/
def State.edgeOccurs (s : State) (i : Fin 24) : State :=
  match s.entryOf i with
  | none => if (s.source i).enable then s.latch i .inactive else s
  | some e => s.repeatEntry e e.state

/-- The condition of a source drops (R100). -/
def State.drops (s : State) (i : Fin 24) : State :=
  match s.entryOf i with
  | none => s
  | some e =>
    match e.state with
    | .active => (s.setEntry { e with state := .inactive }).postTrip { e with state := .inactive } .inactive
    | .acked => s.removeEntry e
    | .inactive => s

/-- The condition of a source as its owner reports it; a change is an appearance or a drop (R95, R98, R100). -/
def State.setCondition (s : State) (i : Fin 24) (present : Bool) : State :=
  let r := s.source i
  if r.condition = present then s
  else
    let s1 := s.setSource i { r with condition := present }
    if present then s1.appears i else s1.drops i

/-- The sources the blocks report, by number (5.1). -/
def portSource (p : Fin 4) : Fin 24 := ⟨12 + p.val, by omega⟩
def angleLostSource : Fin 24 := 16
def keepaliveSource : Fin 24 := 17
def registerLostSource : Fin 24 := 18
def ringWrappedSource : Fin 24 := 19
def nodeLostSource : Fin 24 := 20

/-! ## Pins (R94) -/

/-- A level conditioning makes the condition from the filtered level; an edge conditioning has it absent. -/
def levelCondition (c : Conditioning) (filtered : Bool) : Bool :=
  match c with
  | .levelLow => !filtered
  | .levelHigh => filtered
  | .edgeFall => false
  | .edgeRise => false

/-- A change of the filtered level to `level` is an edge occurrence of the conditioning. -/
def edgeHit (c : Conditioning) (level : Bool) : Bool :=
  match c with
  | .levelLow => false
  | .levelHigh => false
  | .edgeFall => !level
  | .edgeRise => level

/-- The source of a pin. -/
def pinSource (pin : Fin 12) : Fin 24 := ⟨pin.val, by omega⟩

/-- The filtered level of a pin takes a new level: its condition is formed, or its edge occurs. -/
def State.setFiltered (s : State) (pin : Fin 12) (level : Bool) : State :=
  let i := pinSource pin
  let r := s.source i
  if r.filtered = level then s.setSource i { r with run := none }
  else
    let s1 := (s.setSource i { r with filtered := level, run := none }).setCondition i (levelCondition r.conditioning level)
    if edgeHit r.conditioning level then s1.edgeOccurs i else s1

/-- Duration of a filter in ns: units of 10 µs. -/
def filterNs (filter : Nat) : Nat := filter * 10000

/-- The level of a TRP pin changes (R94). -/
def State.pinChanges (s : State) (pin : Fin 12) (level : Bool) : State :=
  let i := pinSource pin
  if pinLevel s.trips.pins pin.val = level then s
  else
    let pins := if level then s.trips.pins ||| BitVec.twoPow 12 pin.val else s.trips.pins &&& ~~~ BitVec.twoPow 12 pin.val
    let s1 : State := { s with trips := { s.trips with pins := pins } }
    let r := s1.source i
    if r.filter = 0 then s1.setFiltered pin level
    else if r.filtered = level then s1.setSource i { r with run := none }
    else s1.setSource i { r with run := some s1.now }

/-! ## The remote trip table (5.5) -/

/-- The table became empty while the overflow flag was set: flag and class are cleared (R106). -/
def State.settleOverflow (s : State) : State :=
  if s.trips.remote.isEmpty && s.trips.overflow then
    ({ s with trips := { s.trips with overflow := false, overflowClass := .none } }).postRemoteTrips.listsChanged
  else s

/-- Room of the remote trip table (R105). -/
def remoteRoom : Nat := 32

/-- The table holds an entry of an origin and source. -/
def RemoteEntry.isFor (origin source : Nat) (e : RemoteEntry) : Bool := decide (e.origin = origin ∧ e.source = source)

/-- An entry written again by a TRIP frame (R105). -/
def RemoteEntry.renew (origin source : Nat) (cls : TripClass) (priority : Nat) (e : RemoteEntry) : RemoteEntry :=
  if e.isFor origin source then { e with cls := cls, priority := priority, lowCount := 0 } else e

/-- The trip unit after a TRIP frame of an origin (R105, R106). -/
def TripUnit.record (t : TripUnit) (origin source : Nat) (cls : TripClass) (priority : Nat) (cycle : Num16) : TripUnit :=
  if t.remote.any (RemoteEntry.isFor origin source) then
    { t with remote := t.remote.map (RemoteEntry.renew origin source cls priority) }
  else if t.remote.length < remoteRoom then
    { t with remote := t.remote ++ [⟨origin, source, cls, priority, cycle, 0⟩] }
  else
    { t with overflow := true, overflowClass := maxClass t.overflowClass cls, remoteOverflows := bump t.remoteOverflows }

/-- A TRIP frame delivered by the ring controller (R105, R106). -/
def State.deliverTrip (s : State) (origin : Nat) (payload : List Byte) : State :=
  let t := s.trips.record origin (byteAt payload 0).toNat (classOf (byteAt payload 1).toNat) (byteAt payload 2).toNat
    s.angle.cycleNumber
  ({ s with trips := t }).postRemoteTrips.listsChanged

/-- A TRIP_CLEAR frame delivered by the ring controller (R107). -/
def State.deliverTripClear (s : State) (origin : Nat) (payload : List Byte) : State :=
  let source := (byteAt payload 0).toNat
  let t := s.trips
  if t.remote.any (RemoteEntry.isFor origin source) then
    ({ s with trips := { t with remote := t.remote.filter fun e => !e.isFor origin source } }).postRemoteTrips.listsChanged.settleOverflow
  else { s with trips := { t with unmatchedClears := bump t.unmatchedClears } }

/-- The slot of a node id in a status vector; an id outside 1..32 has none, read as absent. -/
def slotOf (v : Vector StatusSlot 32) (id : Nat) : StatusSlot := if h : id - 1 < 32 then v[id - 1] else {}

/-- A remote entry judged by its origin's slot in a new vector (R108). -/
def RemoteEntry.judged (e : RemoteEntry) (v : Vector StatusSlot 32) : RemoteEntry :=
  let x := slotOf v e.origin
  { e with lowCount := if x.present && decide (x.worst.code < e.cls.code) then e.lowCount + 1 else 0 }

/-- The held vector classes of a new vector, the node's own slot not kept (R108). -/
def heldOf (v : Vector StatusSlot 32) (own : Nat) : Vector (Option TripClass) 32 :=
  Vector.ofFn fun i => if i.val + 1 = own then none else if v[i].present then some v[i].worst else none

/-- The entries judged by a new vector, those whose low count reached 2 left out (R108). -/
def keptEntries (remote : List RemoteEntry) (v : Vector StatusSlot 32) : List RemoteEntry :=
  (remote.map fun e => e.judged v).filter fun e => decide (e.lowCount < 2)

/-- The remote trip table is pruned; `kept` are the entries that stay, judged (R108). -/
def State.keepRemote (s : State) (kept : List RemoteEntry) : State :=
  if kept.length = s.trips.remote.length then { s with trips := { s.trips with remote := kept } }
  else
    ({ s with trips := { s.trips with
        remote := kept
        pruned := bumpBy s.trips.pruned (s.trips.remote.length - kept.length) } }).postRemoteTrips.listsChanged.settleOverflow

/-- A status vector's present slots are kept (R108). -/
def State.holdVector (s : State) (v : Vector StatusSlot 32) : State :=
  { s with trips := { s.trips with held := heldOf v s.angle.nodeId } }

/-- A status vector reaches the trip unit (R108). -/
def State.takeVector (s : State) (v : Vector StatusSlot 32) : State :=
  (s.holdVector v).reform.keepRemote (keptEntries s.trips.remote v)

/-! ## The keepalive window (5.7) -/

/-- Time since the window was opened, ns. -/
def State.windowAge (s : State) : Nat := s.now - s.trips.openedAt.getD s.now

/-- The window opens now. -/
def State.openWindow (s : State) : State := { s with trips := { s.trips with window := .opened, openedAt := some s.now } }

/-- The condition of source 17 becomes present; a change raises the keepalive faults counter (R114). -/
def State.keepaliveFault (s : State) : State :=
  if (s.source keepaliveSource).condition then s
  else ({ s with trips := { s.trips with keepaliveFaults := bump s.trips.keepaliveFaults } }).setCondition keepaliveSource true

/-- KEEPALIVE (R114). -/
def workKeepalive (s : State) : State × Answer :=
  match s.trips.window with
  | .off => taken s
  | .opened =>
    if s.windowAge < s.trips.minimum * 1000000 then taken s.openWindow.keepaliveFault
    else taken (s.openWindow.setCondition keepaliveSource false)
  | .expired => taken (s.openWindow.setCondition keepaliveSource false)

/-- SET_KEEPALIVE (R113). -/
def workSetKeepalive (f : KeepaliveLimits) (s : State) : State × Answer :=
  if f.maximum = 0 then
    taken (({ s with trips := { s.trips with window := .off } }).setCondition keepaliveSource false)
  else if f.maximum ≤ f.minimum ∨ 65535 < f.minimum ∨ 65535 < f.maximum then refuse s .range
  else taken ({ s with trips := { s.trips with minimum := f.minimum, maximum := f.maximum } }).openWindow

/-- The window has been OPEN for its maximum (R114). -/
def State.windowExpires (s : State) : State :=
  ({ s with trips := { s.trips with window := .expired } }).keepaliveFault

/-! ## Requests -/

/-- SET_TRIP_SOURCE's range check (R96 check 1). -/
def sourceFieldsOk (f : SourceFields) : Bool :=
  decide (f.source < 24) && decide (f.cls ≠ .none) && decide (f.priority ≤ 3) && decide (f.filter ≤ 255)

/-- A source that latches when enabled while its condition is present: every source but 16 and the edge sources (R96). -/
def levelSource (i : Fin 24) (c : Conditioning) : Bool :=
  decide (i ≠ angleLostSource) && (decide (12 ≤ i.val) || decide (c = .levelLow) || decide (c = .levelHigh))

/-- A filter run that has lasted the new time ends at once (R94): the new filtered level, if it does. -/
def State.runEnds (s : State) (i : Fin 24) (filter : Nat) : Bool :=
  match (s.source i).run with
  | none => false
  | some t0 => decide (t0 + filterNs filter ≤ s.now)

/-- A taken SET_TRIP_SOURCE (R96). Of what it does at once R94 to R96 give no order: the model forms the condition of a pin from its
old filtered level, then ends a run that is over under the new filter, then lets the enable latch (log 38). -/
def State.applySource (s : State) (i : Fin 24) (f : SourceFields) : State :=
  let r := s.source i
  let s1 := s.setSource i
    { r with enable := f.enable, cls := f.cls, priority := f.priority, conditioning := f.conditioning, filter := f.filter }
  let s2 :=
    if h : i.val < 12 then
      let pin : Fin 12 := ⟨i.val, h⟩
      let s1a := s1.setCondition i (levelCondition f.conditioning r.filtered)
      if s.runEnds i f.filter then s1a.setFiltered pin (!r.filtered) else s1a
    else s1
  if f.enable && !r.enable && levelSource i f.conditioning && (s2.source i).condition && (s2.entryOf i).isNone then s2.latch i .active
  else s2

/-- SET_TRIP_SOURCE (R96). -/
def workSetTripSource (f : SourceFields) (s : State) : State × Answer :=
  if sourceFieldsOk f then
    let i : Fin 24 := Fin.ofNat 24 f.source
    if f.enable = false ∧ (s.entryOf i).isSome = true then refuse s .state else taken (s.applySource i f)
  else refuse s .range

/-- One source is acknowledged (R101). -/
def State.ackSource (s : State) (i : Fin 24) : State :=
  match s.entryOf i with
  | none => s
  | some e =>
    match e.state with
    | .inactive => s.removeEntry e
    | .active => (s.setEntry { e with state := .acked }).postTrip { e with state := .acked } .acked
    | .acked => s

/-- ACK_TRIP (R101); none is ALL. Several entries are taken in the order named, or in the order of the list for ALL: the model's choice
(log 45). -/
def workAckTrip (sources : Option (List Nat)) (s : State) : State × Answer :=
  match sources with
  | none => taken ((s.trips.localList.map (·.source)).foldl State.ackSource s)
  | some l =>
    if l.isEmpty ∨ 24 < l.length ∨ l.any (fun n => decide (23 < n)) = true then refuse s .range
    else taken ((l.map (Fin.ofNat 24)).foldl State.ackSource s)

/-- RAISE_TRIP (R97). -/
def workRaiseTrip (number : Nat) (set : Bool) (s : State) : State × Answer :=
  if number ≤ 2 then taken (s.setCondition (Fin.ofNat 24 (21 + number)) set) else refuse s .range

/-- One source record as READ_TRIPS returns it. -/
def encodeSource (r : TripSource) : List Byte :=
  uFlag r.enable ++ u8 r.cls.code ++ u8 r.priority ++ u8 (Conditioning.code r.conditioning) ++ u8 r.filter
    ++ u8 (if r.filtered then 1 else 0) ++ uFlag r.condition

def encodeLocalEntry (e : LocalEntry) : List Byte :=
  u8 e.source.val ++ u8 e.cls.code ++ u8 e.priority ++ u16 e.latchCycle.toNat ++ u24 e.latchAngle.toNat ++ u8 e.repeats
    ++ u8 (EntryState.code e.state)

def encodeRemoteEntry (e : RemoteEntry) : List Byte :=
  u8 e.origin ++ u8 e.source ++ u8 e.cls.code ++ u8 e.priority ++ u16 e.cycle.toNat ++ u8 e.lowCount

/-- Time since the window opened in ms, saturating at 65,535; 0 while it is OFF (R116). Whole ms are counted, rounded down (log 34). -/
def State.windowAgeMs (s : State) : Nat := if s.trips.window = .off then 0 else sat16 (s.windowAge / 1000000)

/-- The reply body of READ_TRIPS (R116). A held vector class that is absent is an absent optional field (log 52). -/
def State.encodeTrips (s : State) : List Byte :=
  let t := s.trips
  t.sources.toList.flatMap encodeSource ++ uList encodeLocalEntry t.localList ++ uList encodeRemoteEntry t.remote ++ uFlag t.overflow
    ++ u8 t.overflowClass.code ++ t.held.toList.flatMap (uOpt fun c : TripClass => u8 c.code) ++ u8 t.effective.code
    ++ uOpt encodeHead s.headTrip ++ uFlag t.impressionOff ++ u8 t.worst.code ++ uFlag t.axesCoupled ++ uFlag t.marksLocked
    ++ u8 (WindowState.code t.window) ++ u16 t.minimum ++ u16 t.maximum ++ u16 s.windowAgeMs ++ u16 t.remoteOverflows
    ++ u16 t.unmatchedClears ++ u16 t.pruned ++ u16 t.keepaliveFaults

/-- READ_TRIPS (R116). -/
def workReadTrips (s : State) : State × Answer := answered s s.encodeTrips

end Sys2Proof.Machine
end

