-- ==== Sys2Proof/Machine/Ports.lean ====
section
/-! DEFINITION. Drive ports (chapter 3): characters, the receive queue, the drain of an update and what follows from it, the SETPOINT
and SERVICE telegrams, and the requests of the ports. -/

namespace Sys2Proof.Machine

/-! ## Bit rate and feasibility (R49, R53) -/

/-- Duration of a character at divider `n`, ns (R49). -/
def characterTime (n : Nat) : Nat := 400 * (n + 1)

/-- Bit rate at divider `n`, bit/s, rounded down (R49). -/
def bitRate (n : Nat) : Nat := 100000000 / (4 * (n + 1))

/-- A divider is feasible for an update interval (R53). -/
def feasible (n tu : Nat) : Bool := decide (560 * 40 * (n + 1) + 4000 ≤ tu)

/-- A divider is feasible for the node's T_c and, at the master, for a pending T_c too (R53). -/
def State.dividerFits (s : State) (n : Nat) : Bool :=
  feasible n (updateInterval s.angle.period s.angle.k)
    && (!s.isMaster || s.master.pendingPeriod.all fun p => feasible n (updateInterval p s.angle.k))

/-! ## Notices (R63, R64, R65) -/

def State.postPortState (s : State) (p : Fin 4) : State :=
  let r := s.port p
  s.post (.portState p r.state r.reason r.place r.missCount)

def State.postServiceReply (s : State) (p : Fin 4) (st : ServiceStatus) (reply : Option (Fin 4 × List Byte)) : State :=
  s.post (.serviceReply p st reply)

/-! ## Receiving (R50, R55) -/

/-- Room of a receive queue. -/
def receiveRoom : Nat := 2

/-- A closed telegram joins the queue, or is an overrun or a discard (R55). -/
def DrivePort.takeTelegram (p : DrivePort) (t : RxTelegram) : DrivePort :=
  if p.stopped then { p with counters := { p.counters with discarded := bump p.counters.discarded } }
  else if p.queue.length < receiveRoom then { p with queue := p.queue ++ [t] }
  else { p with stopped := true, counters := { p.counters with overruns := bump p.counters.overruns } }

/-! ## The drain (R56, R57, R65) -/

def PortCounters.countMark (c : PortCounters) : RxMark → PortCounters
  | .framing => { c with framingErrors := bump c.framingErrors }
  | .length => { c with lengthErrors := bump c.lengthErrors }
  | .crc => { c with crcErrors := bump c.crcErrors }
  | .good => c

/-- The entries of a good FEEDBACK whose sub-addresses are the sent list (R56). -/
def DrivePort.usable (p : DrivePort) (t : RxTelegram) : Option (List FeedbackEntry) :=
  let es := decodeFeedback t.bytes
  if t.mark = .good ∧ t.kind = .feedback ∧ es.map (·.sub) = p.sentList then some es else none

/-- The newest usable feedback of a queue, in arrival order. -/
def DrivePort.newestUsable (p : DrivePort) : Option (List FeedbackEntry) :=
  p.queue.foldl (fun found t => (p.usable t).or found) none

/-- A good SERVICE_REPLY at a drain: it ends a SENT telegram of its sub-address, or is a stray (R65). The second result is the
reply that ended the telegram. -/
def DrivePort.takeReply (p : DrivePort) (sub : Fin 4) (payload : List Byte) : DrivePort × Option (Fin 4 × List Byte) :=
  if p.slot = .sent ∧ p.service.map (·.1) = some sub then
    ({ p with slot := .empty, service := none }, some (sub, payload))
  else ({ p with counters := { p.counters with strayReplies := bump p.counters.strayReplies } }, none)

/-- One entry leaves the queue at a drain (R56). -/
def DrivePort.dealWith (p : DrivePort) (t : RxTelegram) : DrivePort × Option (Fin 4 × List Byte) :=
  match t.mark with
  | .good =>
    match t.kind with
    | .feedback =>
      if (p.usable t).isSome then (p, none)
      else ({ p with counters := { p.counters with mismatched := bump p.counters.mismatched } }, none)
    | .serviceReply => p.takeReply (decodeServiceReply t.bytes).1 (decodeServiceReply t.bytes).2
  | mark => ({ p with counters := p.counters.countMark mark }, none)

/-- Every entry is dealt with in arrival order; the reply that ended the service telegram, if one did. -/
def DrivePort.dealWithAll (p : DrivePort) : List RxTelegram → DrivePort × Option (Fin 4 × List Byte)
  | [] => (p, none)
  | t :: ts =>
    let x := p.dealWith t
    let y := x.1.dealWithAll ts
    (y.1, x.2.or y.2)

/-- The drive reports take what a usable feedback says (R56). -/
def takeReports (reports : Vector DriveReport 4) (es : List FeedbackEntry) : Vector DriveReport 4 :=
  es.foldl (fun v e => v.set e.sub { fault := e.fault, enabled := e.enabled, code := e.code }) reports

/-- Miss count, counters and reports after a drain (R56). -/
def DrivePort.countDrain (p : DrivePort) : Option (List FeedbackEntry) → DrivePort
  | some es =>
    { p with
      missCount := 0
      reports := takeReports p.reports es
      counters := { p.counters with goodFeedbacks := bump p.counters.goodFeedbacks } }
  | none =>
    { p with missCount := bumpTo 255 p.missCount, counters := { p.counters with misses := bump p.counters.misses } }

/-- The service age after a drain that brought no reply to a telegram SENT before it; at 2 the telegram ends (R65). -/
def DrivePort.ageService (p : DrivePort) (sentBefore : Bool) (replied : Bool) : DrivePort × Bool :=
  if sentBefore && !replied then
    if 2 ≤ p.serviceAge + 1 then ({ p with slot := .empty, service := none, serviceAge := 2 }, true)
    else ({ p with serviceAge := p.serviceAge + 1 }, false)
  else (p, false)

/-- A bound axis receives the result of the drain (R26): the position of its sub-address, fresh, or fresh cleared. -/
def Axis.deliver (a : Axis) (sub : Fin 4) (es : List FeedbackEntry) : Axis :=
  match es.find? fun e => decide (e.sub = sub) with
  | some e => { a with f := e.position, fresh := true }
  | none => { a with fresh := false }

/-- The axes bound to a port receive the result of its drain. -/
def State.deliverFeedback (s : State) (p : Fin 4) (es : List FeedbackEntry) : State :=
  (s.boundAxes p).foldl (fun s x => s.setAxis x.2 ((s.axis x.2).deliver x.1 es)) s

/-- A port enters FAULT (R59, R60): link count 0, the notice, its bound axes inhibited, its trip condition present (R62). That the bound
axes are inhibited with cause PORT before the trip source can inhibit every axis with cause TRIP is the model's order (log 47). -/
def State.portFaults (s : State) (p : Fin 4) (reason : FaultReason) (place : Option (Fin 4 × Option (Fin 16))) : State :=
  ((((s.setPort p { s.port p with state := .fault, reason := reason, place := place, linkCount := 0 }).postPortState p).inhibitPort
    p).setCondition (portSource p) true)

/-- The lowest sub-address whose entry carries the drive fault flag (R59); the entries are in rising order. -/
def faultedSub (es : List FeedbackEntry) : Option (Fin 4) := (es.find? (·.fault)).map (·.sub)

/-- What a drain does to the port state (R58, R59). -/
def State.afterDrain (s : State) (p : Fin 4) (found : Option (List FeedbackEntry)) : State :=
  let r := s.port p
  let faulted := found.bind faultedSub
  match r.state with
  | .off => s
  | .fault => s
  | .linking =>
    if found.isSome ∧ faulted = none then
      if 3 ≤ r.linkCount + 1 then (s.setPort p { r with state := .up, linkCount := 3 }).postPortState p
      else s.setPort p { r with linkCount := r.linkCount + 1 }
    else s.setPort p { r with linkCount := 0 }
  | .up =>
    match faulted with
    | some sub => s.portFaults p .drive (some (sub, s.boundAxis p sub))
    | none => if found = none ∧ r.missLimit ≤ r.missCount then s.portFaults p .miss none else s

/-- The drain of one port at an update (R56). A port in OFF has none; the axes bound to it have fresh cleared (R26). -/
def State.drain (s : State) (p : Fin 4) : State :=
  let r := s.port p
  if r.state = .off then s.deliverFeedback p []
  else
    let found := r.newestUsable
    let x := r.dealWithAll r.queue
    let aged := (({ x.1 with queue := [], stopped := false }).countDrain found).ageService (decide (r.slot = ServiceSlot.sent)) x.2.isSome
    let s1 := s.setPort p aged.1
    let s2 :=
      match x.2 with
      | some reply => s1.postServiceReply p .ok (some reply)
      | none => s1
    let s3 := if aged.2 then s2.postServiceReply p .timeout none else s2
    (s3.deliverFeedback p (found.getD [])).afterDrain p found

/-! ## SETPOINT and SERVICE (R54, R64) -/

/-- Every entry with enable = 0, as a port in LINKING or FAULT sends it (R54). -/
def disabled (es : List SetpointEntry) : List SetpointEntry := es.map fun e => { e with enable := false }

/-- The SETPOINT of a port in its state. -/
def DrivePort.setpoint (p : DrivePort) (es : List SetpointEntry) : List SetpointEntry :=
  if p.state = .up then es else disabled es

/-- A SETPOINT goes onto the line (R54). -/
def DrivePort.sendSetpoint (p : DrivePort) (es : List SetpointEntry) : DrivePort :=
  { p with
    transmitter := p.transmitter ++ [encodeSetpoint es]
    sentList := es.map (·.sub)
    waitingSetpoint := none
    counters := { p.counters with sent := bump p.counters.sent } }

/-- The SETPOINT waits for the transmitter (R54). -/
def DrivePort.holdSetpoint (p : DrivePort) (es : List SetpointEntry) : DrivePort :=
  { p with
    waitingSetpoint := some es
    counters := { p.counters with
      lateSends := bump p.counters.lateSends
      setpointsDropped :=
        if p.waitingSetpoint.isSome then bump p.counters.setpointsDropped else p.counters.setpointsDropped } }

/-- The whole exchange of an update with a service payload fits the interval (R64). -/
def serviceFits (divider entries payload tu : Nat) : Bool :=
  decide (characterTime divider * ((2 + 7 * entries + 2) + (4 + payload) + (2 + 5 * entries + 2) + 36) + 4000 ≤ tu)

/-- The service step after a SETPOINT of `entries` entries; `atOnce` says that it was sent at once (R64). The Bool says that the
telegram was discarded for want of room. -/
def DrivePort.serviceStep (p : DrivePort) (atOnce : Bool) (entries tu : Nat) : DrivePort × Bool :=
  match p.slot, p.service with
  | .waiting, some x =>
    if atOnce && serviceFits p.divider entries x.2.length tu then
      ({ p with
          transmitter := p.transmitter ++ [encodeService x.1 x.2]
          slot := .sent
          serviceAge := 0
          counters := { p.counters with sent := bump p.counters.sent } }, false)
    else if 8 ≤ p.serviceWait + 1 then ({ p with slot := .empty, service := none, serviceWait := 8 }, true)
    else ({ p with serviceWait := p.serviceWait + 1 }, false)
  | _, _ => (p, false)

/-- The telegram step of one port: the entries of its axes, its SETPOINT, its service telegram (R34, R54, R64). -/
def State.sendPort (s : State) (p : Fin 4) (tu : Nat) : State :=
  let bound := s.boundAxes p
  let entries := bound.map fun x => (s.axis x.2).entry x.1
  let r := s.port p
  if r.state = .off then s
  else
    let es := r.setpoint entries
    let atOnce := r.transmitter.isEmpty
    let r1 := if atOnce then r.sendSetpoint es else r.holdSetpoint es
    let x := r1.serviceStep atOnce es.length tu
    let s1 := s.setPort p x.1
    if x.2 then s1.postServiceReply p .noRoom none else s1

/-- A telegram has left the transmitter; when the line frees, a waiting SETPOINT is sent (R54). -/
def DrivePort.transmitterEnd (p : DrivePort) : DrivePort :=
  let q : DrivePort := { p with transmitter := p.transmitter.tail }
  match q.transmitter, q.waitingSetpoint with
  | [], some es => if p.transmitter.isEmpty then q else q.sendSetpoint es
  | _, _ => q

/-- A FOLLOW report reaches the port of an axis (R60). -/
def State.follow (s : State) (p sub : Fin 4) (i : Fin 16) : State :=
  if (s.port p).state = .up then s.portFaults p .follow (some (sub, some i)) else s

/-! ## Requests -/

/-- The range check of SET_PORT (R51 check 1). -/
def portFieldsOk (f : PortFields) : Bool :=
  decide (f.port < 4) && decide (f.divider ≤ 255) && decide (1 ≤ f.missLimit ∧ f.missLimit ≤ 15)

/-- SET_PORT with enable (R51). -/
def workSetPortEnable (f : PortFields) (s : State) : State × Answer :=
  if portFieldsOk f then
    let p : Fin 4 := Fin.ofNat 4 f.port
    let r := s.port p
    if r.state ≠ .off then
      if f.divider ≠ r.divider then refuse s .state else taken (s.setPort p { r with missLimit := f.missLimit })
    else if s.dividerFits f.divider = false then refuse s .range
    else
      taken ((s.setPort p { r with
        state := .linking
        divider := f.divider
        missLimit := f.missLimit
        missCount := 0
        linkCount := 0
        sentList := [] }).postPortState p)
  else refuse s .range

/-- A port record as entering OFF leaves it (R52). -/
def DrivePort.off (p : DrivePort) : DrivePort :=
  { p with
    state := .off
    transmitter := []
    waitingSetpoint := none
    queue := []
    stopped := false
    missCount := 0
    linkCount := 0
    serviceWait := 0
    serviceAge := 0
    sentList := []
    reason := .none
    place := none
    slot := .empty
    service := none }

/-- A port enters OFF from another state (R52). -/
def State.portOff (s : State) (p : Fin 4) : State :=
  let r := s.port p
  let s1 := s.setPort p r.off
  let s2 := if r.slot = .empty then s1 else s1.postServiceReply p .aborted none
  let s3 := s2.postPortState p
  match r.state with
  | .up => s3.inhibitPort p
  | .fault => s3.setCondition (portSource p) false
  | .linking => s3
  | .off => s3

/-- SET_PORT with disable (R52). -/
def workSetPortDisable (f : PortFields) (s : State) : State × Answer :=
  if portFieldsOk f then
    let p : Fin 4 := Fin.ofNat 4 f.port
    let s1 := s.setPort p { s.port p with divider := f.divider, missLimit := f.missLimit }
    taken (if (s.port p).state = .off then s1 else s1.portOff p)
  else refuse s .range

/-- RESET_PORT (R61). -/
def workResetPort (port : Nat) (s : State) : State × Answer :=
  if port < 4 then
    let p : Fin 4 := Fin.ofNat 4 port
    let r := s.port p
    if r.state = .fault then
      taken (((s.setPort p { r with
        state := .linking
        reason := .none
        place := none
        missCount := 0
        linkCount := 0
        queue := []
        stopped := false }).postPortState p).setCondition (portSource p) false)
    else refuse s .state
  else refuse s .range

/-- PORT_SERVICE (R64). -/
def workPortService (f : ServiceFields) (s : State) : State × Answer :=
  if f.port < 4 ∧ f.sub < 4 ∧ 1 ≤ f.payload.length ∧ f.payload.length ≤ 32 then
    let p : Fin 4 := Fin.ofNat 4 f.port
    let r := s.port p
    if r.state = .off then refuse s .state
    else if r.slot ≠ .empty then refuse s .busy
    else
      taken (s.setPort p { r with slot := .waiting, service := some (Fin.ofNat 4 f.sub, f.payload), serviceWait := 0 })
  else refuse s .range

def encodeReport (r : DriveReport) : List Byte := uFlag r.fault ++ uFlag r.enabled ++ [r.code]

def encodePortCounters (c : PortCounters) : List Byte :=
  u16 c.sent ++ u16 c.goodFeedbacks ++ u16 c.crcErrors ++ u16 c.framingErrors ++ u16 c.lengthErrors ++ u16 c.mismatched
    ++ u16 c.overruns ++ u16 c.discarded ++ u16 c.misses ++ u16 c.lateSends ++ u16 c.setpointsDropped ++ u16 c.strayReplies

/-- The reply body of READ_PORT: the items of R66 in order, then the bound axes with their sub-addresses. The service slot's sub-address
as an optional field, absent while the slot is EMPTY, and the rising order of the bound axes are the model's choices (log 33). -/
def State.encodePort (s : State) (p : Fin 4) : List Byte :=
  let r := s.port p
  u8 (PortState.code r.state) ++ u8 r.divider ++ u32 (bitRate r.divider) ++ u8 r.missLimit ++ u8 r.missCount ++ u8 r.linkCount
    ++ u8 (FaultReason.code r.reason) ++ uOpt encodePlace r.place ++ u8 r.queue.length ++ uFlag r.stopped
    ++ uList (fun x : Fin 4 => u8 x.val) r.sentList ++ u8 (ServiceSlot.code r.slot)
    ++ uOpt (fun x : Fin 4 × List Byte => u8 x.1.val) r.service ++ u8 r.serviceWait ++ u8 r.serviceAge
    ++ r.reports.toList.flatMap encodeReport ++ encodePortCounters r.counters
    ++ uList (fun x : Fin 4 × Fin 16 => u8 x.2.val ++ u8 x.1.val) (s.boundAxes p)

/-- READ_PORT (R66). -/
def workReadPort (port : Nat) (s : State) : State × Answer :=
  if port < 4 then answered s (s.encodePort (Fin.ofNat 4 port)) else refuse s .range

end Sys2Proof.Machine
end

