-- ==== Sys2Proof/Machine/Line.lean ====
section
/-! DEFINITION. The requests of the angle unit and the line master (chapter 1): SET_CYCLE, SET_RAMP, SET_SPEED, START, STOP, READ_LINE. -/

namespace Sys2Proof.Machine

/-! ## SET_CYCLE (R4) -/

/-- Check 1 of R4. -/
def cycleFieldsOk (f : CycleFieldsReq) : Bool :=
  decide (f.k = 1 ∨ f.k = 2 ∨ f.k = 4 ∨ f.k = 8) && decide (1000 ≤ f.lAlign ∧ f.lAlign ≤ 500000)
    && decide (1 ≤ f.coastLimit ∧ f.coastLimit ≤ 8) && decide (1 ≤ f.stepTolerance ∧ f.stepTolerance ≤ 1048575)

/-- The divider of every port not in OFF is feasible for an update interval (check 5 of R4). -/
def State.portsFit (s : State) (tu : Nat) : Bool :=
  portNumbers.all fun p => decide ((s.port p).state = .off) || feasible (s.port p).divider tu

/-- Check 5 of R4: with KEEP at the master a pending T_c is checked too (R53, log 21). -/
def State.cycleFits (s : State) (f : CycleFieldsReq) : Bool :=
  s.portsFit (updateInterval (f.period.getD s.angle.period) f.k)
    && (decide (f.period.isSome) || s.master.pendingPeriod.all fun p => s.portsFit (updateInterval p f.k))

/-- The values a taken SET_CYCLE stores (R4). -/
def State.applyCycle (s : State) (f : CycleFieldsReq) : State :=
  { s with
    angle := { s.angle with k := f.k, lAlign := f.lAlign, coastLimit := f.coastLimit, stepTolerance := f.stepTolerance }
    master := { s.master with pendingPeriod := f.period.or s.master.pendingPeriod } }

/-- SET_CYCLE (R4). -/
def workSetCycle (f : CycleFieldsReq) (s : State) : State × Answer :=
  if cycleFieldsOk f = false then refuse s .range
  else if f.period.isSome = true ∧ s.isMaster = false then refuse s .notMaster
  else if f.period.isSome = true ∧ s.angle.lineState ≠ .stopped then refuse s .state
  else if (f.period.getD s.angle.period).ns < f.lAlign then refuse s .range
  else if s.cycleFits f = false then refuse s .range
  else taken (s.applyCycle f)

/-! ## Speed and ramp (R17) -/

/-- SET_SPEED (R17). -/
def workSetSpeed (target : Nat) (s : State) : State × Answer :=
  if s.isMaster then taken { s with master := { s.master with speedTarget := min target s.master.vMax } }
  else refuse s .notMaster

/-- SET_RAMP's range check (R17). -/
def rampFieldsOk (f : RampFields) : Bool :=
  decide (1 ≤ f.vMax ∧ f.vMax ≤ 4194303) && decide (1 ≤ f.aUp ∧ f.aUp ≤ 65535) && decide (1 ≤ f.aDown ∧ f.aDown ≤ 65535)
    && decide (1 ≤ f.aTrip ∧ f.aTrip ≤ 65535)

/-- SET_RAMP (R17). -/
def workSetRamp (f : RampFields) (s : State) : State × Answer :=
  if s.isMaster = false then refuse s .notMaster
  else if rampFieldsOk f = false then refuse s .range
  else
    taken { s with master := { s.master with
      vMax := f.vMax
      aUp := f.aUp
      aDown := f.aDown
      aTrip := f.aTrip
      speedTarget := min s.master.speedTarget f.vMax } }

/-! ## START and STOP (R18, R19) -/

/-- The line takes a new state, with LINE_STATE. -/
def State.setLine (s : State) (l : LineState) : State := ({ s with angle := { s.angle with lineState := l } }).postLineState

/-- START (R18). -/
def workStart (s : State) : State × Answer :=
  if s.isMaster = false then refuse s .notMaster
  else if s.angle.lineState = .tripStop ∨ 3 ≤ s.trips.effective.code then refuse s .tripped
  else if s.angle.lineState = .running then refuse s .state
  else taken (({ s with master := { s.master with firstOut := none } }).setLine .running)

/-- STOP (R19). -/
def workStop (s : State) : State × Answer :=
  if s.isMaster = false then refuse s .notMaster
  else if s.angle.lineState = .running then taken (s.setLine .stopping)
  else taken s

/-! ## READ_LINE (R22) -/

/-- Every field of a status slot; the pass mark is the number c mod 2 (R83, 10.2). -/
def encodeSlotFields (x : StatusSlot) : List Byte :=
  uFlag x.present ++ u8 (if x.passMark then 1 else 0) ++ u8 x.worst.code ++ u8 (RingMode.code x.ringMode) ++ uFlag x.axesCoupled ++ uFlag x.marksLocked

/-- The first-out record (R21); an origin or a source recorded as none is an absent optional field (log 52). -/
def encodeFirstOut (f : FirstOut) : List Byte := uOpt u8 f.origin ++ uOpt u8 f.source ++ u8 f.cls.code ++ u16 f.cycle.toNat

/-- The fields of every node, in the order of R22. A master origin of none has no coding in R22: the model sends it as an absent optional field,
one byte 0, and an origin behind a byte 1 (log 52). -/
def encodeAngleRecord (a : AngleRecord) : List Byte :=
  u8 (Role.code a.role) ++ u8 a.nodeId ++ u8 (AngleState.code a.state) ++ uOpt u8 a.masterOrigin ++ u16 a.cycleNumber.toNat
    ++ u24 a.aM.toNat ++ u24 a.v ++ u16 a.frameRevolution.toNat ++ u8 (LineState.code a.lineState) ++ u8 (Period.code a.period) ++ u8 a.k
    ++ u24 a.lAlign ++ u8 a.coastLimit ++ u24 a.stepTolerance ++ u8 a.coastCount ++ u16 a.frameDelay ++ u24 a.previousAngle.toNat
    ++ u16 a.updateRevolution.toNat ++ a.vector.toList.flatMap encodeSlotFields ++ u16 a.coasts ++ u16 a.angleLosses

/-- The master's fields, in the order of R22. -/
def encodeMaster (m : MasterRecord) : List Byte :=
  u24 m.speedTarget ++ u24 m.vMax ++ u16 m.aUp ++ u16 m.aDown ++ u16 m.aTrip ++ u24 m.nextV ++ u8 m.returnMisses ++ uFlag m.returnLoss
    ++ u16 m.ringDelay ++ uOpt encodeFirstOut m.firstOut

/-- At a member the master's fields read as 0, with the first-out record empty (R22): every byte of them is 0. -/
def memberMaster : List Byte := List.replicate 20 0

/-- READ_LINE (R22). -/
def workReadLine (s : State) : State × Answer :=
  answered s (encodeAngleRecord s.angle ++ (if s.isMaster then encodeMaster s.master else memberMaster))

end Sys2Proof.Machine
end

