-- ==== Sys2Proof/Machine/Store.lean ====
section
/-! DEFINITION. The image store (chapter 6): the writing of lines into maps, capture, streaming, remote lines, and its requests. -/

namespace Sys2Proof.Machine

/-! ## Geometry (R126) -/

/-- L, the lines of a revolution (6.1). -/
def linesPerRevolution (pitch : Nat) : Nat := 16777216 / pitch

/-- ceil(a / b). -/
def ceilDiv (a b : Nat) : Nat := (a + b - 1) / b

/-- Map 0's slot count, ceil(L / d). -/
def captureSlots (pitch decimation : Nat) : Nat := ceilDiv (linesPerRevolution pitch) decimation

/-- The capture geometry check (R126). -/
def captureFits (width pitch decimation hStep stride dest : Nat) : Bool :=
  decide (width / hStep ≤ 512) && decide (width / hStep ≤ stride) && decide (captureSlots pitch decimation ≤ 2048)
    && decide (ceilDiv (captureSlots pitch decimation * stride) 2048 ≤ 64) && (decide (dest = 0) || decide (width / hStep ≤ 504))

/-! ## Directories -/

/-- The slots chosen by `p` are cleared to not present; stamps and write numbers stay (R118, R124, R125, R126). -/
def ImageMap.hide (m : ImageMap) (p : Nat → Bool) : ImageMap :=
  { m with
    directory := (m.directory.map fun x => if p x.1 then (x.1, { x.2 with present := false }) else x).filter
      fun x => decide (x.2 ≠ {}) }

/-- MAP_STATE (R133). -/
def State.postMapState (s : State) (i : Fin 4) : State := s.post (.mapState i (s.map i).state (s.map i).fault)

/-! ## Writing a line (R127) -/

/-- A line written into map 0 is handed to the ring as an IMAGE_LINE frame (R129). -/
def State.stream (s : State) (w : LineWrite) : State :=
  if s.store.streamDest = 0 then s
  else
    let x := s.originate .imageLine s.store.streamDest
      (u16 w.revolution.toNat ++ u16 w.slot ++ u16 (s.map 0).stride ++ u16 w.bytes.length ++ w.bytes)
    if x.2 then x.1 else { x.1 with store := { x.1.store with streamSkips := bump x.1.store.streamSkips } }

/-- A line reaches a map that is not ACTIVE: maps 1 to 3 count it as dropped (R130), map 0 does not count it (R128). -/
def State.dropLine (s : State) (i : Fin 4) : State :=
  if i = 0 then s else s.setMap i { s.map i with dropped := bump (s.map i).dropped }

/-- The write of a line begins: the slot's writing flag is set and its write number rises (R127). -/
def State.beginWrite (s : State) (i : Fin 4) (l : LineWrite) : State :=
  let m := s.map i
  let r := m.slot l.slot
  let s1 := s.setMap i
    { m.setSlot l.slot { r with writing := true, writeNumber := r.writeNumber + 1 } with write := some { l with address := m.address l.slot } }
  if i = 0 then s1.stream l else s1

/-- The map's writer, free, takes a line (R127). -/
def State.startWrite (s : State) (i : Fin 4) (l : LineWrite) : State :=
  let m := s.map i
  let e := m.entry (m.pageOf l.slot)
  if m.state ≠ .active then s.dropLine i
  else if e.valid = false then
    (s.setMap i { m with state := .faulted, fault := some ⟨m.pageOf l.slot, l.slot, l.revolution⟩ }).postMapState i
  else if e.writeProtect then s.setMap i { m with frozen := bump m.frozen }
  else s.beginWrite i l

/-- A line for an ACTIVE map: the writer takes it, or it waits for the writer (R127, log 18). -/
def State.putLine (s : State) (i : Fin 4) (l : LineWrite) : State :=
  if (s.map i).write.isSome then s.setMap i { s.map i with waiting := (s.map i).waiting ++ [l] } else s.startWrite i l

/-- The bytes of a write are in the page: the slot is present with its stamp (R127). -/
def State.finishWrite (s : State) (i : Fin 4) (w : LineWrite) : State :=
  let m := s.map i
  let r := m.slot w.slot
  let s1 := s.setMap i
    { m.setSlot w.slot { r with present := true, stamp := w.revolution, writing := false } with
      write := none, written := bump m.written }
  { s1 with store := { s1.store with pages := Memory.writeBytes s1.store.pages w.address w.bytes } }

/-- The writer, free, takes the waiting lines in turn until one is being written. -/
def State.serveWaiting (s : State) (i : Fin 4) : List LineWrite → State
  | [] => s.setMap i { s.map i with waiting := [] }
  | l :: rest =>
    let s1 := s.startWrite i l
    if (s1.map i).write.isSome then s1.setMap i { s1.map i with waiting := rest } else s1.serveWaiting i rest

/-- The write in progress of a map ends, and the writer goes on (R127). -/
def State.endWrite (s : State) (i : Fin 4) : State :=
  match (s.map i).write with
  | none => s
  | some w => (s.finishWrite i w).serveWaiting i (s.map i).waiting

/-- The lines of a map are all written: a request that changes the map is taken after its writes end (6.6, log 18). -/
def State.drainWrites (s : State) (i : Fin 4) : State :=
  (List.range ((s.map i).waiting.length + 1)).foldl (fun s _ => s.endWrite i) s

/-- A byte memory as an interrupted write leaves it: each byte old or new, a free choice (R123). -/
def tearWrite (nonce : Nat) (pages : List Host.Cell) (w : LineWrite) : List Host.Cell :=
  (List.range w.bytes.length).foldl
    (fun m k => if Config.tornNew nonce (w.address + k) then Memory.write m (w.address + k) (byteAt w.bytes k) else m) pages

/-- The pages as a reset finds them: they keep what they held, writes in progress cut off (R123). -/
def State.keptPages (s : State) : List Host.Cell :=
  (portNumbers.filterMap fun i => (s.map i).write).foldl (tearWrite s.fresh) s.store.pages

/-! ## Capture and remote lines (R128, R130) -/

/-- A line of the own camera is captured into map 0 (R128). -/
def State.capture (s : State) (l : CameraLine) : State :=
  if (s.map 0).state = .active ∧ l.number % s.store.decimation = 0 then
    s.putLine 0
      { slot := l.number / s.store.decimation
        revolution := l.revolution
        bytes := (List.range s.store.stored).map fun i => byteAt l.pixels (i * s.store.hStep) }
  else s

/-- The map bound to an origin, among maps 1 to 3. -/
def State.mapOf (s : State) (origin : Nat) : Option (Fin 4) :=
  [1, 2, 3].find? fun i : Fin 4 => decide ((s.map i).origin = origin)

/-- An IMAGE_LINE frame delivered by the ring controller (R130). -/
def State.deliverImageLine (s : State) (origin : Nat) (payload : List Byte) : State :=
  match s.mapOf origin with
  | none => { s with store := { s.store with unboundLines := bump s.store.unboundLines } }
  | some i =>
    let m := s.map i
    let slot := fieldAt payload 2 2
    let count := fieldAt payload 6 2
    if m.state ≠ .active ∨ fieldAt payload 4 2 ≠ m.stride ∨ m.slotCount ≤ slot ∨ m.stride < count ∨ count ≠ payload.length - 8 then
      s.dropLine i
    else s.putLine i { slot := slot, revolution := BitVec.ofNat 16 (fieldAt payload 0 2), bytes := payload.drop 8 }

/-! ## SET_CAPTURE, SET_STREAM, ENABLE_MAP (R125, R126, R129) -/

def strideOk (n : Nat) : Bool := decide (n = 64 ∨ n = 128 ∨ n = 256 ∨ n = 512)

/-- Check 1 of SET_CAPTURE. -/
def captureFieldsOk (f : CaptureFields) : Bool :=
  decide (1 ≤ f.decimation ∧ f.decimation ≤ 16) && decide (f.hStep = 1 ∨ f.hStep = 2 ∨ f.hStep = 4 ∨ f.hStep = 8)
    && strideOk f.stride

/-- SET_CAPTURE (R126). -/
def workSetCapture (f : CaptureFields) (s : State) : State × Answer :=
  if captureFieldsOk f = false then refuse s .range
  else if (s.map 0).state ≠ .off then refuse s .state
  else if captureFits s.camera.width s.camera.pitch f.decimation f.hStep f.stride s.store.streamDest = false then refuse s .range
  else
    let s1 := s.setMap 0
      ({ s.map 0 with stride := f.stride, slotCount := captureSlots s.camera.pitch f.decimation }.hide fun _ => true)
    taken { s1 with store := { s1.store with
      decimation := f.decimation, hStep := f.hStep, stored := s.camera.width / f.hStep } }

/-- SET_STREAM (R129). -/
def workSetStream (dest : Nat) (s : State) : State × Answer :=
  if dest = 0 ∨ (dest ≤ 32 ∧ dest ≠ s.angle.nodeId ∧ s.store.stored ≤ 504) then
    taken { s with store := { s.store with streamDest := dest } }
  else refuse s .range

/-- ENABLE_MAP (R125). -/
def workEnableMap (map : Nat) (active : Bool) (s : State) : State × Answer :=
  if map < 4 then
    let i : Fin 4 := Fin.ofNat 4 map
    if active then
      if (s.map i).state = .active then taken s
      else taken ((s.setMap i ({ s.map i with state := .active, fault := none }.hide fun _ => true)).postMapState i)
    else if (s.map i).state = .off then taken s
    else
      let s1 := s.drainWrites i
      taken ((s1.setMap i { s1.map i with state := .off }).postMapState i)
  else refuse s .range

/-! ## SET_MAP (R124) -/

/-- Check 1 of SET_MAP. -/
def mapFieldsOk (own : Nat) (f : MapFields) : Bool :=
  decide (f.map < 4) && decide (f.writes.length ≤ 64) && (f.writes.all fun w => decide (w.page < 64 ∧ w.physical < 128))
    && (f.geometry.all fun g =>
      strideOk g.stride && decide (1 ≤ g.slotCount ∧ g.slotCount ≤ 2048) && decide (g.slotCount * g.stride ≤ 131072)
        && decide (f.map ≠ 0) && decide (g.origin ≤ 32) && decide (g.origin ≠ own))

/-- Another of maps 1 to 3 holds the origin (check 3). -/
def State.originTaken (s : State) (i : Fin 4) (origin : Nat) : Bool :=
  decide (origin ≠ 0) && [1, 2, 3].any fun j : Fin 4 => decide (j ≠ i ∧ (s.map j).origin = origin)

/-- The entries with a list of writes applied, the last write of a page holding. -/
def applyWrites (entries : Vector PageEntry 64) (writes : List EntryWrite) : Vector PageEntry 64 :=
  writes.foldl
    (fun v w => if h : w.page < 64 then v.set w.page { valid := w.valid, writeProtect := w.writeProtect, page := w.physical } else v)
    entries

/-- The physical pages that valid entries target. -/
def targets (entries : Vector PageEntry 64) : List Nat := (entries.toList.filter (·.valid)).map (·.page)

/-- No physical page is the target of two valid entries among all maps, with the new entries of map `i` (check 4). -/
def State.targetsDistinct (s : State) (i : Fin 4) (entries : Vector PageEntry 64) : Bool :=
  decide (portNumbers.flatMap fun j => targets (if j = i then entries else (s.map j).entries)).Nodup

/-- An entry write that gives a page another target: the entry becomes valid, or a valid entry changes its physical page. -/
def retargeted (old new : PageEntry) : Bool := new.valid && (!old.valid || decide (old.page ≠ new.page))

/-- The logical pages a list of writes gives another target at any of its writes; writes are taken in turn. -/
def retargetedPages (entries : Vector PageEntry 64) : List EntryWrite → List Nat
  | [] => []
  | w :: ws =>
    let rest := retargetedPages (applyWrites entries [w]) ws
    if h : w.page < 64 then
      if retargeted entries[w.page] { valid := w.valid, writeProtect := w.writeProtect, page := w.physical } then w.page :: rest else rest
    else rest

/-- The writes of one list applied together: a page written twice takes its last write (R124). -/
def lastWrites (writes : List EntryWrite) : List EntryWrite :=
  match writes with
  | [] => []
  | w :: ws => if ws.any (fun x => decide (x.page = w.page)) then lastWrites ws else w :: lastWrites ws

/-- A map with a NEW geometry: every slot not present, stamp 0, write number 0 (R124). -/
def ImageMap.newGeometry (m : ImageMap) (g : Geometry) : ImageMap :=
  { m.clearDirectory with origin := g.origin, stride := g.stride, slotCount := g.slotCount }

/-- A map with a taken SET_MAP applied: the slots that begin in a retargeted page are cleared to not present (R124). -/
def ImageMap.configure (m : ImageMap) (f : MapFields) : ImageMap :=
  let m1 := match f.geometry with
    | some g => m.newGeometry g
    | none => m
  let pages := retargetedPages m1.entries (lastWrites f.writes)
  { m1 with entries := applyWrites m1.entries f.writes }.hide fun slot => pages.contains (m1.pageOf slot)

/-- SET_MAP (R124). -/
def workSetMap (f : MapFields) (s : State) : State × Answer :=
  if mapFieldsOk s.angle.nodeId f = false then refuse s .range
  else
    let i : Fin 4 := Fin.ofNat 4 f.map
    if f.geometry.isSome = true ∧ (s.map i).state ≠ .off then refuse s .state
    else if (f.geometry.any fun g => s.originTaken i g.origin) = true then refuse s .conflict
    else if s.targetsDistinct i (applyWrites (s.map i).entries f.writes) = false then refuse s .conflict
    else
      let s1 := s.drainWrites i
      taken (s1.setMap i ((s1.map i).configure f))

/-! ## READ_STORE (R131, R132) -/

/-- The first look of a slot read, and the copy begun (R131). -/
def State.beginCopy (s : State) (i : Fin 4) (slot : Nat) : StoreCopy :=
  let m := s.map i
  let r := m.slot slot
  { map := i
    slot := slot
    present := r.present
    stamp := r.stamp
    writeNumber := r.writeNumber
    writing := r.writing
    bytes := (List.range m.stride).map fun k => s.pageByte s.fresh (m.address slot + k) }

/-- READ_STORE in its slot form: the range check, ABSENT, or the copy begun; its reply is formed at the second look. -/
def workReadStoreSlot (map slot : Nat) (s : State) : State × Answer :=
  if map < 4 then
    let i : Fin 4 := Fin.ofNat 4 map
    let m := s.map i
    if m.slotCount ≤ slot then refuse s .range
    else if (m.entry (m.pageOf slot)).valid = false then answered s (u8 0)
    else ({ s with fresh := s.fresh + 1 }, { status := .ok, copy := some (s.beginCopy i slot) })
  else refuse s .range

/-- The copy is TORN: the writing flag set at either look, or the write numbers differ (R131). -/
def State.torn (s : State) (c : StoreCopy) : Bool :=
  let r := (s.map c.map).slot c.slot
  c.writing || r.writing || decide (r.writeNumber ≠ c.writeNumber)

/-- The body of a slot read at its second look: Data by its place after ABSENT in R131, present flag, stamp, the bytes, and the TORN mark, which
the reply carries only if the copy is torn. A torn copy's bytes may come from two lines: a free choice byte by byte (log 7). -/
def State.copyBody (s : State) (c : StoreCopy) : List Byte :=
  let a := (s.map c.map).address c.slot
  let bytes :=
    if s.torn c then
      (List.range c.bytes.length).map fun k => if Config.tornNew s.fresh (a + k) then s.newestByte (a + k) else byteAt c.bytes k
    else c.bytes
  u8 1 ++ uFlag c.present ++ u16 c.stamp.toNat ++ bytes ++ uMark (s.torn c)

def encodeEntry (e : PageEntry) : List Byte := uFlag e.valid ++ uFlag e.writeProtect ++ u8 e.page

/-- The map record of R132. -/
def encodeMap (m : ImageMap) : List Byte :=
  u8 (MapState.code m.state) ++ u8 m.origin ++ u16 m.stride ++ u16 m.slotCount ++ m.entries.toList.flatMap encodeEntry
    ++ uOpt encodeMapFault m.fault ++ u16 m.written ++ u16 m.frozen ++ u16 m.dropped

/-- A pending trigger of the camera record (R132), whose fields the rule does not name: line number, stamp and revolution, without
the instant of issue (log 35). -/
def encodeTrigger (t : Trigger) : List Byte := u16 t.line ++ u24 t.stamp.toNat ++ u16 t.revolution.toNat

def encodeOutstanding (o : Outstanding) : List Byte := u16 o.line ++ u8 o.tag ++ u24 o.stamp.toNat ++ u16 o.revolution.toNat

/-- The camera record of R132; ON and OFF by their positions in 6.1's table. A pointer that may be none is an optional field (log 52). -/
def encodeCamera (c : Camera) : List Byte :=
  u8 (if c.on then 1 else 0) ++ u16 c.width ++ u24 c.pitch ++ uOpt u24 c.pointer ++ u8 c.tagCounter
    ++ uList encodeTrigger c.triggers ++ uList encodeOutstanding c.outstanding
    ++ u16 c.issued ++ u16 c.skipped ++ u16 c.missing ++ u16 c.received ++ u16 c.unknownTags ++ u16 c.badLines

/-- READ_STORE in its summary form (R132). -/
def workReadStoreSummary (map : Nat) (s : State) : State × Answer :=
  if map < 4 then
    answered s (encodeMap (s.map (Fin.ofNat 4 map))
      ++ (if map = 0 then
          u8 s.store.decimation ++ u8 s.store.hStep ++ u16 s.store.stored ++ u8 s.store.streamDest ++ u16 s.store.unboundLines
            ++ u16 s.store.streamSkips ++ encodeCamera s.camera
        else []))
  else refuse s .range

end Sys2Proof.Machine
end

