-- ==== Sys2Proof/Machine/Marks.lean ====
section
/-! DEFINITION. The mark unit (chapter 7): dark counts, edges, repeats, channel states, register errors and trim steps, and its
requests. -/

namespace Sys2Proof.Machine

/-! ## Reports (R147, R148) -/

/-- MARK_STATE (R148). -/
def State.postMarkState (s : State) (i : Fin 8) : State :=
  let c := s.channel i
  s.post (.markState i c.state c.foundRun c.missRun c.lastEdge c.lastError c.lastStep c.outcome)

/-- At least one channel in LOST has its trip flag set. -/
def MarkUnit.lostFlagged (m : MarkUnit) : Bool := m.channels.toList.any fun c => decide (c.state = .lost) && c.tripFlag

/-- Every channel that is not OFF is LOCKED. -/
def MarkUnit.allLocked (m : MarkUnit) : Bool := m.channels.toList.all fun c => decide (c.state = .off ∨ c.state = .locked)

/-- The condition of source 18 and the all-marks-locked flag are formed again and reported (R147). -/
def State.reportMarks (s : State) : State :=
  let lost := s.marks.lostFlagged
  let s1 : State := { s with
    marks := { s.marks with registerLost := lost, marksLocked := s.marks.allLocked }
    trips := { s.trips with marksLocked := s.marks.allLocked } }
  if s.marks.registerLost = lost then s1 else s1.setCondition registerLostSource lost

/-- A channel's record is replaced; a change of its state posts MARK_STATE and is reported (R144, R147). -/
def State.putChannel (s : State) (i : Fin 8) (c : Channel) : State :=
  let s1 := s.setChannel i c
  if c.state = (s.channel i).state then s1 else (s1.postMarkState i).reportMarks

/-! ## Dark counts and edges (R137, R138) -/

/-- The dark count of a line of width `width` (R137). -/
def Channel.darkCount (c : Channel) (width : Nat) (pixels : List Byte) : Nat :=
  (((pixels.take (min c.c1 width)).drop c.c0).filter fun b => decide (b.toNat < c.threshold)).length

/-- f of R138: the distance from the last line's stamp, rounded half up. -/
def edgeOffset (pitch w previous n : Nat) : Nat := (2 * pitch * (w - previous) + (n - previous)) / (2 * (n - previous))

/-- The edge a channel finds in a line with count `n` (R138); `predecessor` is the stamp of the present predecessor. -/
def Channel.edge (c : Channel) (pitch : Nat) (predecessor : Option Angle) (stamp : Angle) (n : Nat) : Option Angle :=
  match c.previous with
  | none => none
  | some p =>
    if p < c.width ∧ c.width ≤ n then
      match predecessor with
      | some before => some (before + BitVec.ofNat 24 (edgeOffset pitch c.width p n))
      | none => some stamp
    else none

/-- The close point was passed between the last line and this one (R139). -/
def passes (last : Option (Nat × Angle)) (stamp point : Angle) : Bool :=
  match last with
  | none => false
  | some l => decide (1 ≤ forward point l.2 ∧ forward point l.2 ≤ forward stamp l.2)

/-! ## Error and step (R145, R146) -/

/-- The trim step of a register error (R145). -/
def Channel.stepOf (c : Channel) (e : Int) : Int :=
  if e.natAbs ≤ c.deadband then 0
  else
    let size : Int := (min c.stepClamp ((e.natAbs * c.gain + 128) / 256) : Nat)
    if 0 < e then size else -size

/-- The outcome of a step short of its delivery: the first check that fails (R146). -/
def State.withheld (s : State) (c : Channel) (step : Int) : Option StepOutcome :=
  if step = 0 then some .deadband
  else if c.state ≠ .locked then some .notLocked
  else if s.angle.lineState ≠ .running then some .lineNotRunning
  else if s.angle.v < s.marks.vReg then some .slow
  else if c.node = 0 then some .unbound
  else if c.node = s.angle.nodeId ∧ (s.axis c.axis).state ≠ .coupled then some .axisNotCoupled
  else none

/-- The channel notes that its step was withheld; a step of 0 is not counted. -/
def Channel.withhold (c : Channel) (o : StepOutcome) : Channel :=
  { c with outcome := o, stepsWithheld := if o = .deadband then c.stepsWithheld else bump c.stepsWithheld }

/-- A step is delivered to an axis of this node or sent to another node (R146). -/
def State.sendStep (s : State) (i : Fin 8) (step : Int) : State :=
  let c := s.channel i
  if c.node = s.angle.nodeId then
    let s1 := s.setChannel i { c with outcome := .toLocal, stepsSent := bump c.stepsSent }
    { s1 with localSteps := s1.localSteps ++ [(c.axis, step)] }
  else
    let x := s.originate .trimStep c.node (u8 c.axis.val ++ i24 step)
    if x.2 then x.1.setChannel i { c with outcome := .toRemote, stepsSent := bump c.stepsSent }
    else x.1.setChannel i { c with outcome := .queueFull, stepsLost := bump c.stepsLost }

/-- Error and step of a found repeat of a follower: edge taken and armed edge of the span closed (R145, R146). -/
def State.formStep (s : State) (i : Fin 8) (taken armed : Angle) : State :=
  let c := s.channel i
  let e := sdiff taken (Angle.plus armed c.spacing)
  let step := c.stepOf e
  let c1 : Channel := { c with lastError := e, lastStep := step }
  match s.withheld c1 step with
  | some o => s.setChannel i (c1.withhold o)
  | none => (s.setChannel i c1).sendStep i step

/-! ## Repeats (R140 to R144) -/

/-- A repeat judged found, with its edge (R144). -/
def Channel.judgedFound (c : Channel) (edge : Angle) : Channel :=
  let run := bumpTo 255 c.foundRun
  { c with
    found := bump c.found
    foundRun := run
    missRun := 0
    lastEdge := some edge
    edgeTaken := none
    state :=
      match c.state with
      | .searching => if 3 ≤ run then .locked else .searching
      | .lost => .searching
      | .locked => .locked
      | .off => .off }

/-- A repeat judged a miss (R144). That a miss in LOST raises the missed repeats counter too is the model's reading: "in LOST a miss changes the
runs alone" is taken to deny a change of state, not the counter that every miss raises (log 54). -/
def Channel.judgedMiss (c : Channel) : Channel :=
  let run := bumpTo 15 c.missRun
  { c with
    missed := bump c.missed
    missRun := run
    foundRun := 0
    state :=
      match c.state with
      | .searching => if c.lostLimit ≤ run then .lost else .searching
      | .locked => if c.lostLimit ≤ run then .lost else .locked
      | .lost => .lost
      | .off => .off }

/-- The span of an ARMED follower closes (R143): it becomes WAITING, and its repeat is judged. -/
def State.closeSpan (s : State) (i : Fin 8) : State :=
  let c := s.channel i
  let c1 : Channel := { c with phase := .waiting, armed := none, edgeTaken := none }
  match c.edgeTaken, c.armed with
  | some e, some a => (s.putChannel i (c1.judgedFound e)).formStep i e a
  | _, _ => s.putChannel i c1.judgedMiss

/-- A follower that is not OFF is armed from a reference edge (R142). -/
def State.arm (s : State) (edge : Angle) (i : Fin 8) : State :=
  let c := s.channel i
  if c.state = .off then s
  else
    let s1 := if c.phase = .armed then s.closeSpan i else s
    s1.setChannel i { s1.channel i with phase := .armed, armed := some edge, edgeTaken := none }

/-- The gate holds an edge (R140). -/
def Channel.inGate (c : Channel) (e : Angle) : Bool := decide (forward e c.g0 < forward c.g1 c.g0)

/-- The reference channel offers its edge (R140). The rules give the followers it arms no order among them: the model takes 1 to 7,
which orders the TRIM_STEP frames of their judgements (log 39). -/
def State.offerReference (s : State) (edge : Option Angle) : State :=
  let c := s.channel 0
  match edge with
  | none => s
  | some e =>
    if c.phase = .opened ∧ c.edgeTaken = none ∧ c.inGate e = true then
      followerNumbers.foldl (fun s i => s.arm e i) (s.setChannel 0 { c with edgeTaken := some e, lastEdge := some e })
    else s

/-- A missing reference makes the repeat of a waiting follower a miss (R141). -/
def State.missWaiting (s : State) (i : Fin 8) : State :=
  let c := s.channel i
  if c.state ≠ .off ∧ c.phase = .waiting then s.putChannel i c.judgedMiss else s

/-- At a close of the reference a follower in PARTIAL becomes WAITING (R141). -/
def State.leavePartial (s : State) (i : Fin 8) : State :=
  let c := s.channel i
  if c.state ≠ .off ∧ c.phase = .fragment then s.setChannel i { c with phase := .waiting } else s

/-- The reference repeat closes (R141). -/
def State.closeReference (s : State) : State :=
  let c := s.channel 0
  let s1 :=
    if c.phase = .opened then
      match c.edgeTaken with
      | some e => s.putChannel 0 (c.judgedFound e)
      | none => followerNumbers.foldl State.missWaiting (s.putChannel 0 c.judgedMiss)
    else s.setChannel 0 { c with phase := .opened }
  followerNumbers.foldl State.leavePartial s1

/-- The span of an armed follower holds an edge (R142). -/
def Channel.inSpan (c : Channel) (armed e : Angle) : Bool :=
  decide (forward e (Angle.plus armed (c.spacing - c.span)) ≤ 2 * c.span)

/-- An ARMED follower takes an edge under its arming (R142). -/
def Channel.offer (c : Channel) (edge : Option Angle) : Channel :=
  match edge, c.armed with
  | some e, some a => if c.phase = .armed ∧ c.edgeTaken = none ∧ c.inSpan a e = true then { c with edgeTaken := some e } else c
  | _, _ => c

/-- The line passes the end of an ARMED follower's span (R143). -/
def Channel.endPassed (c : Channel) (last : Option (Nat × Angle)) (stamp : Angle) : Bool :=
  match c.armed with
  | some a => decide (c.phase = .armed) && passes last stamp (Angle.plus a (c.spacing + c.span))
  | none => false

/-- The stamp of the predecessor of a line, if it is present (R137). -/
def State.predecessor (s : State) (number : Nat) : Option Angle :=
  match s.marks.lastLine with
  | none => none
  | some l => if number = (l.1 + 1) % linesPerRevolution s.camera.pitch then some l.2 else none

/-- Channel `i`'s edge and its new dark count in a line. -/
def State.look (s : State) (i : Fin 8) (l : CameraLine) : Option Angle × Nat :=
  let c := s.channel i
  let n := c.darkCount s.camera.width l.pixels
  (c.edge s.camera.pitch (s.predecessor l.number) l.stamp n, n)

/-- The reference channel's work on a line (R137, R140, R141). -/
def State.workReference (s : State) (l : CameraLine) : State :=
  if (s.channel 0).state = .off then s
  else
    let x := s.look 0 l
    let s1 := (s.setChannel 0 { s.channel 0 with previous := some x.2 }).offerReference x.1
    if passes s.marks.lastLine l.stamp (s1.channel 0).g1 then s1.closeReference else s1

/-- A follower's work on a line (R137, R142, R143). -/
def State.workFollower (s : State) (l : CameraLine) (i : Fin 8) : State :=
  if (s.channel i).state = .off then s
  else
    let x := s.look i l
    let s1 := s.setChannel i ({ s.channel i with previous := some x.2 }.offer x.1)
    if (s1.channel i).endPassed s.marks.lastLine l.stamp then s1.closeSpan i else s1

/-- The mark unit's work on a line handed over by the camera port (R137). -/
def State.markLine (s : State) (l : CameraLine) : State :=
  let s1 := followerNumbers.foldl (fun s i => s.workFollower l i) (s.workReference l)
  { s1 with marks := { s1.marks with lastLine := some (l.number, l.stamp) } }

/-- A channel that is not OFF when the camera is turned ON (R137). -/
def Channel.cameraBack (c : Channel) : Channel :=
  if c.state = .off then c else { c with previous := none, phase := .fragment, armed := none, edgeTaken := none }

/-- The camera port is turned from OFF to ON (R137). -/
def State.marksCameraOn (s : State) : State :=
  { s with marks := { s.marks with lastLine := none, channels := Vector.ofFn fun i => s.marks.channels[i].cameraBack } }

/-! ## Requests (R135, R136, R149) -/

/-- Check 1 of R135; `width` is the camera's W. -/
def markFieldsOk (width : Nat) (f : MarkFields) : Bool :=
  decide (f.channel < 8) && decide (f.c0 < f.c1 ∧ f.c1 ≤ width) && decide (f.threshold ≤ 255)
    && decide (1 ≤ f.width ∧ f.width ≤ 255 ∧ f.width ≤ f.c1 - f.c0) && decide (f.g0 ≤ 16777215 ∧ f.g1 ≤ 16777215 ∧ f.g0 ≠ f.g1)
    && decide (-8388607 ≤ f.spacing ∧ f.spacing ≤ 8388607) && decide (1 ≤ f.span ∧ f.span ≤ 1048575) && decide (f.gain ≤ 256)
    && decide (f.deadband ≤ 65535) && decide (1 ≤ f.stepClamp ∧ f.stepClamp ≤ 65535) && decide (f.node ≤ 32) && decide (f.axis < 16)
    && decide (1 ≤ f.lostLimit ∧ f.lostLimit ≤ 15) && decide (f.channel = 0 ∨ f.span < f.spacing.natAbs)

/-- The settings that change only while a channel is OFF are the record's. -/
def Channel.sameSettings (c : Channel) (f : MarkFields) : Bool :=
  decide (f.c0 = c.c0 ∧ f.c1 = c.c1 ∧ f.threshold = c.threshold ∧ f.width = c.width ∧ BitVec.ofNat 24 f.g0 = c.g0
    ∧ BitVec.ofNat 24 f.g1 = c.g1 ∧ f.spacing = c.spacing ∧ f.span = c.span)

/-- Check 2 of R135: the three cases that give STATE. -/
def State.markStateRefused (s : State) (i : Fin 8) (f : MarkFields) : Bool :=
  (f.on && decide ((s.channel i).state ≠ .off) && !(s.channel i).sameSettings f)
    || (f.on && decide (i ≠ 0) && decide ((s.channel 0).state = .off))
    || (!f.on && decide (i = 0) && followerNumbers.any fun j => decide ((s.channel j).state ≠ .off))

/-- Every field of a request is stored. -/
def Channel.store (c : Channel) (f : MarkFields) : Channel :=
  { c with
    c0 := f.c0
    c1 := f.c1
    threshold := f.threshold
    width := f.width
    g0 := BitVec.ofNat 24 f.g0
    g1 := BitVec.ofNat 24 f.g1
    spacing := f.spacing
    span := f.span
    gain := f.gain
    deadband := f.deadband
    stepClamp := f.stepClamp
    node := f.node
    axis := Fin.ofNat 16 f.axis
    lostLimit := f.lostLimit
    tripFlag := f.tripFlag }

/-- The change of state of a taken SET_MARK (R135). -/
def Channel.turn (c : Channel) (on : Bool) : Channel :=
  if on then
    if c.state = .off then
      { c with
        state := .searching, foundRun := 0, missRun := 0, previous := none, phase := .fragment, armed := none, edgeTaken := none }
    else c
  else if c.state = .off then c
  else { c with state := .off, foundRun := 0, missRun := 0, previous := none, phase := .fragment, armed := none, edgeTaken := none }

/-- SET_MARK in its channel form (R135). -/
def workSetMarkChannel (f : MarkFields) (s : State) : State × Answer :=
  if markFieldsOk s.camera.width f = false then refuse s .range
  else
    let i : Fin 8 := Fin.ofNat 8 f.channel
    if s.markStateRefused i f then refuse s .state
    else
      let c := ((s.channel i).store f).turn f.on
      let s1 := s.setChannel i c
      taken (if c.state = (s.channel i).state then s1.reportMarks else (s1.postMarkState i).reportMarks)

/-- SET_MARK in its unit form (R136). -/
def workSetMarkUnit (vReg : Nat) (s : State) : State × Answer :=
  if vReg ≤ 4194303 then taken { s with marks := { s.marks with vReg := vReg } } else refuse s .range

/-- A channel record, in the order of the table of 7.1. The previous count and the edges that may be none are optional fields (log 52). -/
def encodeChannel (c : Channel) : List Byte :=
  u8 (ChannelState.code c.state) ++ u16 c.c0 ++ u16 c.c1 ++ u8 c.threshold ++ u8 c.width ++ u24 c.g0.toNat ++ u24 c.g1.toNat
    ++ i24 c.spacing ++ u24 c.span ++ u16 c.gain ++ u16 c.deadband ++ u16 c.stepClamp ++ u8 c.node ++ u8 c.axis.val ++ u8 c.lostLimit
    ++ uFlag c.tripFlag ++ uOpt u16 c.previous ++ u8 (RepeatPhase.code c.phase) ++ uOpt encodeAngle c.armed
    ++ uOpt encodeAngle c.edgeTaken ++ uOpt encodeAngle c.lastEdge ++ i24 c.lastError ++ i24 c.lastStep
    ++ u8 (StepOutcome.code c.outcome) ++ u8 c.foundRun ++ u8 c.missRun ++ u16 c.found ++ u16 c.missed ++ u16 c.stepsSent
    ++ u16 c.stepsWithheld ++ u16 c.stepsLost

/-- READ_MARKS (R149). -/
def workReadMarks (s : State) : State × Answer :=
  answered s (s.marks.channels.toList.flatMap encodeChannel ++ u24 s.marks.vReg
    ++ uOpt (fun l : Nat × Angle => u16 l.1 ++ u24 l.2.toNat) s.marks.lastLine ++ uFlag s.marks.registerLost ++ uFlag s.marks.marksLocked
    ++ u16 s.camera.width ++ u24 s.camera.pitch ++ u16 (linesPerRevolution s.camera.pitch))

end Sys2Proof.Machine
end

