-- ==== Sys2Proof/Machine/Camera.lean ====
section
/-! DEFINITION. The camera port (6.1 to 6.4): the forming and issuing of triggers, line messages, and SET_CAMERA. -/

namespace Sys2Proof.Machine

/-! ## Triggers (R119, R120) -/

/-- The first multiple of the pitch after an angle: 0 when none up to 2^24 − p is greater (R118, R119). -/
def firstAfter (pitch : Nat) (a : Angle) : Nat := (a.toNat / pitch + 1) * pitch % 16777216

/-- Room of the outstanding queue. -/
def outstandingRoom : Nat := 4

/-- The issue of a trigger at an instant (R120): CAM_TRIG pulses with the tag on CAM_TAG3..0. -/
def Camera.issue (at_ : Nat) (c : Camera) (t : Trigger) : Camera :=
  let full := decide (outstandingRoom ≤ c.outstanding.length)
  { c with
    tagPins := c.tagCounter
    pulses := c.pulses ++ [(at_, c.tagCounter)]
    tagCounter := (c.tagCounter + 1) % 16
    issued := bump c.issued
    missing := if full then bump c.missing else c.missing
    outstanding :=
      (if full then c.outstanding.tail else c.outstanding)
        ++ [{ line := t.line, tag := c.tagCounter, stamp := t.stamp, revolution := t.revolution }] }

/-- The pending triggers of an earlier update are issued at once, in order (R120). -/
def Camera.issueAll (at_ : Nat) (c : Camera) : Camera :=
  { c.triggers.foldl (Camera.issue at_) { c with pulses := [] } with triggers := [] }

/-- The number of multiples of the pitch from the pointer on that an update reaches (R119). -/
def reached (pitch pointer : Nat) (a : Angle) (delta : Int) : Nat :=
  let gap := sdiff (BitVec.ofNat 24 pointer) a
  if 0 < delta ∧ gap ≤ 0 then gap.natAbs / pitch + 1 else 0

/-- The most triggers formed at one update. -/
def triggerRoom : Nat := 8

/-- The trigger of the `i`-th multiple reached, counted from the pointer (R119, R120). -/
def Camera.trigger (c : Camera) (e : UpdateEvent) (pointer i : Nat) : Trigger :=
  let m := (pointer + i * c.pitch) % 16777216
  let stamp : Angle := BitVec.ofNat 24 m
  let start := Angle.plus e.angle (-e.delta)
  { line := m / c.pitch
    stamp := stamp
    revolution := if e.angle.toNat < m then e.revolution - 1 else e.revolution
    issueAt := e.at_ + ((e.tu : Int) * sdiff stamp start / e.delta).toNat }

/-- The camera port's work at an update event while it is ON (R119, R120). -/
def Camera.update (c : Camera) (e : UpdateEvent) : Camera :=
  let c1 := c.issueAll e.at_
  let start := Angle.plus e.angle (-e.delta)
  let pointer := if start ≠ c1.lastSeen then firstAfter c1.pitch start else c1.pointer.getD (firstAfter c1.pitch start)
  let n := reached c1.pitch pointer e.angle e.delta
  { c1 with
    triggers := (List.range (min n triggerRoom)).map (c1.trigger e pointer)
    skipped := bumpBy c1.skipped (n - triggerRoom)
    pointer := some ((pointer + n * c1.pitch) % 16777216)
    lastSeen := e.angle }

/-- The camera port takes an update event (R119). -/
def State.cameraUpdate (s : State) (e : UpdateEvent) : State :=
  if s.camera.on then { s with camera := s.camera.update e } else s

/-! ## Line messages (R121, R122) -/

/-- The message is not a bad line: its CRC matches, its pixel count is W, and it holds that many pixels (R121, 10.4). -/
def lineGood (width : Nat) (bs : List Byte) : Bool :=
  decide (5 ≤ bs.length) && crc16Good bs && decide (fieldAt bs 1 2 = width) && decide (bs.length - 5 = width)

/-- A good line matched by tag: the entries before its entry are missing, the entry is removed (R121). -/
def Camera.match_ (c : Camera) (at_ : Nat) : Camera :=
  { c with
    missing := bumpBy c.missing at_
    received := bump c.received
    outstanding := c.outstanding.drop (at_ + 1) }

/-- A good line that has taken its number is handed to the mark unit, then to the image store (R122, log 12). -/
def State.handLine (s : State) (l : CameraLine) : State := (s.markLine l).capture l

/-- A line message ends (R121). -/
def State.lineMessage (s : State) (bs : List Byte) : State :=
  let c := s.camera
  if lineGood c.width bs then
    let tag := (byteAt bs 0).toNat % 16
    match c.outstanding.findIdx? (fun o => decide (o.tag = tag)), c.outstanding.find? (fun o => decide (o.tag = tag)) with
    | some k, some o =>
      ({ s with camera := c.match_ k }).handLine
        { number := o.line, stamp := o.stamp, revolution := o.revolution, pixels := (bs.drop 3).take c.width }
    | _, _ => { s with camera := { c with unknownTags := bump c.unknownTags } }
  else { s with camera := { c with badLines := bump c.badLines } }

/-! ## SET_CAMERA (R118) -/

/-- Check 1 of R118. -/
def cameraFieldsOk (f : CameraFields) : Bool :=
  decide (64 ≤ f.width ∧ f.width ≤ 2048 ∧ f.width % 64 = 0)
    && decide (f.pitch = 1024 ∨ f.pitch = 2048 ∨ f.pitch = 4096 ∨ f.pitch = 8192 ∨ f.pitch = 16384 ∨ f.pitch = 32768 ∨ f.pitch = 65536)

/-- The camera record after its change of state (R118); `previous` is the previous angle of the angle record. -/
def Camera.turn (c : Camera) (on : Bool) (previous : Angle) : Camera :=
  if on then
    if c.on then c else { c with on := true, lastSeen := previous, pointer := some (firstAfter c.pitch previous) }
  else if c.on then { c with on := false, triggers := [], outstanding := [], pointer := none }
  else c

/-- W and p stored, with map 0's geometry; a change of either clears map 0's present flags (R118). -/
def State.applyCamera (s : State) (f : CameraFields) : State :=
  let changed := decide (f.width ≠ s.camera.width ∨ f.pitch ≠ s.camera.pitch)
  let s1 := if changed then s.drainWrites 0 else s
  let s2 := s1.setMap 0 ({ s1.map 0 with slotCount := captureSlots f.pitch s1.store.decimation }.hide fun _ => changed)
  { s2 with
    store := { s2.store with stored := f.width / s2.store.hStep }
    camera := { s2.camera with width := f.width, pitch := f.pitch }.turn f.on s.angle.previousAngle }

/-- SET_CAMERA (R118). -/
def workSetCamera (f : CameraFields) (s : State) : State × Answer :=
  if cameraFieldsOk f = false then refuse s .range
  else if f.on = true ∧ s.camera.on = true ∧ (f.width ≠ s.camera.width ∨ f.pitch ≠ s.camera.pitch) then refuse s .state
  else if captureFits f.width f.pitch s.store.decimation s.store.hStep (s.map 0).stride s.store.streamDest = false then
    refuse s .range
  else
    let s1 := s.applyCamera f
    taken (if f.on = true ∧ s.camera.on = false then s1.marksCameraOn else s1)

end Sys2Proof.Machine
end

