-- ==== Sys2Proof/Machine/Updates.lean ====
section
/-! DEFINITION. The update event (R13) and what each block does at it, the updates of a base and of the own timer, and the deadline
of a member (R7 to R12). -/

namespace Sys2Proof.Machine

/-! ## One update event (R13), in the order of log 11 -/

/-- The angle record takes an update: previous angle and update revolution; the new-base mark is cleared (R12). -/
def State.recordUpdate (s : State) (e : UpdateEvent) : State :=
  { s with angle := { s.angle with previousAngle := e.angle, updateRevolution := e.revolution, newBase := false } }

/-- The axes CATCHING or COUPLED now. -/
def State.engagedAxes (s : State) : List (Fin 16) := axisNumbers.filter fun i => (s.axis i).engaged

/-- All four ports drain, in rising order (R56). -/
def State.drainAll (s : State) : State := portNumbers.foldl State.drain s

/-- The axis engine works on every axis, in rising order (R27). -/
def State.workAxes (s : State) (e : UpdateEvent) (engaged : List (Fin 16)) : State :=
  axisNumbers.foldl (fun s i => s.workAxis i e.delta (engaged.contains i)) s

/-- The FOLLOW reports of one port, in rising sub-address order (R33, R60); `before` is the state before the axes worked. -/
def State.followReports (s before : State) (p : Fin 4) : State :=
  (before.boundAxes p).foldl
    (fun t x => if followReached (before.axis x.2) (s.axis x.2) then t.follow p x.1 x.2 else t) s

/-- The telegram step: every axis hands its entry, every port forms its telegrams (R34, R54, R64). -/
def State.telegrams (s : State) (tu : Nat) : State :=
  portNumbers.foldl (fun s p => s.sendPort p tu) { s with axes := Vector.ofFn fun i => s.axes[i].handed }

/-- The axis engine tells the trip unit whether every bound axis is COUPLED (R47). -/
def State.reportCoupled (s : State) : State := { s with trips := { s.trips with axesCoupled := s.allCoupled } }

/-- The screen controller reads the update revolution as the current revolution (R13, R159). -/
def State.screenUpdate (s : State) (e : UpdateEvent) : State :=
  if e.revolution = e.revolutionBefore then s else ({ s with screen := s.screen.markWebViews }).runSender

/-- The axis engine's and the drive ports' part of an update. -/
def State.driveUpdate (s : State) (e : UpdateEvent) : State :=
  let engaged := s.engagedAxes
  let s1 := s.drainAll
  let s2 := s1.workAxes e engaged
  let s3 := portNumbers.foldl (fun t p => t.followReports s1 p) s2
  (s3.telegrams e.tu).reportCoupled

/-- An update taken is raised as one update event (R13). -/
def State.takeUpdate (s : State) (e : UpdateEvent) : State :=
  (((s.recordUpdate e).driveUpdate e).cameraUpdate e).screenUpdate e

/-! ## Updates of a base (R12) and of the own timer (R10) -/

/-- The event of update `j` of a base, taken at `at_`. -/
def State.baseEvent (s : State) (b : Base) (j at_ : Nat) : UpdateEvent :=
  { index := j
    angle := b.angle j
    delta := if s.angle.newBase then 0 else sdiff (b.angle j) s.angle.previousAngle
    revolution := b.updateRevolution j
    tu := b.tu
    angleState := s.angle.state
    at_ := at_
    revolutionBefore := s.angle.updateRevolution }

/-- The earliest update scheduled from the base is taken at its instant (R11, R12): t_b or the nominal instant, though the clock stands at
the end of the frame whose arrival formed the base (log 1). -/
def State.nextUpdate (s : State) : State :=
  match s.angle.updates, s.angle.base with
  | (j, t) :: rest, some b =>
    let s1 := ({ s with angle := { s.angle with updates := rest } }).tick t
    s1.takeUpdate (s1.baseEvent b j t)
  | _, _ => s

/-- The T_u of the record's T_c and k (R10). -/
def AngleRecord.ownInterval (a : AngleRecord) : Nat := updateInterval a.period a.k

/-- The own timer's update at `at_`: the angle stands (R10). The rules number the updates of a base alone (R12, R13); that an own-timer update
carries index 0 is the model's choice (log 31). -/
def State.ownEvent (s : State) (at_ : Nat) : UpdateEvent :=
  { index := 0
    angle := s.angle.previousAngle
    delta := 0
    revolution := s.angle.updateRevolution
    tu := s.angle.ownInterval
    angleState := s.angle.state
    at_ := at_
    revolutionBefore := s.angle.updateRevolution }

/-- The own timer of NONE and LOST expires (R10). -/
def State.ownUpdate (s : State) : State :=
  match s.angle.ownTimer with
  | none => s
  | some t =>
    let s1 := ({ s with angle := { s.angle with ownTimer := some (t + s.angle.ownInterval) } }).tick t
    s1.takeUpdate (s1.ownEvent t)

/-! ## Missing frames (R7, R8) -/

/-- Entry into LOST (R8): pending updates cancelled, origin and expected arrival cleared, the own timer started (R10). -/
def AngleRecord.lose (a : AngleRecord) (now : Nat) : AngleRecord :=
  { a with
    state := .lost
    masterOrigin := none
    expectedArrival := none
    updates := []
    angleLosses := bump a.angleLosses
    ownTimer := some (now + a.ownInterval) }

/-- A member enters LOST (R8). -/
def State.enterLost (s : State) : State :=
  ((({ s with angle := s.angle.lose s.now }).inhibitAll .angle).setCondition angleLostSource true).postAngleState

/-- The deadline of the frame expected at `due` (R7). -/
def AngleRecord.deadline (a : AngleRecord) (due : Nat) : Nat := due + a.period.ns / 4

/-- The record after a coast: A_m and the frame revolution go on at V, the expected arrival by T_c (R7, log 14). -/
def AngleRecord.coast (a : AngleRecord) (due : Nat) : AngleRecord :=
  { a with
    state := .coasting
    aM := a.aM + BitVec.ofNat 24 a.v
    frameRevolution := if 16777216 ≤ a.aM.toNat + a.v then a.frameRevolution + 1 else a.frameRevolution
    expectedArrival := some (due + a.period.ns) }

/-- The coasted base, formed at the deadline; t_0 is the previous base's plus T_c (R7, R11). -/
def State.coastBase (s : State) (before : Option Base) : State :=
  let a := s.angle
  let t0 : Int := match before with
    | some b => b.t0 + a.period.ns
    | none => s.now
  s.formBase (a.makeBase a.aM a.v a.period a.frameRevolution t0) s.now

/-- No frame was accepted by the deadline (R7). -/
def State.missFrame (s : State) (due : Nat) : State :=
  let a := { s.angle with coastCount := bumpTo 8 s.angle.coastCount, coasts := bump s.angle.coasts }
  if a.coastCount < a.coastLimit then
    (({ s with angle := a.coast due }).coastBase s.angle.base).postAngleState
  else ({ s with angle := a }).enterLost

/-- The deadline comes (R7): at a member that expects a frame. -/
def State.deadlineComes (s : State) : State :=
  match s.angle.expectedArrival with
  | none => s
  | some due => if s.isMaster then s else (s.tick (s.angle.deadline due)).missFrame due

end Sys2Proof.Machine
end

