-- ==== Sys2Proof/Machine/Panel.lean ====
section
/-! DEFINITION. The screen controller's requests, the panel's messages, peer tiles and touches (chapter 8). -/

namespace Sys2Proof.Machine

/-! ## The screen summary (R163) -/

/-- The screen summary that every reply to a screen request carries, taken or refused. -/
def State.screenSummary (s : State) : List Byte :=
  let sc := s.screen
  u8 (ScreenState.code sc.state) ++ u8 sc.cols ++ u8 sc.rows ++ uList (fun w : Window => u8 w.id) sc.windows
    ++ uFlag sc.banner.isSome ++ uFlag sc.bannerShown ++ u8 sc.headClass.code ++ u16 sc.dirty.length ++ u16 sc.cursor
    ++ u8 s.screen.hold.length ++ u16 sc.tilesSent ++ u16 sc.peerRefused ++ u16 sc.badPanel ++ u16 sc.touchesDropped ++ u16 sc.panelLosses

/-- A screen request taken: the sender looks at the dirty set, and the summary stands as after it. -/
def shown (s : State) : State × Answer :=
  let s1 := s.runSender
  (s1, { status := .ok, body := s1.screenSummary })

/-- A screen request refused, with the summary. -/
def screenRefuse (s : State) (st : Status) : State × Answer := (s, { status := st, body := s.screenSummary })

/-! ## SET_SCREEN (R151) -/

def screenFieldsOk (f : ScreenFields) : Bool :=
  decide (1 ≤ f.cols ∧ f.cols ≤ 80) && decide (1 ≤ f.rows ∧ f.rows ≤ 48) && decide (f.background ≤ 255)

/-- Every window and the banner's rectangle fit a size (R151). -/
def Screen.layersFit (sc : Screen) (cols rows : Nat) : Bool :=
  sc.windows.all (fun w => Rect.fits w.rect cols rows) && sc.banner.all (fun b => Rect.fits b.rect cols rows)

/-- The port state changes of SET_SCREEN (R151). -/
def State.switchScreen (s : State) (enable : Bool) : State :=
  if enable then
    if s.screen.state = .off then
      ({ s with screen := { s.screen with state := .noPanel, panelTimer := s.now } }).postScreenState
    else s
  else if s.screen.state = .off then s
  else ({ s with screen := { s.screen with state := .off, inSend := none } }).postScreenState

/-- The size and background stored, every tile of the new size dirty (R151). -/
def Screen.resize (sc : Screen) (f : ScreenFields) : Screen :=
  ({ sc with cols := f.cols, rows := f.rows, background := BitVec.ofNat 8 f.background }).markAll

/-- SET_SCREEN (R151). -/
def workSetScreen (f : ScreenFields) (s : State) : State × Answer :=
  if screenFieldsOk f = false then screenRefuse s .range
  else if s.screen.layersFit f.cols f.rows = false then screenRefuse s .state
  else shown (({ s with screen := s.screen.resize f }).switchScreen f.enable)

/-! ## Windows (R155, R156) -/

/-- The fields of a kind lie in their ranges (R155 check 1, log 10). -/
def windowKindOk (w : Window) : Bool :=
  match w.kind with
  | .tiles => decide (w.tileBase + w.rect.w * w.rect.h ≤ 512)
  | .webview =>
    decide (w.map ≤ 3) && decide (w.line0 ≤ 2047) && decide (w.col0 ≤ 511) && decide (1 ≤ w.vStep ∧ w.vStep ≤ 16)
      && decide (1 ≤ w.hStep ∧ w.hStep ≤ 16) && decide (w.greyBase ≤ 224) && decide (w.staleIndex ≤ 255)

def touchModeOk (own : Nat) : TouchMode → Bool
  | .toHost => true
  | .toNode n => decide (1 ≤ n ∧ n ≤ 32 ∧ n ≠ own)
  | .ignore => true

/-- Check 1 of R155. -/
def State.windowOk (s : State) (w : Window) : Bool :=
  decide (w.id ≤ 7) && Rect.fits w.rect s.screen.cols s.screen.rows && windowKindOk w && touchModeOk s.angle.nodeId w.touch

/-- The window of an id, if it is in the list. -/
def Screen.window (sc : Screen) (id : Nat) : Option Window := sc.windows.find? fun w => decide (w.id = id)

/-- The list with a record replaced in place. -/
def replaceWindow (l : List Window) (w : Window) : List Window := l.map fun x => if x.id = w.id then w else x

/-- SET_WINDOW (R155). -/
def workSetWindow (w : Window) (s : State) : State × Answer :=
  if s.windowOk w = false then screenRefuse s .range
  else
    let sc := s.screen
    match sc.window w.id with
    | some old =>
      shown { s with screen := (({ sc with windows := replaceWindow sc.windows w }).markRect old.rect).markRect w.rect }
    | none =>
      if 8 ≤ sc.windows.length then screenRefuse s .full
      else shown { s with screen := ({ sc with windows := sc.windows ++ [w] }).markRect w.rect }

/-- The list without a window. -/
def withoutWindow (l : List Window) (id : Nat) : List Window := l.filter fun w => decide (w.id ≠ id)

/-- RAISE_WINDOW (R156). -/
def workRaiseWindow (id : Nat) (s : State) : State × Answer :=
  if id ≤ 7 then
    let sc := s.screen
    match sc.window id with
    | none => screenRefuse s .state
    | some w =>
      if sc.windows.getLast? = some w then shown s
      else shown { s with screen := ({ sc with windows := withoutWindow sc.windows id ++ [w] }).markRect w.rect }
  else screenRefuse s .range

/-- REMOVE_WINDOW (R156). -/
def workRemoveWindow (id : Nat) (s : State) : State × Answer :=
  if id ≤ 7 then
    let sc := s.screen
    match sc.window id with
    | none => screenRefuse s .state
    | some w => shown { s with screen := ({ sc with windows := withoutWindow sc.windows id }).markRect w.rect }
  else screenRefuse s .range

/-! ## Tiles and grants (R153, R154) -/

/-- The range check of PUT_TILES (R153). -/
def tilesOk (own dest : Nat) (tiles : List TileWrite) : Bool :=
  decide (1 ≤ tiles.length ∧ tiles.length ≤ 4) && (tiles.all fun t => decide (t.tile ≤ 511)) && decide (dest ≤ 32) && decide (dest ≠ own)

/-- The frame one tile travels in (R153, 10.1). -/
def tileFrame (dest : Nat) (t : TileWrite) : HoldFrame :=
  { kind := .screenTiles, dest := dest, payload := u16 t.tile ++ t.pixels }

/-- PUT_TILES (R153). -/
def workPutTiles (dest : Nat) (tiles : List TileWrite) (s : State) : State × Answer :=
  if tilesOk s.angle.nodeId dest tiles = false then screenRefuse s .range
  else if dest = 0 then shown { s with screen := tiles.foldl (fun sc t => sc.writeTile t.tile t.pixels) s.screen }
  else if holdRoom < s.screen.hold.length + tiles.length then screenRefuse s .busy
  else shown (tiles.foldl (fun s t => s.hold (tileFrame dest t)) s)

/-- The range check of SET_GRANT (R154). -/
def grantOk (own : Nat) (f : GrantFields) : Bool :=
  decide (f.grant < 4) && decide (f.origin ≤ 32) && decide (f.origin ≠ own) && decide (f.first ≤ 511) && decide (1 ≤ f.count ∧ f.count ≤ 512)
    && decide (f.first + f.count ≤ 512)

/-- SET_GRANT (R154). -/
def workSetGrant (f : GrantFields) (s : State) : State × Answer :=
  if grantOk s.angle.nodeId f then
    let g : Grant := { origin := f.origin, first := f.first, count := f.count }
    shown { s with screen := { s.screen with grants := s.screen.grants.set (Fin.ofNat 4 f.grant) g } }
  else screenRefuse s .range

/-- A grant covers a tile of an origin. -/
def Grant.covers (g : Grant) (origin tile : Nat) : Bool := decide (g.origin = origin ∧ g.first ≤ tile ∧ tile < g.first + g.count)

/-- A SCREEN_TILES frame delivered by the ring controller (R154). -/
def State.deliverTiles (s : State) (origin : Nat) (payload : List Byte) : State :=
  let tile := fieldAt payload 0 2
  if payload.length = 258 ∧ tile ≤ 511 ∧ s.screen.grants.toList.any (fun g => g.covers origin tile) = true then
    ({ s with screen := s.screen.writeTile tile (payload.drop 2) }).runSender
  else { s with screen := { s.screen with peerRefused := bump s.screen.peerRefused } }

/-! ## The banner (R158) -/

/-- The range check of SET_BANNER (R158); a banner, as a window, is at least one tile wide and high (log 50). -/
def bannerOk (sc : Screen) (b : Banner) : Bool :=
  Rect.fits b.rect sc.cols sc.rows
    && [b.warn, b.impressionOff, b.stopRamp, b.stopFast].all fun base => decide (base + b.rect.w * b.rect.h ≤ 512)

/-- A banner stored: while it is shown before or after, the old rectangle and the new are marked. -/
def Screen.setBanner (sc : Screen) (b : Option Banner) : Screen :=
  let new : Screen := { sc with banner := b }
  if sc.bannerShown || new.bannerShown then
    match sc.banner with
    | some old => (new.markRect old.rect).markBanner
    | none => new.markBanner
  else new

/-- SET_BANNER (R158). -/
def workSetBanner (banner : Option Banner) (s : State) : State × Answer :=
  if banner.all (bannerOk s.screen) then shown { s with screen := s.screen.setBanner banner } else screenRefuse s .range

/-! ## Touches (R161, R162) -/

/-- A touch frame joins the hold queue, or is dropped when it is full (R161). -/
def State.holdTouch (s : State) (h : HoldFrame) : State :=
  if s.screen.hold.length < holdRoom then s.hold h
  else { s with screen := { s.screen with touchesDropped := bump s.screen.touchesDropped } }

/-- A touch on a window, at its position within it (R161). -/
def State.touchWindow (s : State) (w : Window) (kind : Byte) (x y : Nat) : State :=
  let px := x - 16 * w.rect.x
  let py := y - 16 * w.rect.y
  match w.touch with
  | .toHost => s.post (.touch kind (some w.id) px py none)
  | .toNode node => s.holdTouch { kind := .touch, dest := node, payload := [kind] ++ u8 w.id ++ u16 px ++ u16 py }
  | .ignore => { s with screen := { s.screen with touchesDropped := bump s.screen.touchesDropped } }

def State.badPanelMessage (s : State) : State := { s with screen := { s.screen with badPanel := bump s.screen.badPanel } }

/-- A good TOUCH is routed by the top layer at its position (R161). -/
def State.routeTouch (s : State) (kind : Byte) (x y : Nat) : State :=
  let sc := s.screen
  if 16 * sc.cols ≤ x ∨ 16 * sc.rows ≤ y then s.badPanelMessage
  else
    match sc.topLayer (x / 16) (y / 16) with
    | .banner b => s.post (.bannerTouch kind (x - 16 * b.rect.x) (y - 16 * b.rect.y) sc.headClass)
    | .window w => s.touchWindow w kind x y
    | .background => s.post (.touch kind none x y none)

/-- A TOUCH frame delivered by the ring controller (R162). -/
def State.deliverTouch (s : State) (origin : Nat) (payload : List Byte) : State :=
  s.post (.touch (byteAt payload 0) (some (byteAt payload 1).toNat) (fieldAt payload 2 2) (fieldAt payload 4 2) (some origin))

/-! ## The panel (R152, R160) -/

/-- A good STATUS: the timer starts again; in NO_PANEL the port becomes UP with every tile dirty (R152). -/
def State.panelStatus (s : State) : State :=
  let s1 : State := { s with screen := { s.screen with panelTimer := s.now } }
  if s1.screen.state = .noPanel then
    (({ s1 with screen := ({ s1.screen with state := .up }).markAll }).postScreenState).runSender
  else s1

/-- A panel message ends (R152, 10.4): a STATUS is 3 bytes, a TOUCH 8; while the port is OFF it is ignored. -/
def State.panelMessage (s : State) (bs : List Byte) : State :=
  if s.screen.state = .off then s
  else if crc16Good bs = false then s.badPanelMessage
  else if byteAt bs 0 = 1 ∧ bs.length = 3 then s.panelStatus
  else if byteAt bs 0 = 2 ∧ bs.length = 8 then s.routeTouch (byteAt bs 1) (fieldAt bs 2 2) (fieldAt bs 4 2)
  else s.badPanelMessage

/-- 500 ms, ns. -/
def panelLimit : Nat := 500000000

/-- The panel timer reaches 500 ms (R152). -/
def State.panelExpires (s : State) : State :=
  if s.screen.state = .up then
    let s1 := s.tick (s.screen.panelTimer + panelLimit)
    ({ s1 with screen := { s1.screen with state := .noPanel, panelLosses := bump s1.screen.panelLosses } }).postScreenState
  else s

/-- A tile message ends (R160). -/
def State.tileSent (s : State) : State :=
  if s.screen.inSend.isSome then
    ({ s with screen := { s.screen with inSend := none, tilesSent := bump s.screen.tilesSent } }).runSender
  else s

end Sys2Proof.Machine
end

