-- ==== Sys2Proof/Machine/Links.lean ====
section
/-! DEFINITION. The fibre ports and the ring mode (4.2, 4.3), and the ring controller's requests (4.8 to 4.10). -/

namespace Sys2Proof.Machine

/-! ## RING_STATE (R92) -/

def FibrePort.shownDelay (p : FibrePort) : Option Nat := if p.state = .up then some p.linkDelay else none

/-- RING_STATE (R92); the lost set at the line master alone, its ids in rising order (log 42). -/
def State.postRingState (s : State) : State :=
  let a := s.ring.a
  let b := s.ring.b
  s.post (.ringState a.state a.usable b.state b.usable a.shownDelay b.shownDelay s.ring.mode (if s.isMaster then some s.ring.lost else none))

/-! ## The ring mode (R72, R73) -/

/-- The mode of the usable flags of the two sides (R72). -/
def modeOf (a b : Bool) : RingMode :=
  match a, b with
  | true, true => .closed
  | true, false => .wrapB
  | false, true => .wrapA
  | false, false => .isolated

/-- An output that lost its role is flushed: drops counted by queue, the master's own CYCLE frame emitted now (R73, R84). -/
def State.flush (s : State) (o : FibreSide) : State :=
  let p := s.fibre o
  let cycles := if p.cycle.isSome then 1 else 0
  let s1 := s.setFibre o { p with urgent := [], cycle := none, forwarded := [] }
  let s2 : State := { s1 with ring := { s1.ring with
    urgentDrops := bumpBy s1.ring.urgentDrops p.urgent.length
    forwardDrops := bumpBy s1.ring.forwardDrops (cycles + p.forwarded.length) } }
  match p.cycle with
  | some q => s2.left q
  | none => s2

/-- The output had a role in the old mode and has none in the new. -/
def losesRole (old new : RingMode) (o : FibreSide) : Bool := RingMode.hasRole old o && !RingMode.hasRole new o

/-- The ring takes a new mode: flushes, RING_STATE, the condition of source 19, and the arbiters look again (R72, R73, R86).
That a TRIP frame of source 19 joins before the arbiters choose is the model's order (log 43). -/
def State.changeMode (s : State) (new : RingMode) : State :=
  let old := s.ring.mode
  let s1 : State := { s with ring := { s.ring with mode := new } }
  let s2 := if losesRole old new .a then s1.flush .a else s1
  let s3 := if losesRole old new .b then s2.flush .b else s2
  (s3.postRingState.setCondition ringWrappedSource (decide (new ≠ .closed))).arbitrateBoth

/-- The ring mode is formed again from the usable flags (R72). -/
def State.reformMode (s : State) : State :=
  let new := modeOf s.ring.a.usable s.ring.b.usable
  if new = s.ring.mode then s else s.changeMode new

/-! ## Training and loss (R69, R70) -/

/-- A DARK port with light and lock enters TRAINING (R69). -/
def State.startTraining (s : State) (side : FibreSide) : State :=
  let p := s.fibre side
  if p.state = .dark then
    (s.setFibre side { p with state := .training, idleRun := 0, samples := [], echo := none }).postRingState
  else s

/-- 2 µs without light or lock: a TRAINING or UP port enters DARK (R70). -/
def State.loseLock (s : State) (side : FibreSide) : State :=
  let p := s.fibre side
  if p.state = .dark then s
  else
    ((s.setFibre side { p with
      state := .dark, idleRun := 0, samples := [], okRun := 0, usable := false, peerOk := false }).postRingState).reformMode

/-- Training is set back: idle run 0, samples discarded (R69, R70). -/
def FibrePort.restartRun (p : FibrePort) : FibrePort := if p.state = .training then { p with idleRun := 0, samples := [] } else p

/-- Loss of light or lock for less than 2 µs (R70). -/
def State.shortLoss (s : State) (side : FibreSide) : State := s.setFibre side (s.fibre side).restartRun

/-! ## Idle sets (R68, R69, R71) -/

/-- The port's own clock at an instant, ns modulo 2^32 (log 22). -/
def clockAt (t : Nat) : BitVec 32 := BitVec.ofNat 32 t

/-- The idle set a port sends at an instant (R68). -/
def FibrePort.idleSet (p : FibrePort) (now : Nat) : IdleSet :=
  { receivingOk := decide (p.state = .up)
    timestamp := clockAt now
    echo := p.echo.map (·.1)
    hold := match p.echo with
      | some e => BitVec.ofNat 32 (now - e.2)
      | none => 0 }

/-- The port record once an idle set has been sent at an instant: its bytes, and its timestamp among those sent (R68, R69). -/
def FibrePort.sentIdle (p : FibrePort) (now : Nat) : FibrePort :=
  { p with idleOut := some (encodeIdle (p.idleSet now)), stamps := clockAt now :: p.stamps }

/-- An output not sending a frame sends an idle set (R68). -/
def State.sendIdle (s : State) (side : FibreSide) : State :=
  let p := s.fibre side
  if p.sending.isSome then s else s.setFibre side (p.sentIdle s.now)

/-- The delay sample of an idle set with an echo (R69). -/
def delaySample (arrival : Nat) (echo hold : BitVec 32) : Nat := (clockAt arrival - echo - hold).toNat / 2

/-- The idle sets a training port needs (R69). -/
def trainingRun : Nat := 8

/-- A valid idle set that echoes a timestamp of this port gives a sample; at the eighth the port is UP with the mean as its link delay (R69). -/
def FibrePort.sample (p : FibrePort) (x : Nat) : FibrePort :=
  let samples := p.samples ++ [x]
  if trainingRun ≤ p.idleRun + 1 then
    { p with state := .up, idleRun := trainingRun, samples := [], linkDelay := sat16 (samples.sum / trainingRun), okRun := 0 }
  else { p with idleRun := p.idleRun + 1, samples := samples }

/-- The OK run that makes a side usable (R71). -/
def usableRun : Nat := 16

/-- A valid idle set received in UP moves the OK run and the usable flag (R71). -/
def FibrePort.countOk (p : FibrePort) (ok : Bool) : FibrePort :=
  if ok then
    let run := bumpTo usableRun p.okRun
    { p with okRun := run, usable := if run = usableRun then true else p.usable }
  else { p with okRun := 0, usable := false }

/-- A valid idle set as the port record takes it: peer OK, the timestamp to echo, and what its state makes of it (R68). -/
def FibrePort.takeIdle (p : FibrePort) (x : IdleSet) (arrival : Nat) : FibrePort :=
  let q : FibrePort := { p with peerOk := x.receivingOk, echo := some (x.timestamp, arrival) }
  match p.state with
  | .dark => q
  | .training =>
    match x.echo with
    | some e => if p.stamps.contains e then q.sample (delaySample arrival e x.hold) else q.restartRun
    | none => q.restartRun
  | .up => q.countOk x.receivingOk

/-- An idle set arrives (R68): invalid if a symbol is bad or its check does not match. -/
def State.idleReceived (s : State) (side : FibreSide) (arrival : Nat) (symbolsGood : Bool) (bs : List Byte) : State :=
  let p := s.fibre side
  match (if symbolsGood then decodeIdle bs else none) with
  | none => s.setFibre side p.restartRun
  | some x =>
    let q := p.takeIdle x arrival
    let s1 := s.setFibre side q
    (if q.state = p.state then s1 else s1.postRingState).reformMode

/-! ## The roster (R88, R89) -/

/-- The ids 1..32 in rising order. -/
def allIds : List Nat := (List.range 32).map (· + 1)

/-- The lost set is replaced: RING_STATE at a change, and the condition of source 20 (R88, R89). -/
def State.setLost (s : State) (lost : List Nat) : State :=
  let s1 : State := { s with ring := { s.ring with lost := lost } }
  if lost = s.ring.lost then s1 else s1.postRingState.setCondition nodeLostSource (!lost.isEmpty)

/-- The absence count of an id that stays in the roster; 0 for one that joins. -/
def absenceOf (roster : List (Nat × Nat)) (id : Nat) : Nat := ((roster.find? fun r => decide (r.1 = id)).map (·.2)).getD 0

/-- SET_ROSTER (R88). -/
def workSetRoster (ids : List Nat) (s : State) : State × Answer :=
  if s.isMaster = false then refuse s .notMaster
  else if 32 < ids.length ∨ ids.any (fun i => decide (i = 0 ∨ 32 < i)) = true then refuse s .range
  else
    let roster := (allIds.filter fun i => ids.contains i).map fun i => (i, absenceOf s.ring.roster i)
    let s1 : State := { s with ring := { s.ring with roster := roster } }
    taken (s1.setLost (s.ring.lost.filter fun i => ids.contains i))

/-- A roster id judged by a returned vector: its absence count (R89). The master counts as present. -/
def judgeAbsence (v : Vector StatusSlot 32) (own : Nat) (r : Nat × Nat) : Nat × Nat :=
  (r.1, if r.1 = own ∨ (slotOf v r.1).present = true then 0 else bumpTo 3 r.2)

/-- The roster check at a returned frame (R89). -/
def State.checkRoster (s : State) (v : Vector StatusSlot 32) : State :=
  let roster := s.ring.roster.map (judgeAbsence v s.angle.nodeId)
  let s1 : State := { s with ring := { s.ring with roster := roster } }
  s1.setLost (allIds.filter fun i => roster.any fun r =>
    decide (r.1 = i) && (decide (r.2 = 3) || (s.ring.lost.contains i && decide (r.2 ≠ 0))))

/-! ## SEND_MESSAGE and READ_RING (R90, R91) -/

/-- SEND_MESSAGE (R90). -/
def workSendMessage (dest : Nat) (bytes : List Byte) (s : State) : State × Answer :=
  if dest = 0 ∨ 32 < dest ∨ dest = s.angle.nodeId ∨ bytes = [] ∨ 256 < bytes.length then refuse s .range
  else
    let x := s.originate .peerMessage dest bytes
    if x.2 then taken x.1 else refuse s .full

/-- A fibre port as READ_RING returns it. -/
def encodeFibre (p : FibrePort) : List Byte :=
  u8 (FibreState.code p.state) ++ u16 p.linkDelay ++ uFlag p.peerOk ++ u8 p.okRun ++ uFlag p.usable ++ u8 p.urgent.length
    ++ u8 (if p.cycle.isSome then 1 else 0) ++ u8 p.forwarded.length

/-- READ_RING (R91); at a member the roster and the lost set read as empty. The rising order of the ids is the model's (log 42). -/
def workReadRing (s : State) : State × Answer :=
  let r := s.ring
  let roster := if s.isMaster then r.roster else []
  let lost := if s.isMaster then r.lost else []
  answered s (encodeFibre r.a ++ encodeFibre r.b ++ u8 (RingMode.code r.mode) ++ u8 r.localQueue.length ++ u8 r.tripSequence.toNat
    ++ uFlag r.restartFlag ++ u16 r.bulkSequence.toNat ++ u16 r.a.crcErrors ++ u16 r.b.crcErrors ++ u16 r.forwardDrops ++ u16 r.strays
    ++ u16 r.urgentDrops ++ u16 r.duplicates ++ u16 s.angle.foreignMaster ++ u16 s.angle.alignLate
    ++ uList (fun x : Nat × Nat => u8 x.1 ++ u8 x.2) roster ++ uList u8 lost)

end Sys2Proof.Machine
end

