-- ==== Sys2Proof/Machine/Arrival.lean ====
section
/-! DEFINITION. Ring frames on arrival (4.4, 4.5), cycle frames at a member and at the master (R5, R6, R9, R15, R83), and the master's
cycle timer (R14). -/

namespace Sys2Proof.Machine

/-! ## Cycle frames at a member (R5, R6, R9, R11) -/

/-- A cycle frame handed to the angle unit: its origin, number and fields, arrival instant and frame delay (R76). -/
structure CycleArrival where
  origin : Nat
  number : Num16
  fields : CycleFields
  arrival : Nat
  delay : Nat
deriving DecidableEq, Repr

/-- The number is newer than the record's (R5). -/
def newer (number last : Num16) : Bool := decide (1 ≤ (number - last).toNat ∧ (number - last).toNat ≤ 32767)

/-- The predicted angle of the step check (R9). -/
def AngleRecord.predicted (a : AngleRecord) (number : Num16) : Angle :=
  a.lastA + BitVec.ofNat 24 (a.v * (number - a.cycleNumber).toNat)

/-- The step check (R9). -/
def AngleRecord.stepOk (a : AngleRecord) (x : CycleArrival) : Bool :=
  decide ((sdiff x.fields.aM (a.predicted x.number)).natAbs ≤ a.stepTolerance)

/-- The record after a frame is accepted (R6). -/
def AngleRecord.accept (a : AngleRecord) (x : CycleArrival) : AngleRecord :=
  { a with
    state := .tracking
    masterOrigin := some x.origin
    cycleNumber := x.number
    aM := x.fields.aM
    lastA := x.fields.aM
    v := x.fields.v
    frameRevolution := x.fields.revolution
    lineState := x.fields.lineState
    period := x.fields.period
    vector := x.fields.vector
    frameDelay := x.delay
    expectedArrival := some (x.arrival + x.fields.period.ns)
    coastCount := 0
    newBase := if a.state = .none ∨ a.state = .lost then true else a.newBase
    ownTimer := none }

/-- The base of an accepted frame: t_b the arrival, t_0 the arrival less D (R11); ALIGN_LATE counts a late update 0. -/
def State.frameBase (s : State) (x : CycleArrival) : State :=
  let a := s.angle
  let b := a.makeBase a.aM a.v a.period a.frameRevolution ((x.arrival : Int) - x.delay)
  ({ s with angle := { a with alignLate := if b.late x.arrival then bump a.alignLate else a.alignLate } }).formBase b x.arrival

/-- A member accepts a frame (R6), its effects in the rule's order. That the vector is taken before the condition of source 16 drops is the
model's order (log 44). -/
def State.acceptCycle (s : State) (x : CycleArrival) : State :=
  let before := s.angle
  let s1 := ({ s with angle := before.accept x }).frameBase x
  let s2 := s1.takeVector x.fields.vector
  let s3 := if x.fields.lineState ≠ before.lineState then s2.postLineState else s2
  let s4 := s3.setCondition angleLostSource false
  if before.state = .tracking then s4 else s4.postAngleState

/-- The frame is dropped for its origin (R5). -/
def State.dropForeign (s : State) : State :=
  { s with angle := { s.angle with foreignMaster := bump s.angle.foreignMaster } }

/-- A CYCLE frame of another node is handed to the angle unit (R5, R9). -/
def State.deliverCycle (s : State) (x : CycleArrival) : State :=
  if s.isMaster then s.dropForeign
  else
    match s.angle.state with
    | .none => s.acceptCycle x
    | .lost => s.acceptCycle x
    | .tracking =>
      if s.angle.masterOrigin ≠ some x.origin then s.dropForeign
      else if newer x.number s.angle.cycleNumber then s.acceptCycle x
      else s
    | .coasting =>
      if s.angle.masterOrigin ≠ some x.origin then s.dropForeign
      else if newer x.number s.angle.cycleNumber then
        if s.angle.stepOk x then s.acceptCycle x else s.enterLost.acceptCycle x
      else s

/-! ## The return at the master (R15, R83, R89) -/

/-- Present is cleared in every slot but the master's own whose pass mark differs from the number modulo 2 (R83). -/
def clearStale (v : Vector StatusSlot 32) (own : Nat) (number : Num16) : Vector StatusSlot 32 :=
  Vector.ofFn fun i => if i.val + 1 ≠ own ∧ v[i].passMark ≠ number.getLsbD 0 then { v[i] with present := false } else v[i]

/-- The frame last handed over has returned (R15). That the trip unit takes the vector before the roster is checked (R89) is the model's
order (log 44). -/
def State.cycleReturned (s : State) (v : Vector StatusSlot 32) (delay : Nat) : State :=
  let s1 : State := { s with
    master := { s.master with returned := true, ringDelay := delay }
    angle := { s.angle with vector := v } }
  (s1.takeVector v).checkRoster v

/-- A CYCLE frame of own origin comes back (R15, R75): it counts at the master, if it is the frame last emitted. -/
def State.returnCycle (s : State) (number : Num16) (c : CycleFields) (delay : Nat) : State :=
  if s.isMaster = true ∧ s.master.lastHanded = some number then s.cycleReturned (clearStale c.vector s.angle.nodeId number) delay
  else s

/-! ## Trip frames (R81) -/

/-- The sequence of a trip frame is accepted against the memory of its origin (R81). -/
def sequenceAccepted (memory : Option (BitVec 8)) (restart : Bool) (q : BitVec 8) : Bool :=
  match memory with
  | none => true
  | some l => if restart then decide (q ≠ l) else decide (1 ≤ (q - l).toNat ∧ (q - l).toNat ≤ 127)

/-- The memory of an origin; none outside 1..32. -/
def Ring.memoryOf (r : Ring) (origin : Nat) : Option (BitVec 8) := if h : origin - 1 < 32 then r.memory[origin - 1] else none

def Ring.remember (r : Ring) (origin : Nat) (q : BitVec 8) : Ring :=
  if h : origin - 1 < 32 then { r with memory := r.memory.set (origin - 1) (some q) } else r

/-- A TRIP or TRIP_CLEAR frame at its delivery step (R75, R81). -/
def State.deliverTripFrame (s : State) (f : Frame) : State :=
  let q : BitVec 8 := f.seq.setWidth 8
  if sequenceAccepted (s.ring.memoryOf f.origin) f.restart q then
    let s1 : State := { s with ring := s.ring.remember f.origin q }
    if f.kind = .trip then s1.deliverTrip f.origin f.payload else s1.deliverTripClear f.origin f.payload
  else { s with ring := { s.ring with duplicates := bump s.ring.duplicates } }

/-! ## The primary path (R75, R76, R173) -/

def State.countStray (s : State) : State := { s with ring := { s.ring with strays := bump s.ring.strays } }

/-- A frame on an input: the frame with its arrival instant and the link delay of the port it came in on. -/
structure Arrived where
  frame : Frame
  arrival : Nat
  linkDelay : Nat
deriving DecidableEq, Repr

/-- The frame delay: D_acc carried plus the link delay, saturated (R76). -/
def Arrived.delay (x : Arrived) : Nat := sat16 ((decodeCycle x.frame.payload).dAcc + x.linkDelay)

/-- A frame is handed to the block that owns its kind (R76). -/
def State.deliver (s : State) (x : Arrived) : State :=
  let f := x.frame
  match f.kind with
  | .cycle =>
    s.deliverCycle { origin := f.origin, number := f.seq, fields := decodeCycle f.payload, arrival := x.arrival, delay := x.delay }
  | .trip => s.deliverTripFrame f
  | .tripClear => s.deliverTripFrame f
  | .trimStep => s.deliverTrimStep f.payload
  | .imageLine => s.deliverImageLine f.origin f.payload
  | .screenTiles => s.deliverTiles f.origin f.payload
  | .touch => s.deliverTouch f.origin f.payload
  | .peerMessage => s.post (.peerMessage f.origin f.seq f.payload)

/-- The frame is of a broadcast kind (4.1). -/
def FrameKind.broadcast (k : FrameKind) : Bool := decide (k = .cycle ∨ k = .trip ∨ k = .tripClear)

/-- The frame is delivered here (R75 step 3). -/
def delivered (own : Nat) (f : Frame) : Bool := decide (f.dest = own) || (FrameKind.broadcast f.kind && decide (f.dest = 0))

/-- A frame of own origin on the primary path is removed (R75 step 1). -/
def State.ownReturned (s : State) (x : Arrived) : State :=
  match x.frame.kind with
  | .cycle => s.returnCycle x.frame.seq (decodeCycle x.frame.payload) x.delay
  | .trip => { s with ring := { s.ring with restartFlag := false } }
  | .tripClear => { s with ring := { s.ring with restartFlag := false } }
  | _ => s

/-- The frame is forwarded with its hop count raised, to the processing output (R75 step 4). -/
def State.forwardFrame (s : State) (x : Arrived) : State :=
  let f : Frame := { x.frame with hop := x.frame.hop + 1 }
  match RingMode.processingOutput s.ring.mode with
  | some o => s.joinByClass o f.kind (.primary f x.arrival x.linkDelay)
  | none => s.dropForward

/-- A good frame on the processing input (R173, R75). -/
def State.processFrame (s : State) (x : Arrived) : State :=
  let f := x.frame
  let own := s.angle.nodeId
  if frameStray f then s.countStray
  else if f.origin = own then s.ownReturned x
  else if 32 ≤ f.hop then s.countStray
  else
    let s1 := if delivered own f then s.deliver x else s
    if f.dest = own then s1 else s1.forwardFrame x

/-- A good frame on the pass-through input (R77). -/
def State.passFrame (s : State) (x : Arrived) : State :=
  if x.frame.reverse = 31 then s.countStray
  else
    match RingMode.passOutput s.ring.mode with
    | some o => s.joinByClass o x.frame.kind (.reverse x.frame x.arrival x.linkDelay)
    | none => s.dropForward

/-- The pass-through input of a mode (R72). -/
def RingMode.passInput : RingMode → Option FibreSide
  | .closed => some .b
  | _ => none

/-- A good frame goes on by its input's role (R74). -/
def State.takeFrame (s : State) (side : FibreSide) (arrival : Nat) (bs : List Byte) : State :=
  let processing := decide (RingMode.processingInput s.ring.mode = some side)
  let passing := decide (RingMode.passInput s.ring.mode = some side)
  if processing || passing then
    match decodeFrame bs with
    | none => s.countStray
    | some f =>
      let x : Arrived := { frame := f, arrival := arrival, linkDelay := (s.fibre side).linkDelay }
      if processing then s.processFrame x else s.passFrame x
  else s.dropForward

/-- A receiver closes a frame (R74): in UP it is checked; in TRAINING it sets the training back (R69); in DARK none is taken. -/
def State.frameArrives (s : State) (side : FibreSide) (arrival : Nat) (bs : List Byte) : State :=
  let p := s.fibre side
  match p.state with
  | .dark => s
  | .training => s.setFibre side p.restartRun
  | .up =>
    if frameBad bs then s.setFibre side { p with crcErrors := bump p.crcErrors } else s.takeFrame side arrival bs

/-! ## The master's cycle timer (R14, R15) -/

/-- The frame last emitted returned: misses 0, return loss cleared (R15). -/
def State.judgeReturned (s : State) : State :=
  let loss := s.master.returnLoss
  let s1 : State := { s with master := { s.master with returnMisses := 0, returnLoss := false } }
  if loss then (s1.setCondition angleLostSource false).postAngleState else s1

/-- The frame last emitted did not return: a miss, and return loss at the coast limit (R15). -/
def State.judgeMissed (s : State) : State :=
  let misses := bumpTo 8 s.master.returnMisses
  let s1 : State := { s with master := { s.master with returnMisses := misses } }
  if s.master.returnLoss = false ∧ s.angle.coastLimit ≤ misses then
    (({ s1 with master := { s1.master with returnLoss := true } }).setCondition angleLostSource true).postAngleState
  else s1

/-- The master judges the frame last emitted, if one was (R15). -/
def State.judgeReturn (s : State) : State :=
  if s.master.lastHanded = none then s else if s.master.returned then s.judgeReturned else s.judgeMissed

/-- An own CYCLE frame still waiting at an output is discarded, and so emitted, before its successor is built (R84, R85, log 15). -/
def State.discardOwnCycle (s : State) (o : FibreSide) : State :=
  match (s.fibre o).cycle with
  | some (.ownCycle number c) => ((s.setFibre o { s.fibre o with cycle := none }).dropForward).emitted number c
  | _ => s

/-- The frame that the next one replaces in the CYCLE queue of the processing output is discarded (R85). An own frame that waits at an
output which a change of mode has made the pass-through output stays there and goes on (R73, log 15). -/
def State.discardReplaced (s : State) : State :=
  match RingMode.processingOutput s.ring.mode with
  | some o => s.discardOwnCycle o
  | none => s

/-- The status vector of the next frame (R14). The fields beside present of the slots sent absent are the model's choice (log 46). -/
def State.sentVector (s : State) : Vector StatusSlot 32 :=
  if s.master.returned then s.angle.vector else Vector.replicate 32 {}

/-- The fields of the frame the master hands over (R14). -/
def State.nextCycle (s : State) : CycleFields :=
  { period := s.master.pendingPeriod.getD s.angle.period
    lineState := s.angle.lineState
    aM := s.master.nextA
    revolution := s.master.nextRevolution
    v := s.master.nextV
    dAcc := 0
    vector := s.sentVector }

/-- Handing over: the pending T_c comes into force, returned is no, the timer starts again (R14). -/
def State.handOver (s : State) (due : Nat) : State :=
  let period := s.master.pendingPeriod.getD s.angle.period
  { s with
    angle := { s.angle with period := period }
    master := { s.master with
      pendingPeriod := none
      returned := false
      lastHanded := some s.master.nextCycle
      cycleTimer := some (due + period.ns) } }

/-- The cycle frame goes to the ring; in ISOLATED it is discarded and so emitted now (R84, R85). -/
def State.sendCycle (s : State) (number : Num16) (c : CycleFields) : State :=
  match RingMode.processingOutput s.ring.mode with
  | some o => s.joinCycle o (.ownCycle number c)
  | none => s.emitted number c

/-- The cycle timer expires (R14). -/
def State.cycleExpires (s : State) : State :=
  match s.master.cycleTimer with
  | none => s
  | some due =>
    let s1 := ((s.tick due).judgeReturn).discardReplaced
    (s1.handOver due).sendCycle s1.master.nextCycle s1.nextCycle

end Sys2Proof.Machine
end

