-- ==== Sys2Proof/Machine/Flags.lean ====
section
/-! DEFINITION. The flags of a reply (R165, 10.5). -/

namespace Sys2Proof.Machine

/-- The flags byte of a reply: bit 0 NOTICES_PENDING, bit 1 NOTICE_OVERFLOW, bit 2 REPLY_LOST. -/
def replyFlags (pending overflow lost : Bool) : Nat :=
  (if pending then 1 else 0) + (if overflow then 2 else 0) + (if lost then 4 else 0)

/-- The flags of a reply formed now to an answer; a FETCH_NOTICE shows the overflow field as it found it (R169). Where the field was clear
then and has been set since (R165), the flag is set: the model's choice (log 48). -/
def State.flagsOf (s : State) (a : Answer) : Nat :=
  replyFlags (!s.ctl.notices.isEmpty) (s.ctl.overflow || a.overflowBefore) s.ctl.lostMark

end Sys2Proof.Machine
end

