-- ==== Sys2Proof/Machine/Operands.lean ====
section
/-! DEFINITION. The bodies of requests (10.5, R174): the kind codes, and the fields a body of an allowed length spells. A body that
no allowed length fits, or that holds a named value beyond its list, spells no request (R165 case 3, R174). -/

namespace Sys2Proof.Machine

/-! ## Kind codes (10.5) -/

def Request.code : Request → Byte
  | .identify => 0x01
  | .status => 0x02
  | .keepalive => 0x03
  | .setKeepalive _ => 0x04
  | .setCycle _ => 0x10
  | .setRamp _ => 0x11
  | .setSpeed _ => 0x12
  | .start => 0x13
  | .stop => 0x14
  | .readLine => 0x15
  | .setAxis _ => 0x20
  | .gearChangeSmooth _ => 0x21
  | .gearChangeJump _ => 0x21
  | .setPhase _ => 0x22
  | .setTrim _ => 0x23
  | .couple _ => 0x24
  | .release _ => 0x25
  | .readAxis _ => 0x26
  | .setPortEnable _ => 0x30
  | .setPortDisable _ => 0x30
  | .resetPort _ => 0x31
  | .portService _ => 0x32
  | .readPort _ => 0x33
  | .setTripSource _ => 0x40
  | .ackTrip _ => 0x41
  | .raiseTrip _ _ => 0x42
  | .readTrips => 0x43
  | .setRoster _ => 0x50
  | .sendMessage _ _ => 0x51
  | .readRing => 0x52
  | .setCamera _ => 0x60
  | .setCapture _ => 0x61
  | .setStream _ => 0x62
  | .setMap _ => 0x63
  | .enableMap _ _ => 0x64
  | .readStoreSlot _ _ => 0x65
  | .readStoreSummary _ => 0x65
  | .setMarkChannel _ => 0x68
  | .setMarkUnit _ => 0x68
  | .readMarks => 0x69
  | .setScreen _ => 0x70
  | .setWindow _ => 0x71
  | .raiseWindow _ => 0x72
  | .removeWindow _ => 0x73
  | .putTiles _ _ => 0x74
  | .setGrant _ => 0x75
  | .setBanner _ => 0x76
  | .fetchNotice => 0x7A
  | .restart => 0x7B

/-- The kinds of requests there are. -/
def requestKinds : List Byte :=
  [0x01, 0x02, 0x03, 0x04, 0x10, 0x11, 0x12, 0x13, 0x14, 0x15, 0x20, 0x21, 0x22, 0x23, 0x24, 0x25, 0x26, 0x30, 0x31, 0x32, 0x33,
    0x40, 0x41, 0x42, 0x43, 0x50, 0x51, 0x52, 0x60, 0x61, 0x62, 0x63, 0x64, 0x65, 0x68, 0x69, 0x70, 0x71, 0x72, 0x73, 0x74, 0x75,
    0x76, 0x7A, 0x7B]

/-- The kinds whose every reply carries the screen summary (R163). -/
def screenKinds : List Byte := [0x70, 0x71, 0x72, 0x73, 0x74, 0x75, 0x76]

/-! ## Fields -/

/-- The byte at `i` as a number. -/
def natAt (bs : List Byte) (i : Nat) : Nat := (byteAt bs i).toNat

/-- A flag, or a value of a list of two, at `i`: the first value is 0 (R174). -/
def firstAt (bs : List Byte) (i : Nat) : Option Bool :=
  if natAt bs i = 0 then some true else if natAt bs i = 1 then some false else none

/-- A signed field of 2 bytes. -/
def signed16At (bs : List Byte) (i : Nat) : Int := (BitVec.ofNat 16 (fieldAt bs i 2)).toInt

/-- The body is `n` bytes long. -/
def sized {α : Type} (bs : List Byte) (n : Nat) (x : Option α) : Option α := if bs.length = n then x else none

/-- The class of a code; codes above 4 are beyond the list. -/
def classAt (bs : List Byte) (i : Nat) : Option TripClass := if natAt bs i ≤ 4 then some (classOf (natAt bs i)) else none

def conditioningAt (bs : List Byte) (i : Nat) : Option Conditioning :=
  match natAt bs i with
  | 0 => some .levelLow
  | 1 => some .levelHigh
  | 2 => some .edgeFall
  | 3 => some .edgeRise
  | _ => none

/-- T_c of SET_CYCLE: the four periods, then KEEP (R4). -/
def periodAt (bs : List Byte) (i : Nat) : Option (Option Period) :=
  if natAt bs i ≤ 3 then some (some (periodOf (natAt bs i))) else if natAt bs i = 4 then some none else none

def windowKindAt (bs : List Byte) (i : Nat) : Option WindowKind := (firstAt bs i).map fun b => if b then .tiles else .webview

/-- The touch mode at `i` with the number of bytes it takes: a node follows REMOTE alone (log 10). -/
def touchModeAt (bs : List Byte) (i : Nat) : Option (TouchMode × Nat) :=
  match natAt bs i with
  | 0 => some (.toHost, 1)
  | 1 => some (.toNode (natAt bs (i + 1)), 2)
  | 2 => some (.ignore, 1)
  | _ => none

def rectAt (bs : List Byte) (i : Nat) : Rect := { x := natAt bs i, y := natAt bs (i + 1), w := natAt bs (i + 2), h := natAt bs (i + 3) }

/-! ## Bodies -/

def parseSetCycle (b : List Byte) : Option Request :=
  sized b 9 ((periodAt b 0).map fun p =>
    .setCycle { period := p, k := natAt b 1, lAlign := fieldAt b 2 3, coastLimit := natAt b 5, stepTolerance := fieldAt b 6 3 })

def parseSetRamp (b : List Byte) : Option Request :=
  sized b 9 (some (.setRamp { vMax := fieldAt b 0 3, aUp := fieldAt b 3 2, aDown := fieldAt b 5 2, aTrip := fieldAt b 7 2 }))

/-- SET_AXIS (R25): the axis, the binding, and five fields after it from `i` on. That the axis number comes first is the model's choice
(log 40). How an unbound axis is written is left open: the model
takes the binding as an optional field behind its presence byte, so a body has 14 or 16 bytes (log 32). -/
def parseSetAxis (b : List Byte) : Option Request :=
  let rest (binding : Option (Nat × Nat)) (i : Nat) : Option Request :=
    sized b (i + 12) ((firstAt b (i + 11)).map fun acc =>
      .setAxis
        { axis := natAt b 0
          binding := binding
          slew := fieldAt b i 2
          trimLimit := fieldAt b (i + 2) 3
          catchLimit := fieldAt b (i + 5) 3
          followLimit := fieldAt b (i + 8) 3
          accept := acc })
  match natAt b 1 with
  | 0 => rest none 2
  | 1 => rest (some (natAt b 2, natAt b 3)) 4
  | _ => none

def parseGearChange (b : List Byte) : Option Request :=
  let f : GearFields := { axis := natAt b 0, n := signed16At b 2, d := fieldAt b 4 2, angle := BitVec.ofNat 24 (fieldAt b 6 3) }
  sized b 9 ((firstAt b 1).map fun smooth => if smooth then .gearChangeSmooth f else .gearChangeJump f)

/-- The body of SET_PHASE and SET_TRIM (R37, R38), which name the value of one axis and list no fields: the model takes the axis number
first, then the value (log 40). -/
def parseOffset (b : List Byte) : Option OffsetFields := sized b 4 (some { axis := natAt b 0, value := signed24At b 1 })

/-- SET_PORT; enable is 0 and disable 1, the model's choice (log 51). -/
def parseSetPort (b : List Byte) : Option Request :=
  let f : PortFields := { port := natAt b 0, divider := natAt b 2, missLimit := natAt b 3 }
  sized b 4 ((firstAt b 1).map fun enable => if enable then .setPortEnable f else .setPortDisable f)

def parsePortService (b : List Byte) : Option Request :=
  if 3 ≤ b.length ∧ b.length = 3 + natAt b 2 then some (.portService { port := natAt b 0, sub := natAt b 1, payload := b.drop 3 })
  else none

def parseSetTripSource (b : List Byte) : Option Request :=
  sized b 6 (do
    let enable ← firstAt b 1
    let cls ← classAt b 2
    let conditioning ← conditioningAt b 4
    some (.setTripSource
      { source := natAt b 0, enable := enable, cls := cls, priority := natAt b 3, conditioning := conditioning, filter := natAt b 5 }))

/-- ACK_TRIP: the list as an optional field; absent is ALL (log 8). -/
def parseAckTrip (b : List Byte) : Option Request :=
  match natAt b 0 with
  | 0 => sized b 1 (some (.ackTrip none))
  | 1 => if 2 ≤ b.length ∧ b.length = 2 + natAt b 1 then some (.ackTrip (some ((b.drop 2).map (·.toNat)))) else none
  | _ => none

def parseRaiseTrip (b : List Byte) : Option Request := sized b 2 ((firstAt b 1).map fun set => .raiseTrip (natAt b 0) set)

/-- SET_ROSTER: 0 to 32 ids, so a body of 1 to 33 bytes (R88, R165 case 3). -/
def parseSetRoster (b : List Byte) : Option Request :=
  if 1 ≤ b.length ∧ b.length ≤ 33 ∧ b.length = 1 + natAt b 0 then some (.setRoster ((b.drop 1).map (·.toNat))) else none

/-- SEND_MESSAGE: the count byte holds the number of bytes modulo 256 (log 9). -/
def parseSendMessage (b : List Byte) : Option Request :=
  if 2 ≤ b.length ∧ b.length ≤ 258 ∧ (b.length - 2) % 256 = natAt b 1 then some (.sendMessage (natAt b 0) (b.drop 2)) else none

def parseSetCamera (b : List Byte) : Option Request :=
  sized b 6 ((firstAt b 0).map fun on => .setCamera { on := on, width := fieldAt b 1 2, pitch := fieldAt b 3 3 })

def parseSetCapture (b : List Byte) : Option Request :=
  sized b 4 (some (.setCapture { decimation := natAt b 0, hStep := natAt b 1, stride := fieldAt b 2 2 }))

/-- The entry writes of four bytes each that a list of bytes spells; none if a flag is beyond its list. -/
def parseWrites : List Byte → Option (List EntryWrite)
  | [] => some []
  | p :: v :: w :: q :: rest => do
    let valid ← firstAt [v] 0
    let protect ← firstAt [w] 0
    let ws ← parseWrites rest
    some ({ page := p.toNat, valid := valid, writeProtect := protect, physical := q.toNat } :: ws)
  | _ => none

/-- SET_MAP: the map, the geometry as an optional field (KEEP is absent), the list of entry writes. -/
def parseSetMap (b : List Byte) : Option Request :=
  let rest (g : Option Geometry) (i : Nat) : Option Request :=
    if i + 1 ≤ b.length ∧ b.length = i + 1 + 4 * natAt b i then
      (parseWrites (b.drop (i + 1))).map fun ws => .setMap { map := natAt b 0, geometry := g, writes := ws }
    else none
  match natAt b 1 with
  | 0 => rest none 2
  | 1 => rest (some { origin := natAt b 2, stride := fieldAt b 3 2, slotCount := fieldAt b 5 2 }) 7
  | _ => none

def parseEnableMap (b : List Byte) : Option Request := sized b 2 ((firstAt b 1).map fun active => .enableMap (natAt b 0) active)

/-- READ_STORE: the map, the slot as an optional field. -/
def parseReadStore (b : List Byte) : Option Request :=
  match natAt b 1 with
  | 0 => sized b 2 (some (.readStoreSummary (natAt b 0)))
  | 1 => sized b 4 (some (.readStoreSlot (natAt b 0) (fieldAt b 2 2)))
  | _ => none

/-- SET_MARK in its channel form, 30 bytes, or its unit form, 3 bytes. -/
def parseSetMark (b : List Byte) : Option Request :=
  if b.length = 3 then some (.setMarkUnit (fieldAt b 0 3))
  else
    sized b 30 (do
      let on ← firstAt b 1
      let flag ← firstAt b 29
      some (.setMarkChannel
        { channel := natAt b 0
          on := on
          c0 := fieldAt b 2 2
          c1 := fieldAt b 4 2
          threshold := natAt b 6
          width := natAt b 7
          g0 := fieldAt b 8 3
          g1 := fieldAt b 11 3
          spacing := signed24At b 14
          span := fieldAt b 17 3
          gain := fieldAt b 20 2
          deadband := fieldAt b 22 2
          stepClamp := fieldAt b 24 2
          node := natAt b 26
          axis := natAt b 27
          lostLimit := natAt b 28
          tripFlag := flag }))

/-- SET_SCREEN; enable is 0 and disable 1, the model's choice (log 51). -/
def parseSetScreen (b : List Byte) : Option Request :=
  sized b 4 ((firstAt b 0).map fun enable => .setScreen { enable := enable, cols := natAt b 1, rows := natAt b 2, background := natAt b 3 })

def parseSetWindow (b : List Byte) : Option Request := do
  let kind ← windowKindAt b 5
  let touch ← touchModeAt b 17
  let freeze ← firstAt b (17 + touch.2)
  let visible ← firstAt b (18 + touch.2)
  sized b (19 + touch.2) (some (.setWindow
    { id := natAt b 0
      rect := rectAt b 1
      kind := kind
      tileBase := fieldAt b 6 2
      map := natAt b 8
      line0 := fieldAt b 9 2
      col0 := fieldAt b 11 2
      vStep := natAt b 13
      hStep := natAt b 14
      greyBase := natAt b 15
      staleIndex := natAt b 16
      touch := touch.1
      freeze := freeze
      visible := visible }))

/-- The tile at `i` of a PUT_TILES: a number of 2 bytes and 256 indices. -/
def tileWriteAt (b : List Byte) (i : Nat) : TileWrite := { tile := fieldAt b i 2, pixels := (b.drop (i + 2)).take 256 }

def parsePutTiles (b : List Byte) : Option Request :=
  if 2 ≤ b.length ∧ b.length = 2 + 258 * natAt b 1 then
    some (.putTiles (natAt b 0) ((List.range (natAt b 1)).map fun k => tileWriteAt b (2 + 258 * k)))
  else none

def parseSetGrant (b : List Byte) : Option Request :=
  sized b 6 (some (.setGrant { grant := natAt b 0, origin := natAt b 1, first := fieldAt b 2 2, count := fieldAt b 4 2 }))

/-- SET_BANNER: the banner as an optional field (NONE is absent, log 8), its rectangle and bases behind one presence byte (log 41). -/
def parseSetBanner (b : List Byte) : Option Request :=
  match natAt b 0 with
  | 0 => sized b 1 (some (.setBanner none))
  | 1 =>
    sized b 13 (some (.setBanner (some
      { rect := rectAt b 1, warn := fieldAt b 5 2, impressionOff := fieldAt b 7 2, stopRamp := fieldAt b 9 2, stopFast := fieldAt b 11 2 })))
  | _ => none

/-- The request of an empty body. -/
def bare (b : List Byte) (r : Request) : Option Request := sized b 0 (some r)

/-- The request of a body of one byte. -/
def oneByte (b : List Byte) (r : Nat → Request) : Option Request := sized b 1 (some (r (natAt b 0)))

/-- The well-formed request of a kind and a body. -/
def parseRequest (kind : Byte) (b : List Byte) : Option Request :=
  match kind.toNat with
  | 0x01 => bare b .identify
  | 0x02 => bare b .status
  | 0x03 => bare b .keepalive
  | 0x04 => sized b 4 (some (.setKeepalive { minimum := fieldAt b 0 2, maximum := fieldAt b 2 2 }))
  | 0x10 => parseSetCycle b
  | 0x11 => parseSetRamp b
  | 0x12 => sized b 3 (some (.setSpeed (fieldAt b 0 3)))
  | 0x13 => bare b .start
  | 0x14 => bare b .stop
  | 0x15 => bare b .readLine
  | 0x20 => parseSetAxis b
  | 0x21 => parseGearChange b
  | 0x22 => (parseOffset b).map .setPhase
  | 0x23 => (parseOffset b).map .setTrim
  | 0x24 => oneByte b .couple
  | 0x25 => oneByte b .release
  | 0x26 => oneByte b .readAxis
  | 0x30 => parseSetPort b
  | 0x31 => oneByte b .resetPort
  | 0x32 => parsePortService b
  | 0x33 => oneByte b .readPort
  | 0x40 => parseSetTripSource b
  | 0x41 => parseAckTrip b
  | 0x42 => parseRaiseTrip b
  | 0x43 => bare b .readTrips
  | 0x50 => parseSetRoster b
  | 0x51 => parseSendMessage b
  | 0x52 => bare b .readRing
  | 0x60 => parseSetCamera b
  | 0x61 => parseSetCapture b
  | 0x62 => oneByte b .setStream
  | 0x63 => parseSetMap b
  | 0x64 => parseEnableMap b
  | 0x65 => parseReadStore b
  | 0x68 => parseSetMark b
  | 0x69 => bare b .readMarks
  | 0x70 => parseSetScreen b
  | 0x71 => parseSetWindow b
  | 0x72 => oneByte b .raiseWindow
  | 0x73 => oneByte b .removeWindow
  | 0x74 => parsePutTiles b
  | 0x75 => parseSetGrant b
  | 0x76 => parseSetBanner b
  | 0x7A => bare b .fetchNotice
  | 0x7B => bare b .restart
  | _ => none

/-- What a request record is judged to be (R165). -/
inductive Judged where
  | badFrame
  | unknown
  | range
  | wellFormed (r : Request)
deriving DecidableEq, Repr

/-- The record without its start byte is malformed (R165 case 1). -/
def malformed (bs : List Byte) : Bool :=
  decide (bs.length < 6) || decide (1040 < fieldAt bs 0 2) || decide (bs.length < fieldAt bs 0 2 + 6)
    || !crc16Good (bs.take (fieldAt bs 0 2 + 6))

/-- The record received, without its start byte, is judged: the first case that applies decides (R165). -/
def judge (bs : List Byte) : Judged :=
  if malformed bs then .badFrame
  else if requestKinds.contains (byteAt bs 2) = false then .unknown
  else
    match parseRequest (byteAt bs 2) ((bs.drop 4).take (fieldAt bs 0 2)) with
    | some r => .wellFormed r
    | none => .range

end Sys2Proof.Machine
end

