-- ==== Sys2Proof/Machine/ControlPort.lean ====
section
/-! DEFINITION. The control port (chapter 9): its own requests, the working of any request, transactions, replies and resets. -/

namespace Sys2Proof.Machine

/-! ## IDENTIFY and STATUS (R167) -/

/-- IDENTIFY (R167). -/
def workIdentify (s : State) : State × Answer :=
  answered s (identityBytes ++ u8 s.angle.nodeId ++ u8 (Role.code s.angle.role) ++ u8 (ResetCause.code s.ctl.cause))

/-- The number of axes in a state. -/
def State.axesIn (s : State) (st : AxisState) : Nat := (axisNumbers.filter fun i => decide ((s.axis i).state = st)).length

/-- STATUS (R167). -/
def workStatus (s : State) : State × Answer :=
  answered s (u8 (AngleState.code s.angle.state) ++ u8 (LineState.code s.angle.lineState) ++ u8 s.trips.effective.code
    ++ u8 s.trips.localList.length ++ u8 s.trips.remote.length ++ uFlag s.trips.impressionOff ++ u8 (RingMode.code s.ring.mode)
    ++ portNumbers.flatMap (fun p => u8 (PortState.code (s.port p).state)) ++ u8 (s.axesIn .free) ++ u8 (s.axesIn .catching)
    ++ u8 (s.axesIn .coupled) ++ u8 (s.axesIn .inhibited) ++ u8 (ScreenState.code s.screen.state) ++ u8 s.ctl.notices.length
    ++ uFlag s.ctl.overflow ++ u8 (WindowState.code s.trips.window))

/-! ## FETCH_NOTICE and RESTART (R169, R171) -/

/-- The most notices one fetch returns, and the bytes its records may take beside the two counts (R169, 10.6). -/
def fetchLimit : Nat := 8
def fetchRoom : Nat := 1038

/-- How many of the oldest notices fit: at most `n`, their records within `room` bytes. -/
def fetchCount : Nat → Nat → List Notice → Nat
  | _, _, [] => 0
  | 0, _, _ :: _ => 0
  | n + 1, room, x :: l => if x.record.length ≤ room then fetchCount n (room - x.record.length) l + 1 else 0

/-- FETCH_NOTICE (R169). -/
def workFetchNotice (s : State) : State × Answer :=
  let n := fetchCount fetchLimit fetchRoom s.ctl.notices
  let left := s.ctl.notices.drop n
  ({ s with ctl := { s.ctl with notices := left, overflow := if left.isEmpty then false else s.ctl.overflow } },
    { status := .ok
      body := u8 left.length ++ uList Notice.record (s.ctl.notices.take n)
      overflowBefore := s.ctl.overflow })

/-- RESTART (R171). -/
def workRestart (s : State) : State × Answer := taken { s with ctl := { s.ctl with restartPending := true } }

/-! ## Working a request -/

/-- A well-formed request acts on its block (R165). -/
def workRequest (r : Request) (s : State) : State × Answer :=
  match r with
  | .identify => workIdentify s
  | .status => workStatus s
  | .keepalive => workKeepalive s
  | .setKeepalive f => workSetKeepalive f s
  | .setCycle f => workSetCycle f s
  | .setRamp f => workSetRamp f s
  | .setSpeed v => workSetSpeed v s
  | .start => workStart s
  | .stop => workStop s
  | .readLine => workReadLine s
  | .setAxis f => workSetAxis f s
  | .gearChangeSmooth f => workGearChangeSmooth f s
  | .gearChangeJump f => workGearChangeJump f s
  | .setPhase f => workSetPhase f s
  | .setTrim f => workSetTrim f s
  | .couple i => workCouple i s
  | .release i => workRelease i s
  | .readAxis i => workReadAxis i s
  | .setPortEnable f => workSetPortEnable f s
  | .setPortDisable f => workSetPortDisable f s
  | .resetPort p => workResetPort p s
  | .portService f => workPortService f s
  | .readPort p => workReadPort p s
  | .setTripSource f => workSetTripSource f s
  | .ackTrip l => workAckTrip l s
  | .raiseTrip n set => workRaiseTrip n set s
  | .readTrips => workReadTrips s
  | .setRoster ids => workSetRoster ids s
  | .sendMessage dest bytes => workSendMessage dest bytes s
  | .readRing => workReadRing s
  | .setCamera f => workSetCamera f s
  | .setCapture f => workSetCapture f s
  | .setStream dest => workSetStream dest s
  | .setMap f => workSetMap f s
  | .enableMap m active => workEnableMap m active s
  | .readStoreSlot m slot => workReadStoreSlot m slot s
  | .readStoreSummary m => workReadStoreSummary m s
  | .setMarkChannel f => workSetMarkChannel f s
  | .setMarkUnit v => workSetMarkUnit v s
  | .readMarks => workReadMarks s
  | .setScreen f => workSetScreen f s
  | .setWindow w => workSetWindow w s
  | .raiseWindow id => workRaiseWindow id s
  | .removeWindow id => workRemoveWindow id s
  | .putTiles dest tiles => workPutTiles dest tiles s
  | .setGrant f => workSetGrant f s
  | .setBanner b => workSetBanner b s
  | .fetchNotice => workFetchNotice s
  | .restart => workRestart s

/-! ## Requests in and replies out (R165, R166) -/

/-- A request transaction has ended with this item (R166): taken at once, with a reply held unread and a pending restart
discarded; or waiting, with one that waited before discarded. -/
def State.take (s : State) (x : Item) : State :=
  let c := s.ctl
  if c.inProgress.isNone then
    { s with ctl := { c with
        inProgress := some x
        reply := none
        restartPending := false
        lostMark := c.lostMark || c.reply.isSome || c.restartPending } }
  else { s with ctl := { c with waiting := some x, lostMark := c.lostMark || c.waiting.isSome } }

/-- The request in progress is worked, if it has not been yet. -/
def State.workItem (s : State) (x : Item) : State × Answer :=
  match x.work with
  | .todo r => workRequest r s
  | .answered a => (s, a)

/-- The body of a reply formed now; a slot read of the store takes its second look here (R131). -/
def State.bodyOf (s : State) (a : Answer) : List Byte :=
  match a.copy with
  | some c => s.copyBody c
  | none => a.body

/-- A waiting request as it is taken: a record answered at its judging carries the screen summary as it stands now (R163, R165). -/
def State.takenUp (s : State) (w : Item) : Item :=
  match w.work with
  | .answered a => { w with work := .answered { a with body := if a.body.isEmpty then [] else s.screenSummary } }
  | .todo _ => w

/-- A reply has been formed: it is held, or, if a request waits, it is discarded and that request is taken (R166). The discard of
a RESTART's reply cancels the restart (R171). -/
def State.holdReply (s : State) (bytes : List Byte) : State :=
  match s.ctl.waiting with
  | some w =>
    { s with
      fresh := s.fresh + 1
      ctl := { s.ctl with inProgress := some (s.takenUp w), waiting := none, lostMark := true, restartPending := false } }
  | none => { s with fresh := s.fresh + 1, ctl := { s.ctl with inProgress := none, reply := some bytes, lostMark := false } }

/-- The reply record of an item worked to an answer (10.5). -/
def State.replyOf (s : State) (x : Item) (a : Answer) : List Byte :=
  encodeReply x.kind x.tag a.status (s.flagsOf a) (s.bodyOf a)

/-- The request in progress forms its reply (R165, R166). -/
def State.formReply (s : State) : State :=
  match s.ctl.inProgress with
  | none => s
  | some x =>
    let w := s.workItem x
    w.1.holdReply (w.1.replyOf x w.2)

/-- The port is working exactly this request and has not worked it yet. -/
def State.working (s : State) (r : Request) : Bool :=
  match s.ctl.inProgress with
  | some x => decide (x.work = .todo r)
  | none => false

/-- Requests in progress or waiting are finished. -/
def State.finishRequests (s : State) : State := s.formReply.formReply

/-- The state in which the port works request `r`: it is in progress, or, earlier requests finished, it is taken now with tag 0
(log 3). -/
def State.prepare (s : State) (r : Request) : State :=
  if s.working r then s else s.finishRequests.take { kind := Request.code r, tag := 0, work := .todo r }

/-- The answer of the request in progress is noted. -/
def State.note (s : State) (a : Answer) : State :=
  { s with ctl := { s.ctl with inProgress := s.ctl.inProgress.map fun x => { x with work := .answered a } } }

/-- The step of a request row: the request acts on its block at this instant (R165); its reply is formed by REPLY_FORMED. -/
def State.runRequest (s : State) (r : Request) : State :=
  let w := workRequest r (s.prepare r)
  w.1.note w.2

/-- The item a judged record becomes; a record answered under cases 1 to 3 changes nothing in any block (R165). That BAD_FRAME has an empty body
whatever the kind byte of the malformed record, also where it names a screen request, is the model's choice (log 53). -/
def State.itemOf (s : State) (bs : List Byte) : Item :=
  let kind := byteAt bs 2
  let tag := byteAt bs 3
  match judge bs with
  | .badFrame => { kind := kind, tag := tag, work := .answered { status := .badFrame } }
  | .unknown => { kind := kind, tag := tag, work := .answered { status := .unknown } }
  | .range =>
    { kind := kind
      tag := tag
      work := .answered { status := .range, body := if screenKinds.contains kind then s.screenSummary else [] } }
  | .wellFormed r => { kind := kind, tag := tag, work := .todo r }

/-- A request transaction ends; `bs` are the bytes after its start byte (R164, R165). -/
def State.requestEnds (s : State) (bs : List Byte) : State :=
  if s.ctl.ignoring then { s with ctl := { s.ctl with ignoring := false } }
  else ({ s with ctl := { s.ctl with miso := List.replicate (bs.length + 1) 0 } }).take (s.itemOf bs)

/-! ## Read transactions and resets (R164, R171, R172) -/

/-- The bytes MISO carries in a read transaction (R164). -/
def misoBytes (reply : Option (List Byte)) (clocked : Nat) : List Byte :=
  ((reply.getD []) ++ List.replicate clocked 0).take clocked

/-- The part restarts, with the pages and the TRP pins as they are (R171, R172); MISO has carried `miso`. -/
def State.restartPart (s : State) (straps : Straps) (miso : List Byte) : State :=
  let t := resetState .restart s.now straps s.trips.pins false s.keptPages (s.fresh + 1) s.pending
  { t with ctl := { t.ctl with miso := miso } }

/-- A read transaction that clocks `clocked` bytes ends (R164). -/
def State.readEnds (s : State) (clocked : Nat) (straps : Straps) : State :=
  let miso := misoBytes s.ctl.reply clocked
  if s.ctl.ignoring then { s with ctl := { s.ctl with ignoring := false } }
  else if (s.ctl.reply.any fun r => decide (r.length ≤ clocked)) = true then
    if s.ctl.restartPending then s.restartPart straps miso
    else { s with ctl := { s.ctl with reply := none, miso := miso } }
  else { s with ctl := { s.ctl with miso := miso } }

/-- A power-on reset ends now (R172). -/
def State.powerOn (s : State) (straps : Straps) (trp : BitVec 12) (csLow : Bool) : State :=
  resetState .powerOn s.now straps trp csLow s.keptPages (s.fresh + 1) s.pending

end Sys2Proof.Machine
end

