-- ==== Sys2Proof/Machine/EventRows.lean ====
section
/-! DEFINITION. The meanings of the rows that are not requests: resets and transactions, the part's own timers, what arrives on its
links and pins, and the ends of what it sends and writes. An event that cannot occur in a state changes nothing (log 2). -/

namespace Sys2Proof.Machine

/-! ## Resets and transactions -/

/-- POWER_ON_RESET (R172): the reset ends at `at_`. -/
def execPowerOnReset (at_ : Nat) (straps : Straps) (trp : BitVec 12) (csLow : Bool) (s : State) : Host.Outcome State Fault Refusal :=
  .next ((s.tick at_).powerOn straps trp csLow)

/-- REQUEST_TRANSACTION (R164, R165): the bytes after the start byte 0x7E. -/
def execRequestTransaction (bytes : List Byte) (s : State) : Host.Outcome State Fault Refusal := .next (s.requestEnds bytes)

/-- READ_TRANSACTION (R164, R171): the number of bytes clocked; the straps as a restart would sample them. -/
def execReadTransaction (at_ clocked : Nat) (straps : Straps) (s : State) : Host.Outcome State Fault Refusal :=
  .next ((s.tick at_).readEnds clocked straps)

/-- REPLY_FORMED (R165, R166). -/
def execReplyFormed (at_ : Nat) (s : State) : Host.Outcome State Fault Refusal := .next (s.tick at_).formReply

/-! ## The angle unit's timers -/

/-- UPDATE_EVENT (R13): the earliest update scheduled from the base. -/
def execUpdateEvent (s : State) : Host.Outcome State Fault Refusal := .next s.nextUpdate

/-- OWN_TIMER_UPDATE (R10). -/
def execOwnTimerUpdate (s : State) : Host.Outcome State Fault Refusal := .next s.ownUpdate

/-- DEADLINE (R7). -/
def execDeadline (s : State) : Host.Outcome State Fault Refusal := .next s.deadlineComes

/-- CYCLE_TIMER_EXPIRY (R14). -/
def execCycleTimerExpiry (s : State) : Host.Outcome State Fault Refusal := .next s.cycleExpires

/-! ## The fibre ring -/

/-- RING_FRAME_ARRIVAL (R74): the arrival instant of the first symbol, the instant the frame is whole, the bytes received. -/
def execRingFrameArrival (side : FibreSide) (arrival at_ : Nat) (bytes : List Byte) (s : State) : Host.Outcome State Fault Refusal :=
  .next ((s.tick at_).frameArrives side arrival bytes)

/-- An output has finished a frame and the idle set that follows it (R68); its arbiter chooses (R86). -/
def State.transmitEnds (s : State) (side : FibreSide) : State :=
  if (s.fibre side).sending.isSome then ((s.setFibre side { s.fibre side with sending := none }).sendIdle side).arbitrate side else s

/-- FRAME_TRANSMIT_END (R86). -/
def execFrameTransmitEnd (side : FibreSide) (at_ : Nat) (s : State) : Host.Outcome State Fault Refusal :=
  .next ((s.tick at_).transmitEnds side)

/-- IDLE_SET_SEND (R68). -/
def execIdleSetSend (side : FibreSide) (at_ : Nat) (s : State) : Host.Outcome State Fault Refusal := .next ((s.tick at_).sendIdle side)

/-- IDLE_SET_RECEIVED (R68, R69, R71). -/
def execIdleSetReceived (side : FibreSide) (arrival : Nat) (symbolsGood : Bool) (bytes : List Byte) (s : State) :
    Host.Outcome State Fault Refusal :=
  .next ((s.tick arrival).idleReceived side arrival symbolsGood bytes)

/-- LINK_TRAINING_START (R69). -/
def execLinkTrainingStart (side : FibreSide) (s : State) : Host.Outcome State Fault Refusal := .next (s.startTraining side)

/-- LOSS_OF_LOCK (R70). -/
def execLossOfLock (side : FibreSide) (at_ : Nat) (s : State) : Host.Outcome State Fault Refusal := .next ((s.tick at_).loseLock side)

/-- SHORT_LOSS_OF_LOCK (R70). -/
def execShortLossOfLock (side : FibreSide) (s : State) : Host.Outcome State Fault Refusal := .next (s.shortLoss side)

/-! ## Drive ports and axes -/

/-- A receiver closes a run of characters; a port in OFF ignores its receive line (R48, R50, R55). -/
def DrivePort.receive (p : DrivePort) (chars : List DriveChar) : DrivePort :=
  if p.state = .off then p
  else
    match closeTelegram chars with
    | some t => p.takeTelegram t
    | none => p

/-- TELEGRAM_CLOSED (R50, R55). -/
def execTelegramClosed (port : Fin 4) (chars : List DriveChar) (s : State) : Host.Outcome State Fault Refusal :=
  .next (s.setPort port ((s.port port).receive chars))

/-- TRANSMITTER_FREES (R54). -/
def execTransmitterFrees (port : Fin 4) (s : State) : Host.Outcome State Fault Refusal :=
  .next (s.setPort port (s.port port).transmitterEnd)

/-- A trim step the mark unit has handed over reaches its axis (R39, log 19). -/
def State.localStepArrives (s : State) (axis : Fin 16) (step : Int) : State :=
  if s.localSteps.contains (axis, step) then
    ({ s with localSteps := s.localSteps.erase (axis, step) }).takeTrimStep axis step .localStep
  else s

/-- LOCAL_TRIM_STEP (R39). -/
def execLocalTrimStep (axis : Fin 16) (step : Int) (s : State) : Host.Outcome State Fault Refusal := .next (s.localStepArrives axis step)

/-! ## Trips -/

/-- TRP_PIN_CHANGE (R94). -/
def execTrpPinChange (pin : Fin 12) (level : Bool) (at_ : Nat) (s : State) : Host.Outcome State Fault Refusal :=
  .next ((s.tick at_).pinChanges pin level)

/-- A filter run lasts its full time (R94). -/
def State.filterEnds (s : State) (pin : Fin 12) : State :=
  let r := s.source (pinSource pin)
  match r.run with
  | some t => (s.tick (t + filterNs r.filter)).setFiltered pin (!r.filtered)
  | none => s

/-- FILTER_RUN_END (R94). -/
def execFilterRunEnd (pin : Fin 12) (s : State) : Host.Outcome State Fault Refusal := .next (s.filterEnds pin)

/-- An OPEN window has been open for its maximum (R114). -/
def State.windowEnds (s : State) : State :=
  match s.trips.window, s.trips.openedAt with
  | .opened, some t => (s.tick (t + s.trips.maximum * 1000000)).windowExpires
  | _, _ => s

/-- KEEPALIVE_WINDOW_EXPIRY (R114). -/
def execKeepaliveWindowExpiry (s : State) : Host.Outcome State Fault Refusal := .next s.windowEnds

/-! ## Camera and image store -/

/-- The oldest pending trigger is issued at its instant (R120). -/
def State.triggerComes (s : State) : State :=
  match s.camera.triggers with
  | [] => s
  | t :: rest => ({ s with camera := Camera.issue t.issueAt { s.camera with triggers := rest, pulses := [] } t }).tick t.issueAt

/-- TRIGGER_ISSUE (R120). -/
def execTriggerIssue (s : State) : Host.Outcome State Fault Refusal := .next s.triggerComes

/-- LINE_MESSAGE (R121): the bytes of the message. -/
def execLineMessage (bytes : List Byte) (s : State) : Host.Outcome State Fault Refusal := .next (s.lineMessage bytes)

/-- LINE_WRITE_END (R127). -/
def execLineWriteEnd (map : Fin 4) (s : State) : Host.Outcome State Fault Refusal := .next (s.endWrite map)

/-! ## The screen port -/

/-- PANEL_MESSAGE (R152): the bytes of the message. -/
def execPanelMessage (at_ : Nat) (bytes : List Byte) (s : State) : Host.Outcome State Fault Refusal :=
  .next ((s.tick at_).panelMessage bytes)

/-- PANEL_TIMER_EXPIRY (R152). -/
def execPanelTimerExpiry (s : State) : Host.Outcome State Fault Refusal := .next s.panelExpires

/-- TILE_MESSAGE_END (R160). -/
def execTileMessageEnd (s : State) : Host.Outcome State Fault Refusal := .next s.tileSent

end Sys2Proof.Machine
end

