-- ==== Sys2Proof/Machine/RequestRows.lean ====
section
/-! DEFINITION. The meanings of the request rows: the request acts on its block at this instant (R165). What it does stands in
the definition of its work; a row that names an instant first moves the clock there. -/

namespace Sys2Proof.Machine

/-- IDENTIFY (R167). -/
def execIdentify (s : State) : Host.Outcome State Fault Refusal := .next (s.runRequest .identify)

/-- STATUS (R167). -/
def execStatus (s : State) : Host.Outcome State Fault Refusal := .next (s.runRequest .status)

/-- KEEPALIVE (R114). -/
def execKeepalive (at_ : Nat) (s : State) : Host.Outcome State Fault Refusal := .next ((s.tick at_).runRequest .keepalive)

/-- SET_KEEPALIVE (R113). -/
def execSetKeepalive (at_ : Nat) (f : KeepaliveLimits) (s : State) : Host.Outcome State Fault Refusal := .next ((s.tick at_).runRequest (.setKeepalive f))

/-- SET_CYCLE (R4). -/
def execSetCycle (f : CycleFieldsReq) (s : State) : Host.Outcome State Fault Refusal := .next (s.runRequest (.setCycle f))

/-- SET_RAMP (R17). -/
def execSetRamp (f : RampFields) (s : State) : Host.Outcome State Fault Refusal := .next (s.runRequest (.setRamp f))

/-- SET_SPEED (R17). -/
def execSetSpeed (target : Nat) (s : State) : Host.Outcome State Fault Refusal := .next (s.runRequest (.setSpeed target))

/-- START (R18). -/
def execStart (s : State) : Host.Outcome State Fault Refusal := .next (s.runRequest .start)

/-- STOP (R19). -/
def execStop (s : State) : Host.Outcome State Fault Refusal := .next (s.runRequest .stop)

/-- READ_LINE (R22). -/
def execReadLine (s : State) : Host.Outcome State Fault Refusal := .next (s.runRequest .readLine)

/-- SET_AXIS (R25). -/
def execSetAxis (f : AxisFields) (s : State) : Host.Outcome State Fault Refusal := .next (s.runRequest (.setAxis f))

/-- GEAR_CHANGE_SMOOTH (R35). -/
def execGearChangeSmooth (f : GearFields) (s : State) : Host.Outcome State Fault Refusal := .next (s.runRequest (.gearChangeSmooth f))

/-- GEAR_CHANGE_JUMP (R36). -/
def execGearChangeJump (f : GearFields) (s : State) : Host.Outcome State Fault Refusal := .next (s.runRequest (.gearChangeJump f))

/-- SET_PHASE (R37). -/
def execSetPhase (f : OffsetFields) (s : State) : Host.Outcome State Fault Refusal := .next (s.runRequest (.setPhase f))

/-- SET_TRIM (R38). -/
def execSetTrim (f : OffsetFields) (s : State) : Host.Outcome State Fault Refusal := .next (s.runRequest (.setTrim f))

/-- COUPLE (R42). -/
def execCouple (axis : Nat) (s : State) : Host.Outcome State Fault Refusal := .next (s.runRequest (.couple axis))

/-- RELEASE (R43). -/
def execRelease (axis : Nat) (s : State) : Host.Outcome State Fault Refusal := .next (s.runRequest (.release axis))

/-- READ_AXIS (R46). -/
def execReadAxis (axis : Nat) (s : State) : Host.Outcome State Fault Refusal := .next (s.runRequest (.readAxis axis))

/-- SET_PORT_ENABLE (R51). -/
def execSetPortEnable (f : PortFields) (s : State) : Host.Outcome State Fault Refusal := .next (s.runRequest (.setPortEnable f))

/-- SET_PORT_DISABLE (R52). -/
def execSetPortDisable (f : PortFields) (s : State) : Host.Outcome State Fault Refusal := .next (s.runRequest (.setPortDisable f))

/-- RESET_PORT (R61). -/
def execResetPort (port : Nat) (s : State) : Host.Outcome State Fault Refusal := .next (s.runRequest (.resetPort port))

/-- PORT_SERVICE (R64). -/
def execPortService (f : ServiceFields) (s : State) : Host.Outcome State Fault Refusal := .next (s.runRequest (.portService f))

/-- READ_PORT (R66). -/
def execReadPort (port : Nat) (s : State) : Host.Outcome State Fault Refusal := .next (s.runRequest (.readPort port))

/-- SET_TRIP_SOURCE (R96). -/
def execSetTripSource (at_ : Nat) (f : SourceFields) (s : State) : Host.Outcome State Fault Refusal := .next ((s.tick at_).runRequest (.setTripSource f))

/-- ACK_TRIP (R101). -/
def execAckTrip (sources : Option (List Nat)) (s : State) : Host.Outcome State Fault Refusal := .next (s.runRequest (.ackTrip sources))

/-- RAISE_TRIP (R97). -/
def execRaiseTrip (number : Nat) (set : Bool) (s : State) : Host.Outcome State Fault Refusal := .next (s.runRequest (.raiseTrip number set))

/-- READ_TRIPS (R116). -/
def execReadTrips (at_ : Nat) (s : State) : Host.Outcome State Fault Refusal := .next ((s.tick at_).runRequest .readTrips)

/-- SET_ROSTER (R88). -/
def execSetRoster (ids : List Nat) (s : State) : Host.Outcome State Fault Refusal := .next (s.runRequest (.setRoster ids))

/-- SEND_MESSAGE (R90). -/
def execSendMessage (dest : Nat) (bytes : List Byte) (s : State) : Host.Outcome State Fault Refusal := .next (s.runRequest (.sendMessage dest bytes))

/-- READ_RING (R91). -/
def execReadRing (s : State) : Host.Outcome State Fault Refusal := .next (s.runRequest .readRing)

/-- SET_CAMERA (R118). -/
def execSetCamera (f : CameraFields) (s : State) : Host.Outcome State Fault Refusal := .next (s.runRequest (.setCamera f))

/-- SET_CAPTURE (R126). -/
def execSetCapture (f : CaptureFields) (s : State) : Host.Outcome State Fault Refusal := .next (s.runRequest (.setCapture f))

/-- SET_STREAM (R129). -/
def execSetStream (dest : Nat) (s : State) : Host.Outcome State Fault Refusal := .next (s.runRequest (.setStream dest))

/-- SET_MAP (R124). -/
def execSetMap (f : MapFields) (s : State) : Host.Outcome State Fault Refusal := .next (s.runRequest (.setMap f))

/-- ENABLE_MAP (R125). -/
def execEnableMap (map : Nat) (active : Bool) (s : State) : Host.Outcome State Fault Refusal := .next (s.runRequest (.enableMap map active))

/-- READ_STORE_SLOT (R131). -/
def execReadStoreSlot (map : Nat) (slot : Nat) (s : State) : Host.Outcome State Fault Refusal := .next (s.runRequest (.readStoreSlot map slot))

/-- READ_STORE_SUMMARY (R132). -/
def execReadStoreSummary (map : Nat) (s : State) : Host.Outcome State Fault Refusal := .next (s.runRequest (.readStoreSummary map))

/-- SET_MARK_CHANNEL (R135). -/
def execSetMarkChannel (f : MarkFields) (s : State) : Host.Outcome State Fault Refusal := .next (s.runRequest (.setMarkChannel f))

/-- SET_MARK_UNIT (R136). -/
def execSetMarkUnit (vReg : Nat) (s : State) : Host.Outcome State Fault Refusal := .next (s.runRequest (.setMarkUnit vReg))

/-- READ_MARKS (R149). -/
def execReadMarks (s : State) : Host.Outcome State Fault Refusal := .next (s.runRequest .readMarks)

/-- SET_SCREEN (R151). -/
def execSetScreen (at_ : Nat) (f : ScreenFields) (s : State) : Host.Outcome State Fault Refusal := .next ((s.tick at_).runRequest (.setScreen f))

/-- SET_WINDOW (R155). -/
def execSetWindow (w : Window) (s : State) : Host.Outcome State Fault Refusal := .next (s.runRequest (.setWindow w))

/-- RAISE_WINDOW (R156). -/
def execRaiseWindow (id : Nat) (s : State) : Host.Outcome State Fault Refusal := .next (s.runRequest (.raiseWindow id))

/-- REMOVE_WINDOW (R156). -/
def execRemoveWindow (id : Nat) (s : State) : Host.Outcome State Fault Refusal := .next (s.runRequest (.removeWindow id))

/-- PUT_TILES (R153). -/
def execPutTiles (dest : Nat) (tiles : List TileWrite) (s : State) : Host.Outcome State Fault Refusal := .next (s.runRequest (.putTiles dest tiles))

/-- SET_GRANT (R154). -/
def execSetGrant (f : GrantFields) (s : State) : Host.Outcome State Fault Refusal := .next (s.runRequest (.setGrant f))

/-- SET_BANNER (R158). -/
def execSetBanner (banner : Option Banner) (s : State) : Host.Outcome State Fault Refusal := .next (s.runRequest (.setBanner banner))

/-- FETCH_NOTICE (R169). -/
def execFetchNotice (s : State) : Host.Outcome State Fault Refusal := .next (s.runRequest .fetchNotice)

/-- RESTART (R171). -/
def execRestart (s : State) : Host.Outcome State Fault Refusal := .next (s.runRequest .restart)

end Sys2Proof.Machine
end

