-- ==== Sys2Proof/Machine/Dispatch.lean ====
section
/-! DEFINITION. The effect of each command on everything but the queue: one arm for each row of spec/opcode_table.json. -/

namespace Sys2Proof.Machine

def exec (i : Instr) (s : State) : Host.Outcome State Fault Refusal :=
  match i with
  | .powerOnReset at_ straps trp csLow => Sys2Proof.Machine.execPowerOnReset at_ straps trp csLow s
  | .requestTransaction bytes => Sys2Proof.Machine.execRequestTransaction bytes s
  | .readTransaction at_ clocked straps => Sys2Proof.Machine.execReadTransaction at_ clocked straps s
  | .replyFormed at_ => Sys2Proof.Machine.execReplyFormed at_ s
  | .identify => Sys2Proof.Machine.execIdentify s
  | .status => Sys2Proof.Machine.execStatus s
  | .keepalive at_ => Sys2Proof.Machine.execKeepalive at_ s
  | .setKeepalive at_ f => Sys2Proof.Machine.execSetKeepalive at_ f s
  | .setCycle f => Sys2Proof.Machine.execSetCycle f s
  | .setRamp f => Sys2Proof.Machine.execSetRamp f s
  | .setSpeed target => Sys2Proof.Machine.execSetSpeed target s
  | .start => Sys2Proof.Machine.execStart s
  | .stop => Sys2Proof.Machine.execStop s
  | .readLine => Sys2Proof.Machine.execReadLine s
  | .setAxis f => Sys2Proof.Machine.execSetAxis f s
  | .gearChangeSmooth f => Sys2Proof.Machine.execGearChangeSmooth f s
  | .gearChangeJump f => Sys2Proof.Machine.execGearChangeJump f s
  | .setPhase f => Sys2Proof.Machine.execSetPhase f s
  | .setTrim f => Sys2Proof.Machine.execSetTrim f s
  | .couple axis => Sys2Proof.Machine.execCouple axis s
  | .release axis => Sys2Proof.Machine.execRelease axis s
  | .readAxis axis => Sys2Proof.Machine.execReadAxis axis s
  | .setPortEnable f => Sys2Proof.Machine.execSetPortEnable f s
  | .setPortDisable f => Sys2Proof.Machine.execSetPortDisable f s
  | .resetPort port => Sys2Proof.Machine.execResetPort port s
  | .portService f => Sys2Proof.Machine.execPortService f s
  | .readPort port => Sys2Proof.Machine.execReadPort port s
  | .setTripSource at_ f => Sys2Proof.Machine.execSetTripSource at_ f s
  | .ackTrip sources => Sys2Proof.Machine.execAckTrip sources s
  | .raiseTrip number set => Sys2Proof.Machine.execRaiseTrip number set s
  | .readTrips at_ => Sys2Proof.Machine.execReadTrips at_ s
  | .setRoster ids => Sys2Proof.Machine.execSetRoster ids s
  | .sendMessage dest bytes => Sys2Proof.Machine.execSendMessage dest bytes s
  | .readRing => Sys2Proof.Machine.execReadRing s
  | .setCamera f => Sys2Proof.Machine.execSetCamera f s
  | .setCapture f => Sys2Proof.Machine.execSetCapture f s
  | .setStream dest => Sys2Proof.Machine.execSetStream dest s
  | .setMap f => Sys2Proof.Machine.execSetMap f s
  | .enableMap map active => Sys2Proof.Machine.execEnableMap map active s
  | .readStoreSlot map slot => Sys2Proof.Machine.execReadStoreSlot map slot s
  | .readStoreSummary map => Sys2Proof.Machine.execReadStoreSummary map s
  | .setMarkChannel f => Sys2Proof.Machine.execSetMarkChannel f s
  | .setMarkUnit vReg => Sys2Proof.Machine.execSetMarkUnit vReg s
  | .readMarks => Sys2Proof.Machine.execReadMarks s
  | .setScreen at_ f => Sys2Proof.Machine.execSetScreen at_ f s
  | .setWindow w => Sys2Proof.Machine.execSetWindow w s
  | .raiseWindow id => Sys2Proof.Machine.execRaiseWindow id s
  | .removeWindow id => Sys2Proof.Machine.execRemoveWindow id s
  | .putTiles dest tiles => Sys2Proof.Machine.execPutTiles dest tiles s
  | .setGrant f => Sys2Proof.Machine.execSetGrant f s
  | .setBanner banner => Sys2Proof.Machine.execSetBanner banner s
  | .fetchNotice => Sys2Proof.Machine.execFetchNotice s
  | .restart => Sys2Proof.Machine.execRestart s
  | .updateEvent => Sys2Proof.Machine.execUpdateEvent s
  | .ownTimerUpdate => Sys2Proof.Machine.execOwnTimerUpdate s
  | .deadline => Sys2Proof.Machine.execDeadline s
  | .cycleTimerExpiry => Sys2Proof.Machine.execCycleTimerExpiry s
  | .ringFrameArrival side arrival at_ bytes => Sys2Proof.Machine.execRingFrameArrival side arrival at_ bytes s
  | .frameTransmitEnd side at_ => Sys2Proof.Machine.execFrameTransmitEnd side at_ s
  | .idleSetSend side at_ => Sys2Proof.Machine.execIdleSetSend side at_ s
  | .idleSetReceived side arrival symbolsGood bytes => Sys2Proof.Machine.execIdleSetReceived side arrival symbolsGood bytes s
  | .linkTrainingStart side => Sys2Proof.Machine.execLinkTrainingStart side s
  | .lossOfLock side at_ => Sys2Proof.Machine.execLossOfLock side at_ s
  | .telegramClosed port chars => Sys2Proof.Machine.execTelegramClosed port chars s
  | .transmitterFrees port => Sys2Proof.Machine.execTransmitterFrees port s
  | .localTrimStep axis step => Sys2Proof.Machine.execLocalTrimStep axis step s
  | .trpPinChange pin level at_ => Sys2Proof.Machine.execTrpPinChange pin level at_ s
  | .filterRunEnd pin => Sys2Proof.Machine.execFilterRunEnd pin s
  | .keepaliveWindowExpiry => Sys2Proof.Machine.execKeepaliveWindowExpiry s
  | .triggerIssue => Sys2Proof.Machine.execTriggerIssue s
  | .lineMessage bytes => Sys2Proof.Machine.execLineMessage bytes s
  | .lineWriteEnd map => Sys2Proof.Machine.execLineWriteEnd map s
  | .panelMessage at_ bytes => Sys2Proof.Machine.execPanelMessage at_ bytes s
  | .panelTimerExpiry => Sys2Proof.Machine.execPanelTimerExpiry s
  | .tileMessageEnd => Sys2Proof.Machine.execTileMessageEnd s
  | .shortLossOfLock side => Sys2Proof.Machine.execShortLossOfLock side s

end Sys2Proof.Machine
end

