-- ==== Sys2Proof/WellFormed.lean ====
section
/-! DEFINITION. Well-formed commands: every operand fits the field that carries it (the fewest whole bytes that hold the field's range,
R174, and the layouts of chapter 10). A value a field can carry and a rule refuses is well-formed: refusing it is the command's meaning. -/

namespace Sys2Proof

/-- Fields of 1, 2 and 3 bytes. -/
def fits8 (n : Nat) : Bool := decide (n < 256)
def fits16 (n : Nat) : Bool := decide (n < 65536)
def fits24 (n : Nat) : Bool := decide (n < 16777216)

/-- Signed fields of 2 and 3 bytes. -/
def fitsSigned16 (x : Int) : Bool := decide (-32768 ≤ x ∧ x ≤ 32767)
def fitsSigned24 (x : Int) : Bool := decide (-8388608 ≤ x ∧ x ≤ 8388607)

/-- A list whose length one byte gives. -/
def fitsList {α : Type} (item : α → Bool) (l : List α) : Bool := decide (l.length < 256) && l.all item

def KeepaliveLimits.wf (f : KeepaliveLimits) : Bool := fits16 f.minimum && fits16 f.maximum

def CycleFieldsReq.wf (f : CycleFieldsReq) : Bool := fits8 f.k && fits24 f.lAlign && fits8 f.coastLimit && fits24 f.stepTolerance

def RampFields.wf (f : RampFields) : Bool := fits24 f.vMax && fits16 f.aUp && fits16 f.aDown && fits16 f.aTrip

def AxisFields.wf (f : AxisFields) : Bool :=
  fits8 f.axis && f.binding.all (fun b => fits8 b.1 && fits8 b.2) && fits16 f.slew && fits24 f.trimLimit && fits24 f.catchLimit
    && fits24 f.followLimit

def GearFields.wf (f : GearFields) : Bool := fits8 f.axis && fitsSigned16 f.n && fits16 f.d

def OffsetFields.wf (f : OffsetFields) : Bool := fits8 f.axis && fitsSigned24 f.value

def PortFields.wf (f : PortFields) : Bool := fits8 f.port && fits8 f.divider && fits8 f.missLimit

def ServiceFields.wf (f : ServiceFields) : Bool := fits8 f.port && fits8 f.sub && fitsList (fun _ => true) f.payload

def SourceFields.wf (f : SourceFields) : Bool := fits8 f.source && fits8 f.priority && fits8 f.filter

def CameraFields.wf (f : CameraFields) : Bool := fits16 f.width && fits24 f.pitch

def CaptureFields.wf (f : CaptureFields) : Bool := fits8 f.decimation && fits8 f.hStep && fits16 f.stride

def MapFields.wf (f : MapFields) : Bool :=
  fits8 f.map && f.geometry.all (fun g => fits8 g.origin && fits16 g.stride && fits16 g.slotCount)
    && fitsList (fun w => fits8 w.page && fits8 w.physical) f.writes

def MarkFields.wf (f : MarkFields) : Bool :=
  fits8 f.channel && fits16 f.c0 && fits16 f.c1 && fits8 f.threshold && fits8 f.width && fits24 f.g0 && fits24 f.g1
    && fitsSigned24 f.spacing && fits24 f.span && fits16 f.gain && fits16 f.deadband && fits16 f.stepClamp && fits8 f.node
    && fits8 f.axis && fits8 f.lostLimit

def ScreenFields.wf (f : ScreenFields) : Bool := fits8 f.cols && fits8 f.rows && fits8 f.background

def Rect.wf (q : Rect) : Bool := fits8 q.x && fits8 q.y && fits8 q.w && fits8 q.h

def TouchMode.wf : TouchMode → Bool
  | .toNode n => fits8 n
  | _ => true

def Window.wf (w : Window) : Bool :=
  fits8 w.id && w.rect.wf && fits16 w.tileBase && fits8 w.map && fits16 w.line0 && fits16 w.col0 && fits8 w.vStep && fits8 w.hStep
    && fits8 w.greyBase && fits8 w.staleIndex && w.touch.wf

def Banner.wf (b : Banner) : Bool :=
  b.rect.wf && fits16 b.warn && fits16 b.impressionOff && fits16 b.stopRamp && fits16 b.stopFast

def TileWrite.wf (t : TileWrite) : Bool := fits16 t.tile && decide (t.pixels.length = 256)

def GrantFields.wf (f : GrantFields) : Bool := fits8 f.grant && fits8 f.origin && fits16 f.first && fits16 f.count

/-- The command is well-formed: its operands fit their fields; a frame is whole no earlier than its first symbol arrived; a trim step
handed over by the mark unit lies in the range of a formed step (7.1). -/
def Instr.wf : Instr → Bool
  | .setKeepalive _ f => f.wf
  | .setCycle f => f.wf
  | .setRamp f => f.wf
  | .setSpeed target => fits24 target
  | .setAxis f => f.wf
  | .gearChangeSmooth f => f.wf
  | .gearChangeJump f => f.wf
  | .setPhase f => f.wf
  | .setTrim f => f.wf
  | .couple axis => fits8 axis
  | .release axis => fits8 axis
  | .readAxis axis => fits8 axis
  | .setPortEnable f => f.wf
  | .setPortDisable f => f.wf
  | .resetPort port => fits8 port
  | .portService f => f.wf
  | .readPort port => fits8 port
  | .setTripSource _ f => f.wf
  | .ackTrip sources => sources.all (fitsList fits8)
  | .raiseTrip number _ => fits8 number
  | .setRoster ids => decide (ids.length ≤ 32) && ids.all fits8
  | .sendMessage dest bytes => fits8 dest && decide (bytes.length ≤ 256)
  | .setCamera f => f.wf
  | .setCapture f => f.wf
  | .setStream dest => fits8 dest
  | .setMap f => f.wf
  | .enableMap map _ => fits8 map
  | .readStoreSlot map slot => fits8 map && fits16 slot
  | .readStoreSummary map => fits8 map
  | .setMarkChannel f => f.wf
  | .setMarkUnit vReg => fits24 vReg
  | .setScreen _ f => f.wf
  | .setWindow w => w.wf
  | .raiseWindow id => fits8 id
  | .removeWindow id => fits8 id
  | .putTiles dest tiles => fits8 dest && fitsList TileWrite.wf tiles
  | .setGrant f => f.wf
  | .setBanner banner => banner.all Banner.wf
  | .ringFrameArrival _ arrival at_ _ => decide (arrival ≤ at_)
  | .localTrimStep _ step => decide (-65535 ≤ step ∧ step ≤ 65535)
  | _ => true

end Sys2Proof
end

