-- ==== Sys2Proof/Safety.lean ====
section
/-! DEFINITION. What holds of the part in every state a run reaches (the invariants the rules state), and which parts of the state a
change leaves alone. -/

namespace Sys2Proof.Machine

/-! ## Invariants -/

/-- R168: "The notice list holds at most 32 entries and at most one state notice per key." -/
def NoticesOk (s : State) : Prop := s.ctl.notices.length ≤ 32 ∧ (s.ctl.notices.filterMap Notice.key).Nodup

/-- R110: IMPRESSION_OFF is asserted exactly while the effective class is IMPRESSION_OFF or higher. -/
def ImpressionOk (s : State) : Prop := s.trips.impressionOff = assertsImpressionOff s.trips.effective

/-- R109: the effective class is the highest class of the lists, the overflow and the held slots; R112: the screen controller holds
the class of the head trip. -/
def TripsOk (s : State) : Prop :=
  s.trips.effective = s.trips.formed ∧ s.screen.headClass = (s.headTrip.map (·.cls)).getD .none

/-- 5.3 and R105: one entry for each source in the local trip list; in the remote trip table one entry for each (origin, source), at
most 32 of them, none of the node's own. -/
def TripListsOk (s : State) : Prop :=
  (s.trips.localList.map (·.source)).Nodup ∧ (s.trips.remote.map fun e => (e.origin, e.source)).Nodup ∧ s.trips.remote.length ≤ 32
    ∧ ∀ e ∈ s.trips.remote, e.origin ≠ s.angle.nodeId

/-- R44: "No axis is COUPLED or CATCHING while its bound drive port is not UP, while the node's effective trip class is STOP_FAST, or
while the node's angle state is NONE or LOST." R25: such an axis is bound. -/
def AxesSafe (s : State) : Prop :=
  ∀ i : Fin 16, (s.axis i).state = .catching ∨ (s.axis i).state = .coupled →
    (∃ b, (s.axis i).binding = some b ∧ (s.port b.1).state = .up) ∧ s.trips.effective ≠ .stopFast ∧ s.angle.state ≠ .none
      ∧ s.angle.state ≠ .lost

/-- The numbers of an axis lie in their ranges: 0 ≤ R < D (R29), a staged denominator is not 0 (R35), T lies within ±L_t (R38). -/
def Axis.inRange (a : Axis) : Prop :=
  a.r < a.d ∧ (∀ x, a.staged = some x → 0 < x.2) ∧ -(a.trimLimit : Int) ≤ a.t ∧ a.t ≤ (a.trimLimit : Int)

/-- Every axis is in range. -/
def AxesInRange (s : State) : Prop := ∀ i : Fin 16, (s.axis i).inRange

/-- R25: no two axes hold the same port and sub-address; an axis that is not FREE is bound. -/
def BindingsOk (s : State) : Prop :=
  (∀ i j : Fin 16, i ≠ j → (s.axis i).binding.isSome = true → (s.axis i).binding ≠ (s.axis j).binding)
    ∧ ∀ i : Fin 16, (s.axis i).state ≠ .free → (s.axis i).binding.isSome = true

/-- R55: "A drive port's receive queue holds at most 2 telegrams." -/
def ReceiveRoom (s : State) : Prop := ∀ p : Fin 4, (s.port p).queue.length ≤ 2

/-- 6.1, R120: at most 8 pending triggers and at most 4 outstanding. -/
def CameraRoom (s : State) : Prop := s.camera.triggers.length ≤ 8 ∧ s.camera.outstanding.length ≤ 4

/-- 4.1, R85: the rooms of the queues of the ring controller. -/
def RingRoom (s : State) : Prop :=
  s.ring.localQueue.length ≤ 16 ∧ ∀ side : FibreSide, (s.fibre side).urgent.length ≤ 8 ∧ (s.fibre side).forwarded.length ≤ 16

/-- 8.1, R153, R161: the hold queue holds at most 8 frames. -/
def HoldRoom (s : State) : Prop := s.screen.hold.length ≤ 8

/-- 8.4: the window list holds at most one record per id, and at most 8. -/
def WindowsOk (s : State) : Prop := (s.screen.windows.map (·.id)).Nodup ∧ s.screen.windows.length ≤ 8

/-- Both byte memories are in their canonical form. -/
def MemoryOk (s : State) : Prop := Memory.wf s.store.pages ∧ Memory.wf s.screen.tiles

/-- R124: "Each physical page of the image store is the target of at most one valid entry among all four image maps." -/
def PagesDistinct (s : State) : Prop := (portNumbers.flatMap fun j => targets (s.map j).entries).Nodup

/-- R72: the ring mode is the one the usable flags of the two sides give. -/
def ModeOk (s : State) : Prop := s.ring.mode = modeOf s.ring.a.usable s.ring.b.usable

/-- The invariants above by name. -/
inductive Law where
  | notices | impression | trips | lists | safe | axes | bindings | receive | camera | ring | hold | windows | memory | pages | mode
deriving DecidableEq, Repr

/-- The invariant holds of a state. -/
def Law.holds (s : State) : Law → Prop
  | .notices => NoticesOk s
  | .impression => ImpressionOk s
  | .trips => TripsOk s
  | .lists => TripListsOk s
  | .safe => AxesSafe s
  | .axes => AxesInRange s
  | .bindings => BindingsOk s
  | .receive => ReceiveRoom s
  | .camera => CameraRoom s
  | .ring => RingRoom s
  | .hold => HoldRoom s
  | .windows => WindowsOk s
  | .memory => MemoryOk s
  | .pages => PagesDistinct s
  | .mode => ModeOk s

/-! ## What a change leaves alone -/

/-- Parts of the state. The parts from `identity` on are smaller than a field of `State`. -/
inductive Part where
  | now | fresh | angle | master | axes | straySteps | localSteps | ports | ring | trips | camera | store | marks | screen | ctl
  | pending
  | identity | angleState | bindings | portStates | links | sources | request | notices | pages
deriving DecidableEq, Repr

/-- The part is the same in two states. -/
def Part.same (s t : State) : Part → Prop
  | .now => s.now = t.now
  | .fresh => s.fresh = t.fresh
  | .angle => s.angle = t.angle
  | .master => s.master = t.master
  | .axes => s.axes = t.axes
  | .straySteps => s.straySteps = t.straySteps
  | .localSteps => s.localSteps = t.localSteps
  | .ports => s.ports = t.ports
  | .ring => s.ring = t.ring
  | .trips => s.trips = t.trips
  | .camera => s.camera = t.camera
  | .store => s.store = t.store
  | .marks => s.marks = t.marks
  | .screen => s.screen = t.screen
  | .ctl => s.ctl = t.ctl
  | .pending => s.pending = t.pending
  | .identity => s.angle.role = t.angle.role ∧ s.angle.nodeId = t.angle.nodeId
  | .angleState => s.angle.state = t.angle.state
  | .bindings => ∀ i, (s.axis i).binding = (t.axis i).binding
  | .portStates => ∀ p, (s.port p).state = (t.port p).state
  | .links =>
    s.ring.mode = t.ring.mode ∧ s.ring.a.state = t.ring.a.state ∧ s.ring.b.state = t.ring.b.state
      ∧ s.ring.a.usable = t.ring.a.usable ∧ s.ring.b.usable = t.ring.b.usable
  | .sources => s.trips.sources = t.trips.sources
  | .request =>
    s.ctl.inProgress = t.ctl.inProgress ∧ s.ctl.waiting = t.ctl.waiting ∧ s.ctl.reply = t.ctl.reply ∧ s.ctl.lostMark = t.ctl.lostMark
  | .notices => s.ctl.notices = t.ctl.notices ∧ s.ctl.overflow = t.ctl.overflow
  | .pages => s.store.pages = t.store.pages

/-- Nothing changed outside the parts listed. -/
def Only (l : List Part) (s t : State) : Prop := ∀ p, p ∉ l → p.same s t

/-! ## Request rows -/

/-- The request a row of the table carries; none for the rows that are not requests. -/
def requestOf : Instr → Option Request
  | .identify => some .identify
  | .status => some .status
  | .keepalive _ => some .keepalive
  | .setKeepalive _ f => some (.setKeepalive f)
  | .setCycle f => some (.setCycle f)
  | .setRamp f => some (.setRamp f)
  | .setSpeed v => some (.setSpeed v)
  | .start => some .start
  | .stop => some .stop
  | .readLine => some .readLine
  | .setAxis f => some (.setAxis f)
  | .gearChangeSmooth f => some (.gearChangeSmooth f)
  | .gearChangeJump f => some (.gearChangeJump f)
  | .setPhase f => some (.setPhase f)
  | .setTrim f => some (.setTrim f)
  | .couple i => some (.couple i)
  | .release i => some (.release i)
  | .readAxis i => some (.readAxis i)
  | .setPortEnable f => some (.setPortEnable f)
  | .setPortDisable f => some (.setPortDisable f)
  | .resetPort p => some (.resetPort p)
  | .portService f => some (.portService f)
  | .readPort p => some (.readPort p)
  | .setTripSource _ f => some (.setTripSource f)
  | .ackTrip l => some (.ackTrip l)
  | .raiseTrip n set => some (.raiseTrip n set)
  | .readTrips _ => some .readTrips
  | .setRoster ids => some (.setRoster ids)
  | .sendMessage dest bytes => some (.sendMessage dest bytes)
  | .readRing => some .readRing
  | .setCamera f => some (.setCamera f)
  | .setCapture f => some (.setCapture f)
  | .setStream dest => some (.setStream dest)
  | .setMap f => some (.setMap f)
  | .enableMap m active => some (.enableMap m active)
  | .readStoreSlot m slot => some (.readStoreSlot m slot)
  | .readStoreSummary m => some (.readStoreSummary m)
  | .setMarkChannel f => some (.setMarkChannel f)
  | .setMarkUnit v => some (.setMarkUnit v)
  | .readMarks => some .readMarks
  | .setScreen _ f => some (.setScreen f)
  | .setWindow w => some (.setWindow w)
  | .raiseWindow id => some (.raiseWindow id)
  | .removeWindow id => some (.removeWindow id)
  | .putTiles dest tiles => some (.putTiles dest tiles)
  | .setGrant f => some (.setGrant f)
  | .setBanner b => some (.setBanner b)
  | .fetchNotice => some .fetchNotice
  | .restart => some .restart
  | _ => none

/-- The state at the instant a request row takes place: the five rows that name an instant move the clock there (log 1). -/
def clockOf (c : Instr) (s : State) : State :=
  match c with
  | .keepalive t => s.tick t
  | .setKeepalive t _ => s.tick t
  | .setTripSource t _ => s.tick t
  | .readTrips t => s.tick t
  | .setScreen t _ => s.tick t
  | _ => s

/-- A step answers this state, the request in progress worked to a reply of this status and body (R165): how a request row ends. -/
def State.replies (s : State) (status : Status) (body : List Byte := []) : Host.Outcome State Fault Refusal :=
  .next (s.note { status := status, body := body })

end Sys2Proof.Machine
end

