-- ==== Sys2Proof/Certificates/Slice0/Obligations.lean ====
section
/-! DEFINITION. What the model is claimed to do: the statements for the provers, one for each rule or group of rules. A statement about a
request row takes the control port as working that request (`State.working`); `RequestRowActsOnTheRequestInProgress` says what the row
does at any other port. -/

section Statements

open Sys2Proof Sys2Proof.Machine

/-! ## The queue of commands and the control port -/

/-- A step runs the command at the front of the queue on the state with the queue's rest; on an empty queue the part idles (the model's
choice, log 24). -/
def Obligations.StepRunsTheCommandInFront : Prop :=
  (∀ (c : Instr) (rest : List Instr) (s : State), s.pending = c :: rest → step s = exec c { s with pending := rest })
    ∧ ∀ s : State, s.pending = [] → step s = .next s

/-- A request row acts on the request in progress: at a port that is not working exactly this request, the requests before it are finished
and it is taken with tag 0 first (the model's choice, log 3). -/
def Obligations.RequestRowActsOnTheRequestInProgress : Prop :=
  ∀ (c : Instr) (r : Request), requestOf c = some r → ∀ s : State,
    exec c s = exec c ((clockOf c s).prepare r)
      ∧ ((clockOf c s).prepare r).working r = true
      ∧ (s.working r = true → exec c s = .next ((workRequest r (clockOf c s)).1.note (workRequest r (clockOf c s)).2))

/-- R24 for both kinds of reset: a power-on reset, and a restart at the end of the read transaction in which its reply is read. -/
def Obligations.ResetGivesEveryAxisItsTableValues : Prop :=
  let blank : Axis :=
    { state := .free, binding := none, n := 1, d := 1, r := 0, g := 0, p := 0, t := 0, c := 0, slew := 256, trimLimit := 65536
      catchLimit := 4194304, followLimit := 0, followCount := 0, accept := false, staged := none, f := 0, fresh := false, s := 0, v := 0
      applied := 0, discarded := 0, refused := 0 }
  let atReset (t : State) : Prop :=
    (∀ i : Fin 16, t.axis i = blank) ∧ t.straySteps = 0 ∧ (∀ p : Fin 4, t.boundAxes p = [])
      ∧ ∃ cause id role, t.ctl.notices = [.resetDone cause id role]
  (∀ (s : State) (at_ : Nat) (straps : Straps) (trp : BitVec 12) (csLow : Bool),
      ∃ t, exec (.powerOnReset at_ straps trp csLow) s = .next t ∧ atReset t)
    ∧ ∀ (s : State) (at_ clocked : Nat) (straps : Straps) (reply : List Byte), s.ctl.ignoring = false → s.ctl.reply = some reply →
      reply.length ≤ clocked → s.ctl.restartPending = true → ∃ t, exec (.readTransaction at_ clocked straps) s = .next t ∧ atReset t

/-- The values of the other records after a power-on reset (R2, R3, R48, R67, R93, R117, R123, R134, R150, R172). The pages keep what they
held, but for the bytes of a line write in progress. The values the tables do not give are the model's: nothing shown yet on the pins CAM_TAG,
CAM_TRIG and MISO and no idle set sent (log 27), no timestamp of an idle set sent (log 22), A_last 0 (log 14), the filtered level of the internal
sources 12 to 23 low (log 34), the ranges of the grants that are off (log 36), the fields beside present of the absent status slots (log 46).
R170: ATTN_N is released while RESET_N is low and falls at the end, as the list then holds RESET_DONE; State keeps the two levels (log 49). -/
def Obligations.PowerOnResetGivesTheBlocksTheirTableValues : Prop :=
  ∀ (s : State) (at_ : Nat) (straps : Straps) (trp : BitVec 12) (csLow : Bool), ∃ t,
    exec (.powerOnReset at_ straps trp csLow) s = .next t
      ∧ t.now = max s.now at_ ∧ t.pending = s.pending
      ∧ t.angle =
        { role := if straps.master then .master else .member, nodeId := straps.id.toNat + 1
          state := if straps.master then .tracking else .none, masterOrigin := if straps.master then some (straps.id.toNat + 1) else none
          cycleNumber := 0, aM := 0, v := 0, frameRevolution := 0, lineState := .stopped, period := .us1000, k := 1, lAlign := 50000
          coastLimit := 3, stepTolerance := 4096, coastCount := 0, frameDelay := 0, expectedArrival := none, previousAngle := 0
          updateRevolution := 0, newBase := true, vector := Vector.replicate 32 {}, coasts := 0, angleLosses := 0, foreignMaster := 0
          alignLate := 0, lastA := 0, base := none, updates := []
          ownTimer := if straps.master then none else some (max s.now at_ + 1000000) }
      ∧ t.master =
        { speedTarget := 0, vMax := 4194303, aUp := 1000, aDown := 1000, aTrip := 4000, nextV := 0, nextA := 0, nextRevolution := 0
          nextCycle := 0, pendingPeriod := none, returned := true, returnMisses := 0, returnLoss := false, ringDelay := 0, firstOut := none
          cycleTimer := if straps.master then some (max s.now at_ + 1000000) else none, lastHanded := none }
      ∧ t.localSteps = []
      ∧ (∀ p : Fin 4, t.port p =
        { state := .off, divider := 3, missLimit := 3, missCount := 0, linkCount := 0, reason := .none, place := none, queue := []
          stopped := false, sentList := [], transmitter := [], waitingSetpoint := none, slot := .empty, service := none, serviceWait := 0
          serviceAge := 0, reports := Vector.replicate 4 { fault := false, enabled := false, code := 0 }
          counters :=
            { sent := 0, goodFeedbacks := 0, crcErrors := 0, framingErrors := 0, lengthErrors := 0, mismatched := 0, overruns := 0
              discarded := 0, misses := 0, lateSends := 0, setpointsDropped := 0, strayReplies := 0 } })
      ∧ (∀ side : FibreSide, t.fibre side =
        { state := .dark, idleRun := 0, samples := [], linkDelay := 0, peerOk := false, okRun := 0, usable := false, sending := none
          urgent := [], cycle := none, forwarded := [], bulkTurn := .forwarded, crcErrors := 0, echo := none, idleOut := none, stamps := [] })
      ∧ t.ring.mode = .isolated ∧ t.ring.localQueue = [] ∧ t.ring.memory = Vector.replicate 32 none ∧ t.ring.tripSequence = 0
      ∧ t.ring.restartFlag = true ∧ t.ring.bulkSequence = 0 ∧ t.ring.roster = [] ∧ t.ring.lost = [] ∧ t.ring.forwardDrops = 0
      ∧ t.ring.strays = 0 ∧ t.ring.urgentDrops = 0 ∧ t.ring.duplicates = 0
      ∧ (∀ i : Fin 24, t.source i =
        { enable := false, cls := .stopFast, priority := 0, conditioning := .levelLow, filter := 0
          filtered := decide (i.val < 12) && trp.getLsbD i.val
          condition := (decide (i.val < 12) && !trp.getLsbD i.val) || decide (i.val = 19), run := none })
      ∧ t.trips.pins = trp ∧ t.trips.localList = [] ∧ t.trips.remote = [] ∧ t.trips.overflow = false ∧ t.trips.overflowClass = .none
      ∧ t.trips.held = Vector.replicate 32 none ∧ t.trips.effective = .none ∧ t.trips.impressionOff = false ∧ t.headTrip = none
      ∧ t.trips.axesCoupled = true ∧ t.trips.marksLocked = true ∧ t.trips.window = .off ∧ t.trips.openedAt = none
      ∧ t.trips.minimum = 0 ∧ t.trips.maximum = 0 ∧ t.trips.remoteOverflows = 0 ∧ t.trips.unmatchedClears = 0 ∧ t.trips.pruned = 0
      ∧ t.trips.keepaliveFaults = 0
      ∧ t.camera =
        { on := false, width := 1024, pitch := 65536, pointer := none, lastSeen := 0, tagCounter := 0, triggers := [], outstanding := []
          issued := 0, skipped := 0, missing := 0, received := 0, unknownTags := 0, badLines := 0, tagPins := 0, pulses := [] }
      ∧ (∀ i : Fin 4, t.map i =
        { state := .off, origin := 0, stride := 512, slotCount := 256
          entries := Vector.replicate 64 { valid := false, writeProtect := false, page := 0 }, directory := [], fault := none, written := 0
          frozen := 0, dropped := 0, write := none, waiting := [] })
      ∧ t.store.decimation = 1 ∧ t.store.hStep = 2 ∧ t.store.stored = 512 ∧ t.store.streamDest = 0 ∧ t.store.unboundLines = 0
      ∧ t.store.streamSkips = 0
      ∧ (∀ a : Nat, s.writeAt a = none → Memory.read t.store.pages a = Memory.read s.store.pages a)
      ∧ (∀ i : Fin 8, t.channel i =
        { state := .off, c0 := 0, c1 := 64, threshold := 128, width := 1, g0 := 0, g1 := 1048576, spacing := 65536, span := 16384
          gain := 128, deadband := 0, stepClamp := 1024, node := 0, axis := 0, lostLimit := 3, tripFlag := false, previous := none
          phase := .fragment, armed := none, edgeTaken := none, lastEdge := none, lastError := 0, lastStep := 0, outcome := .none
          foundRun := 0, missRun := 0, found := 0, missed := 0, stepsSent := 0, stepsWithheld := 0, stepsLost := 0 })
      ∧ t.marks.vReg = 10000 ∧ t.marks.lastLine = none ∧ t.marks.registerLost = false ∧ t.marks.marksLocked = true
      ∧ t.screen =
        { state := .off, cols := 80, rows := 48, background := 0, panelTimer := 0, tiles := []
          grants := Vector.replicate 4 { origin := 0, first := 0, count := 1 }, windows := [], banner := none, headClass := .none, dirty := []
          cursor := 0, inSend := none, hold := [], messageCount := 0, tilesSent := 0, peerRefused := 0, badPanel := 0, touchesDropped := 0
          panelLosses := 0 }
      ∧ t.ctl =
        { inProgress := none, waiting := none, reply := none, lostMark := false, restartPending := false
          notices := [.resetDone .powerOn (straps.id.toNat + 1) (if straps.master then .master else .member)], overflow := false
          cause := .powerOn, ignoring := csLow, miso := [], attnInReset := [false, true] }
      ∧ t.attnLow = true

/-- R164 to R166: a request transaction sends 0x00 on MISO throughout; its item is taken at once or waits. The transaction that was under way
at a reset is ignored (R172): that its row then only ends it is the model's reading (log 28). The record is judged in the rule's order; the item echoes the kind and tag bytes received,
or 0. BAD_FRAME has an empty body whatever the kind byte: for a kind byte of a screen request that is the model's choice (log 53). `bs` are the bytes after the start byte. -/
def Obligations.RequestRecordIsTakenAndJudged : Prop :=
  (∀ (s : State) (bytes : List Byte),
      exec (.requestTransaction bytes) s =
        if s.ctl.ignoring then .next { s with ctl := { s.ctl with ignoring := false } }
        else
          let c : ControlPort := { s.ctl with miso := List.replicate (bytes.length + 1) 0 }
          .next { s with ctl :=
            if s.ctl.inProgress = none then
              { c with
                inProgress := some (s.itemOf bytes), reply := none, restartPending := false
                lostMark := c.lostMark || c.reply.isSome || c.restartPending }
            else { c with waiting := some (s.itemOf bytes), lostMark := c.lostMark || c.waiting.isSome } })
    ∧ (∀ (s : State) (bs : List Byte),
      let kind := bs.getD 2 0
      let length := fieldAt bs 0 2
      let body := (bs.drop 4).take length
      (s.itemOf bs).kind = kind ∧ (s.itemOf bs).tag = bs.getD 3 0
        ∧ (s.itemOf bs).work =
          if bs.length + 1 < 7 ∨ 1040 < length ∨ bs.length < length + 6
              ∨ u16 (crc16 (bs.take (length + 4))).toNat ≠ (bs.drop (length + 4)).take 2 then .answered { status := .badFrame }
          else if kind ∉ requestKinds then .answered { status := .unknown }
          else
            match parseRequest kind body with
            | some r => .todo r
            | none => .answered { status := .range, body := if kind ∈ screenKinds then s.screenSummary else [] })

/-- R165, R166, R171: the request in progress forms its reply, with the flags as they stand; the reply is held, or, while a request waits,
discarded for it with any restart pending (a waiting record already answered RANGE at its judging carries the screen summary as it stands
when it is taken, R163). A slot read of the store forms its body here, at its second look (`SlotReadCopiesBetweenTwoLooks`). The model's own
choices: a request not yet worked is worked now (`workItem`, log 3), a port that works no request forms none and nothing happens (log 2),
the counter of free values moves on (log 7), and the reply to a FETCH_NOTICE shows overflow if it was set before the fetch or is set as the
reply is formed (log 48). -/
def Obligations.ReplyIsHeldOrDiscarded : Prop :=
  ∀ (s : State) (at_ : Nat),
    (s.ctl.inProgress = none → exec (.replyFormed at_) s = .next (s.tick at_))
      ∧ ∀ (x : Item) (t : State) (a : Answer), s.ctl.inProgress = some x → (s.tick at_).workItem x = (t, a) →
        let flags := (if t.ctl.notices.isEmpty then 0 else 1) + (if t.ctl.overflow || a.overflowBefore then 2 else 0)
          + (if t.ctl.lostMark then 4 else 0)
        let body := match a.copy with
          | some c => t.copyBody c
          | none => a.body
        let record := [0x7E] ++ withCrc16 (u16 (2 + body.length) ++ [x.kind ||| 0x80] ++ [x.tag] ++ u8 (Status.code a.status) ++ u8 flags ++ body)
        exec (.replyFormed at_) s = .next { t with
          fresh := t.fresh + 1
          ctl :=
            if t.ctl.waiting.isSome then
              { t.ctl with
                inProgress := t.ctl.waiting.map fun w =>
                  match w.work with
                  | .answered b => { w with work := .answered { b with body := if b.body.isEmpty then [] else t.screenSummary } }
                  | .todo _ => w
                waiting := none, lostMark := true, restartPending := false }
            else { t.ctl with inProgress := none, reply := some record, lostMark := false } }

/-- R164, R171: a read transaction carries the held reply and then 0x00; a reply clocked whole ceases to be held, or, with a restart
pending, the part restarts. A shorter read leaves it held. The model's own: a row that only ends the transaction ignored at a reset is its
reading of R172 (log 28), and a restart moves the counter of free values on (`fresh + 1`, log 7). -/
def Obligations.ReadTransactionClocksTheReply : Prop :=
  ∀ (s : State) (at_ clocked : Nat) (straps : Straps),
    (s.ctl.ignoring = true →
        exec (.readTransaction at_ clocked straps) s = .next { s.tick at_ with ctl := { s.ctl with ignoring := false } })
      ∧ (s.ctl.ignoring = false → s.ctl.reply = none →
        exec (.readTransaction at_ clocked straps) s =
          .next { s.tick at_ with ctl := { s.ctl with miso := List.replicate clocked 0 } })
      ∧ ∀ record, s.ctl.ignoring = false → s.ctl.reply = some record →
        exec (.readTransaction at_ clocked straps) s =
          if clocked < record.length then .next { s.tick at_ with ctl := { s.ctl with miso := record.take clocked } }
          else
            let miso := record ++ List.replicate (clocked - record.length) 0
            if s.ctl.restartPending then
              let t := resetState .restart (max s.now at_) straps s.trips.pins false s.keptPages (s.fresh + 1) s.pending
              .next { t with ctl := { t.ctl with miso := miso } }
            else .next { s.tick at_ with ctl := { s.ctl with reply := none, miso := miso } }

/-- The requests that only read: OK with their record, and nothing changes but the request in progress. A read of an object that does not
exist is refused RANGE. The bytes of a record rest on the model's choices where the manual gives none: the widths and values of the identity
code and the silicon revision (log 6), the codes of flags and named values (logs 8, 51), the records' own layout (log 26), an unbound axis and
fields that are present together (logs 32, 41), a field that may be none (log 52), the order of the roster and the lost set (log 42), and the records of READ_PORT, READ_TRIPS and
READ_STORE (logs 33 to 35). R174: the byte of a flag, an optional field behind its presence byte, a list behind its count. R22, R46, R66, R91,
R116, R132, R149: the fields of each record, in their order. -/
def Obligations.ReadRequestsAnswerAndChangeNothing : Prop :=
  (∀ (s : State) (at_ n : Nat),
    (s.working .identify = true →
        exec .identify s = s.replies .ok
          (u16 Config.identityCode.toNat ++ u8 Config.siliconRevision.toNat ++ u8 s.angle.nodeId ++ u8 (Role.code s.angle.role)
            ++ u8 (ResetCause.code s.ctl.cause)))
      ∧ (s.working .status = true →
        exec .status s = s.replies .ok
          (u8 (AngleState.code s.angle.state) ++ u8 (LineState.code s.angle.lineState) ++ u8 s.trips.effective.code
            ++ u8 s.trips.localList.length ++ u8 s.trips.remote.length ++ uFlag s.trips.impressionOff ++ u8 (RingMode.code s.ring.mode)
            ++ u8 (PortState.code (s.port 0).state) ++ u8 (PortState.code (s.port 1).state) ++ u8 (PortState.code (s.port 2).state)
            ++ u8 (PortState.code (s.port 3).state) ++ u8 (s.axesIn .free) ++ u8 (s.axesIn .catching) ++ u8 (s.axesIn .coupled)
            ++ u8 (s.axesIn .inhibited) ++ u8 (ScreenState.code s.screen.state) ++ u8 s.ctl.notices.length ++ uFlag s.ctl.overflow
            ++ u8 (WindowState.code s.trips.window)))
      ∧ (s.working .readLine = true →
        exec .readLine s = s.replies .ok
          (encodeAngleRecord s.angle ++ (if s.angle.role = .master then encodeMaster s.master else List.replicate 20 0)))
      ∧ (s.working (.readAxis n) = true →
        exec (.readAxis n) s =
          if h : n < 16 then s.replies .ok (encodeAxis (s.axis ⟨n, h⟩) s.straySteps) else s.replies .range)
      ∧ (s.working (.readPort n) = true →
        exec (.readPort n) s = if h : n < 4 then s.replies .ok (s.encodePort ⟨n, h⟩) else s.replies .range)
      ∧ (s.working .readTrips = true → exec (.readTrips at_) s = (s.tick at_).replies .ok (s.tick at_).encodeTrips)
      ∧ (s.working .readRing = true →
        exec .readRing s = s.replies .ok
          (encodeFibre s.ring.a ++ encodeFibre s.ring.b ++ u8 (RingMode.code s.ring.mode) ++ u8 s.ring.localQueue.length
            ++ u8 s.ring.tripSequence.toNat ++ uFlag s.ring.restartFlag ++ u16 s.ring.bulkSequence.toNat ++ u16 s.ring.a.crcErrors
            ++ u16 s.ring.b.crcErrors ++ u16 s.ring.forwardDrops ++ u16 s.ring.strays ++ u16 s.ring.urgentDrops ++ u16 s.ring.duplicates
            ++ u16 s.angle.foreignMaster ++ u16 s.angle.alignLate
            ++ uList (fun x : Nat × Nat => u8 x.1 ++ u8 x.2) (if s.angle.role = .master then s.ring.roster else [])
            ++ uList u8 (if s.angle.role = .master then s.ring.lost else [])))
      ∧ (s.working (.readStoreSummary n) = true →
        exec (.readStoreSummary n) s =
          if h : n < 4 then
            s.replies .ok (encodeMap (s.map ⟨n, h⟩)
              ++ if n = 0 then
                  u8 s.store.decimation ++ u8 s.store.hStep ++ u16 s.store.stored ++ u8 s.store.streamDest ++ u16 s.store.unboundLines
                    ++ u16 s.store.streamSkips ++ encodeCamera s.camera
                else [])
          else s.replies .range)
      ∧ (s.working .readMarks = true →
        exec .readMarks s = s.replies .ok
          (s.marks.channels.toList.flatMap encodeChannel ++ u24 s.marks.vReg
            ++ uOpt (fun l : Nat × Angle => u16 l.1 ++ u24 l.2.toNat) s.marks.lastLine ++ uFlag s.marks.registerLost
            ++ uFlag s.marks.marksLocked ++ u16 s.camera.width ++ u24 s.camera.pitch ++ u16 (16777216 / s.camera.pitch))))
    ∧ (∀ (b : Bool) (f : Byte → List Byte) (x : Byte) (l : List Byte),
      uFlag b = [if b then 0 else 1] ∧ uOpt f none = [0] ∧ uOpt f (some x) = 1 :: f x
        ∧ uList f l = BitVec.ofNat 8 l.length :: l.flatMap f)
    ∧ (∀ (a : AngleRecord) (m : MasterRecord),
      let slot (x : StatusSlot) : List Byte :=
        uFlag x.present ++ u8 (if x.passMark then 1 else 0) ++ u8 x.worst.code ++ u8 (RingMode.code x.ringMode) ++ uFlag x.axesCoupled
          ++ uFlag x.marksLocked
      let firstOut (f : FirstOut) : List Byte := uOpt u8 f.origin ++ uOpt u8 f.source ++ u8 f.cls.code ++ u16 f.cycle.toNat
      encodeAngleRecord a =
          u8 (Role.code a.role) ++ u8 a.nodeId ++ u8 (AngleState.code a.state) ++ uOpt u8 a.masterOrigin ++ u16 a.cycleNumber.toNat
            ++ u24 a.aM.toNat ++ u24 a.v ++ u16 a.frameRevolution.toNat ++ u8 (LineState.code a.lineState) ++ u8 (Period.code a.period)
            ++ u8 a.k ++ u24 a.lAlign ++ u8 a.coastLimit ++ u24 a.stepTolerance ++ u8 a.coastCount ++ u16 a.frameDelay
            ++ u24 a.previousAngle.toNat ++ u16 a.updateRevolution.toNat ++ a.vector.toList.flatMap slot ++ u16 a.coasts
            ++ u16 a.angleLosses
        ∧ encodeMaster m =
          u24 m.speedTarget ++ u24 m.vMax ++ u16 m.aUp ++ u16 m.aDown ++ u16 m.aTrip ++ u24 m.nextV ++ u8 m.returnMisses
            ++ uFlag m.returnLoss ++ u16 m.ringDelay ++ uOpt firstOut m.firstOut)
    ∧ (∀ (a : Axis) (straySteps : Nat),
      encodeAxis a straySteps =
        u8 (AxisState.code a.state) ++ uOpt (fun b : Fin 4 × Fin 4 => u8 b.1.val ++ u8 b.2.val) a.binding ++ i16 a.n ++ u16 a.d ++ u16 a.r
          ++ u24 a.g.toNat ++ i24 a.p ++ i24 a.t ++ i24 a.c ++ u16 a.slew ++ u24 a.trimLimit ++ u24 a.catchLimit ++ u24 a.followLimit
          ++ u8 a.followCount ++ uFlag a.accept ++ uOpt (fun x : Int × Nat => i16 x.1 ++ u16 x.2) a.staged ++ u24 a.f.toNat ++ uFlag a.fresh
          ++ u24 a.s.toNat ++ i24 a.v ++ u16 a.applied ++ u16 a.discarded ++ u16 a.refused ++ u16 straySteps)
    ∧ (∀ (s : State) (p : Fin 4),
      let r := s.port p
      let c := r.counters
      let bound : List (Fin 4 × Fin 16) := portNumbers.filterMap fun sub =>
        (axisNumbers.find? fun i => (s.axis i).binding = some (p, sub)).map fun i => (sub, i)
      s.encodePort p =
        u8 (PortState.code r.state) ++ u8 r.divider ++ u32 (100000000 / (4 * (r.divider + 1))) ++ u8 r.missLimit ++ u8 r.missCount
          ++ u8 r.linkCount ++ u8 (FaultReason.code r.reason)
          ++ uOpt (fun x : Fin 4 × Option (Fin 16) => u8 x.1.val ++ uOpt (fun i : Fin 16 => u8 i.val) x.2) r.place
          ++ u8 r.queue.length ++ uFlag r.stopped ++ uList (fun x : Fin 4 => u8 x.val) r.sentList ++ u8 (ServiceSlot.code r.slot)
          ++ uOpt (fun x : Fin 4 × List Byte => u8 x.1.val) r.service ++ u8 r.serviceWait ++ u8 r.serviceAge
          ++ r.reports.toList.flatMap (fun x => uFlag x.fault ++ uFlag x.enabled ++ [x.code])
          ++ (u16 c.sent ++ u16 c.goodFeedbacks ++ u16 c.crcErrors ++ u16 c.framingErrors ++ u16 c.lengthErrors ++ u16 c.mismatched
            ++ u16 c.overruns ++ u16 c.discarded ++ u16 c.misses ++ u16 c.lateSends ++ u16 c.setpointsDropped ++ u16 c.strayReplies)
          ++ uList (fun x : Fin 4 × Fin 16 => u8 x.2.val ++ u8 x.1.val) bound)
    ∧ (∀ p : FibrePort,
      encodeFibre p =
        u8 (FibreState.code p.state) ++ u16 p.linkDelay ++ uFlag p.peerOk ++ u8 p.okRun ++ uFlag p.usable ++ u8 p.urgent.length
          ++ u8 (if p.cycle.isSome then 1 else 0) ++ u8 p.forwarded.length)
    ∧ (∀ s : State,
      let t := s.trips
      let age := match t.window with
        | .off => 0
        | _ => min ((s.now - t.openedAt.getD s.now) / 1000000) 65535
      s.encodeTrips =
          t.sources.toList.flatMap (fun r => uFlag r.enable ++ u8 r.cls.code ++ u8 r.priority ++ u8 (Conditioning.code r.conditioning)
            ++ u8 r.filter ++ u8 (if r.filtered then 1 else 0) ++ uFlag r.condition)
            ++ uList (fun e : LocalEntry => u8 e.source.val ++ u8 e.cls.code ++ u8 e.priority ++ u16 e.latchCycle.toNat
              ++ u24 e.latchAngle.toNat ++ u8 e.repeats ++ u8 (EntryState.code e.state)) t.localList
            ++ uList (fun e : RemoteEntry => u8 e.origin ++ u8 e.source ++ u8 e.cls.code ++ u8 e.priority ++ u16 e.cycle.toNat
              ++ u8 e.lowCount) t.remote
            ++ uFlag t.overflow ++ u8 t.overflowClass.code ++ t.held.toList.flatMap (uOpt fun c : TripClass => u8 c.code)
            ++ u8 t.effective.code ++ uOpt (fun h : HeadTrip => u8 h.origin ++ u8 h.source ++ u8 h.cls.code) s.headTrip
            ++ uFlag t.impressionOff ++ u8 t.worst.code ++ uFlag t.axesCoupled ++ uFlag t.marksLocked ++ u8 (WindowState.code t.window)
            ++ u16 t.minimum ++ u16 t.maximum ++ u16 age ++ u16 t.remoteOverflows ++ u16 t.unmatchedClears ++ u16 t.pruned
            ++ u16 t.keepaliveFaults
        ∧ (∀ e ∈ t.localList, e.cls.code ≤ t.worst.code) ∧ (t.worst = .none ∨ ∃ e ∈ t.localList, e.cls = t.worst))
    ∧ (∀ (m : ImageMap) (c : Camera),
      encodeMap m =
          u8 (MapState.code m.state) ++ u8 m.origin ++ u16 m.stride ++ u16 m.slotCount
            ++ m.entries.toList.flatMap (fun e => uFlag e.valid ++ uFlag e.writeProtect ++ u8 e.page)
            ++ uOpt (fun f : MapFault => u8 f.page ++ u16 f.slot ++ u16 f.revolution.toNat) m.fault ++ u16 m.written ++ u16 m.frozen
            ++ u16 m.dropped
        ∧ encodeCamera c =
          u8 (if c.on then 1 else 0) ++ u16 c.width ++ u24 c.pitch ++ uOpt u24 c.pointer ++ u8 c.tagCounter
            ++ uList (fun x : Trigger => u16 x.line ++ u24 x.stamp.toNat ++ u16 x.revolution.toNat) c.triggers
            ++ uList (fun o : Outstanding => u16 o.line ++ u8 o.tag ++ u24 o.stamp.toNat ++ u16 o.revolution.toNat) c.outstanding
            ++ u16 c.issued ++ u16 c.skipped ++ u16 c.missing ++ u16 c.received ++ u16 c.unknownTags ++ u16 c.badLines)
    ∧ ∀ c : Channel,
      let angle (a : Angle) : List Byte := u24 a.toNat
      encodeChannel c =
        u8 (ChannelState.code c.state) ++ u16 c.c0 ++ u16 c.c1 ++ u8 c.threshold ++ u8 c.width ++ u24 c.g0.toNat ++ u24 c.g1.toNat
          ++ i24 c.spacing ++ u24 c.span ++ u16 c.gain ++ u16 c.deadband ++ u16 c.stepClamp ++ u8 c.node ++ u8 c.axis.val ++ u8 c.lostLimit
          ++ uFlag c.tripFlag ++ uOpt u16 c.previous ++ u8 (RepeatPhase.code c.phase) ++ uOpt angle c.armed ++ uOpt angle c.edgeTaken
          ++ uOpt angle c.lastEdge ++ i24 c.lastError ++ i24 c.lastStep ++ u8 (StepOutcome.code c.outcome) ++ u8 c.foundRun ++ u8 c.missRun
          ++ u16 c.found ++ u16 c.missed ++ u16 c.stepsSent ++ u16 c.stepsWithheld ++ u16 c.stepsLost

/-- R131: a slot read is refused for a map or slot that does not exist, answers ABSENT for an invalid page, and otherwise copies the stride
bytes of the slot between two looks at its directory record: the reply is marked TORN if the writing flag was set at either look or the
write numbers differ, and a copy not TORN holds the bytes as the first look found them; a TORN one holds as many bytes, which are left open, and
carries the mark. R174: the mark is an optional field, whose byte is 0 when it is absent and 1 when it is present. The model's own: the looks
stand at the row and at the forming of its reply, present flag, stamp and bytes are the first look's and a byte under write is a free value of
the counter `fresh` (log 7); the code of the present flag (log 8); the bytes carry no count (log 9); nothing follows the byte of the mark (log 35). -/
def Obligations.SlotReadCopiesBetweenTwoLooks : Prop :=
  (∀ (s : State) (map slot : Nat), s.working (.readStoreSlot map slot) = true →
      exec (.readStoreSlot map slot) s =
        if h : map < 4 then
          let m := s.map ⟨map, h⟩
          let r := m.slot slot
          let page := slot * m.stride / 2048
          if m.slotCount ≤ slot then s.replies .range
          else if (m.entry page).valid = false then s.replies .ok [0]
          else .next (({ s with fresh := s.fresh + 1 }).note
            { status := .ok
              copy := some
                { map := ⟨map, h⟩, slot := slot, present := r.present, stamp := r.stamp, writeNumber := r.writeNumber, writing := r.writing
                  bytes := (List.range m.stride).map fun k =>
                    s.pageByte s.fresh ((m.entry page).page * 2048 + slot * m.stride % 2048 + k) } })
        else s.replies .range)
    ∧ (∀ (s : State) (nonce a : Nat), s.writeAt a = none → s.pageByte nonce a = Memory.read s.store.pages a)
    ∧ ∀ (s : State) (c : StoreCopy),
      let r := (s.map c.map).slot c.slot
      (s.torn c = true ↔ c.writing = true ∨ r.writing = true ∨ r.writeNumber ≠ c.writeNumber)
        ∧ (s.torn c = false → s.copyBody c = [1] ++ uFlag c.present ++ u16 c.stamp.toNat ++ c.bytes ++ [0])
        ∧ (s.torn c = true → ∃ bytes : List Byte,
          bytes.length = c.bytes.length
            ∧ s.copyBody c = [1] ++ uFlag c.present ++ u16 c.stamp.toNat ++ bytes ++ [1])

/-- R168, R169, R171: a state notice whose key is in the list takes the place of the entry that holds it, any other joins at the tail of a list
of fewer than 32, and a notice not admitted sets overflow. FETCH_NOTICE takes the oldest from the head, up to 8 of them and as many as fit
whole; a fetch that empties the list clears overflow, and its reply shows overflow as it stood. R170: ATTN_N is low exactly while the list holds
an entry. RESTART sets the restart pending and nothing else. -/
def Obligations.NoticesAreAdmittedAndFetched : Prop :=
  (∀ (s : State) (n : Notice),
      s.post n = { s with ctl := { s.ctl with
        notices :=
          if n.key ≠ none ∧ n.key ∈ s.ctl.notices.map Notice.key then s.ctl.notices.map fun m => if m.key = n.key then n else m
          else if s.ctl.notices.length < 32 then s.ctl.notices ++ [n]
          else s.ctl.notices
        overflow := s.ctl.overflow || !(decide (n.key ≠ none ∧ n.key ∈ s.ctl.notices.map Notice.key) || decide (s.ctl.notices.length < 32)) } })
    ∧ ((∀ s : State, s.working .fetchNotice = true → ∃ n,
        let left := s.ctl.notices.drop n
        let out := s.ctl.notices.take n
        exec .fetchNotice s = .next (({ s with ctl := { s.ctl with
              notices := left, overflow := if left = [] then false else s.ctl.overflow } }).note
            { status := .ok
              body := u8 left.length ++ u8 out.length ++ out.flatMap Notice.record
              overflowBefore := s.ctl.overflow })
          ∧ n ≤ 8 ∧ n ≤ s.ctl.notices.length ∧ (u8 left.length ++ u8 out.length ++ out.flatMap Notice.record).length ≤ 1040
          ∧ (n < 8 → n < s.ctl.notices.length →
            1040 < (u8 left.length ++ u8 out.length ++ (s.ctl.notices.take (n + 1)).flatMap Notice.record).length))
      ∧ ∀ s : State, s.working .restart = true →
        exec .restart s = ({ s with ctl := { s.ctl with restartPending := true } }).replies .ok)
    ∧ ∀ s : State, s.attnLow = true ↔ s.ctl.notices ≠ []

/-! ## The angle unit and the line master -/

/-- R4: the five checks in order, and what a taken SET_CYCLE stores. T_u is formed with the new k; with KEEP at the master a pending T_c is
checked as well (the model's reading of R53, log 21). -/
def Obligations.SetCycleChecksThenStores : Prop :=
  ∀ (s : State) (f : CycleFieldsReq), s.working (.setCycle f) = true →
    let inForce := f.period.getD s.angle.period
    let fits (p : Period) : Prop := ∀ i : Fin 4, (s.port i).state ≠ .off → 560 * 40 * ((s.port i).divider + 1) + 4000 ≤ p.ns / f.k
    (¬((f.k = 1 ∨ f.k = 2 ∨ f.k = 4 ∨ f.k = 8) ∧ 1000 ≤ f.lAlign ∧ f.lAlign ≤ 500000 ∧ 1 ≤ f.coastLimit ∧ f.coastLimit ≤ 8
          ∧ 1 ≤ f.stepTolerance ∧ f.stepTolerance ≤ 1048575) → exec (.setCycle f) s = s.replies .range)
      ∧ ((f.k = 1 ∨ f.k = 2 ∨ f.k = 4 ∨ f.k = 8) → 1000 ≤ f.lAlign → f.lAlign ≤ 500000 → 1 ≤ f.coastLimit → f.coastLimit ≤ 8 →
        1 ≤ f.stepTolerance → f.stepTolerance ≤ 1048575 →
        (f.period ≠ none → s.angle.role = .member → exec (.setCycle f) s = s.replies .notMaster)
          ∧ (f.period ≠ none → s.angle.role = .master → s.angle.lineState ≠ .stopped → exec (.setCycle f) s = s.replies .state)
          ∧ ((f.period = none ∨ s.angle.role = .master ∧ s.angle.lineState = .stopped) →
            (inForce.ns < f.lAlign → exec (.setCycle f) s = s.replies .range)
              ∧ (f.lAlign ≤ inForce.ns →
                ¬(fits inForce ∧ (f.period = none → ∀ p, s.master.pendingPeriod = some p → fits p)) →
                exec (.setCycle f) s = s.replies .range)
              ∧ (f.lAlign ≤ inForce.ns → fits inForce → (f.period = none → ∀ p, s.master.pendingPeriod = some p → fits p) →
                exec (.setCycle f) s = ({ s with
                  angle :=
                    { s.angle with k := f.k, lAlign := f.lAlign, coastLimit := f.coastLimit, stepTolerance := f.stepTolerance }
                  master :=
                    { s.master with
                      pendingPeriod := match f.period with
                        | some p => some p
                        | none => s.master.pendingPeriod } } : State).replies .ok)))

/-- R17, R18, R16: SET_SPEED and SET_RAMP with their refusals; START, its refusals in order, and what a taken START changes (V and next V
stay); and the computation of the next frame by the line state in force. -/
def Obligations.SpeedRampStartAndTheNextFrame : Prop :=
  ((∀ (s : State) (target : Nat), s.working (.setSpeed target) = true →
        exec (.setSpeed target) s =
          if s.angle.role = .member then s.replies .notMaster
          else
            ({ s with master :=
              { s.master with speedTarget := if s.master.vMax < target then s.master.vMax else target } } : State).replies .ok)
      ∧ ∀ (s : State) (f : RampFields), s.working (.setRamp f) = true →
        exec (.setRamp f) s =
          if s.angle.role = .member then s.replies .notMaster
          else if ¬(1 ≤ f.vMax ∧ f.vMax ≤ 4194303 ∧ 1 ≤ f.aUp ∧ f.aUp ≤ 65535 ∧ 1 ≤ f.aDown ∧ f.aDown ≤ 65535 ∧ 1 ≤ f.aTrip
              ∧ f.aTrip ≤ 65535) then s.replies .range
          else
            ({ s with master :=
              { s.master with
                vMax := f.vMax, aUp := f.aUp, aDown := f.aDown, aTrip := f.aTrip
                speedTarget := if f.vMax < s.master.speedTarget then f.vMax else s.master.speedTarget } } : State).replies .ok)
    ∧ (∀ s : State, s.working .start = true →
      exec .start s =
        if s.angle.role = .member then s.replies .notMaster
        else if s.angle.lineState = .tripStop ∨ s.trips.effective = .stopRamp ∨ s.trips.effective = .stopFast then s.replies .tripped
        else if s.angle.lineState = .running then s.replies .state
        else
          (({ s with
            angle := { s.angle with lineState := .running }
            master := { s.master with firstOut := none } } : State).post (.lineState .running s.angle.cycleNumber)).replies .ok)
    ∧ (∀ (s : State),
      let v := s.angle.v
      let m := s.master
      let next : Nat × LineState :=
        match s.angle.lineState with
        | .running => (if v < m.speedTarget then min (v + m.aUp) m.speedTarget else if m.speedTarget < v then max (v - m.aDown) m.speedTarget else v,
            .running)
        | .stopping => (v - m.aDown, if v ≤ m.aDown then .stopped else .stopping)
        | .tripStop => (v - m.aTrip, if v ≤ m.aTrip then .stopped else .tripStop)
        | .stopped => (0, .stopped)
      let t : State := { s with
        angle := { s.angle with lineState := next.2 }
        master :=
          { m with
            nextA := s.angle.aM + BitVec.ofNat 24 v
            nextRevolution := if s.angle.aM.toNat + v ≥ 16777216 then s.angle.frameRevolution + 1 else s.angle.frameRevolution
            nextCycle := s.angle.cycleNumber + 1
            nextV := next.1 } }
      s.computeNext = if next.2 ≠ s.angle.lineState then t.post (.lineState next.2 s.angle.cycleNumber) else t)

/-- R19: STOP, and the computation of R16 that ends a STOPPING line. -/
def Obligations.StopMakesARunningLineStop : Prop :=
  (∀ s : State, s.working .stop = true →
      exec .stop s =
        if s.angle.role = .member then s.replies .notMaster
        else if s.angle.lineState = .running then
          (({ s with angle := { s.angle with lineState := .stopping } } : State).post
            (.lineState .stopping s.angle.cycleNumber)).replies .ok
        else s.replies .ok)
    ∧ ∀ (m : MasterRecord) (v : Nat),
      rampStep m .stopping v = if v ≤ m.aDown then (0, .stopped) else (v - m.aDown, .stopping)

/-! ## Axes -/

/-- R25: SET_AXIS, its three checks in order, and what a taken one stores; the trim target is clamped to the new limit with a notice. -/
def Obligations.SetAxisChecksThenStores : Prop :=
  ∀ (s : State) (f : AxisFields), s.working (.setAxis f) = true →
    (¬(f.axis < 16 ∧ (∀ b, f.binding = some b → b.1 < 4 ∧ b.2 < 4) ∧ 1 ≤ f.slew ∧ f.slew ≤ 65535 ∧ f.trimLimit ≤ 1048575
          ∧ 1 ≤ f.catchLimit ∧ f.catchLimit ≤ 8388607 ∧ f.followLimit ≤ 8388607) → exec (.setAxis f) s = s.replies .range)
      ∧ ∀ (i : Fin 16) (binding : Option (Fin 4 × Fin 4)), f.axis = i.val → f.binding = binding.map (fun b => (b.1.val, b.2.val)) →
        1 ≤ f.slew → f.slew ≤ 65535 → f.trimLimit ≤ 1048575 → 1 ≤ f.catchLimit → f.catchLimit ≤ 8388607 → f.followLimit ≤ 8388607 →
        let a := s.axis i
        let l : Int := f.trimLimit
        let trim := if a.t < -l then -l else if l < a.t then l else a.t
        let b : Axis :=
          { a with
            binding := binding, slew := f.slew, trimLimit := f.trimLimit, catchLimit := f.catchLimit, followLimit := f.followLimit
            accept := f.accept, fresh := if binding = a.binding then a.fresh else false
            followCount := if f.followLimit = 0 then 0 else a.followCount, t := trim }
        exec (.setAxis f) s =
          if binding ≠ a.binding ∧ a.state ≠ .free then s.replies .state
          else if binding ≠ none ∧ ∃ j : Fin 16, j ≠ i ∧ (s.axis j).binding = binding then s.replies .conflict
          else if trim = a.t then (s.setAxis i b).replies .ok
          else ((s.setAxis i b).post (.trimLimit i trim f.trimLimit .setAxis)).replies .ok

/-- R35, R36: GEAR_CHANGE in its two modes. -/
def Obligations.GearChangeStagesOrJumps : Prop :=
  ∀ (s : State) (f : GearFields),
    (s.working (.gearChangeSmooth f) = true →
        exec (.gearChangeSmooth f) s =
          if h : f.axis < 16 then
            if f.d = 0 then s.replies .range
            else (s.setAxis ⟨f.axis, h⟩ { s.axis ⟨f.axis, h⟩ with staged := some (f.n, f.d) }).replies .ok
          else s.replies .range)
      ∧ (s.working (.gearChangeJump f) = true →
        exec (.gearChangeJump f) s =
          if h : f.axis < 16 then
            let a := s.axis ⟨f.axis, h⟩
            if f.d = 0 then s.replies .range
            else if a.state ≠ .free then s.replies .state
            else (s.setAxis ⟨f.axis, h⟩ { a with n := f.n, d := f.d, r := 0, g := f.angle, staged := none }).replies .ok
          else s.replies .range)

/-- R37: SET_PHASE; the correction goal takes P at the axis's next update that slews, and an INHIBITED or FREE axis does not move. SET_TRIM
clamps to the trim limit, with a notice when the clamp changed the value (R38). -/
def Obligations.PhaseAndTrimTargets : Prop :=
  ((∀ (s : State) (f : OffsetFields), s.working (.setPhase f) = true →
        exec (.setPhase f) s =
          if h : f.axis < 16 then
            if f.value < -8388607 ∨ 8388607 < f.value then s.replies .range
            else (s.setAxis ⟨f.axis, h⟩ { s.axis ⟨f.axis, h⟩ with p := f.value }).replies .ok
          else s.replies .range)
      ∧ (∀ a : Axis, a.goal = max (-8388607) (min 8388607 (a.p + a.t)))
      ∧ (∀ a : Axis, a.state = .inhibited → a.correction = a.c)
      ∧ ∀ (s : State) (i : Fin 16) (delta : Int) (engaged : Bool), (s.axis i).state = .free → s.workAxis i delta engaged = s)
    ∧ (∀ (s : State) (f : OffsetFields), s.working (.setTrim f) = true →
      exec (.setTrim f) s =
        if h : f.axis < 16 then
          let a := s.axis ⟨f.axis, h⟩
          let l : Int := a.trimLimit
          if f.value < -l then ((s.setAxis ⟨f.axis, h⟩ { a with t := -l }).post (.trimLimit ⟨f.axis, h⟩ (-l) a.trimLimit .host)).replies .ok
          else if l < f.value then ((s.setAxis ⟨f.axis, h⟩ { a with t := l }).post (.trimLimit ⟨f.axis, h⟩ l a.trimLimit .host)).replies .ok
          else (s.setAxis ⟨f.axis, h⟩ { a with t := f.value }).replies .ok
        else s.replies .range)

/-- R42: COUPLE, its five checks in order, and what a taken one changes. -/
def Obligations.CoupleChecksThenCatches : Prop :=
  ∀ (s : State) (axis : Nat), s.working (.couple axis) = true →
    exec (.couple axis) s =
      if h : axis < 16 then
        let a := s.axis ⟨axis, h⟩
        let gap := (a.f - a.g).toInt
        if a.state = .catching ∨ a.state = .coupled then s.replies .state
        else if s.trips.effective = .stopFast then s.replies .tripped
        else if ¬((∃ b, a.binding = some b ∧ (s.port b.1).state = .up) ∧ a.fresh = true ∧ s.angle.state = .tracking) then
          s.replies .notReady
        else if (a.catchLimit : Int) < gap ∨ gap < -(a.catchLimit : Int) then s.replies .range
        else
          ((s.setAxis ⟨axis, h⟩ { a with c := gap, followCount := 0, state := .catching }).post
            (.axisState ⟨axis, h⟩ .catching .request a.binding)).replies .ok
      else s.replies .range

/-- R43: RELEASE; a bound axis that is FREE hands the hold entry with enable = 0. -/
def Obligations.ReleaseFreesTheAxis : Prop :=
  (∀ (s : State) (axis : Nat), s.working (.release axis) = true →
      exec (.release axis) s =
        if h : axis < 16 then
          let a := s.axis ⟨axis, h⟩
          let t := s.setAxis ⟨axis, h⟩ { a with state := .free, staged := none }
          if a.state = .free then t.replies .ok else (t.post (.axisState ⟨axis, h⟩ .free .request a.binding)).replies .ok
        else s.replies .range)
    ∧ (∀ (a : Axis) (sub : Fin 4), a.state = .free →
      a.entry sub = { sub := sub, enable := false, setpoint := a.f, feedforward := 0 })
    ∧ ∀ (s : State) (i : Fin 16) (delta : Int) (engaged : Bool), (s.axis i).state = .free → s.workAxis i delta engaged = s

/-- R29: the increment is geared exactly: the quotient is the greatest integer not above x / D, the remainder lies in 0..D − 1, and over
any run of updates under one ratio D × (sum of q) + (R at the end − R at the start) = N × (sum of ΔA). For the increments an update can
carry x stays inside 40 bits. -/
def Obligations.GearingIsExact : Prop :=
  ∀ a : Axis, a.r < a.d →
    (∀ delta : Int,
        let x := delta * a.n + a.r
        let q := a.gearedIncrement delta
        (q * a.d ≤ x ∧ x < (q + 1) * a.d)
          ∧ ((a.gear delta).r : Int) = x - q * a.d ∧ (a.gear delta).r < a.d ∧ (a.gear delta).d = a.d ∧ (a.gear delta).n = a.n
          ∧ (a.gear delta).g = a.g + BitVec.ofInt 24 q
          ∧ (delta = 0 → a.gearedIncrement 0 = 0 ∧ a.gear 0 = a)
          ∧ (-8388608 ≤ delta → delta ≤ 8388608 → -32768 ≤ a.n → a.n ≤ 32768 → a.d ≤ 65536 → -(2 ^ 38 + 2 ^ 16) < x ∧ x < 2 ^ 38 + 2 ^ 16))
      ∧ ∀ deltas : List Int,
        let run := deltas.foldl (fun (y : Axis × Int) delta => (y.1.gear delta, y.2 + y.1.gearedIncrement delta)) (a, 0)
        (a.d : Int) * run.2 + ((run.1.r : Int) - a.r) = a.n * deltas.sum ∧ run.1.r < a.d

/-- R30: the correction goal is P + T clamped; in CATCHING and COUPLED the correction moves toward it by at most the slew, in INHIBITED it is
held. -/
def Obligations.CorrectionSlewsTowardItsGoal : Prop :=
  ∀ a : Axis,
    let k := max (-8388607) (min 8388607 (a.p + a.t))
    (a.state = .catching ∨ a.state = .coupled →
        ((k - a.c).natAbs ≤ a.slew → a.correction = k)
          ∧ (a.slew < (k - a.c).natAbs → a.c < k → a.correction = a.c + a.slew)
          ∧ (a.slew < (k - a.c).natAbs → k < a.c → a.correction = a.c - a.slew)
          ∧ (a.correction - a.c).natAbs ≤ a.slew)
      ∧ (a.state = .inhibited → a.correction = a.c)

/-- R27, R28, R31 to R33: the work of one update on an axis that is not FREE, short of its telegram step. -/
def Obligations.AxisWorkAtOneUpdate : Prop :=
  ∀ (s : State) (i : Fin 16) (delta : Int) (engaged : Bool), (s.axis i).state ≠ .free →
    let a := s.axis i
    let b : Axis := match a.staged with
      | none => a
      | some x => { a with r := a.r * x.2 / a.d, n := x.1, d := x.2, staged := none }
    let q := b.gearedIncrement delta
    let c := (b.gear delta).correction
    let count :=
      if engaged = true ∧ a.followLimit ≠ 0 ∧ a.fresh = true then
        if a.followLimit < ((a.s - a.f).toInt).natAbs then min (a.followCount + 1) 3 else 0
      else a.followCount
    let state := if a.state = .catching ∧ c = b.goal then AxisState.coupled else a.state
    let t := s.setAxis i
      { b.gear delta with
        c := c, followCount := count, s := (b.gear delta).g + BitVec.ofInt 24 c, v := max (-8388607) (min 8388607 (q + (c - a.c)))
        state := state }
    s.workAxis i delta engaged =
      if a.state = .catching ∧ state = .coupled then t.post (.axisState i .coupled .catchDone a.binding) else t

/-- R39: a trim step of the own mark unit that is on its way to an axis is applied in COUPLED, clamped, and discarded in every other state;
a step that is not on its way changes nothing (the model's choice, log 2). R40: a TRIM_STEP frame names an axis and carries a step of 3 bytes; it
is a stray above axis 15, refused by an axis that does not accept, and otherwise taken as a local step is, with its own writer. -/
def Obligations.LocalTrimStepReachesItsAxis : Prop :=
  (∀ (s : State) (i : Fin 16) (step : Int),
      exec (.localTrimStep i step) s =
        if (i, step) ∈ s.localSteps then
          let t : State := { s with localSteps := s.localSteps.erase (i, step) }
          let a := s.axis i
          let sum := max (-(a.trimLimit : Int)) (min (a.trimLimit : Int) (a.t + step))
          if a.state = .coupled then
            let u := t.setAxis i { a with applied := min (a.applied + 1) 65535, t := sum }
            .next (if sum = a.t + step then u else u.post (.trimLimit i sum a.trimLimit .localStep))
          else .next (t.setAxis i { a with discarded := min (a.discarded + 1) 65535 })
        else .next s)
    ∧ ∀ (s : State) (payload : List Byte),
      (15 < (byteAt payload 0).toNat → s.deliverTrimStep payload = { s with straySteps := min (s.straySteps + 1) 65535 })
        ∧ ∀ i : Fin 16, (byteAt payload 0).toNat = i.val →
          let a := s.axis i
          let step := (BitVec.ofNat 24 (fieldAt payload 1 3)).toInt
          let sum := max (-(a.trimLimit : Int)) (min (a.trimLimit : Int) (a.t + step))
          s.deliverTrimStep payload =
            if a.accept = false then s.setAxis i { a with refused := min (a.refused + 1) 65535 }
            else if a.state = .coupled then
              let u := s.setAxis i { a with applied := min (a.applied + 1) 65535, t := sum }
              if sum = a.t + step then u else u.post (.trimLimit i sum a.trimLimit .remoteStep)
            else s.setAxis i { a with discarded := min (a.discarded + 1) 65535 }

/-! ## Drive ports -/

/-- R51, R53, R52: SET_PORT with its checks in order. With enable a port in OFF enters LINKING; with disable any port enters OFF, cut off
as the rule lists. -/
def Obligations.SetPortEnablesAndDisables : Prop :=
  ∀ (s : State) (f : PortFields),
    (s.working (.setPortEnable f) = true →
        exec (.setPortEnable f) s =
          if h : f.port < 4 then
            let r := s.port ⟨f.port, h⟩
            if ¬(f.divider ≤ 255 ∧ 1 ≤ f.missLimit ∧ f.missLimit ≤ 15) then s.replies .range
            else if r.state ≠ .off ∧ f.divider ≠ r.divider then s.replies .state
            else if r.state ≠ .off then (s.setPort ⟨f.port, h⟩ { r with missLimit := f.missLimit }).replies .ok
            else if ¬(560 * 40 * (f.divider + 1) + 4000 ≤ s.angle.period.ns / s.angle.k
                ∧ (s.angle.role = .master → ∀ p, s.master.pendingPeriod = some p →
                  560 * 40 * (f.divider + 1) + 4000 ≤ p.ns / s.angle.k)) then s.replies .range
            else
              ((s.setPort ⟨f.port, h⟩
                { r with
                  state := .linking, divider := f.divider, missLimit := f.missLimit, missCount := 0, linkCount := 0, sentList := [] }).post
                (.portState ⟨f.port, h⟩ .linking r.reason r.place 0)).replies .ok
          else s.replies .range)
      ∧ (s.working (.setPortDisable f) = true →
        exec (.setPortDisable f) s =
          if h : f.port < 4 then
            let p : Fin 4 := ⟨f.port, h⟩
            let r := s.port p
            if ¬(f.divider ≤ 255 ∧ 1 ≤ f.missLimit ∧ f.missLimit ≤ 15) then s.replies .range
            else if r.state = .off then (s.setPort p { r with divider := f.divider, missLimit := f.missLimit }).replies .ok
            else
              let off : DrivePort :=
                { r with
                  state := .off, divider := f.divider, missLimit := f.missLimit, transmitter := [], waitingSetpoint := none, queue := []
                  stopped := false, missCount := 0, linkCount := 0, serviceWait := 0, serviceAge := 0, sentList := [], reason := .none
                  place := none, slot := .empty, service := none }
              let t := if r.slot = .empty then s.setPort p off else (s.setPort p off).post (.serviceReply p .aborted none)
              let u := t.post (.portState p .off .none none 0)
              (if r.state = .up then u.inhibitPort p
                else if r.state = .fault then u.setCondition (portSource p) false
                else u).replies .ok
          else s.replies .range)

/-- R61 and R64: RESET_PORT takes a port in FAULT to LINKING; PORT_SERVICE fills an empty service slot. -/
def Obligations.ResetPortAndPortService : Prop :=
  (∀ (s : State) (port : Nat), s.working (.resetPort port) = true →
      exec (.resetPort port) s =
        if h : port < 4 then
          let p : Fin 4 := ⟨port, h⟩
          let r := s.port p
          if r.state ≠ .fault then s.replies .state
          else
            (((s.setPort p
                { r with
                  state := .linking, reason := .none, place := none, missCount := 0, linkCount := 0, queue := [], stopped := false }).post
              (.portState p .linking .none none 0)).setCondition (portSource p) false).replies .ok
        else s.replies .range)
    ∧ ∀ (s : State) (f : ServiceFields), s.working (.portService f) = true →
      exec (.portService f) s =
        if h : f.port < 4 ∧ f.sub < 4 then
          let r := s.port ⟨f.port, h.1⟩
          if f.payload = [] ∨ 32 < f.payload.length then s.replies .range
          else if r.state = .off then s.replies .state
          else if r.slot ≠ .empty then s.replies .busy
          else (s.setPort ⟨f.port, h.1⟩ { r with slot := .waiting, service := some (⟨f.sub, h.2⟩, f.payload), serviceWait := 0 }).replies .ok
        else s.replies .range

/-- R56, R57, R65: how one entry of a receive queue is dealt with at a drain, and which feedback is usable. R56 to R59, R26, R65: the drain of
one port: queue and receive stopped, the counters, the miss count, the drive reports; the service slot, with its SERVICE_REPLY; F and fresh of
every axis bound to the port (a port in OFF has no drain, its axes have fresh cleared); and the port state, with the PORT_STATE notice, the
inhibit and the trip condition of a port that leaves UP. The entries of a feedback stand in rising sub-address order, so the first that carries
the fault flag is the lowest. That a port that faults inhibits its own axes before its trip source is told is the model's order (log 47). The
premise is the invariant `BindingsOk` (R25). -/
def Obligations.DrainDecidesThePortState : Prop :=
  (∀ (r : DrivePort) (t : RxTelegram) (rest : List RxTelegram),
      let usable : Prop := t.mark = .good ∧ t.kind = .feedback ∧ (decodeFeedback t.bytes).map (·.sub) = r.sentList
      let reply := decodeServiceReply t.bytes
      let c := r.counters
      (usable → r.usable t = some (decodeFeedback t.bytes) ∧ r.dealWith t = (r, none))
        ∧ (¬usable → r.usable t = none)
        ∧ (t.mark = .framing → r.dealWith t = ({ r with counters := { c with framingErrors := min (c.framingErrors + 1) 65535 } }, none))
        ∧ (t.mark = .length → r.dealWith t = ({ r with counters := { c with lengthErrors := min (c.lengthErrors + 1) 65535 } }, none))
        ∧ (t.mark = .crc → r.dealWith t = ({ r with counters := { c with crcErrors := min (c.crcErrors + 1) 65535 } }, none))
        ∧ (t.mark = .good → t.kind = .feedback → ¬usable →
          r.dealWith t = ({ r with counters := { c with mismatched := min (c.mismatched + 1) 65535 } }, none))
        ∧ (t.mark = .good → t.kind = .serviceReply →
          r.dealWith t =
            if r.slot = .sent ∧ r.service.map (·.1) = some reply.1 then ({ r with slot := .empty, service := none }, some reply)
            else ({ r with counters := { c with strayReplies := min (c.strayReplies + 1) 65535 } }, none))
        ∧ r.dealWithAll [] = (r, none)
        ∧ (r.dealWithAll (t :: rest)).1 = ((r.dealWith t).1.dealWithAll rest).1
        ∧ (r.dealWithAll (t :: rest)).2 = (r.dealWith t).2.or ((r.dealWith t).1.dealWithAll rest).2
        ∧ r.newestUsable = r.queue.reverse.findSome? r.usable)
    ∧ ∀ (s : State) (p : Fin 4),
      (∀ i j : Fin 16, i ≠ j → (s.axis i).binding.isSome = true → (s.axis i).binding ≠ (s.axis j).binding) →
      let r := s.port p
      let found := r.newestUsable
      let entries := found.getD []
      let fed (t : State) (es : List FeedbackEntry) : State := { t with axes := t.axes.map fun a =>
        match a.binding with
        | none => a
        | some b =>
          if b.1 = p then
            match es.find? fun e => decide (e.sub = b.2) with
            | some e => { a with f := e.position, fresh := true }
            | none => { a with fresh := false }
          else a }
      let x := r.dealWithAll r.queue
      let miss := if found = none then min (r.missCount + 1) 255 else 0
      let counted : DrivePort :=
        { x.1 with
          queue := [], stopped := false, missCount := miss
          reports := entries.foldl (fun v e => v.set e.sub { fault := e.fault, enabled := e.enabled, code := e.code }) r.reports
          counters :=
            if found = none then { x.1.counters with misses := min (x.1.counters.misses + 1) 65535 }
            else { x.1.counters with goodFeedbacks := min (x.1.counters.goodFeedbacks + 1) 65535 } }
      let u : State :=
        if r.slot = .sent ∧ x.2 = none then
          if 2 ≤ r.serviceAge + 1 then
            (s.setPort p { counted with slot := .empty, service := none, serviceAge := 2 }).post (.serviceReply p .timeout none)
          else s.setPort p { counted with serviceAge := r.serviceAge + 1 }
        else
          match x.2 with
          | some reply => (s.setPort p counted).post (.serviceReply p .ok (some reply))
          | none => s.setPort p counted
      let t := fed u entries
      let a := t.port p
      let faults (reason : FaultReason) (place : Option (Fin 4 × Option (Fin 16))) : State :=
        ((((t.setPort p { a with state := .fault, reason := reason, place := place, linkCount := 0 }).post
          (.portState p .fault reason place miss)).inhibitPort p).setCondition (portSource p) true)
      (r.state = .off → s.drain p = fed s [])
        ∧ (r.state = .fault → s.drain p = t)
        ∧ (r.state = .linking →
          s.drain p =
            if found ≠ none ∧ entries.find? (·.fault) = none then
              if 3 ≤ r.linkCount + 1 then
                (t.setPort p { a with state := .up, linkCount := 3 }).post (.portState p .up r.reason r.place miss)
              else t.setPort p { a with linkCount := r.linkCount + 1 }
            else t.setPort p { a with linkCount := 0 })
        ∧ (r.state = .up →
          s.drain p =
            match entries.find? (·.fault) with
            | some e => faults .drive (some (e.sub, s.boundAxis p e.sub))
            | none => if found = none ∧ r.missLimit ≤ miss then faults .miss none else t)

/-- R50, R55 and R54: what a run of received characters becomes, with its error mark, and what a freed transmitter sends. A port in OFF ignores
its receive line (R48). R54, R34, R64: the telegram step of one port at an update, with the entries of its axes in rising sub-address order, and
the service telegram that goes with the SETPOINT. That a row frees the transmitter of one telegram and does nothing at an idle one is the
model's choice (logs 20 and 2). -/
def Obligations.TelegramsInAndOut : Prop :=
  (∀ (s : State) (p : Fin 4) (chars : List DriveChar),
      let r := s.port p
      ((r.state = .off ∨ closeTelegram chars = none) → exec (.telegramClosed p chars) s = .next (s.setPort p r))
        ∧ ∀ x, r.state ≠ .off → closeTelegram chars = some x →
          exec (.telegramClosed p chars) s = .next (s.setPort p
            (if r.stopped then { r with counters := { r.counters with discarded := min (r.counters.discarded + 1) 65535 } }
            else if r.queue.length < 2 then { r with queue := r.queue ++ [x] }
            else { r with stopped := true, counters := { r.counters with overruns := min (r.counters.overruns + 1) 65535 } })))
    ∧ (closeTelegram [] = none
      ∧ ∀ (first : DriveChar) (rest : List DriveChar),
        let sent := (first :: rest).length
        let bs := ((first :: rest).take 36).map (·.byte)
        let n := (byteAt bs 1).toNat
        let mark (lengthBad : Bool) : RxMark :=
          if ∃ c ∈ (first :: rest).take 36, c.stopOk = false then .framing
          else if lengthBad then .length
          else if crc16Good bs then .good
          else .crc
        (first.byte ≠ 0xA2 → first.byte ≠ 0xA4 → closeTelegram (first :: rest) = none)
          ∧ (first.byte = 0xA2 →
            closeTelegram (first :: rest) = some
              { kind := .feedback, bytes := bs, mark := mark (decide (4 < n ∨ 36 < sent ∨ bs.length ≠ 4 + 5 * n)) })
          ∧ (first.byte = 0xA4 →
            closeTelegram (first :: rest) = some
              { kind := .serviceReply, bytes := bs
                mark := mark (decide (n % 64 = 0 ∨ 32 < n % 64 ∨ 36 < sent ∨ bs.length ≠ 4 + n % 64)) }))
    ∧ (∀ (s : State) (p : Fin 4),
      let r := s.port p
      exec (.transmitterFrees p) s = .next (s.setPort p
        (match r.transmitter, r.waitingSetpoint with
          | [_], some es =>
            { r with
              transmitter := [encodeSetpoint es], sentList := es.map (·.sub), waitingSetpoint := none
              counters := { r.counters with sent := min (r.counters.sent + 1) 65535 } }
          | sending, _ => { r with transmitter := sending.tail })))
    ∧ ∀ (s : State) (p : Fin 4) (tu : Nat),
      let r := s.port p
      let entries : List SetpointEntry := (s.boundAxes p).map fun x =>
        let a := s.axis x.2
        if a.state = .catching ∨ a.state = .coupled then
          { sub := x.1, enable := decide (r.state = .up), setpoint := a.s, feedforward := a.v }
        else { sub := x.1, enable := false, setpoint := a.f, feedforward := 0 }
      let sent (n : Nat) : PortCounters := { r.counters with sent := min (r.counters.sent + n) 65535 }
      let q : DrivePort :=
        if r.transmitter = [] then
          { r with transmitter := [encodeSetpoint entries], sentList := entries.map (·.sub), waitingSetpoint := none, counters := sent 1 }
        else
          { r with
            waitingSetpoint := some entries
            counters :=
              { r.counters with
                lateSends := min (r.counters.lateSends + 1) 65535
                setpointsDropped :=
                  if r.waitingSetpoint = none then r.counters.setpointsDropped else min (r.counters.setpointsDropped + 1) 65535 } }
      (((s.boundAxes p).map (·.1)).Pairwise (· < ·)
          ∧ ∀ sub i, (sub, i) ∈ s.boundAxes p ↔ s.boundAxis p sub = some i)
        ∧ (r.state = .off → s.sendPort p tu = s)
        ∧ (r.state ≠ .off → r.slot ≠ .waiting ∨ r.service = none → s.sendPort p tu = s.setPort p q)
        ∧ ∀ sub payload, r.state ≠ .off → r.slot = .waiting → r.service = some (sub, payload) →
          let exchange := (4 + 7 * entries.length) + (4 + payload.length) + (4 + 5 * entries.length) + 36
          s.sendPort p tu =
            if r.transmitter = [] ∧ 400 * (r.divider + 1) * exchange + 4000 ≤ tu then
              s.setPort p
                { q with
                  transmitter := [encodeSetpoint entries, encodeService sub payload], slot := .sent, serviceAge := 0, counters := sent 2 }
            else if 8 ≤ r.serviceWait + 1 then
              (s.setPort p { q with slot := .empty, service := none, serviceWait := 8 }).post (.serviceReply p .noRoom none)
            else s.setPort p { q with serviceWait := r.serviceWait + 1 }

/-! ## Trips -/

/-- R98 to R100, R102, R104: what a change of a source's condition does. An appearance on a source without an entry latches it if it is
enabled; on an INACTIVE entry it is a repeat. A drop makes an ACTIVE entry INACTIVE and removes an ACKED one. A latch adds its entry at the
tail with the class and priority of the source and the cycle number and angle of the moment, hands a TRIP frame to the ring and posts TRIP;
a removal takes the entry out, hands a TRIP_CLEAR frame and posts TRIP with REMOVED. Both then form the effective class again. R78, R80, R85: a
frame so handed over takes the next trip sequence and the restart flag, and joins the processing output or is discarded. That TRIP is
posted before the effective class is formed again, and so shows the class before, is the model's order (log 13). -/
def Obligations.ConditionsLatchRepeatAndDrop : Prop :=
  (∀ (s : State) (i : Fin 24),
      let r := s.source i
      let noted (present : Bool) : State := s.setSource i { r with condition := present }
      s.setCondition i r.condition = s
        ∧ (r.condition = false → s.entryOf i = none → s.setCondition i true = if r.enable then (noted true).latch i .active else noted true)
        ∧ (r.condition = true → s.entryOf i = none → s.setCondition i false = noted false)
        ∧ (∀ e, r.condition = false → s.entryOf i = some e →
          s.setCondition i true =
            if e.state = .inactive then
              let e1 : LocalEntry := { e with repeats := min (e.repeats + 1) 255, state := .active }
              ((noted true).setEntry e1).postTrip e1 .active
            else noted true)
        ∧ (∀ e, r.condition = true → s.entryOf i = some e →
          s.setCondition i false =
            match e.state with
            | .active => ((noted false).setEntry { e with state := .inactive }).postTrip { e with state := .inactive } .inactive
            | .acked => (noted false).removeEntry e
            | .inactive => noted false))
    ∧ ((∀ (s : State) (i : Fin 24) (st : EntryState), st ≠ .acked →
        let r := s.source i
        let e : LocalEntry :=
          { source := i, cls := r.cls, priority := r.priority, latchCycle := s.angle.cycleNumber, latchAngle := s.angle.previousAngle
            repeats := 0, state := st }
        s.latch i st =
          (((({ s with trips := { s.trips with localList := s.trips.localList ++ [e] } }).sendTripFrame .trip
            (u8 i.val ++ u8 r.cls.code ++ u8 r.priority)).postTrip e (if st = EntryState.active then TripNoticeState.active else .inactive)).reform).reportHeadTrip)
      ∧ (∀ (s : State) (e : LocalEntry),
        s.removeEntry e =
          (((({ s with trips := { s.trips with localList := s.trips.localList.filter fun x => x.source ≠ e.source } }).sendTripFrame .tripClear
            (u8 e.source.val ++ u8 e.cls.code)).postTrip e .removed).reform).reportHeadTrip)
      ∧ ∀ (s : State) (kind : FrameKind) (payload : List Byte),
        let f : Frame :=
          { kind := kind, restart := s.ring.restartFlag, reverse := 0, origin := s.angle.nodeId, dest := 0, hop := 0
            seq := s.ring.tripSequence.setWidth 16, payload := payload }
        let t : State := { s with ring := { s.ring with tripSequence := s.ring.tripSequence + 1 } }
        s.sendTripFrame kind payload =
          match s.ring.mode with
          | .closed => t.joinByClass .b .trip (.own f)
          | .wrapA => t.joinByClass .b .trip (.own f)
          | .wrapB => t.joinByClass .a .trip (.own f)
          | .isolated => { t with ring := { t.ring with urgentDrops := min (t.ring.urgentDrops + 1) 65535 } })

/-- R96: SET_TRIP_SOURCE, its checks in order, and what a taken one stores. At an internal source (12 to 23) conditioning and filter have no
effect; at a pin source the condition is formed again from the filtered level, and a filter run in progress is judged against the new filter,
counted from the pin change that started it (R94). The order of these inside one request is the model's (log 38). In every case the five values
are stored. -/
def Obligations.SetTripSourceChecksThenStores : Prop :=
  ∀ (s : State) (at_ : Nat) (f : SourceFields), s.working (.setTripSource f) = true →
    (¬(f.source < 24 ∧ f.cls ≠ .none ∧ f.priority ≤ 3 ∧ f.filter ≤ 255) →
        exec (.setTripSource at_ f) s = (s.tick at_).replies .range)
      ∧ ∀ i : Fin 24, f.source = i.val → f.cls ≠ .none → f.priority ≤ 3 → f.filter ≤ 255 →
        let r := s.source i
        let stored : TripSource :=
          { r with enable := f.enable, cls := f.cls, priority := f.priority, conditioning := f.conditioning, filter := f.filter }
        let t := (s.tick at_).setSource i stored
        (f.enable = false → s.entryOf i ≠ none → exec (.setTripSource at_ f) s = (s.tick at_).replies .state)
          ∧ (f.enable = true ∨ s.entryOf i = none → 12 ≤ i.val →
            exec (.setTripSource at_ f) s =
              (if f.enable = true ∧ r.enable = false ∧ i.val ≠ 16 ∧ r.condition = true ∧ s.entryOf i = none then t.latch i .active
                else t).replies .ok)
          ∧ (f.enable = true ∨ s.entryOf i = none → i.val < 12 → r.run = none →
            let level := match f.conditioning with
              | .levelLow => !r.filtered
              | .levelHigh => r.filtered
              | .edgeFall => false
              | .edgeRise => false
            let u := t.setCondition i level
            exec (.setTripSource at_ f) s =
              (if f.enable = true ∧ r.enable = false ∧ (f.conditioning = .levelLow ∨ f.conditioning = .levelHigh) ∧ level = true
                  ∧ u.entryOf i = none then u.latch i .active
                else u).replies .ok)
          ∧ (∀ (pin : Fin 12) (t0 : Nat), f.enable = true ∨ s.entryOf i = none → pin.val = i.val → r.run = some t0 →
            let u := t.setCondition i
              (match f.conditioning with
                | .levelLow => !r.filtered
                | .levelHigh => r.filtered
                | .edgeFall => false
                | .edgeRise => false)
            let w := if t0 + f.filter * 10000 ≤ max s.now at_ then u.setFiltered pin (!r.filtered) else u
            exec (.setTripSource at_ f) s =
              (if f.enable = true ∧ r.enable = false ∧ (f.conditioning = .levelLow ∨ f.conditioning = .levelHigh)
                  ∧ (w.source i).condition = true ∧ w.entryOf i = none then w.latch i .active
                else w).replies .ok)
          ∧ (f.enable = true ∨ s.entryOf i = none → i.val < 12 → ∃ u : State,
            exec (.setTripSource at_ f) s = u.replies .ok ∧ (u.source i).enable = f.enable ∧ (u.source i).cls = f.cls
              ∧ (u.source i).priority = f.priority ∧ (u.source i).conditioning = f.conditioning ∧ (u.source i).filter = f.filter)

/-- R101: ACK_TRIP acknowledges each source it names, or with ALL (the model's absent list, log 8) every entry; an INACTIVE entry is
removed, an ACTIVE one becomes ACKED, an ACKED one is left and a source without an entry is passed over. Several entries are taken in the
order named, or with ALL in the order of the list: the model's choice (log 45). -/
def Obligations.AckTripAcknowledges : Prop :=
  (∀ (s : State) (sources : List Nat), s.working (.ackTrip (some sources)) = true →
      (sources = [] ∨ 24 < sources.length ∨ (∃ n ∈ sources, 23 < n) → exec (.ackTrip (some sources)) s = s.replies .range)
        ∧ ∀ named : List (Fin 24), sources = named.map (·.val) → named ≠ [] → named.length ≤ 24 →
          exec (.ackTrip (some sources)) s = (named.foldl State.ackSource s).replies .ok)
    ∧ (∀ s : State, s.working (.ackTrip none) = true →
      exec (.ackTrip none) s = ((s.trips.localList.map (·.source)).foldl State.ackSource s).replies .ok)
    ∧ ∀ (s : State) (i : Fin 24),
      (s.entryOf i = none → s.ackSource i = s)
        ∧ ∀ e, s.entryOf i = some e →
          s.ackSource i = match e.state with
            | .inactive => s.removeEntry e
            | .active => (s.setEntry { e with state := .acked }).postTrip { e with state := .acked } .acked
            | .acked => s

/-- R97: RAISE_TRIP sets or clears the condition of source 21 + number, whether or not the source is enabled; a state other than SET or CLEAR
is no well-formed request, which R165 case 3 answers RANGE (that 0 is SET and 1 is CLEAR is the model's reading of R174, log 8). -/
def Obligations.RaiseTripSetsASoftwareCondition : Prop :=
  (∀ body : List Byte, 1 < natAt body 1 → parseRequest 0x42 body = none)
    ∧ ∀ (s : State) (number : Nat) (set : Bool), s.working (.raiseTrip number set) = true →
        (2 < number → exec (.raiseTrip number set) s = s.replies .range)
          ∧ ∀ i : Fin 24, i.val = 21 + number → number ≤ 2 →
            let r := s.source i
            let t := s.setSource i { r with condition := set }
            exec (.raiseTrip number set) s =
              (if r.condition = set then s
                else if set then
                  match s.entryOf i with
                  | none => if r.enable then t.latch i .active else t
                  | some _ => t.appears i
                else t.drops i).replies .ok

/-- R113, R114: the keepalive window, its two requests and its expiry; the window is timed from the instant it was last opened. That an expiry
row changes nothing while the window is not OPEN is the model's choice (log 2). -/
def Obligations.KeepaliveAndItsWindow : Prop :=
  ∀ (s : State) (at_ : Nat),
    let s1 := s.tick at_
    let opened : State := { s1 with trips := { s1.trips with window := .opened, openedAt := some s1.now } }
    let fault (t : State) : State :=
      if (t.source 17).condition = true then t
      else ({ t with trips := { t.trips with keepaliveFaults := min (t.trips.keepaliveFaults + 1) 65535 } }).setCondition 17 true
    (s.working .keepalive = true →
        (s.trips.window = .off → exec (.keepalive at_) s = s1.replies .ok)
          ∧ (∀ t0, s.trips.window = .opened → s.trips.openedAt = some t0 → s1.now - t0 < s.trips.minimum * 1000000 →
            exec (.keepalive at_) s = (fault opened).replies .ok)
          ∧ (∀ t0, s.trips.window = .opened → s.trips.openedAt = some t0 → s.trips.minimum * 1000000 ≤ s1.now - t0 →
            exec (.keepalive at_) s = (opened.setCondition 17 false).replies .ok)
          ∧ (s.trips.window = .expired → exec (.keepalive at_) s = (opened.setCondition 17 false).replies .ok))
      ∧ (∀ f : KeepaliveLimits, s.working (.setKeepalive f) = true →
        exec (.setKeepalive at_ f) s =
          if f.maximum = 0 then (({ s1 with trips := { s1.trips with window := .off } }).setCondition 17 false).replies .ok
          else if f.maximum ≤ f.minimum ∨ 65535 < f.minimum ∨ 65535 < f.maximum then s1.replies .range
          else
            ({ s1 with trips :=
              { s1.trips with
                minimum := f.minimum, maximum := f.maximum, window := .opened, openedAt := some s1.now } } : State).replies .ok)
      ∧ (∀ t0, s.trips.window = .opened → s.trips.openedAt = some t0 →
        exec .keepaliveWindowExpiry s =
          .next (fault { s.tick (t0 + s.trips.maximum * 1000000) with trips := { s.trips with window := .expired } }))
      ∧ (s.trips.window ≠ .opened → exec .keepaliveWindowExpiry s = .next s)

/-- R94: the filters of the TRP pins. A pin that holds a new level for its filter's time gives it to the filtered level; with filter 0 at
once. R98, R99: an edge latches an enabled source INACTIVE, or is a repeat of the entry the source has. Nothing changes but the pins, the
sources and what a trip does. That a change to the level the pin has, and the end of a run where none is timed, change nothing is the model's
choice (log 2). -/
def Obligations.PinsAreFilteredIntoConditions : Prop :=
  ∀ (s : State) (pin : Fin 12) (level : Bool) (at_ : Nat),
    let i : Fin 24 := ⟨pin.val, by omega⟩
    let pins (t : State) : BitVec 12 :=
      if level then t.trips.pins ||| BitVec.twoPow 12 pin.val else t.trips.pins &&& ~~~ BitVec.twoPow 12 pin.val
    let s1 := s.tick at_
    let moved : State := { s1 with trips := { s1.trips with pins := pins s } }
    let r := s.source i
    (s.trips.pins.getLsbD pin.val = level → exec (.trpPinChange pin level at_) s = .next s1)
      ∧ (s.trips.pins.getLsbD pin.val ≠ level → r.filter ≠ 0 → r.filtered = level →
        exec (.trpPinChange pin level at_) s = .next (moved.setSource i { r with run := none }))
      ∧ (s.trips.pins.getLsbD pin.val ≠ level → r.filter ≠ 0 → r.filtered ≠ level →
        exec (.trpPinChange pin level at_) s = .next (moved.setSource i { r with run := some (max s.now at_) }))
      ∧ (s.trips.pins.getLsbD pin.val ≠ level → r.filter = 0 →
        exec (.trpPinChange pin level at_) s = .next (moved.setFiltered pin level))
      ∧ (∀ t0, r.run = some t0 →
        exec (.filterRunEnd pin) s = .next ((s.tick (t0 + r.filter * 10000)).setFiltered pin (!r.filtered)))
      ∧ (r.run = none → exec (.filterRunEnd pin) s = .next s)
      ∧ (r.filtered = level → s.setFiltered pin level = s.setSource i { r with run := none })
      ∧ (r.filtered ≠ level →
        let t := s.setSource i { r with filtered := level, run := none }
        s.setFiltered pin level = match r.conditioning with
          | .levelLow => t.setCondition i (!level)
          | .levelHigh => t.setCondition i level
          | .edgeFall => if level then t.setCondition i false else (t.setCondition i false).edgeOccurs i
          | .edgeRise => if level then (t.setCondition i false).edgeOccurs i else t.setCondition i false)
      ∧ (s.entryOf i = none → s.edgeOccurs i = if r.enable then s.latch i .inactive else s)
      ∧ (∀ e, s.entryOf i = some e →
        let e1 : LocalEntry := { e with repeats := min (e.repeats + 1) 255 }
        s.edgeOccurs i = (s.setEntry e1).postTrip e1
          (match e.state with
            | .active => .active
            | .acked => .acked
            | .inactive => .inactive))
      ∧ ∀ t, exec (.trpPinChange pin level at_) s = .next t ∨ exec (.filterRunEnd pin) s = .next t →
        Only [.now, .fresh, .angle, .master, .axes, .ring, .trips, .sources, .screen, .ctl, .notices] s t

/-- R105 to R107: what a TRIP and a TRIP_CLEAR frame do to the remote trip table and its overflow. R108: what a status vector does to the held
classes and to the table. R109: the effective class is the highest of the local entries, the remote entries, the overflow class and the held
classes. R110, R111, R20, R21: a change of it sets IMPRESSION_OFF, posts REMOTE_TRIPS, at STOP_FAST inhibits every axis, and at the line master
changes the line, with its notice and the first-out record; a class that stays changes nothing. R44: which axes an inhibit reaches, and its
notices, which the model posts in rising number of the axes (log 29). R112, R158: the head trip is the entry of highest class, then of highest priority, a local one before a remote one, the earliest; a
change of its class reaches the screen, where the banner's tiles are marked. -/
def Obligations.EffectiveClassChangesReact : Prop :=
  (∀ (s : State) (origin : Nat) (payload : List Byte),
      let source := (byteAt payload 0).toNat
      let cls := classOf (byteAt payload 1).toNat
      let priority := (byteAt payload 2).toNat
      let t := s.trips
      let told (u : TripUnit) : State := ({ s with trips := u }).postRemoteTrips.reform.reportHeadTrip
      let settled (u : State) : State :=
        if u.trips.remote = [] ∧ u.trips.overflow = true then
          ({ u with trips := { u.trips with overflow := false, overflowClass := .none } }).postRemoteTrips.reform.reportHeadTrip
        else u
      let held : Prop := ∃ e ∈ t.remote, e.origin = origin ∧ e.source = source
      (held → s.deliverTrip origin payload = told { t with remote := t.remote.map fun e =>
          if e.origin = origin ∧ e.source = source then { e with cls := cls, priority := priority, lowCount := 0 } else e })
        ∧ (¬held → t.remote.length < 32 →
          s.deliverTrip origin payload = told { t with remote := t.remote ++
            [{ origin := origin, source := source, cls := cls, priority := priority, cycle := s.angle.cycleNumber, lowCount := 0 }] })
        ∧ (¬held → 32 ≤ t.remote.length →
          s.deliverTrip origin payload = told { t with
            overflow := true
            overflowClass := if t.overflowClass.code < cls.code then cls else t.overflowClass
            remoteOverflows := min (t.remoteOverflows + 1) 65535 })
        ∧ (held →
          s.deliverTripClear origin payload =
            settled (told { t with remote := t.remote.filter fun e => ¬(e.origin = origin ∧ e.source = source) }))
        ∧ (¬held →
          s.deliverTripClear origin payload = { s with trips := { t with unmatchedClears := min (t.unmatchedClears + 1) 65535 } })
        ∧ ∀ v : Vector StatusSlot 32,
          let kept := (t.remote.map fun e =>
            { e with lowCount :=
              if (v.toList[e.origin - 1]?).any (fun x => x.present && decide (x.worst.code < e.cls.code)) then e.lowCount + 1
              else 0 }).filter fun e => e.lowCount < 2
          let classes : Vector (Option TripClass) 32 := Vector.ofFn fun i =>
            if i.val + 1 = s.angle.nodeId then none else if v[i].present then some v[i].worst else none
          let u := ({ s with trips := { t with held := classes } } : State).reform
          s.takeVector v =
            if kept.length = t.remote.length then { u with trips := { u.trips with remote := kept } }
            else settled ({ u with trips :=
              { u.trips with
                remote := kept
                pruned := min (t.pruned + (t.remote.length - kept.length)) 65535 } }).postRemoteTrips.reform.reportHeadTrip)
    ∧ (∀ t : TripUnit,
      (∀ e ∈ t.localList, e.cls.code ≤ t.formed.code) ∧ (∀ e ∈ t.remote, e.cls.code ≤ t.formed.code)
        ∧ (t.overflow = true → t.overflowClass.code ≤ t.formed.code)
        ∧ (∀ (i : Fin 32) (c : TripClass), t.held[i] = some c → c.code ≤ t.formed.code)
        ∧ (t.formed = .none ∨ (∃ e ∈ t.localList, e.cls = t.formed) ∨ (∃ e ∈ t.remote, e.cls = t.formed)
          ∨ (t.overflow = true ∧ t.overflowClass = t.formed) ∨ ∃ i : Fin 32, t.held[i] = some t.formed))
    ∧ (∀ s : State,
      (s.trips.formed = s.trips.effective → s.reform = s)
        ∧ (s.trips.formed ≠ s.trips.effective →
          let cls := s.trips.formed
          let t := ({ s with trips := { s.trips with effective := cls, impressionOff := decide (2 ≤ cls.code) } }).postRemoteTrips
          let u := if cls = .stopFast then t.inhibitAll .trip else t
          let moving : Prop := s.angle.lineState = .running ∨ s.angle.lineState = .stopping
          let line : LineState :=
            if cls = .stopFast then .stopped
            else if cls = .stopRamp ∧ (s.angle.lineState = .running ∨ s.angle.lineState = .stopping) then .tripStop
            else s.angle.lineState
          let stopped (firstOut : Option FirstOut) : State := { u with
            angle := { u.angle with lineState := line }
            master := { u.master with nextV := if cls = .stopFast then 0 else s.master.nextV, firstOut := firstOut } }
          (s.angle.role = .member → s.reform = u)
            ∧ (s.angle.role = .master → line = s.angle.lineState → s.reform = stopped s.master.firstOut)
            ∧ (s.angle.role = .master → line ≠ s.angle.lineState → ¬moving →
              s.reform = (stopped s.master.firstOut).post (.lineState line s.angle.cycleNumber))
            ∧ (s.angle.role = .master → line ≠ s.angle.lineState → moving →
              s.reform = (stopped (some u.firstOutNow)).post (.lineState line s.angle.cycleNumber)))
        ∧ (let eff := s.trips.effective
          let named (x : Option Nat) (y : Option Nat) (c : TripClass) : FirstOut :=
            { origin := x, source := y, cls := c, cycle := s.angle.cycleNumber }
          let v := s.angle.vector
          (∀ h, s.headTrip = some h → h.cls = eff → s.firstOutNow = named (some h.origin) (some h.source) h.cls)
            ∧ ((∀ h, s.headTrip = some h → h.cls ≠ eff) → (∀ i : Fin 32, v[i].present = true → v[i].worst ≠ eff) →
              s.firstOutNow = named none none s.trips.overflowClass)
            ∧ ∀ i : Fin 32, (∀ h, s.headTrip = some h → h.cls ≠ eff) → (∃ j : Fin 32, v[j].present = true ∧ v[j].worst = eff) →
              v[i].present = true → (∀ j : Fin 32, v[j].present = true → v[j].worst.code ≤ v[i].worst.code) →
              (∀ j : Fin 32, j < i → v[j].present = true → v[j].worst.code < v[i].worst.code) →
              s.firstOutNow = named (some (i.val + 1)) none v[i].worst))
    ∧ (∀ (s : State) (cause : AxisCause) (p : Fin 4),
      let runs (a : Axis) : Bool := decide (a.state = .catching ∨ a.state = .coupled)
      let onPort (a : Axis) : Bool := decide (a.binding.map (·.1) = some p)
      let inhibited (reached : Axis → Bool) (why : AxisCause) : State :=
        ((axisNumbers.filter fun i => reached (s.axis i)).map fun i => Notice.axisState i .inhibited why (s.axis i).binding).foldl
          State.post { s with axes := s.axes.map fun a => if reached a then { a with state := .inhibited } else a }
      s.inhibitAll cause = inhibited runs cause ∧ s.inhibitPort p = inhibited (fun a => runs a && onPort a) .port)
    ∧ ∀ s : State,
      let own := s.angle.nodeId
      let locals := s.trips.localList
      let remote := s.trips.remote
      let below (x y : TripClass × Nat) : Prop := x.1.code < y.1.code ∨ (x.1.code = y.1.code ∧ x.2 < y.2)
      let upTo (x y : TripClass × Nat) : Prop := x.1.code < y.1.code ∨ (x.1.code = y.1.code ∧ x.2 ≤ y.2)
      let cls := (s.headTrip.map (·.cls)).getD .none
      let sc : Screen := { s.screen with headClass := cls }
      (locals = [] → remote = [] → s.headTrip = none)
        ∧ (∀ before e after, locals = before ++ e :: after → (∀ x ∈ before, below (x.cls, x.priority) (e.cls, e.priority)) →
          (∀ x ∈ after, upTo (x.cls, x.priority) (e.cls, e.priority)) → (∀ x ∈ remote, upTo (x.cls, x.priority) (e.cls, e.priority)) →
          s.headTrip = some { origin := own, source := e.source.val, cls := e.cls })
        ∧ (∀ before e after, remote = before ++ e :: after → (∀ x ∈ locals, below (x.cls, x.priority) (e.cls, e.priority)) →
          (∀ x ∈ before, below (x.cls, x.priority) (e.cls, e.priority)) → (∀ x ∈ after, upTo (x.cls, x.priority) (e.cls, e.priority)) →
          s.headTrip = some { origin := e.origin, source := e.source, cls := e.cls })
        ∧ s.reportHeadTrip =
          if cls = s.screen.headClass then s
          else
            ({ s with screen := match s.screen.banner with
              | some b => sc.markRect b.rect
              | none => sc } : State).runSender


/-! ## Ring requests -/

/-- R88: the ids a SET_ROSTER lists, once each, make the roster; ids that stay keep their count and their place in the lost set. R89: the
roster check at a returned vector; the master's own slot counts as present. That roster and lost set are kept in rising order of their ids is
the model's choice (log 42). R90: SEND_MESSAGE is refused for a destination or length that does
not exist and when the local queue is full; otherwise its frame joins the local queue with the next bulk sequence and the arbiter of the
processing output looks at it. -/
def Obligations.RosterAndMessages : Prop :=
  (∀ (s : State) (ids : List Nat), s.working (.setRoster ids) = true →
      (s.angle.role = .member → exec (.setRoster ids) s = s.replies .notMaster)
        ∧ (s.angle.role = .master → (32 < ids.length ∨ ∃ i ∈ ids, i = 0 ∨ 32 < i) → exec (.setRoster ids) s = s.replies .range)
        ∧ (s.angle.role = .master → ids.length ≤ 32 → (∀ i ∈ ids, 1 ≤ i ∧ i ≤ 32) →
          let roster := (((List.range 32).map (· + 1)).filter fun i => i ∈ ids).map fun i =>
            (i, ((s.ring.roster.find? fun r => r.1 = i).map (·.2)).getD 0)
          let lost := s.ring.lost.filter fun i => i ∈ ids
          let t : State := { s with ring := { s.ring with roster := roster, lost := lost } }
          exec (.setRoster ids) s =
            (if lost = s.ring.lost then t else t.postRingState.setCondition 20 (decide (lost ≠ []))).replies .ok))
    ∧ (∀ (s : State) (v : Vector StatusSlot 32),
      let shown (i : Nat) : Bool := i == s.angle.nodeId || (v.toList[i - 1]?).any (·.present)
      let roster := s.ring.roster.map fun x => (x.1, if shown x.1 then 0 else min (x.2 + 1) 3)
      let lost := ((List.range 32).map (· + 1)).filter fun i => ∃ x ∈ roster, x.1 = i ∧ (x.2 = 3 ∨ (i ∈ s.ring.lost ∧ x.2 ≠ 0))
      let t : State := { s with ring := { s.ring with roster := roster, lost := lost } }
      s.checkRoster v = if lost = s.ring.lost then t else t.postRingState.setCondition 20 (decide (lost ≠ [])))
    ∧ (∀ (s : State) (dest : Nat) (bytes : List Byte), s.working (.sendMessage dest bytes) = true →
      exec (.sendMessage dest bytes) s =
        if dest = 0 ∨ 32 < dest ∨ dest = s.angle.nodeId ∨ bytes.length = 0 ∨ 256 < bytes.length then s.replies .range
        else if 16 ≤ s.ring.localQueue.length then s.replies .full
        else
          let f : Frame :=
            { kind := .peerMessage, restart := false, reverse := 0, origin := s.angle.nodeId, dest := dest, hop := 0
              seq := s.ring.bulkSequence, payload := bytes }
          let t : State := { s with ring :=
            { s.ring with localQueue := s.ring.localQueue ++ [f], bulkSequence := s.ring.bulkSequence + 1 } }
          (match RingMode.processingOutput s.ring.mode with
            | some o => t.arbitrate o
            | none => t).replies .ok)

/-! ## Camera and image store requests -/

/-- R118: SET_CAMERA, its checks in order and what a taken one stores. Turned ON the camera takes its pointer from the previous angle and the
mark channels start over (R137); turned OFF it drops its triggers and its queue. A change of W or p clears the present flags of map 0; lines
taken for map 0 before it are written first (`drainWrites`, the model's choice, log 18), and with none taken nothing else changes. -/
def Obligations.SetCameraChecksThenStores : Prop :=
  ∀ (s : State) (f : CameraFields), s.working (.setCamera f) = true →
    let fieldsOk : Prop :=
      64 ≤ f.width ∧ f.width ≤ 2048 ∧ f.width % 64 = 0
        ∧ (f.pitch = 1024 ∨ f.pitch = 2048 ∨ f.pitch = 4096 ∨ f.pitch = 8192 ∨ f.pitch = 16384 ∨ f.pitch = 32768 ∨ f.pitch = 65536)
    let fits : Prop := captureFits f.width f.pitch s.store.decimation s.store.hStep (s.map 0).stride s.store.streamDest = true
    let changed := decide (f.width ≠ s.camera.width ∨ f.pitch ≠ s.camera.pitch)
    let d := if changed then s.drainWrites 0 else s
    let previous := s.angle.previousAngle
    let camera : Camera :=
      if f.on = true ∧ s.camera.on = false then
        { s.camera with
          width := f.width, pitch := f.pitch, on := true, lastSeen := previous
          pointer := some ((previous.toNat / f.pitch + 1) * f.pitch % 16777216) }
      else if f.on = false ∧ s.camera.on = true then
        { s.camera with width := f.width, pitch := f.pitch, on := false, triggers := [], outstanding := [], pointer := none }
      else { s.camera with width := f.width, pitch := f.pitch }
    let marks : MarkUnit :=
      if f.on = true ∧ s.camera.on = false then
        { s.marks with
          lastLine := none
          channels := s.marks.channels.map fun c =>
            if c.state = .off then c else { c with previous := none, phase := .fragment, armed := none, edgeTaken := none } }
      else s.marks
    let m : ImageMap :=
      { d.map 0 with
        slotCount := (16777216 / f.pitch + s.store.decimation - 1) / s.store.decimation
        directory := ((d.map 0).hide fun _ => changed).directory }
    (¬fieldsOk → exec (.setCamera f) s = s.replies .range)
      ∧ (fieldsOk → f.on = true → s.camera.on = true → changed = true → exec (.setCamera f) s = s.replies .state)
      ∧ (fieldsOk → ¬(f.on = true ∧ s.camera.on = true ∧ changed = true) → ¬fits → exec (.setCamera f) s = s.replies .range)
      ∧ (fieldsOk → ¬(f.on = true ∧ s.camera.on = true ∧ changed = true) → fits →
        exec (.setCamera f) s = ({ d with
          camera := camera, marks := marks
          store := { d.store with maps := d.store.maps.set 0 m, stored := f.width / s.store.hStep } } : State).replies .ok)
      ∧ ((s.map 0).write = none → (s.map 0).waiting = [] → d = s)
      ∧ (((d.map 0).directory.map (·.1)).Nodup →
        ∀ slot, m.slot slot = if changed then { (d.map 0).slot slot with present := false } else (d.map 0).slot slot)
      ∧ Only [.store, .pages, .ring, .ctl, .notices, .angle, .master, .screen] s d

/-- R126: the capture geometry check; and SET_CAPTURE and SET_STREAM (R126, R129). -/
def Obligations.CaptureAndStream : Prop :=
  (∀ width pitch d h stride dest : Nat,
      captureFits width pitch d h stride dest = true ↔
        let slots := (16777216 / pitch + d - 1) / d
        width / h ≤ 512 ∧ width / h ≤ stride ∧ slots ≤ 2048 ∧ (slots * stride + 2047) / 2048 ≤ 64 ∧ (dest ≠ 0 → width / h ≤ 504))
    ∧ (∀ (s : State) (f : CaptureFields), s.working (.setCapture f) = true →
      exec (.setCapture f) s =
        if ¬(1 ≤ f.decimation ∧ f.decimation ≤ 16 ∧ (f.hStep = 1 ∨ f.hStep = 2 ∨ f.hStep = 4 ∨ f.hStep = 8)
            ∧ (f.stride = 64 ∨ f.stride = 128 ∨ f.stride = 256 ∨ f.stride = 512)) then s.replies .range
        else if (s.map 0).state ≠ .off then s.replies .state
        else if captureFits s.camera.width s.camera.pitch f.decimation f.hStep f.stride s.store.streamDest = false then s.replies .range
        else
          let m : ImageMap :=
            { s.map 0 with
              stride := f.stride, slotCount := (16777216 / s.camera.pitch + f.decimation - 1) / f.decimation
              directory := ((s.map 0).hide fun _ => true).directory }
          ({ s with store :=
            { s.store with
              maps := s.store.maps.set 0 m, decimation := f.decimation, hStep := f.hStep
              stored := s.camera.width / f.hStep } } : State).replies .ok)
    ∧ ∀ (s : State) (dest : Nat), s.working (.setStream dest) = true →
      exec (.setStream dest) s =
        if dest ≠ 0 ∧ (32 < dest ∨ dest = s.angle.nodeId ∨ 504 < s.store.stored) then s.replies .range
        else ({ s with store := { s.store with streamDest := dest } } : State).replies .ok

/-- R124: SET_MAP, its checks in order; a taken one at a map with no line being written or waiting applies geometry and writes together. Lines
taken before it are written first (the model's choice, log 18). The last write of a page holds, a NEW geometry clears the directory, and the
slots that begin in a page given another target are not present; every other directory record stays. -/
def Obligations.SetMapChecksThenConfigures : Prop :=
  (∀ (s : State) (f : MapFields), s.working (.setMap f) = true →
      let fieldsOk : Prop :=
        f.map < 4 ∧ f.writes.length ≤ 64 ∧ (∀ w ∈ f.writes, w.page < 64 ∧ w.physical < 128)
          ∧ ∀ g, f.geometry = some g →
            (g.stride = 64 ∨ g.stride = 128 ∨ g.stride = 256 ∨ g.stride = 512) ∧ 1 ≤ g.slotCount ∧ g.slotCount ≤ 2048
              ∧ g.slotCount * g.stride ≤ 131072 ∧ f.map ≠ 0 ∧ g.origin ≤ 32 ∧ g.origin ≠ s.angle.nodeId
      (¬fieldsOk → exec (.setMap f) s = s.replies .range)
        ∧ ∀ i : Fin 4, f.map = i.val → fieldsOk →
          let m := s.map i
          let entries := applyWrites m.entries f.writes
          let held : Prop := ∃ g, f.geometry = some g ∧ g.origin ≠ 0 ∧ ∃ j : Fin 4, j ≠ 0 ∧ j ≠ i ∧ (s.map j).origin = g.origin
          let distinct : Prop :=
            (portNumbers.flatMap fun j => ((if j = i then entries else (s.map j).entries).toList.filter (·.valid)).map (·.page)).Nodup
          (f.geometry ≠ none → m.state ≠ .off → exec (.setMap f) s = s.replies .state)
            ∧ ((f.geometry = none ∨ m.state = .off) → (held ∨ ¬distinct) → exec (.setMap f) s = s.replies .conflict)
            ∧ ((f.geometry = none ∨ m.state = .off) → ¬held → distinct →
              (m.write = none → m.waiting = [] → exec (.setMap f) s = (s.setMap i (m.configure f)).replies .ok)
                ∧ ∃ t : State, exec (.setMap f) s = t.replies .ok ∧ (t.map i).entries = entries
                  ∧ Only [.store, .pages, .ring, .ctl, .notices, .angle, .master, .screen] s t))
    ∧ (∀ (m : ImageMap) (f : MapFields),
      let t := m.configure f
      (∀ (page : Nat) (h : page < 64),
          t.entries[page] = match f.writes.reverse.find? (fun w => w.page = page) with
            | some w => { valid := w.valid, writeProtect := w.writeProtect, page := w.physical }
            | none => m.entries[page])
        ∧ (∀ g, f.geometry = some g → t.origin = g.origin ∧ t.stride = g.stride ∧ t.slotCount = g.slotCount ∧ ∀ slot, t.slot slot = {})
        ∧ (f.geometry = none → t.origin = m.origin ∧ t.stride = m.stride ∧ t.slotCount = m.slotCount)
        ∧ (f.geometry = none → (m.directory.map (·.1)).Nodup → ∀ slot (h : slot * m.stride / 2048 < 64),
          let old := m.entries[slot * m.stride / 2048]
          let new := t.entries[slot * m.stride / 2048]
          t.slot slot =
            if new.valid = true ∧ (old.valid = false ∨ old.page ≠ new.page) then { m.slot slot with present := false } else m.slot slot)
        ∧ t.state = m.state ∧ t.fault = m.fault ∧ t.written = m.written ∧ t.frozen = m.frozen ∧ t.dropped = m.dropped)

/-- R125: ENABLE_MAP in every map state. -/
def Obligations.EnableMapTurnsAMapOnOrOff : Prop :=
  (∀ (s : State) (map : Nat) (active : Bool), s.working (.enableMap map active) = true → 4 ≤ map →
      exec (.enableMap map active) s = s.replies .range)
    ∧ ∀ (s : State) (i : Fin 4) (active : Bool), s.working (.enableMap i.val active) = true →
      let m := s.map i
      (active = true → m.state = .active → exec (.enableMap i.val active) s = s.replies .ok)
        ∧ (active = true → m.state ≠ .active →
          exec (.enableMap i.val active) s =
            ((s.setMap i { m with state := .active, fault := none, directory := (m.hide fun _ => true).directory }).post
              (.mapState i .active none)).replies .ok)
        ∧ (active = false → m.state = .off → exec (.enableMap i.val active) s = s.replies .ok)
        ∧ (active = false → m.state ≠ .off → m.write = none → m.waiting = [] →
          exec (.enableMap i.val active) s = ((s.setMap i { m with state := .off }).post (.mapState i .off m.fault)).replies .ok)
        ∧ (active = false → m.state ≠ .off → ∃ t : State,
          exec (.enableMap i.val active) s = t.replies .ok ∧ (t.map i).state = .off
            ∧ Only [.store, .pages, .ring, .ctl, .notices, .angle, .master, .screen] s t)

/-! ## Marks -/

/-- R135: SET_MARK in its channel form. -/
def Obligations.SetMarkChannelChecksThenStores : Prop :=
  ∀ (s : State) (f : MarkFields), s.working (.setMarkChannel f) = true →
    let fieldsOk : Prop :=
      f.channel < 8 ∧ f.c0 < f.c1 ∧ f.c1 ≤ s.camera.width ∧ f.threshold ≤ 255 ∧ 1 ≤ f.width ∧ f.width ≤ 255 ∧ f.width ≤ f.c1 - f.c0
        ∧ f.g0 ≤ 16777215 ∧ f.g1 ≤ 16777215 ∧ f.g0 ≠ f.g1 ∧ -8388607 ≤ f.spacing ∧ f.spacing ≤ 8388607 ∧ 1 ≤ f.span
        ∧ f.span ≤ 1048575 ∧ f.gain ≤ 256 ∧ f.deadband ≤ 65535 ∧ 1 ≤ f.stepClamp ∧ f.stepClamp ≤ 65535 ∧ f.node ≤ 32 ∧ f.axis < 16
        ∧ 1 ≤ f.lostLimit ∧ f.lostLimit ≤ 15 ∧ (f.channel = 0 ∨ f.span < f.spacing.natAbs)
    (¬fieldsOk → exec (.setMarkChannel f) s = s.replies .range)
      ∧ ∀ (i : Fin 8) (axis : Fin 16), f.channel = i.val → f.axis = axis.val → fieldsOk →
        let c := s.channel i
        let same := f.c0 = c.c0 ∧ f.c1 = c.c1 ∧ f.threshold = c.threshold ∧ f.width = c.width ∧ f.g0 = c.g0.toNat ∧ f.g1 = c.g1.toNat
          ∧ f.spacing = c.spacing ∧ f.span = c.span
        let refused : Prop :=
          (f.on = true ∧ c.state ≠ .off ∧ ¬same) ∨ (f.on = true ∧ i ≠ 0 ∧ (s.channel 0).state = .off)
            ∨ (f.on = false ∧ i = 0 ∧ ∃ j : Fin 8, j ≠ 0 ∧ (s.channel j).state ≠ .off)
        let stored : Channel :=
          { c with
            c0 := f.c0, c1 := f.c1, threshold := f.threshold, width := f.width, g0 := BitVec.ofNat 24 f.g0, g1 := BitVec.ofNat 24 f.g1
            spacing := f.spacing, span := f.span, gain := f.gain, deadband := f.deadband, stepClamp := f.stepClamp, node := f.node
            axis := axis, lostLimit := f.lostLimit, tripFlag := f.tripFlag }
        let restarted (st : ChannelState) : Channel :=
          { stored with
            state := st, foundRun := 0, missRun := 0, previous := none, phase := .fragment, armed := none, edgeTaken := none }
        (refused → exec (.setMarkChannel f) s = s.replies .state)
          ∧ (¬refused →
            exec (.setMarkChannel f) s =
              (if f.on = true ∧ c.state = .off then ((s.setChannel i (restarted .searching)).postMarkState i).reportMarks
                else if f.on = false ∧ c.state ≠ .off then ((s.setChannel i (restarted .off)).postMarkState i).reportMarks
                else (s.setChannel i stored).reportMarks).replies .ok)

/-- R136: SET_MARK in its unit form; and the speed below which a step is withheld (R146) is the one stored. -/
def Obligations.SetMarkUnitStoresTheRegisterSpeed : Prop :=
  (∀ (s : State) (vReg : Nat), s.working (.setMarkUnit vReg) = true →
      exec (.setMarkUnit vReg) s =
        if 4194303 < vReg then s.replies .range else ({ s with marks := { s.marks with vReg := vReg } } : State).replies .ok)
    ∧ ∀ (s : State) (c : Channel) (step : Int), step ≠ 0 → c.state = .locked → s.angle.lineState = .running →
      (s.withheld c step = some .slow ↔ s.angle.v < s.marks.vReg)

/-- 7.6 (R145, R146): the trim step of a register error, the last error and last step a found repeat of a follower leaves, and the checks in
their order that decide what becomes of the step, its outcome and its counter; the reference forms neither. R144, R147, R148: what a repeat judged
found or a miss does to a channel, and what a change of a channel's state posts and reports. The model's own: a step for an axis of this node is
on its way (`localSteps`) until its own row (log 19), a TRIM_STEP discarded for want of room has used its bulk sequence (log 16), and a miss in
LOST raises the missed repeats counter (log 54). -/
def Obligations.RegisterErrorGivesTheTrimStep : Prop :=
  (∀ (c : Channel) (e : Int),
      c.stepOf e =
        if e.natAbs ≤ c.deadband then 0
        else (if 0 < e then (1 : Int) else -1) * ((min c.stepClamp ((e.natAbs * c.gain + 128) / 256) : Nat) : Int))
    ∧ (∀ (c : Channel) (a b : Angle), c.gain ≤ 256 → ((a - b).toInt).natAbs * c.gain < 2 ^ 32)
    ∧ (∀ (s : State) (i : Fin 8) (taken armed : Angle), (s.channel i).edgeTaken = some taken → (s.channel i).armed = some armed →
      s.closeSpan i = (s.putChannel i
        ({ s.channel i with phase := .waiting, armed := none, edgeTaken := none }.judgedFound taken)).formStep i taken armed)
    ∧ (∀ s : State, (s.closeReference.channel 0).lastError = (s.channel 0).lastError
      ∧ (s.closeReference.channel 0).lastStep = (s.channel 0).lastStep)
    ∧ (∀ (s : State) (i : Fin 8) (taken armed : Angle),
      let c := s.channel i
      let e := (taken - (armed + BitVec.ofInt 24 c.spacing)).toInt
      let after := (s.formStep i taken armed).channel i
      after.lastError = e ∧ after.lastStep = c.stepOf e
        ∧ (after.outcome = match s.withheld c (c.stepOf e) with
          | some o => o
          | none =>
            if c.node = s.angle.nodeId then .toLocal else if s.ring.localQueue.length < 16 then .toRemote else .queueFull)
        ∧ ((s.formStep i taken armed).localSteps =
          if s.withheld c (c.stepOf e) = none ∧ c.node = s.angle.nodeId then s.localSteps ++ [(c.axis, c.stepOf e)] else s.localSteps))
    ∧ (∀ (s : State) (i : Fin 8) (taken armed : Angle),
      let c := s.channel i
      let e := (taken - (armed + BitVec.ofInt 24 c.spacing)).toInt
      let step := c.stepOf e
      let ends (t : State) (o : StepOutcome) : State :=
        t.setChannel i { c with lastError := e, lastStep := step, outcome := o, stepsWithheld := min (c.stepsWithheld + 1) 65535 }
      let sends (t : State) (o : StepOutcome) : State :=
        t.setChannel i { c with lastError := e, lastStep := step, outcome := o, stepsSent := min (c.stepsSent + 1) 65535 }
      let noted := s.setChannel i { c with lastError := e, lastStep := step }
      let x := noted.originate .trimStep c.node (u8 c.axis.val ++ u24 (BitVec.ofInt 24 step).toNat)
      let frame : Frame :=
        { kind := .trimStep, restart := false, reverse := 0, origin := s.angle.nodeId, dest := c.node, hop := 0, seq := s.ring.bulkSequence
          payload := u8 c.axis.val ++ u24 (BitVec.ofInt 24 step).toNat }
      s.formStep i taken armed =
          (if step = 0 then s.setChannel i { c with lastError := e, lastStep := step, outcome := .deadband }
          else if c.state ≠ .locked then ends s .notLocked
          else if s.angle.lineState ≠ .running then ends s .lineNotRunning
          else if s.angle.v < s.marks.vReg then ends s .slow
          else if c.node = 0 then ends s .unbound
          else if c.node = s.angle.nodeId then
            if (s.axis c.axis).state = .coupled then { sends s .toLocal with localSteps := s.localSteps ++ [(c.axis, step)] }
            else ends s .axisNotCoupled
          else if s.ring.localQueue.length < 16 then sends x.1 .toRemote
          else x.1.setChannel i
            { c with lastError := e, lastStep := step, outcome := .queueFull, stepsLost := min (c.stepsLost + 1) 65535 })
        ∧ (16 ≤ s.ring.localQueue.length → x.1 = { noted with ring := { s.ring with bulkSequence := s.ring.bulkSequence + 1 } })
        ∧ (s.ring.localQueue.length < 16 →
          let t : State := { noted with ring :=
            { s.ring with localQueue := s.ring.localQueue ++ [frame], bulkSequence := s.ring.bulkSequence + 1 } }
          x.1 = match RingMode.processingOutput s.ring.mode with
            | some o => t.arbitrate o
            | none => t))
    ∧ (∀ (c : Channel) (e : Angle),
      let found := min (c.foundRun + 1) 255
      let misses := min (c.missRun + 1) 15
      c.judgedFound e =
          { c with
            found := min (c.found + 1) 65535, foundRun := found, missRun := 0, lastEdge := some e, edgeTaken := none
            state := if c.state = .lost ∨ (c.state = .searching ∧ found < 3) then .searching
              else if c.state = .searching then .locked
              else c.state }
        ∧ c.judgedMiss =
          { c with
            missed := min (c.missed + 1) 65535, missRun := misses, foundRun := 0
            state := if (c.state = .searching ∨ c.state = .locked) ∧ c.lostLimit ≤ misses then .lost else c.state })
    ∧ ∀ (s : State) (i : Fin 8) (c : Channel),
      let set := s.setChannel i c
      let lost := decide (∃ x ∈ s.marks.channels.toList, x.state = .lost ∧ x.tripFlag = true)
      let locked := decide (∀ x ∈ s.marks.channels.toList, x.state = .off ∨ x.state = .locked)
      let told : State := { s with
        marks := { s.marks with registerLost := lost, marksLocked := locked }, trips := { s.trips with marksLocked := locked } }
      s.putChannel i c =
          (if c.state = (s.channel i).state then set
          else (set.post (.markState i c.state c.foundRun c.missRun c.lastEdge c.lastError c.lastStep c.outcome)).reportMarks)
        ∧ s.reportMarks = if s.marks.registerLost = lost then told else told.setCondition 18 lost

/-! ## The operator screen -/

/-- R151: SET_SCREEN, with the screen summary in every reply (R163). A taken one stores the size and background, marks every tile and then
switches the port; the sender looks at the dirty set while the port is UP (R160). R163: the fields of the summary in their order, as they stand
in the state it is taken from; the codes of its flags and named values are those of logs 8 and 51. -/
def Obligations.SetScreenChecksThenStores : Prop :=
  (∀ s : State,
    let sc := s.screen
    s.screenSummary =
      u8 (ScreenState.code sc.state) ++ u8 sc.cols ++ u8 sc.rows ++ uList (fun w : Window => u8 w.id) sc.windows
        ++ uFlag sc.banner.isSome ++ uFlag (decide (sc.banner ≠ none ∧ sc.headClass ≠ .none)) ++ u8 sc.headClass.code
        ++ u16 sc.dirty.length ++ u16 sc.cursor ++ u8 sc.hold.length ++ u16 sc.tilesSent ++ u16 sc.peerRefused ++ u16 sc.badPanel
        ++ u16 sc.touchesDropped ++ u16 sc.panelLosses)
  ∧ ∀ (s : State) (at_ : Nat) (f : ScreenFields), s.working (.setScreen f) = true →
    let s1 := s.tick at_
    let sized : Prop := 1 ≤ f.cols ∧ f.cols ≤ 80 ∧ 1 ≤ f.rows ∧ f.rows ≤ 48 ∧ f.background ≤ 255
    let inside (q : Rect) : Prop := 1 ≤ q.w ∧ 1 ≤ q.h ∧ q.x + q.w ≤ f.cols ∧ q.y + q.h ≤ f.rows
    let fits : Prop := (∀ w ∈ s.screen.windows, inside w.rect) ∧ ∀ b, s.screen.banner = some b → inside b.rect
    let screen : Screen :=
      { s.screen with
        cols := f.cols, rows := f.rows, background := BitVec.ofNat 8 f.background, dirty := List.range (f.cols * f.rows), cursor := 0 }
    (¬sized → exec (.setScreen at_ f) s = s1.replies .range s1.screenSummary)
      ∧ (sized → ¬fits → exec (.setScreen at_ f) s = s1.replies .state s1.screenSummary)
      ∧ (sized → fits →
        let t : State :=
          if f.enable = true ∧ s.screen.state = .off then
            ({ s1 with screen := { screen with state := .noPanel, panelTimer := s1.now } } : State).post
              (.screenState .noPanel f.cols f.rows s.screen.panelLosses)
          else if f.enable = false ∧ s.screen.state ≠ .off then
            ({ s1 with screen := { screen with state := .off, inSend := none } } : State).post
              (.screenState .off f.cols f.rows s.screen.panelLosses)
          else ({ s1 with screen := screen } : State).runSender
        exec (.setScreen at_ f) s = t.replies .ok t.screenSummary)

/-- R155, R156: SET_WINDOW, RAISE_WINDOW and REMOVE_WINDOW on the window list, bottom first; what is marked dirty is the rectangles they
touch. The checks of a record's fields by its kind are the model's (log 10). -/
def Obligations.WindowRequestsMoveTheWindowList : Prop :=
  ∀ s : State,
    let list := s.screen.windows
    (∀ w : Window, s.working (.setWindow w) = true →
        let kindOk : Prop :=
          match w.kind with
          | .tiles => w.tileBase + w.rect.w * w.rect.h ≤ 512
          | .webview =>
            w.map ≤ 3 ∧ w.line0 ≤ 2047 ∧ w.col0 ≤ 511 ∧ 1 ≤ w.vStep ∧ w.vStep ≤ 16 ∧ 1 ≤ w.hStep ∧ w.hStep ≤ 16 ∧ w.greyBase ≤ 224
              ∧ w.staleIndex ≤ 255
        let ok : Prop :=
          w.id ≤ 7 ∧ 1 ≤ w.rect.w ∧ 1 ≤ w.rect.h ∧ w.rect.x + w.rect.w ≤ s.screen.cols ∧ w.rect.y + w.rect.h ≤ s.screen.rows ∧ kindOk
            ∧ ∀ n, w.touch = .toNode n → 1 ≤ n ∧ n ≤ 32 ∧ n ≠ s.angle.nodeId
        (¬ok → exec (.setWindow w) s = s.replies .range s.screenSummary)
          ∧ (ok → (∀ x ∈ list, x.id ≠ w.id) → 8 ≤ list.length → exec (.setWindow w) s = s.replies .full s.screenSummary)
          ∧ (ok → (∀ x ∈ list, x.id ≠ w.id) → list.length < 8 →
            let t : State := ({ s with screen := ({ s.screen with windows := list ++ [w] } : Screen).markRect w.rect } : State).runSender
            exec (.setWindow w) s = t.replies .ok t.screenSummary)
          ∧ (∀ old, ok → list.find? (fun x => x.id = w.id) = some old →
            let windows := list.map fun x => if x.id = w.id then w else x
            let t : State := ({ s with screen := (({ s.screen with windows := windows } : Screen).markRect old.rect).markRect w.rect } : State).runSender
            exec (.setWindow w) s = t.replies .ok t.screenSummary))
      ∧ (∀ id : Nat, s.working (.raiseWindow id) = true →
        (7 < id → exec (.raiseWindow id) s = s.replies .range s.screenSummary)
          ∧ (id ≤ 7 → (∀ x ∈ list, x.id ≠ id) → exec (.raiseWindow id) s = s.replies .state s.screenSummary)
          ∧ (∀ w, id ≤ 7 → list.find? (fun x => x.id = id) = some w →
            let windows := list.filter (fun x => x.id ≠ id) ++ [w]
            let t : State :=
              if list.getLast? = some w then s.runSender
              else ({ s with screen := ({ s.screen with windows := windows } : Screen).markRect w.rect } : State).runSender
            exec (.raiseWindow id) s = t.replies .ok t.screenSummary))
      ∧ (∀ id : Nat, s.working (.removeWindow id) = true →
        (7 < id → exec (.removeWindow id) s = s.replies .range s.screenSummary)
          ∧ (id ≤ 7 → (∀ x ∈ list, x.id ≠ id) → exec (.removeWindow id) s = s.replies .state s.screenSummary)
          ∧ (∀ w, id ≤ 7 → list.find? (fun x => x.id = id) = some w →
            let t : State :=
              ({ s with screen := ({ s.screen with windows := list.filter fun x => x.id ≠ id } : Screen).markRect w.rect } : State).runSender
            exec (.removeWindow id) s = t.replies .ok t.screenSummary))

/-- R153: PUT_TILES. Destination 0 writes the own store in list order, each write marking the tiles that draw it (R159; which they are is said
with the dirty set): every listed tile of 256 indices reads as its last write, and every other byte of the store as before. Another destination
queues one frame a tile: a frame that finds the hold queue empty and room in the local queue passes at once, with the next bulk sequence, and
the arbiter looks at it; any other joins the tail of the hold queue, and takes its sequence as it passes (log 16). R154: a SCREEN_TILES frame of another node is written into the store if a
grant of its origin covers its tile, and is otherwise dropped and counted. -/
def Obligations.PutTilesWritesOrQueues : Prop :=
  (∀ (s : State) (dest : Nat) (tiles : List TileWrite), s.working (.putTiles dest tiles) = true →
    let ok : Prop := 1 ≤ tiles.length ∧ tiles.length ≤ 4 ∧ (∀ t ∈ tiles, t.tile ≤ 511) ∧ dest ≤ 32 ∧ dest ≠ s.angle.nodeId
    (¬ok → exec (.putTiles dest tiles) s = s.replies .range s.screenSummary)
      ∧ (ok → dest ≠ 0 → 8 < s.screen.hold.length + tiles.length → exec (.putTiles dest tiles) s = s.replies .busy s.screenSummary)
      ∧ (ok → dest ≠ 0 → s.screen.hold.length + tiles.length ≤ 8 →
        let t := (tiles.foldl (fun s x => s.hold { kind := .screenTiles, dest := dest, payload := u16 x.tile ++ x.pixels }) s).runSender
        exec (.putTiles dest tiles) s = t.replies .ok t.screenSummary ∧ t.screen.tiles = s.screen.tiles
          ∧ Only [.fresh, .angle, .master, .ring, .screen, .ctl, .notices] s t)
      ∧ (ok → dest = 0 → Memory.wf s.screen.tiles → (∀ x ∈ tiles, x.pixels.length = 256) → ∃ t : State,
        exec (.putTiles dest tiles) s = t.replies .ok t.screenSummary ∧ Only [.fresh, .screen] s t
          ∧ t = ({ s with screen := tiles.foldl (fun sc x => sc.writeTile x.tile x.pixels) s.screen } : State).runSender
          ∧ ∀ (k i : Nat), i < 256 →
            Memory.read t.screen.tiles (256 * k + i) =
              match tiles.reverse.find? (fun x => x.tile = k) with
              | some x => byteAt x.pixels i
              | none => Memory.read s.screen.tiles (256 * k + i)))
    ∧ (∀ (s : State) (h : HoldFrame),
      let f : Frame :=
        { kind := h.kind, restart := false, reverse := 0, origin := s.angle.nodeId, dest := h.dest, hop := 0, seq := s.ring.bulkSequence
          payload := h.payload }
      let t : State := { s with ring :=
        { s.ring with localQueue := s.ring.localQueue ++ [f], bulkSequence := s.ring.bulkSequence + 1 } }
      s.hold h =
        if s.screen.hold = [] ∧ s.ring.localQueue.length < 16 then
          match RingMode.processingOutput s.ring.mode with
          | some o => t.arbitrate o
          | none => t
        else { s with screen := { s.screen with hold := s.screen.hold ++ [h] } })
    ∧ ∀ (s : State) (origin : Nat) (payload : List Byte),
      let tile := fieldAt payload 0 2
      let granted : Prop :=
        payload.length = 258 ∧ tile ≤ 511 ∧ ∃ g ∈ s.screen.grants.toList, g.origin = origin ∧ g.first ≤ tile ∧ tile < g.first + g.count
      let after := s.deliverTiles origin payload
      (¬granted → after = { s with screen := { s.screen with peerRefused := min (s.screen.peerRefused + 1) 65535 } })
        ∧ (granted → after = ({ s with screen := s.screen.writeTile tile (payload.drop 2) } : State).runSender)
        ∧ (granted → Memory.wf s.screen.tiles → ∀ k i : Nat, i < 256 →
          Memory.read after.screen.tiles (256 * k + i) =
            if k = tile then byteAt payload (2 + i) else Memory.read s.screen.tiles (256 * k + i))

/-- R154, R158: SET_GRANT and SET_BANNER. That a banner is at least one tile wide and high, as a window is, is the model's choice (log 50). -/
def Obligations.GrantsAndBanner : Prop :=
  (∀ (s : State) (f : GrantFields), s.working (.setGrant f) = true →
      exec (.setGrant f) s =
        if h : f.grant < 4 then
          if ¬(f.origin ≤ 32 ∧ f.origin ≠ s.angle.nodeId ∧ f.first ≤ 511 ∧ 1 ≤ f.count ∧ f.count ≤ 512 ∧ f.first + f.count ≤ 512) then
            s.replies .range s.screenSummary
          else
            let g : Grant := { origin := f.origin, first := f.first, count := f.count }
            let t : State := ({ s with screen := { s.screen with grants := s.screen.grants.set f.grant g } } : State).runSender
            t.replies .ok t.screenSummary
        else s.replies .range s.screenSummary)
    ∧ ∀ (s : State) (banner : Option Banner), s.working (.setBanner banner) = true →
      let ok : Prop := ∀ b, banner = some b →
        1 ≤ b.rect.w ∧ 1 ≤ b.rect.h ∧ b.rect.x + b.rect.w ≤ s.screen.cols ∧ b.rect.y + b.rect.h ≤ s.screen.rows
          ∧ ∀ base ∈ [b.warn, b.impressionOff, b.stopRamp, b.stopFast], base + b.rect.w * b.rect.h ≤ 512
      (¬ok → exec (.setBanner banner) s = s.replies .range s.screenSummary)
        ∧ (ok →
          let stored : Screen := { s.screen with banner := banner }
          let marked : Screen :=
            if s.screen.headClass = .none then stored
            else
              let old := match s.screen.banner with
                | some b => stored.markRect b.rect
                | none => stored
              match banner with
              | some b => old.markRect b.rect
              | none => old
          let t : State := ({ s with screen := marked } : State).runSender
          exec (.setBanner banner) s = t.replies .ok t.screenSummary)

/-- R159: marking sets the flags of the chosen tiles of the screen, in raster order, and clears none. R160: while the port is UP and no tile is
in send, the first dirty tile at or after the cursor, or else the first of all, is taken, composed and sent, and the cursor moves on.
R157, R159: the picture of a tile is that of its top layer, a web view's pixel by pixel, and a write of a store tile marks the tiles whose top
layer, the banner or a TILES window, draws it. A byte under write is a free value of the model's counter
`fresh`, which moves on at each composition (log 7). -/
def Obligations.DirtySetAndSender : Prop :=
  (∀ (sc : Screen) (q : Rect),
      (sc.markRect q).dirty = (List.range (sc.cols * sc.rows)).filter (fun t =>
          t ∈ sc.dirty ∨ (q.x ≤ t % sc.cols ∧ t % sc.cols < q.x + q.w ∧ q.y ≤ t / sc.cols ∧ t / sc.cols < q.y + q.h))
        ∧ { sc.markRect q with dirty := sc.dirty } = sc
        ∧ ∀ (k : Nat) (pixels : List Byte), (sc.writeTile k pixels).dirty =
          (List.range (sc.cols * sc.rows)).filter (fun t => t ∈ sc.dirty ∨ sc.drawn (t % sc.cols) (t / sc.cols) = some k))
    ∧ (∀ (s : State) (nonce c r : Nat),
      let sc := s.screen
      let covers (q : Rect) : Prop := q.x ≤ c ∧ c < q.x + q.w ∧ q.y ≤ r ∧ r < q.y + q.h
      let bare : Prop := ∀ b, sc.banner = some b → sc.headClass = .none ∨ ¬covers b.rect
      let placed (base : Nat) (q : Rect) : List Byte :=
        (List.range 256).map fun i => Memory.read sc.tiles (256 * (base + (r - q.y) * q.w + (c - q.x)) + i)
      (∀ b, sc.banner = some b → sc.headClass ≠ .none → covers b.rect →
          s.compose nonce c r = placed
            (match sc.headClass with
              | .none => b.warn
              | .warn => b.warn
              | .impressionOff => b.impressionOff
              | .stopRamp => b.stopRamp
              | .stopFast => b.stopFast) b.rect)
        ∧ (∀ b, sc.banner = some b → sc.headClass ≠ .none → covers b.rect →
          sc.drawn c r = some ((match sc.headClass with
            | .none => b.warn
            | .warn => b.warn
            | .impressionOff => b.impressionOff
            | .stopRamp => b.stopRamp
            | .stopFast => b.stopFast) + (r - b.rect.y) * b.rect.w + (c - b.rect.x)))
        ∧ (∀ below w above, bare → sc.windows = below ++ w :: above → w.visible = true → covers w.rect →
          (∀ x ∈ above, x.visible = true → ¬covers x.rect) →
          sc.drawn c r = if w.kind = .tiles then some (w.tileBase + (r - w.rect.y) * w.rect.w + (c - w.rect.x)) else none)
        ∧ (bare → (∀ x ∈ sc.windows, x.visible = true → ¬covers x.rect) → sc.drawn c r = none)
        ∧ (∀ below w above, bare → sc.windows = below ++ w :: above → w.visible = true → covers w.rect →
          (∀ x ∈ above, x.visible = true → ¬covers x.rect) →
          (w.kind = .tiles → s.compose nonce c r = placed w.tileBase w.rect)
            ∧ (w.kind = .webview →
              s.compose nonce c r =
                (List.range 256).map fun i => s.webPixel nonce w (16 * (c - w.rect.x) + i % 16) (16 * (r - w.rect.y) + i / 16)))
        ∧ (bare → (∀ x ∈ sc.windows, x.visible = true → ¬covers x.rect) → s.compose nonce c r = List.replicate 256 sc.background)
        ∧ ∀ (w : Window) (i : Fin 4) (x y : Nat), w.map = i.val →
          let m := s.map i
          let slot := w.line0 + y * w.vStep
          let byte := w.col0 + x * w.hStep
          let e := m.entry (slot * m.stride / 2048)
          let age := (s.angle.updateRevolution - (m.slot slot).stamp).toNat
          s.webPixel nonce w x y =
            if m.state ≠ .active ∨ m.slotCount ≤ slot ∨ m.stride ≤ byte ∨ e.valid = false ∨ (m.slot slot).present = false
                ∨ (w.freeze = false ∧ 2 ≤ age ∧ age ≤ 32767) then BitVec.ofNat 8 w.staleIndex
            else BitVec.ofNat 8 (w.greyBase + (s.pageByte nonce (e.page * 2048 + slot * m.stride % 2048 + byte)).toNat / 8))
    ∧ (∀ s : State,
      (s.screen.state ≠ .up ∨ s.screen.inSend ≠ none ∨ s.screen.dirty = [] → s.runSender = s)
        ∧ ∀ t : Nat, s.screen.state = .up → s.screen.inSend = none → t ∈ s.screen.dirty → s.screen.dirty.Pairwise (· < ·) →
          ((s.screen.cursor ≤ t ∧ ∀ u ∈ s.screen.dirty, s.screen.cursor ≤ u → t ≤ u)
            ∨ (∀ u ∈ s.screen.dirty, u < s.screen.cursor ∧ t ≤ u)) →
          let c := t % s.screen.cols
          let r := t / s.screen.cols
          s.runSender = { s with
            fresh := s.fresh + 1
            screen :=
              { s.screen with
                dirty := s.screen.dirty.filter (fun u => u ≠ t)
                inSend := some { tile := t, message := [1] ++ u8 c ++ u8 r ++ [s.screen.messageCount] ++ s.compose s.fresh c r }
                messageCount := s.screen.messageCount + 1
                cursor := if t + 1 < s.screen.cols * s.screen.rows then t + 1 else 0 } })

/-- R152, R160, R161: messages of the panel, the panel timer's expiry and the end of a tile message; R162: a TOUCH frame of another node. The
model's own: an expiry while the port is not UP and an end with no tile in send change nothing (log 2); a touch kind is carried as sent
(log 29). -/
def Obligations.PanelMessagesAndTimers : Prop :=
  (∀ (s : State) (at_ : Nat) (bs : List Byte),
    let s1 := s.tick at_
    let bad : State := { s1 with screen := { s1.screen with badPanel := min (s.screen.badPanel + 1) 65535 } }
    let status : Prop := crc16Good bs = true ∧ byteAt bs 0 = 1 ∧ bs.length = 3
    let touch : Prop := crc16Good bs = true ∧ byteAt bs 0 = 2 ∧ bs.length = 8
    (s.screen.state = .off → exec (.panelMessage at_ bs) s = .next s1)
      ∧ (s.screen.state ≠ .off → ¬status → ¬touch → exec (.panelMessage at_ bs) s = .next bad)
      ∧ (s.screen.state = .up → status →
        exec (.panelMessage at_ bs) s = .next { s1 with screen := { s1.screen with panelTimer := s1.now } })
      ∧ (s.screen.state = .noPanel → status →
        exec (.panelMessage at_ bs) s = .next
          (({ s1 with screen :=
              { s1.screen with
                panelTimer := s1.now, state := .up, dirty := List.range (s.screen.cols * s.screen.rows), cursor := 0 } } : State).post
            (.screenState .up s.screen.cols s.screen.rows s.screen.panelLosses)).runSender)
      ∧ (s.screen.state ≠ .off → touch →
        let kind := byteAt bs 1
        let x := fieldAt bs 2 2
        let y := fieldAt bs 4 2
        exec (.panelMessage at_ bs) s = .next (
          if 16 * s.screen.cols ≤ x ∨ 16 * s.screen.rows ≤ y then bad
          else
            match s.screen.topLayer (x / 16) (y / 16) with
            | .banner b => s1.post (.bannerTouch kind (x - 16 * b.rect.x) (y - 16 * b.rect.y) s.screen.headClass)
            | .background => s1.post (.touch kind none x y none)
            | .window w =>
              let px := x - 16 * w.rect.x
              let py := y - 16 * w.rect.y
              let dropped : State := { s1 with screen := { s1.screen with touchesDropped := min (s.screen.touchesDropped + 1) 65535 } }
              match w.touch with
              | .toHost => s1.post (.touch kind (some w.id) px py none)
              | .ignore => dropped
              | .toNode node =>
                if 8 ≤ s.screen.hold.length then dropped
                else s1.hold { kind := .touch, dest := node, payload := [kind] ++ u8 w.id ++ u16 px ++ u16 py }))
      ∧ (s.screen.state ≠ .up → exec .panelTimerExpiry s = .next s)
      ∧ (s.screen.state = .up →
        exec .panelTimerExpiry s = .next
          (({ s.tick (s.screen.panelTimer + 500000000) with screen :=
            { s.screen with state := .noPanel, panelLosses := min (s.screen.panelLosses + 1) 65535 } } : State).post
            (.screenState .noPanel s.screen.cols s.screen.rows (min (s.screen.panelLosses + 1) 65535))))
      ∧ (s.screen.inSend = none → exec .tileMessageEnd s = .next s)
      ∧ (s.screen.inSend ≠ none →
        exec .tileMessageEnd s = .next ({ s with screen :=
          { s.screen with inSend := none, tilesSent := min (s.screen.tilesSent + 1) 65535 } } : State).runSender))
    ∧ ∀ (s : State) (origin : Nat) (payload : List Byte),
      s.deliverTouch origin payload =
        s.post (.touch (byteAt payload 0) (some (byteAt payload 1).toNat) (fieldAt payload 2 2) (fieldAt payload 4 2) (some origin))

/-! ## Updates and the cycle -/

/-- R12: the angle, revolution and increment of update j of a base, in exact arithmetic; L is L_align, or T_c if L_align exceeds it. -/
def Obligations.UpdateAngleIsTheRulesFormula : Prop :=
  ∀ (s : State) (a : AngleRecord) (aM : Angle) (v : Nat) (period : Period) (revolution : Num16) (t0 : Int) (j at_ : Nat),
    let b := a.makeBase aM v period revolution t0
    let l := if period.ns < a.lAlign then period.ns else a.lAlign
    let f := (v * (l + j * (period.ns / a.k)) + period.ns / 2) / period.ns
    let e := s.baseEvent b j at_
    e.angle.toNat = (aM.toNat + f) % 2 ^ 24
      ∧ e.revolution = (if 2 ^ 24 ≤ aM.toNat + f then revolution + 1 else revolution)
      ∧ (s.angle.newBase = true → e.delta = 0)
      ∧ (s.angle.newBase = false → e.delta = (e.angle - s.angle.previousAngle).toInt)
      ∧ s.recordUpdate e = { s with angle :=
          { s.angle with previousAngle := e.angle, updateRevolution := e.revolution, newBase := false } }
      ∧ (v ≤ 4194303 → j < a.k → v * (l + j * (period.ns / a.k)) < 2 ^ 45 ∧ f ≤ 8388606)

/-- R11: forming a base cancels the updates of the one before it and schedules its own: update 0 at once if it is late, every update whose
nominal instant is later than the forming at that instant, and no other, in rising order. R13, R10: an update event is taken at its instant, which it carries
beside what R13 names even where the clock stands later, at the end of the frame that formed the base (log 1), and reaches the blocks in the model's order (log 11): the drive ports' drains and the axes, the camera, the screen. R26 to R34, R47, R60: the drains come first,
then every axis works, with the follow check for those that were CATCHING or COUPLED at the start of the update (R33), then the FOLLOW reports,
then every axis hands its entry and every port takes its telegram step. No update pending, no effect (log 2); the index an own-timer update
carries is the model's (log 31). R159: an update whose revolution differs from the one before, which for an update of a base and for one of
the own timer is the update revolution as the record holds it, marks the tiles of every visible web view that is not frozen, and the sender
looks; no other update marks a tile. A port that faults inhibits its own axes before its trip source is told (log 47). -/
def Obligations.BasesScheduleUpdatesAndBlocksTakeThem : Prop :=
  (∀ (s : State) (b : Base) (tb : Nat),
      let t := s.formBase b tb
      let u (j : Nat) : Int := b.t0 + b.lag + j * b.tu
      t = { s with angle := { s.angle with base := some b, updates := t.angle.updates } }
        ∧ (∀ (j at_ : Nat), (j, at_) ∈ t.angle.updates ↔
          (j = 0 ∧ u 0 ≤ tb ∧ at_ = tb) ∨ (j < b.k ∧ (tb : Int) < u j ∧ (at_ : Int) = u j))
        ∧ t.angle.updates.Pairwise (fun x y => x.1 < y.1 ∧ x.2 ≤ y.2))
    ∧ (∀ s : State,
      (∀ b j at_ rest, s.angle.updates = (j, at_) :: rest → s.angle.base = some b →
          let s1 : State := ({ s with angle := { s.angle with updates := rest } } : State).tick at_
          let e := s1.baseEvent b j at_
          exec .updateEvent s = .next ((((s1.recordUpdate e).driveUpdate e).cameraUpdate e).screenUpdate e)
            ∧ e.index = j ∧ e.tu = b.tu ∧ e.angleState = s.angle.state ∧ e.at_ = at_
            ∧ e.revolutionBefore = s.angle.updateRevolution)
        ∧ (s.angle.updates = [] ∨ s.angle.base = none → exec .updateEvent s = .next s)
        ∧ (∀ at_, s.angle.ownTimer = some at_ →
          let tu := s.angle.period.ns / s.angle.k
          let s1 : State := ({ s with angle := { s.angle with ownTimer := some (at_ + tu) } } : State).tick at_
          let e : UpdateEvent :=
            { index := 0, angle := s.angle.previousAngle, delta := 0, revolution := s.angle.updateRevolution, tu := tu
              angleState := s.angle.state, at_ := at_, revolutionBefore := s.angle.updateRevolution }
          exec .ownTimerUpdate s = .next ((((s1.recordUpdate e).driveUpdate e).cameraUpdate e).screenUpdate e))
        ∧ (s.angle.ownTimer = none → exec .ownTimerUpdate s = .next s)
        ∧ ∀ t, (exec .updateEvent s = .next t ∨ exec .ownTimerUpdate s = .next t) →
          Only [.now, .fresh, .angle, .master, .axes, .ports, .portStates, .ring, .trips, .sources, .camera, .screen, .ctl, .notices] s t)
    ∧ (∀ (s : State) (e : UpdateEvent),
      let sc := s.screen
      let covers (q : Rect) (c r : Nat) : Prop := q.x ≤ c ∧ c < q.x + q.w ∧ q.y ≤ r ∧ r < q.y + q.h
      s.screenUpdate e =
        if e.revolution = e.revolutionBefore then s
        else
          ({ s with screen := { sc with dirty := (List.range (sc.cols * sc.rows)).filter fun t =>
            t ∈ sc.dirty ∨ ∃ w ∈ sc.windows,
              w.visible = true ∧ w.kind = .webview ∧ w.freeze = false ∧ covers w.rect (t % sc.cols) (t / sc.cols) } } : State).runSender)
    ∧ ∀ (s : State) (e : UpdateEvent),
      let engaged (i : Fin 16) : Bool := decide ((s.axis i).state = .catching ∨ (s.axis i).state = .coupled)
      let drained := (((s.drain 0).drain 1).drain 2).drain 3
      let worked := axisNumbers.foldl (fun t i => t.workAxis i e.delta (engaged i)) drained
      let reports (t : State) (p : Fin 4) : State :=
        (drained.boundAxes p).foldl
          (fun u x => if (drained.axis x.2).followCount < 3 ∧ (t.axis x.2).followCount = 3 then u.follow p x.1 x.2 else u) t
      let told := reports (reports (reports (reports worked 0) 1) 2) 3
      let handed : State := { told with axes := told.axes.map fun a =>
        if a.state = .catching ∨ a.state = .coupled ∨ a.binding = none then a else { a with s := a.f, v := 0 } }
      let sent := (((handed.sendPort 0 e.tu).sendPort 1 e.tu).sendPort 2 e.tu).sendPort 3 e.tu
      s.driveUpdate e = { sent with trips :=
          { sent.trips with axesCoupled := decide (∀ i : Fin 16, (sent.axis i).binding = none ∨ (sent.axis i).state = .coupled) } }
        ∧ ∀ (t : State) (p sub : Fin 4) (i : Fin 16),
          t.follow p sub i =
            if (t.port p).state = .up then
              (((t.setPort p
                  { t.port p with state := .fault, reason := .follow, place := some (sub, some i), linkCount := 0 }).post
                (.portState p .fault .follow (some (sub, some i)) (t.port p).missCount)).inhibitPort p).setCondition (portSource p) true
            else t

/-- R7, R8: at the deadline of an expected frame a member coasts below the coast limit, and is LOST at it; without an expected frame, or at the
master, nothing happens (log 2). R5, R9: a member accepts a cycle frame by its origin, its number and, in COASTING, the step check against
the predicted angle; a dropped frame changes at most the FOREIGN_MASTER counter. R6: what an accepted frame copies, the base it forms, and what
it hands and posts. That the record's A_m and frame revolution go on at a coast while the angle of the last accepted frame is kept beside them
for the prediction (`lastA`) is the model's reading (log 14); that the vector is taken before the condition of source 16 drops is its order (log 44). -/
def Obligations.MemberFollowsOrLosesTheCycle : Prop :=
  (∀ s : State,
      (s.angle.expectedArrival = none ∨ s.angle.role = .master → exec .deadline s = .next s)
        ∧ ∀ due, s.angle.expectedArrival = some due → s.angle.role = .member →
          let a := s.angle
          let t := s.tick (due + a.period.ns / 4)
          let count := min (a.coastCount + 1) 8
          let coasts := min (a.coasts + 1) 65535
          (count < a.coastLimit →
              let base : Base :=
                { aM := a.aM + BitVec.ofNat 24 a.v, v := a.v, period := a.period
                  revolution := if 2 ^ 24 ≤ a.aM.toNat + a.v then a.frameRevolution + 1 else a.frameRevolution
                  t0 := match a.base with
                    | some b => b.t0 + a.period.ns
                    | none => t.now
                  lag := min a.lAlign a.period.ns, tu := a.period.ns / a.k, k := a.k }
              exec .deadline s = .next
                (({ t with angle :=
                  { a with
                    state := .coasting, coastCount := count, coasts := coasts, aM := base.aM, frameRevolution := base.revolution
                    expectedArrival := some (due + a.period.ns), base := some base, updates := base.schedule t.now } } : State).post
                  (.angleState .coasting count a.masterOrigin none)))
            ∧ (a.coastLimit ≤ count →
              let lost : State := { t with angle :=
                { a with
                  state := .lost, coastCount := count, coasts := coasts, masterOrigin := none, expectedArrival := none, updates := []
                  angleLosses := min (a.angleLosses + 1) 65535, ownTimer := some (t.now + a.period.ns / a.k) } }
              exec .deadline s = .next ((lost.inhibitAll .angle).setCondition 16 true).postAngleState))
    ∧ (∀ (s : State) (x : CycleArrival),
      let a := s.angle
      let foreign : State := { s with angle := { a with foreignMaster := min (a.foreignMaster + 1) 65535 } }
      let isNewer : Prop := 1 ≤ (x.number - a.cycleNumber).toNat ∧ (x.number - a.cycleNumber).toNat ≤ 32767
      let predicted : Angle := a.lastA + BitVec.ofNat 24 (a.v * (x.number - a.cycleNumber).toNat)
      let small : Prop := ((x.fields.aM - predicted).toInt).natAbs ≤ a.stepTolerance
      (a.role = .master → s.deliverCycle x = foreign)
        ∧ (a.role = .member → a.state = .none ∨ a.state = .lost → s.deliverCycle x = s.acceptCycle x)
        ∧ (a.role = .member → a.state = .tracking ∨ a.state = .coasting →
          (a.masterOrigin ≠ some x.origin → s.deliverCycle x = foreign)
            ∧ (a.masterOrigin = some x.origin → ¬isNewer → s.deliverCycle x = s)
            ∧ (a.masterOrigin = some x.origin → isNewer → a.state = .tracking ∨ small → s.deliverCycle x = s.acceptCycle x)
            ∧ (a.masterOrigin = some x.origin → isNewer → a.state = .coasting → ¬small →
              s.deliverCycle x = s.enterLost.acceptCycle x)))
    ∧ ∀ (s : State) (x : CycleArrival),
      let a := s.angle
      let c := x.fields
      let b : Base :=
        { aM := c.aM, v := c.v, period := c.period, revolution := c.revolution, t0 := (x.arrival : Int) - x.delay
          lag := min a.lAlign c.period.ns, tu := c.period.ns / a.k, k := a.k }
      let t : State := { s with angle :=
        { a with
          state := .tracking, masterOrigin := some x.origin, cycleNumber := x.number, aM := c.aM, lastA := c.aM, v := c.v
          frameRevolution := c.revolution, lineState := c.lineState, period := c.period, vector := c.vector, frameDelay := x.delay
          expectedArrival := some (x.arrival + c.period.ns), coastCount := 0
          newBase := if a.state = .none ∨ a.state = .lost then true else a.newBase
          ownTimer := none, base := some b, updates := b.schedule x.arrival
          alignLate := if b.t0 + b.lag ≤ x.arrival then min (a.alignLate + 1) 65535 else a.alignLate } }
      let u := t.takeVector c.vector
      let w := (if c.lineState = a.lineState then u else u.post (.lineState u.angle.lineState u.angle.cycleNumber)).setCondition 16 false
      s.acceptCycle x = if a.state = .tracking then w else w.postAngleState

/-- R14, R15: an expiry of the master's cycle timer: the frame last handed over is judged, an own frame still waiting at the processing output
is given up (R85, log 15) while what waits at the other output stays (R73; that the next frame then carries the next values as they stand is
the model's reading, log 15), and the next frame is handed to the ring with the fields of the rule; the timer starts again. A return, or the
miss that reaches the coast limit, changes the return loss, with the condition of source 16 and ANGLE_STATE. The fields beside present of the
slots sent absent are the model's (log 46). R11, R14, R16: at the emission of a frame the record takes its values, the base is formed at that
instant, and the next frame is computed. At a member nothing happens (log 2). -/
def Obligations.CycleTimerHandsOverTheNextFrame : Prop :=
  ∀ s : State,
    (s.master.cycleTimer = none → exec .cycleTimerExpiry s = .next s)
      ∧ ∀ due, s.master.cycleTimer = some due →
        let judged := (s.tick due).judgeReturn
        let m := match RingMode.processingOutput judged.ring.mode with
          | some o => judged.discardOwnCycle o
          | none => judged
        let period := m.master.pendingPeriod.getD m.angle.period
        let fields : CycleFields :=
          { period := period, lineState := m.angle.lineState, aM := m.master.nextA, revolution := m.master.nextRevolution
            v := m.master.nextV, dAcc := 0
            vector := if m.master.returned then m.angle.vector else Vector.replicate 32 {} }
        let t : State := { m with
          angle := { m.angle with period := period }
          master :=
            { m.master with
              pendingPeriod := none, returned := false, lastHanded := some m.master.nextCycle, cycleTimer := some (due + period.ns) } }
        exec .cycleTimerExpiry s = .next (match RingMode.processingOutput t.ring.mode with
            | some o => t.joinCycle o (.ownCycle m.master.nextCycle fields)
            | none => t.emitted m.master.nextCycle fields)
          ∧ (∀ o, RingMode.processingOutput judged.ring.mode ≠ some o → m.fibre o = judged.fibre o)
          ∧ (s.master.lastHanded = none → judged = s.tick due)
          ∧ (s.master.lastHanded ≠ none → s.master.returned = true → judged.master.returnMisses = 0 ∧ judged.master.returnLoss = false)
          ∧ (s.master.lastHanded ≠ none → s.master.returned = false →
            judged.master.returnMisses = min (s.master.returnMisses + 1) 8
              ∧ judged.master.returnLoss = (s.master.returnLoss || decide (s.angle.coastLimit ≤ min (s.master.returnMisses + 1) 8)))
          ∧ (s.master.lastHanded ≠ none →
            let w := s.tick due
            let misses := min (s.master.returnMisses + 1) 8
            let record (misses : Nat) (loss : Bool) : State := { w with master := { s.master with returnMisses := misses, returnLoss := loss } }
            judged =
              if s.master.returned = true then
                if s.master.returnLoss = true then ((record 0 false).setCondition 16 false).postAngleState else record 0 false
              else if s.master.returnLoss = false ∧ s.angle.coastLimit ≤ misses then ((record misses true).setCondition 16 true).postAngleState
              else record misses s.master.returnLoss)
          ∧ s.postAngleState = s.post (.angleState s.angle.state s.angle.coastCount s.angle.masterOrigin
            (if s.angle.role = .master then some s.master.returnLoss else none))
          ∧ (∀ o : FibreSide,
            let p := s.fibre o
            let freed := s.setFibre o { p with cycle := none }
            s.discardOwnCycle o =
              match p.cycle with
              | some (.ownCycle number c) =>
                ({ freed with ring := { freed.ring with forwardDrops := min (s.ring.forwardDrops + 1) 65535 } } : State).emitted number c
              | _ => s)
          ∧ ∀ (number : Num16) (c : CycleFields),
            let base : Base :=
              { aM := c.aM, v := c.v, period := c.period, revolution := c.revolution, t0 := s.now, lag := min s.angle.lAlign c.period.ns
                tu := c.period.ns / s.angle.k, k := s.angle.k }
            s.emitted number c =
              ({ s with angle :=
                { s.angle with
                  cycleNumber := number, aM := c.aM, v := c.v, frameRevolution := c.revolution
                  base := some base, updates := base.schedule s.now } } : State).computeNext

/-! ## The fibre ring -/

/-- R74, R69: a receiver closes a frame. A bad frame in UP is counted; a good one of a kind there is goes on by the role of its input, and one
of another kind is a stray on an input with a role and is dropped on an input with none. R173: which frames break the layout tables.
R75, R77: the path of a frame at the processing input and at the pass-through input; that a frame for this node and others is delivered before it is forwarded is the model's order
(log 11). R76: the block each kind is delivered to. R80, R81: the sequence memory a trip frame meets, and what a frame of own origin does when
it returns (R15, R83): that the trip unit takes the returned vector before the roster is checked is the model's order (log 44). -/
def Obligations.RingFrameArrivesAndGoesItsWay : Prop :=
  (∀ (s : State) (side : FibreSide) (arrival at_ : Nat) (bs : List Byte),
      let s1 := s.tick at_
      let p := s.fibre side
      let bad : Prop := bs.length < 16 ∨ crc32Good bs = false ∨ 512 < fieldAt bs 7 2 ∨ fieldAt bs 7 2 ≠ bs.length - 16
      let processing : Prop :=
        (side = .a ∧ (s.ring.mode = .closed ∨ s.ring.mode = .wrapB)) ∨ (side = .b ∧ s.ring.mode = .wrapA)
      let passing : Prop := side = .b ∧ s.ring.mode = .closed
      let run := exec (.ringFrameArrival side arrival at_ bs) s
      (p.state = .dark → run = .next s1)
        ∧ (p.state = .training → run = .next (s1.setFibre side { p with idleRun := 0, samples := [] }))
        ∧ (p.state = .up → bad → run = .next (s1.setFibre side { p with crcErrors := min (p.crcErrors + 1) 65535 }))
        ∧ (p.state = .up → ¬bad → ¬processing → ¬passing →
          run = .next { s1 with ring := { s.ring with forwardDrops := min (s.ring.forwardDrops + 1) 65535 } })
        ∧ (p.state = .up → ¬bad → processing ∨ passing → decodeFrame bs = none →
          run = .next { s1 with ring := { s.ring with strays := min (s.ring.strays + 1) 65535 } })
        ∧ (∀ f, p.state = .up → ¬bad → processing → decodeFrame bs = some f →
          run = .next (s1.processFrame { frame := f, arrival := arrival, linkDelay := p.linkDelay }))
        ∧ (∀ f, p.state = .up → ¬bad → passing → decodeFrame bs = some f →
          run = .next (s1.passFrame { frame := f, arrival := arrival, linkDelay := p.linkDelay }))
        ∧ ∀ t, run = .next t →
          t.store.pages = s.store.pages ∧ t.camera = s.camera ∧ t.marks = s.marks ∧ t.ports = s.ports ∧ t.pending = s.pending)
    ∧ (∀ (s : State) (x : Arrived),
      let f := x.frame
      let own := s.angle.nodeId
      let stray : State := { s with ring := { s.ring with strays := min (s.ring.strays + 1) 65535 } }
      let mine : Prop := f.dest = own
      let forMe : Prop := f.dest = own ∨ ((f.kind = .cycle ∨ f.kind = .trip ∨ f.kind = .tripClear) ∧ f.dest = 0)
      let n := f.payload.length
      let allowed : Prop := match f.kind with
        | .cycle => n = 76
        | .trip => n = 3
        | .tripClear => n = 2
        | .trimStep => n = 4
        | .imageLine => 8 ≤ n ∧ n ≤ 512
        | .screenTiles => n = 258
        | .touch => n = 6
        | .peerMessage => 1 ≤ n ∧ n ≤ 256
      (frameStray f = true ↔ ¬allowed ∨ f.origin = 0 ∨ 32 < f.origin ∨ 32 < f.dest
          ∨ ((f.kind = .trip ∨ f.kind = .tripClear)
            ∧ (23 < (byteAt f.payload 0).toNat ∨ (byteAt f.payload 1).toNat = 0 ∨ 4 < (byteAt f.payload 1).toNat))
          ∨ (f.kind = .trip ∧ 3 < (byteAt f.payload 2).toNat))
        ∧ (frameStray f = true → s.processFrame x = stray)
        ∧ (frameStray f = false → f.origin = own → s.processFrame x = s.ownReturned x)
        ∧ (frameStray f = false → f.origin ≠ own → 32 ≤ f.hop → s.processFrame x = stray)
        ∧ (frameStray f = false → f.origin ≠ own → f.hop < 32 →
          (mine → s.processFrame x = s.deliver x)
            ∧ (¬mine → forMe → s.processFrame x = (s.deliver x).forwardFrame x)
            ∧ (¬mine → ¬forMe → s.processFrame x = s.forwardFrame x))
        ∧ (f.reverse = 31 → s.passFrame x = stray)
        ∧ (f.reverse ≠ 31 → s.ring.mode = .closed → s.passFrame x = s.joinByClass .a f.kind (.reverse f x.arrival x.linkDelay)))
    ∧ ∀ (s : State) (x : Arrived),
      let f := x.frame
      let c := decodeCycle f.payload
      let delay := min (c.dAcc + x.linkDelay) 65535
      let mine : Prop := s.angle.role = .master ∧ s.master.lastHanded = some f.seq
      let v : Vector StatusSlot 32 := Vector.ofFn fun i =>
        if i.val + 1 ≠ s.angle.nodeId ∧ c.vector[i].passMark ≠ f.seq.getLsbD 0 then { c.vector[i] with present := false } else c.vector[i]
      let g : Frame := { f with hop := f.hop + 1 }
      (s.deliver x =
          match f.kind with
          | .cycle => s.deliverCycle { origin := f.origin, number := f.seq, fields := c, arrival := x.arrival, delay := delay }
          | .trip => s.deliverTripFrame f
          | .tripClear => s.deliverTripFrame f
          | .trimStep => s.deliverTrimStep f.payload
          | .imageLine => s.deliverImageLine f.origin f.payload
          | .screenTiles => s.deliverTiles f.origin f.payload
          | .touch => s.deliverTouch f.origin f.payload
          | .peerMessage => s.post (.peerMessage f.origin f.seq f.payload))
        ∧ (∀ i : Fin 32, f.origin = i.val + 1 →
          let q : BitVec 8 := f.seq.setWidth 8
          let accepted : Prop :=
            ∀ l, s.ring.memory[i] = some l →
              (f.restart = true → q ≠ l) ∧ (f.restart = false → 1 ≤ (q - l).toNat ∧ (q - l).toNat ≤ 127)
          let t : State := { s with ring := { s.ring with memory := s.ring.memory.set i (some q) } }
          (accepted → f.kind = .trip → s.deliverTripFrame f = t.deliverTrip f.origin f.payload)
            ∧ (accepted → f.kind = .tripClear → s.deliverTripFrame f = t.deliverTripClear f.origin f.payload)
            ∧ (¬accepted →
              s.deliverTripFrame f = { s with ring := { s.ring with duplicates := min (s.ring.duplicates + 1) 65535 } }))
        ∧ (f.kind = .trip ∨ f.kind = .tripClear → s.ownReturned x = { s with ring := { s.ring with restartFlag := false } })
        ∧ (f.kind = .cycle → mine →
          s.ownReturned x = (({ s with
            master := { s.master with returned := true, ringDelay := delay }
            angle := { s.angle with vector := v } } : State).takeVector v).checkRoster v)
        ∧ (f.kind = .cycle → ¬mine → s.ownReturned x = s)
        ∧ (f.kind ≠ .cycle → f.kind ≠ .trip → f.kind ≠ .tripClear → s.ownReturned x = s)
        ∧ (s.ring.mode = .closed ∨ s.ring.mode = .wrapA → s.forwardFrame x = s.joinByClass .b f.kind (.primary g x.arrival x.linkDelay))
        ∧ (s.ring.mode = .wrapB → s.forwardFrame x = s.joinByClass .a f.kind (.primary g x.arrival x.linkDelay))
        ∧ (s.ring.mode = .isolated →
          s.forwardFrame x = { s with ring := { s.ring with forwardDrops := min (s.ring.forwardDrops + 1) 65535 } })

/-- R86, R68: when a transmitter has sent its frame the output sends one idle set and the arbiter of that output chooses again: URGENT first,
then CYCLE, then BULK, in turn between the forwarded and the local queue at a processing output; the pass-through output has no local queue, and
an output with no role or with a frame in its transmitter chooses nothing. R78, R82, R83, R87: what the chosen frame is as it leaves, the
emission of the master's own cycle frame (R14; what it does is said with the cycle timer), and the held screen frame that takes a freed place. R85: how a frame joins an output. The
model's own: no frame in the transmitter, no effect (log 2); the idle set is sent at the instant the frame ends (log 20), its timestamp taken
from the model's clock and listed among those sent, its hold 0 before a set was received (log 22); the unnamed bits of a CYCLE payload go on as
they came (log 23); what a CYCLE payload too short for its delay becomes (log 37). -/
def Obligations.ArbiterChoosesByClass : Prop :=
  (∀ (s : State) (side : FibreSide) (at_ : Nat),
      let p := s.fibre side
      let s1 := s.tick at_
      exec (.frameTransmitEnd side at_) s =
        if p.sending = none then .next s1
        else .next ((s1.setFibre side
          { p with
            sending := none
            stamps := BitVec.ofNat 32 s1.now :: p.stamps
            idleOut := some (encodeIdle
              { receivingOk := decide (p.state = .up), timestamp := BitVec.ofNat 32 s1.now, echo := p.echo.map (·.1)
                hold := match p.echo with
                  | some e => BitVec.ofNat 32 (s1.now - e.2)
                  | none => 0 }) }).arbitrate side))
    ∧ (∀ (p : FibrePort) (own : List Frame),
      (∀ q rest, p.urgent = q :: rest → p.choose own = .urgent q)
        ∧ (∀ q, p.urgent = [] → p.cycle = some q → p.choose own = .cycle q)
        ∧ (∀ q rest, p.urgent = [] → p.cycle = none → p.forwarded = q :: rest → own = [] → p.choose own = .forwarded q p.bulkTurn)
        ∧ (∀ f rest, p.urgent = [] → p.cycle = none → p.forwarded = [] → own = f :: rest → p.choose own = .localFrame f p.bulkTurn)
        ∧ (∀ q f rest rest', p.urgent = [] → p.cycle = none → p.forwarded = q :: rest → own = f :: rest' →
          p.choose own = match p.bulkTurn with
            | .forwarded => .forwarded q .localQueue
            | .localQueue => .localFrame f .forwarded)
        ∧ (p.urgent = [] → p.cycle = none → p.forwarded = [] → own = [] → p.choose own = .nothing))
    ∧ (∀ (s : State) (o : FibreSide),
      let p := s.fibre o
      let processing : Prop := (o = .b ∧ (s.ring.mode = .closed ∨ s.ring.mode = .wrapA)) ∨ (o = .a ∧ s.ring.mode = .wrapB)
      let passing : Prop := o = .a ∧ s.ring.mode = .closed
      let sent (q : FibrePort) (f : Frame) : State := s.setFibre o { q with sending := some (encodeFrame f) }
      let queue := s.ring.localQueue.tail
      (¬processing → ¬passing → s.arbitrate o = s)
        ∧ (p.sending ≠ none → s.arbitrate o = s)
        ∧ ∀ own : List Frame, (processing ∧ own = s.ring.localQueue) ∨ (passing ∧ own = []) → p.sending = none →
          (∀ q, p.choose own = .urgent q → s.arbitrate o = sent { p with urgent := p.urgent.tail } (s.asSent q))
            ∧ (∀ number c, p.choose own = .cycle (.ownCycle number c) →
              s.arbitrate o = (sent { p with cycle := none } (s.asSent (.ownCycle number c))).emitted number c)
            ∧ (∀ q, (∀ number c, q ≠ .ownCycle number c) → p.choose own = .cycle q →
              s.arbitrate o = sent { p with cycle := none } (s.asSent q))
            ∧ (∀ q turn, p.choose own = .forwarded q turn →
              s.arbitrate o = sent { p with forwarded := p.forwarded.tail, bulkTurn := turn } (s.asSent q))
            ∧ (∀ f turn, p.choose own = .localFrame f turn →
              let t := sent { p with bulkTurn := turn } f
              (s.screen.hold = [] ∨ 16 ≤ queue.length → s.arbitrate o = { t with ring := { t.ring with localQueue := queue } })
                ∧ ∀ h rest, s.screen.hold = h :: rest → queue.length < 16 →
                  s.arbitrate o = { t with
                    ring := { t.ring with
                      localQueue := queue ++
                        [{ kind := h.kind, restart := false, reverse := 0, origin := s.angle.nodeId, dest := h.dest, hop := 0
                           seq := s.ring.bulkSequence, payload := h.payload }]
                      bulkSequence := s.ring.bulkSequence + 1 }
                    screen := { s.screen with hold := rest } })
            ∧ (p.choose own = .nothing → s.arbitrate o = s))
    ∧ (∀ (s : State) (f : Frame) (arrival linkDelay : Nat) (number : Num16) (c : CycleFields),
      let own := s.angle.nodeId
      let slot (n : Num16) : StatusSlot :=
        { present := true, passMark := n.getLsbD 0, worst := s.trips.worst, ringMode := s.ring.mode, axesCoupled := s.trips.axesCoupled
          marksLocked := s.trips.marksLocked }
      let delayed := overwrite f.payload 10 (u16 (min (fieldAt f.payload 10 2 + linkDelay + (s.now - arrival)) 65535))
      s.asSent (.own f) = f
        ∧ s.asSent (.ownCycle number c) =
          { kind := .cycle, restart := false, reverse := 0, origin := own, dest := 0, hop := 0, seq := number
            payload := encodeCycle { c with vector := Vector.ofFn fun i => if i.val + 1 = own then slot number else c.vector[i] } }
        ∧ (f.kind = .cycle →
          s.asSent (.primary f arrival linkDelay) =
            { f with payload := overwrite delayed (12 + 2 * (own - 1)) (encodeSlot (slot f.seq)) })
        ∧ (f.kind ≠ .cycle → s.asSent (.primary f arrival linkDelay) = f)
        ∧ (f.kind = .cycle → s.asSent (.reverse f arrival linkDelay) = { f with reverse := f.reverse + 1, payload := delayed })
        ∧ (f.kind ≠ .cycle → s.asSent (.reverse f arrival linkDelay) = { f with reverse := f.reverse + 1 }))
    ∧ ∀ (s : State) (o : FibreSide) (kind : FrameKind) (q : Queued),
      let p := s.fibre o
      let dropped : State := { s with ring := { s.ring with forwardDrops := min (s.ring.forwardDrops + 1) 65535 } }
      let waits (t : State) : State := (t.setFibre o { t.fibre o with cycle := some q }).arbitrate o
      (kind = .trip ∨ kind = .tripClear →
          s.joinByClass o kind q =
            if p.urgent.length < 8 then (s.setFibre o { p with urgent := p.urgent ++ [q] }).arbitrate o
            else { s with ring := { s.ring with urgentDrops := min (s.ring.urgentDrops + 1) 65535 } })
        ∧ (kind = .cycle → p.cycle = none → s.joinByClass o kind q = waits s)
        ∧ (∀ number c, kind = .cycle → p.cycle = some (.ownCycle number c) → s.joinByClass o kind q = waits (dropped.emitted number c))
        ∧ (∀ w, kind = .cycle → p.cycle = some w → (∀ number c, w ≠ .ownCycle number c) → s.joinByClass o kind q = waits dropped)
        ∧ (kind ≠ .cycle → kind ≠ .trip → kind ≠ .tripClear →
          s.joinByClass o kind q =
            if p.forwarded.length < 16 then (s.setFibre o { p with forwarded := p.forwarded ++ [q] }).arbitrate o else dropped)

/-- R68 to R72: idle sets and the training, use and loss of a fibre port; and the ring mode the usable flags give. R73, R84, R86, R92: at a change of
mode an output that loses its role is emptied and counted, RING_STATE is posted, the condition of source 19 formed, and the arbiters choose
again, in this order (log 43). The model's own: the port's clock and the list of the timestamps it has sent (log 22); a training start outside DARK, a loss of lock in DARK and an idle set while a frame
is being sent change nothing (log 2). -/
def Obligations.FibrePortsTrainAndFallAndFormTheMode : Prop :=
  (∀ (s : State) (side : FibreSide) (at_ : Nat),
      let p := s.fibre side
      let s1 := s.tick at_
      (exec (.linkTrainingStart side) s = .next
          (if p.state = .dark then
            (s.setFibre side { p with state := .training, idleRun := 0, samples := [], echo := none }).postRingState
          else s))
        ∧ (exec (.lossOfLock side at_) s = .next
          (if p.state = .dark then s1
          else
            ((s1.setFibre side
              { p with
                state := .dark, idleRun := 0, samples := [], okRun := 0, usable := false, peerOk := false }).postRingState).reformMode))
        ∧ (exec (.shortLossOfLock side) s = .next
          (if p.state = .training then s.setFibre side { p with idleRun := 0, samples := [] } else s.setFibre side p))
        ∧ (exec (.idleSetSend side at_) s = .next
          (if p.sending = none then
            s1.setFibre side
              { p with
                stamps := BitVec.ofNat 32 s1.now :: p.stamps
                idleOut := some (encodeIdle
                  { receivingOk := decide (p.state = .up), timestamp := BitVec.ofNat 32 s1.now, echo := p.echo.map (·.1)
                    hold := match p.echo with
                      | some e => BitVec.ofNat 32 (s1.now - e.2)
                      | none => 0 }) }
          else s1))
        ∧ (∀ (good : Bool) (bs : List Byte), good = false ∨ decodeIdle bs = none →
          exec (.idleSetReceived side at_ good bs) s = .next
            (if p.state = .training then s1.setFibre side { p with idleRun := 0, samples := [] } else s1.setFibre side p))
        ∧ ∀ (bs : List Byte) (x : IdleSet), decodeIdle bs = some x →
          let q : FibrePort := { p with peerOk := x.receivingOk, echo := some (x.timestamp, at_) }
          let run := exec (.idleSetReceived side at_ true bs) s
          (p.state = .dark → run = .next (s1.setFibre side q).reformMode)
            ∧ (p.state = .up → run = .next (s1.setFibre side
              (if x.receivingOk then
                { q with okRun := min (p.okRun + 1) 16, usable := if min (p.okRun + 1) 16 = 16 then true else p.usable }
              else { q with okRun := 0, usable := false })).reformMode)
            ∧ (p.state = .training → (∀ e ∈ p.stamps, x.echo ≠ some e) →
              run = .next (s1.setFibre side { q with idleRun := 0, samples := [] }).reformMode)
            ∧ (∀ e ∈ p.stamps, p.state = .training → x.echo = some e →
              let sample := (BitVec.ofNat 32 at_ - e - x.hold).toNat / 2
              let samples := p.samples ++ [sample]
              (p.idleRun + 1 < 8 → run = .next (s1.setFibre side { q with idleRun := p.idleRun + 1, samples := samples }).reformMode)
                ∧ (8 ≤ p.idleRun + 1 → run = .next ((s1.setFibre side
                  { q with
                    state := .up, idleRun := 8, samples := [], linkDelay := min (samples.sum / 8) 65535
                    okRun := 0 }).postRingState).reformMode)))
    ∧ (∀ s : State,
      let new : RingMode :=
        if s.ring.a.usable then (if s.ring.b.usable then .closed else .wrapB) else (if s.ring.b.usable then .wrapA else .isolated)
      s.reformMode = (if new = s.ring.mode then s else s.changeMode new) ∧ s.reformMode.ring.mode = new)
    ∧ ∀ (s : State) (new : RingMode),
      let role (m : RingMode) (o : FibreSide) : Bool := match o with
        | .a => decide (m = .closed ∨ m = .wrapB)
        | .b => decide (m = .closed ∨ m = .wrapA)
      let flushed (o : FibreSide) (t : State) : State :=
        if role s.ring.mode o = true ∧ role new o = false then
          let p := t.fibre o
          let u := t.setFibre o { p with urgent := [], cycle := none, forwarded := [] }
          let v : State := { u with ring :=
            { u.ring with
              urgentDrops := min (t.ring.urgentDrops + p.urgent.length) 65535
              forwardDrops := min (t.ring.forwardDrops + ((if p.cycle = none then 0 else 1) + p.forwarded.length)) 65535 } }
          match p.cycle with
          | some (.ownCycle number c) => v.emitted number c
          | _ => v
        else t
      let shown (p : FibrePort) : Option Nat := if p.state = .up then some p.linkDelay else none
      let moved : State := { s with ring := { s.ring with mode := new } }
      s.changeMode new =
          ((((flushed .b (flushed .a moved)).postRingState).setCondition 19 (decide (new ≠ .closed))).arbitrate .a).arbitrate .b
        ∧ s.postRingState = s.post (.ringState s.ring.a.state s.ring.a.usable s.ring.b.state s.ring.b.usable (shown s.ring.a)
          (shown s.ring.b) s.ring.mode (if s.angle.role = .master then some s.ring.lost else none))

/-! ## Camera and image store events -/

/-- R119: the triggers an update forms at a camera that is ON. R120, R121: the issue of a pending trigger, with its pulse of CAM_TRIG under its
tag, and the judging of a line message. R137 to R143: the mark unit's work on a line: the edges its channels find, what the reference and a follower
do with theirs, the arming of followers, and the closes; what a judged repeat does is said with the register error. R128: the capture of a line
into map 0. The model's own: with no trigger pending nothing happens (log 2); one reference edge arms the followers 1 to 7 in turn (log 39); a line that finds
map 0's writer taken waits (log 18); the pulses of a row are held with
their instants until the next row that issues (log 27); a line goes to the mark unit before the image store (log 12). -/
def Obligations.TriggersAndLineMessages : Prop :=
  let issued (at_ : Nat) (c : Camera) (x : Trigger) : Camera :=
    let full := 4 ≤ c.outstanding.length
    { c with
      tagPins := c.tagCounter, pulses := c.pulses ++ [(at_, c.tagCounter)], tagCounter := (c.tagCounter + 1) % 16
      issued := min (c.issued + 1) 65535
      missing := if full then min (c.missing + 1) 65535 else c.missing
      outstanding := (if full then c.outstanding.tail else c.outstanding)
        ++ [{ line := x.line, tag := c.tagCounter, stamp := x.stamp, revolution := x.revolution }] }
  (∀ s : State, s.camera.triggers = [] → exec .triggerIssue s = .next s)
    ∧ (∀ (s : State) (x : Trigger) (rest : List Trigger), s.camera.triggers = x :: rest →
      exec .triggerIssue s = .next { s.tick x.issueAt with
        camera := issued x.issueAt { s.camera with triggers := rest, pulses := [] } x })
    ∧ (∀ (s : State) (e : UpdateEvent),
      (s.camera.on = false → s.cameraUpdate e = s)
        ∧ (s.camera.on = true →
          let c := s.camera.triggers.foldl (issued e.at_) { s.camera with pulses := [] }
          let start : Angle := e.angle + BitVec.ofInt 24 (-e.delta)
          let after := (start.toNat / c.pitch + 1) * c.pitch % 16777216
          let pointer := if start = c.lastSeen then c.pointer.getD after else after
          let gap := (BitVec.ofNat 24 pointer - e.angle).toInt
          let n := if 0 < e.delta ∧ gap ≤ 0 then gap.natAbs / c.pitch + 1 else 0
          s.cameraUpdate e = { s with camera :=
            { c with
              triggers := (List.range (min n 8)).map fun i =>
                let m := (pointer + i * c.pitch) % 16777216
                { line := m / c.pitch, stamp := BitVec.ofNat 24 m
                  revolution := if e.angle.toNat < m then e.revolution - 1 else e.revolution
                  issueAt := e.at_ + ((e.tu : Int) * (BitVec.ofNat 24 m - start).toInt / e.delta).toNat }
              skipped := min (c.skipped + (n - 8)) 65535
              pointer := some ((pointer + n * c.pitch) % 16777216)
              lastSeen := e.angle } }))
    ∧ (∀ (s : State) (bs : List Byte),
      let c := s.camera
      let good : Prop := 5 ≤ bs.length ∧ crc16Good bs = true ∧ fieldAt bs 1 2 = c.width ∧ bs.length - 5 = c.width
      let tag := (byteAt bs 0).toNat % 16
      (¬good → exec (.lineMessage bs) s = .next { s with camera := { c with badLines := min (c.badLines + 1) 65535 } })
        ∧ (good → (∀ o ∈ c.outstanding, o.tag ≠ tag) →
          exec (.lineMessage bs) s = .next { s with camera := { c with unknownTags := min (c.unknownTags + 1) 65535 } })
        ∧ (∀ older o newer, good → c.outstanding = older ++ o :: newer → (∀ x ∈ older, x.tag ≠ tag) → o.tag = tag →
          let t : State := { s with camera :=
            { c with
              missing := min (c.missing + older.length) 65535, received := min (c.received + 1) 65535, outstanding := newer } }
          let l : CameraLine :=
            { number := o.line, stamp := o.stamp, revolution := o.revolution, pixels := (bs.drop 3).take c.width }
          exec (.lineMessage bs) s = .next ((t.markLine l).capture l)))
    ∧ ∀ (s : State) (l : CameraLine),
      let pitch := s.camera.pitch
      let last := s.marks.lastLine
      let before : Option Angle := match last with
        | some x => if l.number = (x.1 + 1) % (16777216 / pitch) then some x.2 else none
        | none => none
      let dark (c : Channel) : Nat :=
        (((l.pixels.take (min c.c1 s.camera.width)).drop c.c0).filter fun b => decide (b.toNat < c.threshold)).length
      let edge (c : Channel) : Option Angle := match c.previous with
        | none => none
        | some p =>
          if p < c.width ∧ c.width ≤ dark c then
            some (match before with
              | some x => x + BitVec.ofNat 24 ((2 * pitch * (c.width - p) + (dark c - p)) / (2 * (dark c - p)))
              | none => l.stamp)
          else none
      let passed (point : Angle) : Bool := match last with
        | some x => decide (1 ≤ (point - x.2).toNat ∧ (point - x.2).toNat ≤ (l.stamp - x.2).toNat)
        | none => false
      let marked := followerNumbers.foldl (fun t i => t.workFollower l i) (s.workReference l)
      s.markLine l = { marked with marks := { marked.marks with lastLine := some (l.number, l.stamp) } }
        ∧ ((s.channel 0).state = .off → s.workReference l = s)
        ∧ ((s.channel 0).state ≠ .off →
          let c := s.channel 0
          let seen : Channel := { c with previous := some (dark c) }
          let taken (e : Angle) : Prop := c.phase = .opened ∧ c.edgeTaken = none ∧ (e - c.g0).toNat < (c.g1 - c.g0).toNat
          let closes (t : State) : State := if passed (t.channel 0).g1 then t.closeReference else t
          (edge c = none → s.workReference l = closes (s.setChannel 0 seen))
            ∧ (∀ e, edge c = some e → ¬taken e → s.workReference l = closes (s.setChannel 0 seen))
            ∧ ∀ e, edge c = some e → taken e →
              s.workReference l = closes
                (followerNumbers.foldl (fun t i => t.arm e i) (s.setChannel 0 { seen with edgeTaken := some e, lastEdge := some e })))
        ∧ (∀ i : Fin 8, (s.channel i).state = .off → s.workFollower l i = s)
        ∧ (∀ i : Fin 8, (s.channel i).state ≠ .off →
          let c := s.channel i
          let seen : Channel := { c with previous := some (dark c) }
          let taken (e a : Angle) : Prop :=
            c.armed = some a ∧ c.phase = .armed ∧ c.edgeTaken = none ∧ (e - (a + BitVec.ofInt 24 (c.spacing - c.span))).toNat ≤ 2 * c.span
          let closes (t : State) : State :=
            if c.phase = .armed ∧ ∃ a, c.armed = some a ∧ passed (a + BitVec.ofInt 24 (c.spacing + c.span)) = true then t.closeSpan i else t
          (∀ e a, edge c = some e → taken e a → s.workFollower l i = closes (s.setChannel i { seen with edgeTaken := some e }))
            ∧ ((∀ e a, edge c = some e → ¬taken e a) → s.workFollower l i = closes (s.setChannel i seen)))
        ∧ (∀ (e : Angle) (i : Fin 8),
          let closed := if (s.channel i).phase = .armed then s.closeSpan i else s
          s.arm e i =
            if (s.channel i).state = .off then s
            else closed.setChannel i { closed.channel i with phase := .armed, armed := some e, edgeTaken := none })
        ∧ (∀ i : Fin 8, (s.channel i).edgeTaken = none ∨ (s.channel i).armed = none →
          s.closeSpan i = s.putChannel i { s.channel i with phase := .waiting, armed := none, edgeTaken := none }.judgedMiss)
        ∧ (let c := s.channel 0
          let leave (t : State) : State := followerNumbers.foldl (fun t i =>
            if (t.channel i).state ≠ .off ∧ (t.channel i).phase = .fragment then t.setChannel i { t.channel i with phase := .waiting }
            else t) t
          let miss (t : State) : State := followerNumbers.foldl (fun t i =>
            if (t.channel i).state ≠ .off ∧ (t.channel i).phase = .waiting then t.putChannel i (t.channel i).judgedMiss else t) t
          (c.phase ≠ .opened → s.closeReference = leave (s.setChannel 0 { c with phase := .opened }))
            ∧ (∀ e, c.phase = .opened → c.edgeTaken = some e → s.closeReference = leave (s.putChannel 0 (c.judgedFound e)))
            ∧ (c.phase = .opened → c.edgeTaken = none → s.closeReference = leave (miss (s.putChannel 0 c.judgedMiss))))
        ∧ s.capture l =
          let m := s.map 0
          let w : LineWrite :=
            { slot := l.number / s.store.decimation, revolution := l.revolution, address := 0
              bytes := (List.range s.store.stored).map fun i => byteAt l.pixels (i * s.store.hStep) }
          if m.state ≠ .active ∨ l.number % s.store.decimation ≠ 0 then s
          else if m.write = none then s.startWrite 0 w
          else s.setMap 0 { m with waiting := m.waiting ++ [w] }

/-- R127: a line for an ACTIVE map whose writer is free meets the entry of its logical page. At the end of a line write its bytes are in the
page, every other byte of the store reads as before, and with no line waiting the slot is present with its stamp and nothing else has
changed. R129: a line written into map 0 goes out as an IMAGE_LINE frame to the stream destination, or is counted as a stream skip. R130: an
IMAGE_LINE frame of another node reaches the map bound to its origin, or is dropped and counted. The model's own: an end with no write under way
changes nothing (log 2), a line that finds its map's writer taken waits for it (log 18), and a frame skipped has used its bulk sequence (log 16). -/
def Obligations.LineIsWrittenIntoItsPage : Prop :=
  (∀ (s : State) (i : Fin 4) (l : LineWrite), (s.map i).state = .active →
      let m := s.map i
      let page := l.slot * m.stride / 2048
      let e := m.entry page
      let r := m.slot l.slot
      (e.valid = false →
          s.startWrite i l = (s.setMap i { m with state := .faulted, fault := some ⟨page, l.slot, l.revolution⟩ }).post
            (.mapState i .faulted (some ⟨page, l.slot, l.revolution⟩)))
        ∧ (e.valid = true → e.writeProtect = true → s.startWrite i l = s.setMap i { m with frozen := min (m.frozen + 1) 65535 })
        ∧ (e.valid = true → e.writeProtect = false →
          let t := s.setMap i
            { m.setSlot l.slot { r with writing := true, writeNumber := r.writeNumber + 1 } with
              write := some { l with address := e.page * 2048 + l.slot * m.stride % 2048 } }
          (i ≠ 0 ∨ s.store.streamDest = 0 → s.startWrite i l = t)
            ∧ (i = 0 → s.store.streamDest ≠ 0 → s.startWrite i l = t.stream l)))
    ∧ (∀ (s : State) (l : LineWrite),
      let f : Frame :=
        { kind := .imageLine, restart := false, reverse := 0, origin := s.angle.nodeId, dest := s.store.streamDest, hop := 0
          seq := s.ring.bulkSequence
          payload := u16 l.revolution.toNat ++ u16 l.slot ++ u16 (s.map 0).stride ++ u16 l.bytes.length ++ l.bytes }
      let t : State := { s with ring :=
        { s.ring with localQueue := s.ring.localQueue ++ [f], bulkSequence := s.ring.bulkSequence + 1 } }
      s.store.streamDest ≠ 0 →
        s.stream l =
          if s.ring.localQueue.length < 16 then
            match RingMode.processingOutput s.ring.mode with
            | some o => t.arbitrate o
            | none => t
          else { s with
            ring := { s.ring with bulkSequence := s.ring.bulkSequence + 1 }
            store := { s.store with streamSkips := min (s.store.streamSkips + 1) 65535 } })
    ∧ (∀ (s : State) (i : Fin 4),
      ((s.map i).write = none → exec (.lineWriteEnd i) s = .next s)
        ∧ ∀ w, (s.map i).write = some w → Memory.wf s.store.pages →
          let m := s.map i
          let r := m.slot w.slot
          let pages := Memory.writeBytes s.store.pages w.address w.bytes
          ∃ t, exec (.lineWriteEnd i) s = .next t
            ∧ (∀ a, Memory.read t.store.pages a =
              if w.address ≤ a ∧ a < w.address + w.bytes.length then byteAt w.bytes (a - w.address) else Memory.read s.store.pages a)
            ∧ (m.waiting = [] → t =
              { s with store :=
                { s.store with
                  pages := pages
                  maps := s.store.maps.set i
                    { m.setSlot w.slot { r with present := true, stamp := w.revolution, writing := false } with
                      write := none, written := min (m.written + 1) 65535 } } })
            ∧ Only [.store, .pages, .ring, .ctl, .notices, .angle, .master, .screen] s t)
    ∧ ∀ (s : State) (origin : Nat) (payload : List Byte),
      let slot := fieldAt payload 2 2
      let count := fieldAt payload 6 2
      let l : LineWrite :=
        { slot := slot, revolution := BitVec.ofNat 16 (fieldAt payload 0 2), bytes := payload.drop 8, address := 0 }
      ((∀ i : Fin 4, i ≠ 0 → (s.map i).origin ≠ origin) →
          s.deliverImageLine origin payload =
            { s with store := { s.store with unboundLines := min (s.store.unboundLines + 1) 65535 } })
        ∧ ∀ i : Fin 4, i ≠ 0 → (s.map i).origin = origin → (∀ j : Fin 4, j ≠ 0 → j < i → (s.map j).origin ≠ origin) →
          let m := s.map i
          s.deliverImageLine origin payload =
            if m.state ≠ .active ∨ fieldAt payload 4 2 ≠ m.stride ∨ m.slotCount ≤ slot ∨ m.stride < count
                ∨ count ≠ payload.length - 8 then s.setMap i { m with dropped := min (m.dropped + 1) 65535 }
            else if m.write = none then s.startWrite i l
            else s.setMap i { m with waiting := m.waiting ++ [l] }

/-! ## Layouts -/

/-- 10.1, 10.2: a frame whose fields fit is read back from the bytes it is sent as, and passes the check of R74; the fields of a CYCLE payload are
read back from its bytes. -/
def Obligations.RingFramesAreReadBackAsSent : Prop :=
  (∀ f : Frame, f.reverse < 32 → f.origin < 256 → f.dest < 256 → f.hop < 256 → f.payload.length ≤ 512 →
      decodeFrame (encodeFrame f) = some f ∧ frameBad (encodeFrame f) = false)
    ∧ (∀ c : CycleFields, c.v < 4194304 → c.dAcc < 65536 → decodeCycle (encodeCycle c) = c ∧ (encodeCycle c).length = 76)

/-! ## Invariants -/

/-- The invariants the rules state (`Law`, in Safety.lean) are kept by every step, each by itself: the notice list (R168), IMPRESSION_OFF
(R110), the effective class and head class (R109, R112), the trip lists, the axes (R44, R29, R38, R25), the rooms of the queues, the window
list, the two memories, the page targets (R124) and the ring mode (R72). -/
def Obligations.EveryStepKeepsTheInvariants : Prop :=
  ∀ (l : Law) (s t : State), l.holds s → step s = .next t → l.holds t

/-- R44's sentence: "No axis is COUPLED or CATCHING while its bound drive port is not UP, while the node's effective trip class is STOP_FAST,
or while the node's angle state is NONE or LOST." It holds after a reset and every step keeps it. -/
def Obligations.NoAxisRunsWithoutPortClassAndAngle : Prop :=
  let safe (s : State) : Prop := ∀ i : Fin 16, (s.axis i).state = .coupled ∨ (s.axis i).state = .catching →
    (∃ b, (s.axis i).binding = some b ∧ (s.port b.1).state = .up) ∧ s.trips.effective ≠ .stopFast
      ∧ s.angle.state ≠ .none ∧ s.angle.state ≠ .lost
  safe State.reset ∧ ∀ s t : State, safe s → step s = .next t → safe t

/-- Every invariant holds right after a reset. -/
def Obligations.InvariantsHoldAtReset : Prop :=
  ∀ l : Law, l.holds State.reset

end Statements
end

