-- ==== Sys2Proof/Laws/State.lean ====
section
/-! SUPPORT. One lemma for each field of the state and each named update: what the update leaves, and what it writes. -/

set_option Elab.async false

namespace Sys2Proof.Machine

@[simp] theorem setAxis_now (s : State) (i : Fin 16) (a : Axis) : (s.setAxis i a).now = s.now := rfl
@[simp] theorem setAxis_fresh (s : State) (i : Fin 16) (a : Axis) : (s.setAxis i a).fresh = s.fresh := rfl
@[simp] theorem setAxis_angle (s : State) (i : Fin 16) (a : Axis) : (s.setAxis i a).angle = s.angle := rfl
@[simp] theorem setAxis_master (s : State) (i : Fin 16) (a : Axis) : (s.setAxis i a).master = s.master := rfl
@[simp] theorem setAxis_straySteps (s : State) (i : Fin 16) (a : Axis) : (s.setAxis i a).straySteps = s.straySteps := rfl
@[simp] theorem setAxis_localSteps (s : State) (i : Fin 16) (a : Axis) : (s.setAxis i a).localSteps = s.localSteps := rfl
@[simp] theorem setAxis_ports (s : State) (i : Fin 16) (a : Axis) : (s.setAxis i a).ports = s.ports := rfl
@[simp] theorem setAxis_ring (s : State) (i : Fin 16) (a : Axis) : (s.setAxis i a).ring = s.ring := rfl
@[simp] theorem setAxis_trips (s : State) (i : Fin 16) (a : Axis) : (s.setAxis i a).trips = s.trips := rfl
@[simp] theorem setAxis_camera (s : State) (i : Fin 16) (a : Axis) : (s.setAxis i a).camera = s.camera := rfl
@[simp] theorem setAxis_store (s : State) (i : Fin 16) (a : Axis) : (s.setAxis i a).store = s.store := rfl
@[simp] theorem setAxis_marks (s : State) (i : Fin 16) (a : Axis) : (s.setAxis i a).marks = s.marks := rfl
@[simp] theorem setAxis_screen (s : State) (i : Fin 16) (a : Axis) : (s.setAxis i a).screen = s.screen := rfl
@[simp] theorem setAxis_ctl (s : State) (i : Fin 16) (a : Axis) : (s.setAxis i a).ctl = s.ctl := rfl
@[simp] theorem setAxis_pending (s : State) (i : Fin 16) (a : Axis) : (s.setAxis i a).pending = s.pending := rfl

@[simp] theorem setPort_now (s : State) (i : Fin 4) (p : DrivePort) : (s.setPort i p).now = s.now := rfl
@[simp] theorem setPort_fresh (s : State) (i : Fin 4) (p : DrivePort) : (s.setPort i p).fresh = s.fresh := rfl
@[simp] theorem setPort_angle (s : State) (i : Fin 4) (p : DrivePort) : (s.setPort i p).angle = s.angle := rfl
@[simp] theorem setPort_master (s : State) (i : Fin 4) (p : DrivePort) : (s.setPort i p).master = s.master := rfl
@[simp] theorem setPort_axes (s : State) (i : Fin 4) (p : DrivePort) : (s.setPort i p).axes = s.axes := rfl
@[simp] theorem setPort_straySteps (s : State) (i : Fin 4) (p : DrivePort) : (s.setPort i p).straySteps = s.straySteps := rfl
@[simp] theorem setPort_localSteps (s : State) (i : Fin 4) (p : DrivePort) : (s.setPort i p).localSteps = s.localSteps := rfl
@[simp] theorem setPort_ring (s : State) (i : Fin 4) (p : DrivePort) : (s.setPort i p).ring = s.ring := rfl
@[simp] theorem setPort_trips (s : State) (i : Fin 4) (p : DrivePort) : (s.setPort i p).trips = s.trips := rfl
@[simp] theorem setPort_camera (s : State) (i : Fin 4) (p : DrivePort) : (s.setPort i p).camera = s.camera := rfl
@[simp] theorem setPort_store (s : State) (i : Fin 4) (p : DrivePort) : (s.setPort i p).store = s.store := rfl
@[simp] theorem setPort_marks (s : State) (i : Fin 4) (p : DrivePort) : (s.setPort i p).marks = s.marks := rfl
@[simp] theorem setPort_screen (s : State) (i : Fin 4) (p : DrivePort) : (s.setPort i p).screen = s.screen := rfl
@[simp] theorem setPort_ctl (s : State) (i : Fin 4) (p : DrivePort) : (s.setPort i p).ctl = s.ctl := rfl
@[simp] theorem setPort_pending (s : State) (i : Fin 4) (p : DrivePort) : (s.setPort i p).pending = s.pending := rfl

@[simp] theorem setMap_now (s : State) (i : Fin 4) (m : ImageMap) : (s.setMap i m).now = s.now := rfl
@[simp] theorem setMap_fresh (s : State) (i : Fin 4) (m : ImageMap) : (s.setMap i m).fresh = s.fresh := rfl
@[simp] theorem setMap_angle (s : State) (i : Fin 4) (m : ImageMap) : (s.setMap i m).angle = s.angle := rfl
@[simp] theorem setMap_master (s : State) (i : Fin 4) (m : ImageMap) : (s.setMap i m).master = s.master := rfl
@[simp] theorem setMap_axes (s : State) (i : Fin 4) (m : ImageMap) : (s.setMap i m).axes = s.axes := rfl
@[simp] theorem setMap_straySteps (s : State) (i : Fin 4) (m : ImageMap) : (s.setMap i m).straySteps = s.straySteps := rfl
@[simp] theorem setMap_localSteps (s : State) (i : Fin 4) (m : ImageMap) : (s.setMap i m).localSteps = s.localSteps := rfl
@[simp] theorem setMap_ports (s : State) (i : Fin 4) (m : ImageMap) : (s.setMap i m).ports = s.ports := rfl
@[simp] theorem setMap_ring (s : State) (i : Fin 4) (m : ImageMap) : (s.setMap i m).ring = s.ring := rfl
@[simp] theorem setMap_trips (s : State) (i : Fin 4) (m : ImageMap) : (s.setMap i m).trips = s.trips := rfl
@[simp] theorem setMap_camera (s : State) (i : Fin 4) (m : ImageMap) : (s.setMap i m).camera = s.camera := rfl
@[simp] theorem setMap_marks (s : State) (i : Fin 4) (m : ImageMap) : (s.setMap i m).marks = s.marks := rfl
@[simp] theorem setMap_screen (s : State) (i : Fin 4) (m : ImageMap) : (s.setMap i m).screen = s.screen := rfl
@[simp] theorem setMap_ctl (s : State) (i : Fin 4) (m : ImageMap) : (s.setMap i m).ctl = s.ctl := rfl
@[simp] theorem setMap_pending (s : State) (i : Fin 4) (m : ImageMap) : (s.setMap i m).pending = s.pending := rfl

@[simp] theorem setChannel_now (s : State) (i : Fin 8) (c : Channel) : (s.setChannel i c).now = s.now := rfl
@[simp] theorem setChannel_fresh (s : State) (i : Fin 8) (c : Channel) : (s.setChannel i c).fresh = s.fresh := rfl
@[simp] theorem setChannel_angle (s : State) (i : Fin 8) (c : Channel) : (s.setChannel i c).angle = s.angle := rfl
@[simp] theorem setChannel_master (s : State) (i : Fin 8) (c : Channel) : (s.setChannel i c).master = s.master := rfl
@[simp] theorem setChannel_axes (s : State) (i : Fin 8) (c : Channel) : (s.setChannel i c).axes = s.axes := rfl
@[simp] theorem setChannel_straySteps (s : State) (i : Fin 8) (c : Channel) : (s.setChannel i c).straySteps = s.straySteps := rfl
@[simp] theorem setChannel_localSteps (s : State) (i : Fin 8) (c : Channel) : (s.setChannel i c).localSteps = s.localSteps := rfl
@[simp] theorem setChannel_ports (s : State) (i : Fin 8) (c : Channel) : (s.setChannel i c).ports = s.ports := rfl
@[simp] theorem setChannel_ring (s : State) (i : Fin 8) (c : Channel) : (s.setChannel i c).ring = s.ring := rfl
@[simp] theorem setChannel_trips (s : State) (i : Fin 8) (c : Channel) : (s.setChannel i c).trips = s.trips := rfl
@[simp] theorem setChannel_camera (s : State) (i : Fin 8) (c : Channel) : (s.setChannel i c).camera = s.camera := rfl
@[simp] theorem setChannel_store (s : State) (i : Fin 8) (c : Channel) : (s.setChannel i c).store = s.store := rfl
@[simp] theorem setChannel_screen (s : State) (i : Fin 8) (c : Channel) : (s.setChannel i c).screen = s.screen := rfl
@[simp] theorem setChannel_ctl (s : State) (i : Fin 8) (c : Channel) : (s.setChannel i c).ctl = s.ctl := rfl
@[simp] theorem setChannel_pending (s : State) (i : Fin 8) (c : Channel) : (s.setChannel i c).pending = s.pending := rfl

@[simp] theorem setSource_now (s : State) (i : Fin 24) (r : TripSource) : (s.setSource i r).now = s.now := rfl
@[simp] theorem setSource_fresh (s : State) (i : Fin 24) (r : TripSource) : (s.setSource i r).fresh = s.fresh := rfl
@[simp] theorem setSource_angle (s : State) (i : Fin 24) (r : TripSource) : (s.setSource i r).angle = s.angle := rfl
@[simp] theorem setSource_master (s : State) (i : Fin 24) (r : TripSource) : (s.setSource i r).master = s.master := rfl
@[simp] theorem setSource_axes (s : State) (i : Fin 24) (r : TripSource) : (s.setSource i r).axes = s.axes := rfl
@[simp] theorem setSource_straySteps (s : State) (i : Fin 24) (r : TripSource) : (s.setSource i r).straySteps = s.straySteps := rfl
@[simp] theorem setSource_localSteps (s : State) (i : Fin 24) (r : TripSource) : (s.setSource i r).localSteps = s.localSteps := rfl
@[simp] theorem setSource_ports (s : State) (i : Fin 24) (r : TripSource) : (s.setSource i r).ports = s.ports := rfl
@[simp] theorem setSource_ring (s : State) (i : Fin 24) (r : TripSource) : (s.setSource i r).ring = s.ring := rfl
@[simp] theorem setSource_camera (s : State) (i : Fin 24) (r : TripSource) : (s.setSource i r).camera = s.camera := rfl
@[simp] theorem setSource_store (s : State) (i : Fin 24) (r : TripSource) : (s.setSource i r).store = s.store := rfl
@[simp] theorem setSource_marks (s : State) (i : Fin 24) (r : TripSource) : (s.setSource i r).marks = s.marks := rfl
@[simp] theorem setSource_screen (s : State) (i : Fin 24) (r : TripSource) : (s.setSource i r).screen = s.screen := rfl
@[simp] theorem setSource_ctl (s : State) (i : Fin 24) (r : TripSource) : (s.setSource i r).ctl = s.ctl := rfl
@[simp] theorem setSource_pending (s : State) (i : Fin 24) (r : TripSource) : (s.setSource i r).pending = s.pending := rfl

@[simp] theorem setFibre_now (s : State) (o : FibreSide) (p : FibrePort) : (s.setFibre o p).now = s.now := by cases o <;> rfl
@[simp] theorem setFibre_fresh (s : State) (o : FibreSide) (p : FibrePort) : (s.setFibre o p).fresh = s.fresh := by cases o <;> rfl
@[simp] theorem setFibre_angle (s : State) (o : FibreSide) (p : FibrePort) : (s.setFibre o p).angle = s.angle := by cases o <;> rfl
@[simp] theorem setFibre_master (s : State) (o : FibreSide) (p : FibrePort) : (s.setFibre o p).master = s.master := by cases o <;> rfl
@[simp] theorem setFibre_axes (s : State) (o : FibreSide) (p : FibrePort) : (s.setFibre o p).axes = s.axes := by cases o <;> rfl
@[simp] theorem setFibre_straySteps (s : State) (o : FibreSide) (p : FibrePort) : (s.setFibre o p).straySteps = s.straySteps := by cases o <;> rfl
@[simp] theorem setFibre_localSteps (s : State) (o : FibreSide) (p : FibrePort) : (s.setFibre o p).localSteps = s.localSteps := by cases o <;> rfl
@[simp] theorem setFibre_ports (s : State) (o : FibreSide) (p : FibrePort) : (s.setFibre o p).ports = s.ports := by cases o <;> rfl
@[simp] theorem setFibre_trips (s : State) (o : FibreSide) (p : FibrePort) : (s.setFibre o p).trips = s.trips := by cases o <;> rfl
@[simp] theorem setFibre_camera (s : State) (o : FibreSide) (p : FibrePort) : (s.setFibre o p).camera = s.camera := by cases o <;> rfl
@[simp] theorem setFibre_store (s : State) (o : FibreSide) (p : FibrePort) : (s.setFibre o p).store = s.store := by cases o <;> rfl
@[simp] theorem setFibre_marks (s : State) (o : FibreSide) (p : FibrePort) : (s.setFibre o p).marks = s.marks := by cases o <;> rfl
@[simp] theorem setFibre_screen (s : State) (o : FibreSide) (p : FibrePort) : (s.setFibre o p).screen = s.screen := by cases o <;> rfl
@[simp] theorem setFibre_ctl (s : State) (o : FibreSide) (p : FibrePort) : (s.setFibre o p).ctl = s.ctl := by cases o <;> rfl
@[simp] theorem setFibre_pending (s : State) (o : FibreSide) (p : FibrePort) : (s.setFibre o p).pending = s.pending := by cases o <;> rfl

@[simp] theorem post_now (s : State) (n : Notice) : (s.post n).now = s.now := rfl
@[simp] theorem post_fresh (s : State) (n : Notice) : (s.post n).fresh = s.fresh := rfl
@[simp] theorem post_angle (s : State) (n : Notice) : (s.post n).angle = s.angle := rfl
@[simp] theorem post_master (s : State) (n : Notice) : (s.post n).master = s.master := rfl
@[simp] theorem post_axes (s : State) (n : Notice) : (s.post n).axes = s.axes := rfl
@[simp] theorem post_straySteps (s : State) (n : Notice) : (s.post n).straySteps = s.straySteps := rfl
@[simp] theorem post_localSteps (s : State) (n : Notice) : (s.post n).localSteps = s.localSteps := rfl
@[simp] theorem post_ports (s : State) (n : Notice) : (s.post n).ports = s.ports := rfl
@[simp] theorem post_ring (s : State) (n : Notice) : (s.post n).ring = s.ring := rfl
@[simp] theorem post_trips (s : State) (n : Notice) : (s.post n).trips = s.trips := rfl
@[simp] theorem post_camera (s : State) (n : Notice) : (s.post n).camera = s.camera := rfl
@[simp] theorem post_store (s : State) (n : Notice) : (s.post n).store = s.store := rfl
@[simp] theorem post_marks (s : State) (n : Notice) : (s.post n).marks = s.marks := rfl
@[simp] theorem post_screen (s : State) (n : Notice) : (s.post n).screen = s.screen := rfl
@[simp] theorem post_pending (s : State) (n : Notice) : (s.post n).pending = s.pending := rfl

@[simp] theorem tick_fresh (s : State) (t : Nat) : (s.tick t).fresh = s.fresh := rfl
@[simp] theorem tick_angle (s : State) (t : Nat) : (s.tick t).angle = s.angle := rfl
@[simp] theorem tick_master (s : State) (t : Nat) : (s.tick t).master = s.master := rfl
@[simp] theorem tick_axes (s : State) (t : Nat) : (s.tick t).axes = s.axes := rfl
@[simp] theorem tick_straySteps (s : State) (t : Nat) : (s.tick t).straySteps = s.straySteps := rfl
@[simp] theorem tick_localSteps (s : State) (t : Nat) : (s.tick t).localSteps = s.localSteps := rfl
@[simp] theorem tick_ports (s : State) (t : Nat) : (s.tick t).ports = s.ports := rfl
@[simp] theorem tick_ring (s : State) (t : Nat) : (s.tick t).ring = s.ring := rfl
@[simp] theorem tick_trips (s : State) (t : Nat) : (s.tick t).trips = s.trips := rfl
@[simp] theorem tick_camera (s : State) (t : Nat) : (s.tick t).camera = s.camera := rfl
@[simp] theorem tick_store (s : State) (t : Nat) : (s.tick t).store = s.store := rfl
@[simp] theorem tick_marks (s : State) (t : Nat) : (s.tick t).marks = s.marks := rfl
@[simp] theorem tick_screen (s : State) (t : Nat) : (s.tick t).screen = s.screen := rfl
@[simp] theorem tick_ctl (s : State) (t : Nat) : (s.tick t).ctl = s.ctl := rfl
@[simp] theorem tick_pending (s : State) (t : Nat) : (s.tick t).pending = s.pending := rfl

/-! ## Reading a file of records after a write of one of them -/

@[simp] theorem setAxis_axis (s : State) (i : Fin 16) (a : Axis) : (s.setAxis i a).axis i = a := by
  simp [State.setAxis, State.axis]

theorem setAxis_axis_ne (s : State) (i j : Fin 16) (a : Axis) (h : i ≠ j) : (s.setAxis i a).axis j = s.axis j := by
  simp only [State.setAxis, State.axis, Fin.getElem_fin]
  exact Vector.getElem_set_ne _ _ (fun e => h (Fin.ext e))

@[simp] theorem setPort_port (s : State) (i : Fin 4) (p : DrivePort) : (s.setPort i p).port i = p := by
  simp [State.setPort, State.port]

theorem setPort_port_ne (s : State) (i j : Fin 4) (p : DrivePort) (h : i ≠ j) : (s.setPort i p).port j = s.port j := by
  simp only [State.setPort, State.port, Fin.getElem_fin]
  exact Vector.getElem_set_ne _ _ (fun e => h (Fin.ext e))

@[simp] theorem setMap_map (s : State) (i : Fin 4) (m : ImageMap) : (s.setMap i m).map i = m := by
  simp [State.setMap, State.map]

theorem setMap_map_ne (s : State) (i j : Fin 4) (m : ImageMap) (h : i ≠ j) : (s.setMap i m).map j = s.map j := by
  simp only [State.setMap, State.map, Fin.getElem_fin]
  exact Vector.getElem_set_ne _ _ (fun e => h (Fin.ext e))

@[simp] theorem setChannel_channel (s : State) (i : Fin 8) (c : Channel) : (s.setChannel i c).channel i = c := by
  simp [State.setChannel, State.channel]

theorem setChannel_channel_ne (s : State) (i j : Fin 8) (c : Channel) (h : i ≠ j) :
    (s.setChannel i c).channel j = s.channel j := by
  simp only [State.setChannel, State.channel, Fin.getElem_fin]
  exact Vector.getElem_set_ne _ _ (fun e => h (Fin.ext e))

@[simp] theorem setSource_source (s : State) (i : Fin 24) (r : TripSource) : (s.setSource i r).source i = r := by
  simp [State.setSource, State.source]

theorem setSource_source_ne (s : State) (i j : Fin 24) (r : TripSource) (h : i ≠ j) :
    (s.setSource i r).source j = s.source j := by
  simp only [State.setSource, State.source, Fin.getElem_fin]
  exact Vector.getElem_set_ne _ _ (fun e => h (Fin.ext e))

@[simp] theorem setFibre_fibre (s : State) (o : FibreSide) (p : FibrePort) : (s.setFibre o p).fibre o = p := by
  cases o <;> rfl

theorem setFibre_fibre_ne (s : State) (o q : FibreSide) (p : FibrePort) (h : o ≠ q) : (s.setFibre o p).fibre q = s.fibre q := by
  cases o <;> cases q <;> first | rfl | exact absurd rfl h

/-- Reading any axis after a write of one. -/
theorem setAxis_axis_eq (s : State) (i j : Fin 16) (a : Axis) : (s.setAxis i a).axis j = if i = j then a else s.axis j := by
  by_cases h : i = j
  · subst h; simp
  · rw [if_neg h, setAxis_axis_ne _ _ _ _ h]

/-- Reading any port after a write of one. -/
theorem setPort_port_eq (s : State) (i j : Fin 4) (p : DrivePort) : (s.setPort i p).port j = if i = j then p else s.port j := by
  by_cases h : i = j
  · subst h; simp
  · rw [if_neg h, setPort_port_ne _ _ _ _ h]

/-- Reading any map after a write of one. -/
theorem setMap_map_eq (s : State) (i j : Fin 4) (m : ImageMap) : (s.setMap i m).map j = if i = j then m else s.map j := by
  by_cases h : i = j
  · subst h; simp
  · rw [if_neg h, setMap_map_ne _ _ _ _ h]

end Sys2Proof.Machine
end

