-- ==== Sys2Proof/Laws/Keeps.lean ====
section
/-! SUPPORT. `Keeps ex s t`: every invariant of Safety.lean that holds of `s` holds of `t`, but for those in `ex`. Its rules of
composition, those of `Only`, and both for the operations of Machine/Ops.lean. -/

set_option Elab.async false

namespace Sys2Proof.Machine

/-- Every invariant but those in `ex` passes from `s` to `t`. -/
def Keeps (ex : List Law) (s t : State) : Prop := ∀ l : Law, l ∉ ex → l.holds s → l.holds t

theorem Keeps.refl (ex : List Law) (s : State) : Keeps ex s s := fun _ _ h => h

theorem Keeps.trans {ex : List Law} {s t u : State} (h : Keeps ex s t) (k : Keeps ex t u) : Keeps ex s u :=
  fun l hl hs => k l hl (h l hl hs)

/-- More invariants may be left out. -/
theorem Keeps.up {ex fx : List Law} {s t : State} (h : Keeps ex s t) (hm : ∀ x ∈ ex, x ∈ fx := by decide) : Keeps fx s t :=
  fun l hl => h l fun hx => hl (hm l hx)

/-- Composition told from its last operation, which fixes the state between. -/
theorem Keeps.after {ex fx : List Law} {s t u : State} (k : Keeps ex t u) (h : Keeps fx s t)
    (hm : ∀ x ∈ ex, x ∈ fx := by decide) : Keeps fx s u := h.trans (k.up hm)

/-- An invariant left out is put back by a proof of its own. -/
theorem Keeps.put {ex : List Law} {s t : State} (l : Law) (h : Keeps (l :: ex) s t) (k : l.holds s → l.holds t) : Keeps ex s t :=
  fun m hm => by
    by_cases e : m = l
    · subst e; exact k
    · exact h m fun hx => (List.mem_cons.mp hx).elim e hm

theorem Keeps.foldl {α : Type} {ex : List Law} {f : State → α → State} (h : ∀ s x, Keeps ex s (f s x)) (l : List α) (s : State) :
    Keeps ex s (l.foldl f s) := by
  induction l generalizing s with
  | nil => exact Keeps.refl ex s
  | cons x l ih => exact (h s x).trans (ih (f s x))

theorem Keeps.ite {ex : List Law} {s a b : State} {c : Prop} [Decidable c] (ha : c → Keeps ex s a) (hb : ¬ c → Keeps ex s b) :
    Keeps ex s (if c then a else b) := by
  by_cases h : c
  · rw [if_pos h]; exact ha h
  · rw [if_neg h]; exact hb h

/-! ## Only -/

theorem Part.same_refl (p : Part) (s : State) : p.same s s := by
  cases p <;> simp [Part.same]

theorem Part.same_trans {p : Part} {s t u : State} (h : p.same s t) (k : p.same t u) : p.same s u := by
  cases p <;> simp_all [Part.same]

theorem Only.refl (l : List Part) (s : State) : Only l s s := fun p _ => p.same_refl s

theorem Only.trans {l : List Part} {s t u : State} (h : Only l s t) (k : Only l t u) : Only l s u :=
  fun p hp => Part.same_trans (h p hp) (k p hp)

/-- More parts may be listed than changed. -/
theorem Only.up {l m : List Part} {s t : State} (h : Only l s t) (hm : ∀ x ∈ l, x ∈ m := by decide) : Only m s t :=
  fun p hp => h p fun hl => hp (hm p hl)

/-- Composition told from its last operation, which fixes the state between. -/
theorem Only.after {l m : List Part} {s t u : State} (k : Only m t u) (h : Only l s t) (hm : ∀ x ∈ m, x ∈ l := by decide) :
    Only l s u := h.trans (k.up hm)

theorem Only.foldl {α : Type} {l : List Part} {f : State → α → State} (h : ∀ s x, Only l s (f s x)) (xs : List α) (s : State) :
    Only l s (xs.foldl f s) := by
  induction xs generalizing s with
  | nil => exact Only.refl l s
  | cons x xs ih => exact (h s x).trans (ih (f s x))

theorem Only.ite {l : List Part} {s a b : State} {c : Prop} [Decidable c] (ha : c → Only l s a) (hb : ¬ c → Only l s b) :
    Only l s (if c then a else b) := by
  by_cases h : c
  · rw [if_pos h]; exact ha h
  · rw [if_neg h]; exact hb h

/-! ## Notices (R168) -/

theorem placeNotice_length (n : Notice) (l : List Notice) (h : l.length ≤ 32) : (placeNotice n l).1.length ≤ 32 := by
  unfold placeNotice
  split
  · simpa using h
  · split
    · next h2 => simp only [List.length_append, List.length_singleton]; exact h2
    · exact h

/-- An update in place leaves the keys as they are. -/
theorem filterMap_key_replace (n : Notice) (l : List Notice) :
    (l.map fun m => if m.key = n.key then n else m).filterMap Notice.key = l.filterMap Notice.key := by
  rw [List.filterMap_map]
  congr 1
  funext m
  by_cases h : m.key = n.key
  · simp [h]
  · simp [h]

theorem placeNotice_keys (n : Notice) (l : List Notice) (h : (l.filterMap Notice.key).Nodup) :
    ((placeNotice n l).1.filterMap Notice.key).Nodup := by
  unfold placeNotice
  split
  · rw [filterMap_key_replace]; exact h
  · next hc =>
    split
    · rw [List.filterMap_append]
      cases hk : n.key with
      | none => simpa [hk] using h
      | some k =>
        have hnot : k ∉ l.filterMap Notice.key := by
          intro hm
          obtain ⟨m, hml, hmk⟩ := List.mem_filterMap.mp hm
          apply hc
          simp only [hk, Option.isSome_some, Bool.true_and, List.any_eq_true, decide_eq_true_eq]
          exact ⟨m, hml, hmk⟩
        have hd : List.filterMap Notice.key [n] = [k] := by simp [hk]
        rw [hd]
        exact List.nodup_append.mpr ⟨h, by simp, fun a ha b hb hab => hnot (by simp at hb; rw [← hb, ← hab]; exact ha)⟩
    · exact h

theorem post_keeps (s : State) (n : Notice) : Keeps [] s (s.post n) := by
  intro l _
  cases l
  case notices => exact fun h => ⟨placeNotice_length n _ h.1, placeNotice_keys n _ h.2⟩
  all_goals exact fun h => h

theorem post_only (s : State) (n : Notice) : Only [.ctl, .notices] s (s.post n) := by
  intro p hp
  cases p <;> first | exact absurd (by decide) hp | simp [Part.same, State.post, State.axis, State.port]

/-! ## Records of a file -/

theorem tick_keeps (s : State) (t : Nat) : Keeps [] s (s.tick t) := by
  intro l _
  cases l <;> exact fun h => h

theorem tick_only (s : State) (t : Nat) : Only [.now] s (s.tick t) := by
  intro p hp
  cases p <;> first | exact absurd (by decide) hp | simp [Part.same, State.tick, State.axis, State.port]

/-- A write of an axis that is not newly engaged, keeps its binding and stays in range keeps every invariant. -/
theorem setAxis_keeps (s : State) (i : Fin 16) (a : Axis)
    (hs : a.state = .catching ∨ a.state = .coupled → (s.axis i).state = .catching ∨ (s.axis i).state = .coupled)
    (hf : a.state ≠ .free → (s.axis i).state ≠ .free) (hb : a.binding = (s.axis i).binding)
    (hr : (s.axis i).inRange → a.inRange) : Keeps [] s (s.setAxis i a) := by
  intro l _
  cases l
  case safe =>
    intro h j hj
    rw [setAxis_axis_eq] at hj ⊢
    by_cases hij : i = j
    · subst hij
      simp only [if_true] at hj ⊢
      rw [hb]
      exact h i (hs hj)
    · simp only [if_neg hij] at hj ⊢
      exact h j hj
  case axes =>
    intro h j
    rw [setAxis_axis_eq]
    split
    · next e => subst e; exact hr (h i)
    · exact h j
  case bindings =>
    intro h
    refine ⟨fun j k hjk => ?_, fun j => ?_⟩
    · have hbj : ∀ j, ((s.setAxis i a).axis j).binding = (s.axis j).binding := by
        intro j
        rw [setAxis_axis_eq]
        split
        · next e => subst e; exact hb
        · rfl
      rw [hbj, hbj]
      exact h.1 j k hjk
    · rw [setAxis_axis_eq]
      split
      · next e => subst e; intro hj; rw [hb]; exact h.2 i (hf hj)
      · exact h.2 j
  all_goals exact fun h => h

theorem setAxis_only (s : State) (i : Fin 16) (a : Axis) (hb : a.binding = (s.axis i).binding) :
    Only [.axes] s (s.setAxis i a) := by
  intro p hp
  cases p <;> first | exact absurd (by decide) hp | skip
  case bindings =>
    intro j
    rw [setAxis_axis_eq]
    split
    · next e => subst e; exact hb.symm
    · rfl
  all_goals simp [Part.same, State.port]

/-- A write of a port that does not take it out of UP, and keeps its queue's room, keeps every invariant. -/
theorem setPort_keeps (s : State) (i : Fin 4) (r : DrivePort) (hs : (s.port i).state = .up → r.state = .up)
    (hq : (s.port i).queue.length ≤ 2 → r.queue.length ≤ 2) : Keeps [] s (s.setPort i r) := by
  intro l _
  cases l
  case safe =>
    intro h j hj
    obtain ⟨⟨b, hb, hu⟩, rest⟩ := h j hj
    refine ⟨⟨b, hb, ?_⟩, rest⟩
    rw [setPort_port_eq]
    split
    · next e => subst e; exact hs hu
    · exact hu
  case receive =>
    intro h j
    rw [setPort_port_eq]
    split
    · next e => subst e; exact hq (h i)
    · exact h j
  all_goals exact fun h => h

theorem setPort_only (s : State) (i : Fin 4) (r : DrivePort) : Only [.ports, .portStates] s (s.setPort i r) := by
  intro p hp
  cases p <;> first | exact absurd (by decide) hp | simp [Part.same, State.axis]

theorem setPort_only_same (s : State) (i : Fin 4) (r : DrivePort) (h : r.state = (s.port i).state) :
    Only [.ports] s (s.setPort i r) := by
  intro p hp
  cases p <;> first | exact absurd (by decide) hp | skip
  case portStates =>
    intro j
    rw [setPort_port_eq]
    split
    · next e => subst e; exact h.symm
    · rfl
  all_goals simp [Part.same, State.axis]

theorem setSource_keeps (s : State) (i : Fin 24) (r : TripSource) : Keeps [] s (s.setSource i r) := by
  intro l _
  cases l <;> exact fun h => h

theorem setSource_only (s : State) (i : Fin 24) (r : TripSource) : Only [.trips, .sources] s (s.setSource i r) := by
  intro p hp
  cases p <;> first | exact absurd (by decide) hp | simp [Part.same, State.axis, State.port]

theorem setChannel_keeps (s : State) (i : Fin 8) (c : Channel) : Keeps [] s (s.setChannel i c) := by
  intro l _
  cases l <;> exact fun h => h

theorem setChannel_only (s : State) (i : Fin 8) (c : Channel) : Only [.marks] s (s.setChannel i c) := by
  intro p hp
  cases p <;> first | exact absurd (by decide) hp | simp [Part.same, State.axis, State.port]

/-- A write of a map that keeps its entries keeps every invariant. -/
theorem setMap_keeps (s : State) (i : Fin 4) (m : ImageMap) (h : m.entries = (s.map i).entries) :
    Keeps [] s (s.setMap i m) := by
  intro l _
  cases l
  case pages =>
    intro hp
    have he : ∀ j, ((s.setMap i m).map j).entries = (s.map j).entries := by
      intro j
      rw [setMap_map_eq]
      split
      · next e => subst e; exact h
      · rfl
    show PagesDistinct _
    have hp : PagesDistinct s := hp
    unfold PagesDistinct at hp ⊢
    simpa only [he] using hp
  all_goals exact fun h => h

theorem setMap_only (s : State) (i : Fin 4) (m : ImageMap) : Only [.store] s (s.setMap i m) := by
  intro p hp
  cases p <;> first | exact absurd (by decide) hp | simp [Part.same, State.axis, State.port, State.setMap]

/-- A write of a fibre port that keeps its usable flag and the room of its queues keeps every invariant. -/
theorem setFibre_keeps (s : State) (o : FibreSide) (p : FibrePort) (hu : p.usable = (s.fibre o).usable)
    (hq : (s.fibre o).urgent.length ≤ 8 → p.urgent.length ≤ 8)
    (hf : (s.fibre o).forwarded.length ≤ 16 → p.forwarded.length ≤ 16) : Keeps [] s (s.setFibre o p) := by
  intro l _
  cases l
  case ring =>
    intro h
    refine ⟨by cases o <;> exact h.1, fun q => ?_⟩
    by_cases e : o = q
    · subst e; rw [setFibre_fibre]; exact ⟨hq (h.2 o).1, hf (h.2 o).2⟩
    · rw [setFibre_fibre_ne _ _ _ _ e]; exact h.2 q
  case mode =>
    intro h
    show ModeOk _
    have h : ModeOk s := h
    unfold ModeOk at h ⊢
    cases o
    · show s.ring.mode = modeOf p.usable s.ring.b.usable
      rw [hu]; exact h
    · show s.ring.mode = modeOf s.ring.a.usable p.usable
      rw [hu]; exact h
  all_goals cases o <;> exact fun h => h

theorem setFibre_only (s : State) (o : FibreSide) (p : FibrePort) (hu : p.usable = (s.fibre o).usable)
    (hs : p.state = (s.fibre o).state) : Only [.ring] s (s.setFibre o p) := by
  intro q hq
  cases q <;> first | exact absurd (by decide) hq | skip
  case links =>
    cases o
    · exact ⟨rfl, hs.symm, rfl, hu.symm, rfl⟩
    · exact ⟨rfl, rfl, hs.symm, rfl, hu.symm⟩
  all_goals simp [Part.same, State.axis, State.port]

end Sys2Proof.Machine
end

