-- ==== Sys2Proof/Laws/Memory.lean ====
section
/-! SUPPORT. Sparse tables: every operation keeps the canonical form, and reading after writing; the byte memories. -/

set_option Elab.async false

namespace Sys2Proof.Machine

theorem Sparse.mem_set {α : Type} [DecidableEq α] (d : α) (l : List (Nat × α)) (a : Nat) (v : α) (x : Nat × α)
    (h : x ∈ Sparse.set d l a v) : x ∈ l ∨ (x = (a, v) ∧ v ≠ d) := by
  induction l with
  | nil =>
    unfold Sparse.set at h
    split at h
    · cases h
    · next hv => exact Or.inr ⟨by simpa using h, hv⟩
  | cons y l ih =>
    obtain ⟨k, w⟩ := y
    unfold Sparse.set at h
    split at h
    · split at h
      · exact Or.inl h
      · next hv =>
        rcases List.mem_cons.mp h with h | h
        · exact Or.inr ⟨h, hv⟩
        · exact Or.inl h
    · split at h
      · split at h
        · exact Or.inl (List.mem_cons_of_mem _ h)
        · next hv =>
          rcases List.mem_cons.mp h with h | h
          · exact Or.inr ⟨h, hv⟩
          · exact Or.inl (List.mem_cons_of_mem _ h)
      · rcases List.mem_cons.mp h with h | h
        · exact Or.inl (by rw [h]; exact List.mem_cons_self ..)
        · rcases ih h with h | h
          · exact Or.inl (List.mem_cons_of_mem _ h)
          · exact Or.inr h

theorem Sparse.set_wf {α : Type} [DecidableEq α] (d : α) (l : List (Nat × α)) (a : Nat) (v : α) (h : Sparse.wf d l) :
    Sparse.wf d (Sparse.set d l a v) := by
  refine ⟨?_, fun x hx => ?_⟩
  · induction l with
    | nil =>
      unfold Sparse.set
      split <;> simp
    | cons y l ih =>
      obtain ⟨k, w⟩ := y
      obtain ⟨hp, hd⟩ := h
      obtain ⟨hk, hl⟩ := List.pairwise_cons.mp hp
      have ihl := ih ⟨hl, fun x hx => hd x (List.mem_cons_of_mem _ hx)⟩
      unfold Sparse.set
      split
      · next hlt =>
        split
        · exact hp
        · refine List.pairwise_cons.mpr ⟨fun x hx => ?_, hp⟩
          rcases List.mem_cons.mp hx with e | e
          · rw [e]; exact hlt
          · exact Nat.lt_trans hlt (hk x e)
      · next hlt =>
        split
        · next heq =>
          split
          · exact hl
          · refine List.pairwise_cons.mpr ⟨fun x hx => ?_, hl⟩
            rw [heq]; exact hk x hx
        · next hne =>
          refine List.pairwise_cons.mpr ⟨fun x hx => ?_, ihl⟩
          rcases Sparse.mem_set d l a v x hx with e | e
          · exact hk x e
          · rw [e.1]; show k < a; omega
  · rcases Sparse.mem_set d l a v x hx with e | e
    · exact h.2 x e
    · rw [e.1]; exact e.2

theorem Sparse.get_lt {α : Type} (d : α) (l : List (Nat × α)) (a : Nat) (h : ∀ x ∈ l, a < x.1) : Sparse.get d l a = d := by
  induction l with
  | nil => rfl
  | cons y l ih =>
    obtain ⟨k, w⟩ := y
    have := h (k, w) (List.mem_cons_self ..)
    unfold Sparse.get
    rw [if_neg (by simp at this; omega)]
    exact ih fun x hx => h x (List.mem_cons_of_mem _ hx)

theorem Sparse.get_not_mem {α : Type} (d : α) (l : List (Nat × α)) (a : Nat) (h : a ∉ l.map (·.1)) : Sparse.get d l a = d := by
  induction l with
  | nil => rfl
  | cons x l ih =>
    simp only [List.map_cons, List.mem_cons, not_or] at h
    exact (if_neg h.1).trans (ih h.2)

/-- Dropping the entries that equal the default changes no value. -/
theorem Sparse.get_filter {α : Type} [DecidableEq α] (d : α) (l : List (Nat × α)) (a : Nat) (hn : (l.map (·.1)).Nodup) :
    Sparse.get d (l.filter fun x => decide (x.2 ≠ d)) a = Sparse.get d l a := by
  induction l with
  | nil => rfl
  | cons x l ih =>
    simp only [List.map_cons, List.nodup_cons] at hn
    by_cases hx : x.2 = d
    · rw [List.filter_cons_of_neg (by simp [hx]), ih hn.2]
      show _ = if a = x.1 then x.2 else Sparse.get d l a
      split
      · next ha => rw [ha, Sparse.get_not_mem d l x.1 hn.1, hx]
      · rfl
    · rw [List.filter_cons_of_pos (by simp [hx])]
      show (if a = x.1 then x.2 else _) = if a = x.1 then x.2 else Sparse.get d l a
      rw [ih hn.2]

/-- A change of each value by its key is read as the change of the value read. -/
theorem Sparse.get_map {α : Type} (d : α) (g : Nat → α → α) {f : Nat × α → Nat × α} (hf : ∀ x, f x = (x.1, g x.1 x.2))
    (l : List (Nat × α)) (a : Nat) (hd : g a d = d) : Sparse.get d (l.map f) a = g a (Sparse.get d l a) := by
  induction l with
  | nil => exact hd.symm
  | cons x l ih =>
    rw [List.map_cons, hf]
    show (if a = x.1 then g x.1 x.2 else Sparse.get d (l.map f) a) = g a (if a = x.1 then x.2 else Sparse.get d l a)
    rw [ih]
    split
    · next ha => rw [ha]
    · rfl

/-- Reading after writing. -/
theorem Sparse.get_set {α : Type} [DecidableEq α] (d : α) (l : List (Nat × α)) (a b : Nat) (v : α)
    (h : l.Pairwise fun x y => x.1 < y.1) : Sparse.get d (Sparse.set d l a v) b = if b = a then v else Sparse.get d l b := by
  induction l with
  | nil =>
    unfold Sparse.set
    split
    · next hv => simp [Sparse.get, hv]
    · simp [Sparse.get]
  | cons y l ih =>
    obtain ⟨k, w⟩ := y
    obtain ⟨hk, hl⟩ := List.pairwise_cons.mp h
    have ih := ih hl
    unfold Sparse.set
    split
    · next hlt =>
      have hn : Sparse.get d ((k, w) :: l) a = d := by
        apply Sparse.get_lt
        intro x hx
        rcases List.mem_cons.mp hx with e | e
        · rw [e]; exact hlt
        · exact Nat.lt_trans hlt (hk x e)
      split
      · next hv =>
        by_cases e : b = a
        · subst e; rw [if_pos rfl, hn, hv]
        · rw [if_neg e]
      · conv_lhs => unfold Sparse.get
    · next hlt =>
      split
      · next heq =>
        subst heq
        split
        · next hv =>
          by_cases e : b = a
          · subst e
            rw [if_pos rfl, Sparse.get_lt d l b hk, hv]
          · rw [if_neg e]; conv_rhs => unfold Sparse.get
            rw [if_neg e]
        · conv_lhs => unfold Sparse.get
          by_cases e : b = a
          · rw [if_pos e, if_pos e]
          · rw [if_neg e, if_neg e]; conv_rhs => unfold Sparse.get
            rw [if_neg e]
      · next hne =>
        conv_lhs => unfold Sparse.get
        conv_rhs => unfold Sparse.get
        by_cases e : b = k
        · rw [if_pos e, if_neg (by omega), if_pos e]
        · rw [if_neg e, if_neg e, ih]

theorem Memory.write_wf (m : List Host.Cell) (a : Nat) (b : Byte) (h : Memory.wf m) : Memory.wf (Memory.write m a b) :=
  Sparse.set_wf _ m a b h

theorem Memory.writeBytes_wf (m : List Host.Cell) (a : Nat) (bs : List Byte) (h : Memory.wf m) :
    Memory.wf (Memory.writeBytes m a bs) := by
  induction bs generalizing m a with
  | nil => exact h
  | cons b bs ih => exact ih _ _ (Memory.write_wf m a b h)

theorem Memory.read_write (m : List Host.Cell) (a b : Nat) (v : Byte) (h : Memory.wf m) :
    Memory.read (Memory.write m a v) b = if b = a then v else Memory.read m b :=
  Sparse.get_set _ m a b v h.1

/-- Reading after writing a run of bytes. -/
theorem Memory.read_writeBytes (m : List Host.Cell) (a b : Nat) (bs : List Byte) (h : Memory.wf m) :
    Memory.read (Memory.writeBytes m a bs) b = if a ≤ b ∧ b < a + bs.length then byteAt bs (b - a) else Memory.read m b := by
  induction bs generalizing m a with
  | nil => exact (if_neg (by intro h; simp at h; omega)).symm
  | cons x bs ih =>
    show Memory.read (Memory.writeBytes (Memory.write m a x) (a + 1) bs) b = _
    rw [ih _ _ (Memory.write_wf m a x h), Memory.read_write m a b x h]
    by_cases e : b = a
    · subst e
      rw [if_neg (by omega), if_pos rfl, if_pos (by simp)]
      simp [byteAt]
    · by_cases hin : a + 1 ≤ b ∧ b < a + 1 + bs.length
      · rw [if_pos hin, if_pos (by simp; omega)]
        obtain ⟨k, hk⟩ : ∃ k, b - a = k + 1 := ⟨b - a - 1, by omega⟩
        have : b - (a + 1) = k := by omega
        rw [hk, this]
        simp [byteAt]
      · rw [if_neg hin, if_neg e, if_neg (by simp; omega)]

/-- The memory an interrupted write leaves is in its canonical form. -/
theorem tearWrite_wf (nonce : Nat) (pages : List Host.Cell) (w : LineWrite) (h : Memory.wf pages) :
    Memory.wf (tearWrite nonce pages w) := by
  unfold tearWrite
  generalize List.range w.bytes.length = l
  induction l generalizing pages with
  | nil => exact h
  | cons k l ih =>
    apply ih
    dsimp only
    split
    · exact Memory.write_wf _ _ _ h
    · exact h

theorem keptPages_wf (s : State) (h : Memory.wf s.store.pages) : Memory.wf s.keptPages := by
  unfold State.keptPages
  generalize portNumbers.filterMap (fun i => (s.map i).write) = l
  generalize s.store.pages = m at h
  induction l generalizing m with
  | nil => exact h
  | cons w l ih => exact ih _ (tearWrite_wf _ _ _ h)

end Sys2Proof.Machine
end

