-- ==== Sys2Proof/Laws/Screen.lean ====
section
/-! SUPPORT. Updates of whole records, and the screen controller's own work (Machine/Screen.lean). -/

set_option Elab.async false

namespace Sys2Proof.Machine

/-! ## Updates of one record -/

theorem screen_only (s : State) (x : Screen) : Only [.screen] s { s with screen := x } := by
  intro p hp
  cases p <;> first | exact absurd (by decide) hp | simp [Part.same, State.axis, State.port]

theorem screen_keeps (s : State) (x : Screen) (hold : s.screen.hold.length ≤ 8 → x.hold.length ≤ 8)
    (windows : (s.screen.windows.map (·.id)).Nodup ∧ s.screen.windows.length ≤ 8 → (x.windows.map (·.id)).Nodup ∧ x.windows.length ≤ 8)
    (tiles : Memory.wf s.screen.tiles → Memory.wf x.tiles) (head : x.headClass = s.screen.headClass) :
    Keeps [] s { s with screen := x } := by
  intro l _
  cases l
  case hold => exact hold
  case windows => exact windows
  case memory => exact fun h => ⟨h.1, tiles h.2⟩
  case trips => exact fun h => ⟨h.1, head.trans h.2⟩
  all_goals exact fun h => h

theorem ring_only (s : State) (x : Ring) (hm : x.mode = s.ring.mode) (ha : x.a = s.ring.a) (hb : x.b = s.ring.b) :
    Only [.ring] s { s with ring := x } := by
  intro p hp
  cases p <;> first | exact absurd (by decide) hp | simp [Part.same, State.axis, State.port, hm, ha, hb]

theorem ring_keeps (s : State) (x : Ring) (hm : x.mode = s.ring.mode) (ha : x.a = s.ring.a) (hb : x.b = s.ring.b)
    (hl : s.ring.localQueue.length ≤ 16 → x.localQueue.length ≤ 16) : Keeps [] s { s with ring := x } := by
  intro l _
  cases l
  case ring =>
    intro h
    refine ⟨hl h.1, fun side => ?_⟩
    have h2 := h.2 side
    cases side
    · show x.a.urgent.length ≤ 8 ∧ x.a.forwarded.length ≤ 16
      rw [ha]; exact h2
    · show x.b.urgent.length ≤ 8 ∧ x.b.forwarded.length ≤ 16
      rw [hb]; exact h2
  case mode =>
    intro h
    show x.mode = modeOf x.a.usable x.b.usable
    rw [hm, ha, hb]; exact h
  all_goals exact fun h => h

theorem camera_only (s : State) (x : Camera) : Only [.camera] s { s with camera := x } := by
  intro p hp
  cases p <;> first | exact absurd (by decide) hp | simp [Part.same, State.axis, State.port]

theorem camera_keeps (s : State) (x : Camera)
    (h : s.camera.triggers.length ≤ 8 ∧ s.camera.outstanding.length ≤ 4 → x.triggers.length ≤ 8 ∧ x.outstanding.length ≤ 4) :
    Keeps [] s { s with camera := x } := by
  intro l _
  cases l
  case camera => exact h
  all_goals exact fun h => h

theorem marks_only (s : State) (x : MarkUnit) : Only [.marks] s { s with marks := x } := by
  intro p hp
  cases p <;> first | exact absurd (by decide) hp | simp [Part.same, State.axis, State.port]

theorem marks_keeps (s : State) (x : MarkUnit) : Keeps [] s { s with marks := x } := by
  intro l _
  cases l <;> exact fun h => h

theorem master_only (s : State) (x : MasterRecord) : Only [.master] s { s with master := x } := by
  intro p hp
  cases p <;> first | exact absurd (by decide) hp | simp [Part.same, State.axis, State.port]

theorem master_keeps (s : State) (x : MasterRecord) : Keeps [] s { s with master := x } := by
  intro l _
  cases l <;> exact fun h => h

theorem fresh_only (s : State) (n : Nat) : Only [.fresh] s { s with fresh := n } := by
  intro p hp
  cases p <;> first | exact absurd (by decide) hp | simp [Part.same, State.axis, State.port]

theorem fresh_keeps (s : State) (n : Nat) : Keeps [] s { s with fresh := n } := by
  intro l _
  cases l <;> exact fun h => h

theorem localSteps_only (s : State) (x : List (Fin 16 × Int)) : Only [.localSteps] s { s with localSteps := x } := by
  intro p hp
  cases p <;> first | exact absurd (by decide) hp | simp [Part.same, State.axis, State.port]

theorem localSteps_keeps (s : State) (x : List (Fin 16 × Int)) : Keeps [] s { s with localSteps := x } := by
  intro l _
  cases l <;> exact fun h => h

theorem straySteps_only (s : State) (n : Nat) : Only [.straySteps] s { s with straySteps := n } := by
  intro p hp
  cases p <;> first | exact absurd (by decide) hp | simp [Part.same, State.axis, State.port]

theorem straySteps_keeps (s : State) (n : Nat) : Keeps [] s { s with straySteps := n } := by
  intro l _
  cases l <;> exact fun h => h

/-- The angle record changes but for role, node id and angle state. -/
theorem angle_only (s : State) (x : AngleRecord) (hr : x.role = s.angle.role) (hi : x.nodeId = s.angle.nodeId)
    (hs : x.state = s.angle.state) : Only [.angle] s { s with angle := x } := by
  intro p hp
  cases p <;> first | exact absurd (by decide) hp | simp [Part.same, State.axis, State.port, hr, hi, hs]

theorem angle_only_state (s : State) (x : AngleRecord) (hr : x.role = s.angle.role) (hi : x.nodeId = s.angle.nodeId) :
    Only [.angle, .angleState] s { s with angle := x } := by
  intro p hp
  cases p <;> first | exact absurd (by decide) hp | simp [Part.same, State.axis, State.port, hr, hi]

/-- The angle record changes, its node id kept; it does not come into NONE or LOST. -/
theorem angle_keeps (s : State) (x : AngleRecord) (hi : x.nodeId = s.angle.nodeId)
    (hs : s.angle.state ≠ .none ∧ s.angle.state ≠ .lost → x.state ≠ .none ∧ x.state ≠ .lost) :
    Keeps [] s { s with angle := x } := by
  intro l _
  cases l
  case safe =>
    intro h i hi'
    obtain ⟨hb, he, hn⟩ := h i hi'
    exact ⟨hb, he, hs hn⟩
  case trips =>
    intro h
    refine ⟨h.1, ?_⟩
    show s.screen.headClass = ((headOf (s.trips.candidates x.nodeId)).map (·.1) |>.map (·.cls)).getD .none
    rw [hi]; exact h.2
  case lists =>
    intro h
    refine ⟨h.1, h.2.1, h.2.2.1, fun e he => ?_⟩
    show e.origin ≠ x.nodeId
    rw [hi]; exact h.2.2.2 e he
  all_goals exact fun h => h

/-- Store fields beside the maps and pages. -/
theorem store_only (s : State) (x : Store) (hp : x.pages = s.store.pages) : Only [.store] s { s with store := x } := by
  intro p hp
  cases p <;> first | exact absurd (by decide) hp | simp [Part.same, State.axis, State.port, *]

theorem store_keeps (s : State) (x : Store) (hm : x.maps = s.store.maps)
    (hp : Memory.wf s.store.pages → Memory.wf x.pages) : Keeps [] s { s with store := x } := by
  intro l _
  cases l
  case memory => exact fun h => ⟨hp h.1, h.2⟩
  case pages =>
    intro h
    have he : ∀ j, (State.map { s with store := x } j) = s.map j := by
      intro j; unfold State.map; rw [hm]
    show PagesDistinct _
    have h : PagesDistinct s := h
    unfold PagesDistinct at h ⊢
    simpa only [he] using h
  all_goals exact fun h => h

/-! ## The sender (R160) -/

theorem takeTile_only (s : State) (t : Nat) : Only [.fresh, .screen] s (s.takeTile t) := by
  intro p hp
  cases p <;> first | exact absurd (by decide) hp | simp [Part.same, State.takeTile, State.axis, State.port]

theorem takeTile_keeps (s : State) (t : Nat) : Keeps [] s (s.takeTile t) := by
  intro l _
  cases l <;> exact fun h => h

theorem runSender_only (s : State) : Only [.fresh, .screen] s s.runSender := by
  unfold State.runSender
  split
  · split
    · exact takeTile_only s _
    · exact Only.refl _ s
  · exact Only.refl _ s

theorem runSender_keeps (s : State) : Keeps [] s s.runSender := by
  unfold State.runSender
  split
  · split
    · exact takeTile_keeps s _
    · exact Keeps.refl _ s
  · exact Keeps.refl _ s

/-- The sender does not touch the head class. -/
theorem runSender_headClass (s : State) : s.runSender.screen.headClass = s.screen.headClass := by
  unfold State.runSender
  split
  · split <;> rfl
  · rfl

/-! ## The dirty set (R159) -/

theorem mark_hold (x : Screen) (p : Nat → Bool) : (x.mark p).hold = x.hold := rfl
theorem mark_windows (x : Screen) (p : Nat → Bool) : (x.mark p).windows = x.windows := rfl

theorem markBanner_hold (x : Screen) : x.markBanner.hold = x.hold := by unfold Screen.markBanner; split <;> rfl
theorem markBanner_windows (x : Screen) : x.markBanner.windows = x.windows := by unfold Screen.markBanner; split <;> rfl
theorem markBanner_tiles (x : Screen) : x.markBanner.tiles = x.tiles := by unfold Screen.markBanner; split <;> rfl
theorem markBanner_headClass (x : Screen) : x.markBanner.headClass = x.headClass := by unfold Screen.markBanner; split <;> rfl

/-- A report of the head trip changes the screen alone, and leaves the class reported as the head class (R112). -/
theorem reportHead_only (s : State) (c : TripClass) : Only [.fresh, .screen] s (s.reportHead c) := by
  unfold State.reportHead
  split
  · exact Only.refl _ s
  · exact ((screen_only s _).up).trans (runSender_only _)

theorem reportHead_headClass (s : State) (c : TripClass) : (s.reportHead c).screen.headClass = c := by
  unfold State.reportHead
  split
  · next h => exact h.symm
  · rw [runSender_headClass]; exact markBanner_headClass _

theorem reportHead_keeps (s : State) (c : TripClass) : Keeps [.trips] s (s.reportHead c) := by
  unfold State.reportHead
  split
  · exact Keeps.refl _ s
  · refine Keeps.trans ?_ ((runSender_keeps _).up)
    intro l hl
    cases l
    case trips => exact absurd (by decide) hl
    case hold => exact fun h => by show (Screen.markBanner _).hold.length ≤ 8; rw [markBanner_hold]; exact h
    case windows =>
      intro h
      show ((Screen.markBanner _).windows.map (·.id)).Nodup ∧ (Screen.markBanner _).windows.length ≤ 8
      rw [markBanner_windows]; exact h
    case memory => exact fun h => ⟨h.1, by show Memory.wf (Screen.markBanner _).tiles; rw [markBanner_tiles]; exact h.2⟩
    all_goals exact fun h => h

theorem postScreenState_only (s : State) : Only [.ctl, .notices] s s.postScreenState := post_only s _

theorem postScreenState_keeps (s : State) : Keeps [] s s.postScreenState := post_keeps s _

/-! ## The top layer of a screen tile (R157): one lemma for each of its three answers -/

theorem covers_iff (q : Rect) (c r : Nat) :
    Rect.covers q c r = true ↔ q.x ≤ c ∧ c < q.x + q.w ∧ q.y ≤ r ∧ r < q.y + q.h := decide_eq_true_iff

theorem topLayer_banner (sc : Screen) (c r : Nat) (b : Banner) (hb : sc.banner = some b) (hc : sc.headClass ≠ .none)
    (h : Rect.covers b.rect c r = true) : sc.topLayer c r = .banner b := by
  unfold Screen.topLayer
  simp [hb, Option.filter, Screen.bannerShown, hc, h]

/-- No banner is shown over the tile. -/
theorem noBanner (sc : Screen) (c r : Nat)
    (h : ∀ b, sc.banner = some b → sc.headClass = .none ∨ Rect.covers b.rect c r = false) :
    sc.banner.filter (fun b => sc.bannerShown && Rect.covers b.rect c r) = none := by
  cases hb : sc.banner with
  | none => rfl
  | some b =>
    have e : (sc.bannerShown && Rect.covers b.rect c r) = false := by
      rcases h b hb with h1 | h1
      · simp [Screen.bannerShown, h1]
      · simp [h1]
    simp [Option.filter, e]

theorem topLayer_window (sc : Screen) (c r : Nat) (below above : List Window) (w : Window)
    (bare : ∀ b, sc.banner = some b → sc.headClass = .none ∨ Rect.covers b.rect c r = false)
    (hw : sc.windows = below ++ w :: above) (hv : w.visible = true) (hc : Rect.covers w.rect c r = true)
    (ha : ∀ x ∈ above, x.visible = true → Rect.covers x.rect c r = false) : sc.topLayer c r = .window w := by
  have none_above : above.reverse.find? (fun w => w.visible && Rect.covers w.rect c r) = none := by
    rw [List.find?_eq_none]
    intro x hx
    simpa using ha x (by simpa using hx)
  unfold Screen.topLayer
  rw [noBanner sc c r bare, hw]
  simp [List.find?_append, none_above, hv, hc]

theorem topLayer_background (sc : Screen) (c r : Nat)
    (bare : ∀ b, sc.banner = some b → sc.headClass = .none ∨ Rect.covers b.rect c r = false)
    (h : ∀ x ∈ sc.windows, x.visible = true → Rect.covers x.rect c r = false) : sc.topLayer c r = .background := by
  have none_in : sc.windows.reverse.find? (fun w => w.visible && Rect.covers w.rect c r) = none := by
    rw [List.find?_eq_none]
    intro x hx
    simpa using h x (by simpa using hx)
  unfold Screen.topLayer
  rw [noBanner sc c r bare, none_in]

theorem drawn_eq (sc : Screen) (c r : Nat) :
    sc.drawn c r = match sc.topLayer c r with
      | .banner b => some (tileIn (Banner.base b sc.headClass) b.rect c r)
      | .window w => if w.kind = .tiles then some (tileIn w.tileBase w.rect c r) else none
      | .background => none := rfl

end Sys2Proof.Machine
end

