-- ==== Sys2Proof/Laws/Egress.lean ====
section
/-! SUPPORT. The angle unit's shared operations (Machine/Angle.lean) and the egress of the ring controller (Machine/Egress.lean): what
each changes, and that each keeps the invariants. -/

set_option Elab.async false

namespace Sys2Proof.Machine

/-! ## Angle.lean -/

theorem postLineState_only (s : State) : Only [.ctl, .notices] s s.postLineState := post_only s _
theorem postLineState_keeps (s : State) : Keeps [] s s.postLineState := post_keeps s _
theorem postAngleState_only (s : State) : Only [.ctl, .notices] s s.postAngleState := post_only s _
theorem postAngleState_keeps (s : State) : Keeps [] s s.postAngleState := post_keeps s _

theorem formBase_only (s : State) (b : Base) (tb : Nat) : Only [.angle] s (s.formBase b tb) := angle_only s _ rfl rfl rfl
theorem formBase_keeps (s : State) (b : Base) (tb : Nat) : Keeps [] s (s.formBase b tb) := angle_keeps s _ rfl fun h => h

theorem angleMaster_only (s : State) (x : AngleRecord) (m : MasterRecord) (hr : x.role = s.angle.role)
    (hi : x.nodeId = s.angle.nodeId) (hs : x.state = s.angle.state) :
    Only [.angle, .master] s { s with angle := x, master := m } :=
  (angle_only s x hr hi hs).up.trans (master_only { s with angle := x } m).up

theorem angleMaster_keeps (s : State) (x : AngleRecord) (m : MasterRecord) (hi : x.nodeId = s.angle.nodeId)
    (hs : x.state = s.angle.state) : Keeps [] s { s with angle := x, master := m } :=
  (angle_keeps s x hi (by rw [hs]; exact fun h => h)).trans (master_keeps { s with angle := x } m)

theorem computeNext_only (s : State) : Only [.angle, .master, .ctl, .notices] s s.computeNext := by
  unfold State.computeNext
  dsimp only
  split
  · exact Only.after (postLineState_only _) (Only.up (angleMaster_only s _ _ (by rfl) (by rfl) (by rfl)))
  · exact Only.up (angleMaster_only s _ _ (by rfl) (by rfl) (by rfl))

theorem computeNext_keeps (s : State) : Keeps [] s s.computeNext := by
  unfold State.computeNext
  dsimp only
  split
  · exact Keeps.after (postLineState_keeps _) (angleMaster_keeps s _ _ (by rfl) (by rfl))
  · exact angleMaster_keeps s _ _ (by rfl) (by rfl)

theorem emitted_only (s : State) (n : Num16) (c : CycleFields) : Only [.angle, .master, .ctl, .notices] s (s.emitted n c) := by
  unfold State.emitted
  exact Only.after (computeNext_only _) (Only.after (formBase_only _ _ _) (Only.up (angle_only s _ (by rfl) (by rfl) (by rfl))))

theorem emitted_keeps (s : State) (n : Num16) (c : CycleFields) : Keeps [] s (s.emitted n c) := by
  unfold State.emitted
  exact Keeps.after (computeNext_keeps _) (Keeps.after (formBase_keeps _ _ _) (angle_keeps s _ (by rfl) fun h => h))

/-! ## Egress.lean -/

theorem joinLocal_only (s : State) (k : FrameKind) (d : Nat) (p : List Byte) : Only [.ring] s (s.joinLocal k d p) :=
  ring_only s _ rfl rfl rfl

theorem joinLocal_keeps (s : State) (k : FrameKind) (d : Nat) (p : List Byte) (h : s.ring.localQueue.length < 16) :
    Keeps [] s (s.joinLocal k d p) :=
  ring_keeps s _ rfl rfl rfl fun _ => by simp; omega

theorem passHeld_only (s : State) : Only [.ring, .screen] s s.passHeld := by
  unfold State.passHeld
  split
  · exact Only.refl _ s
  · split
    · exact Only.after (joinLocal_only _ _ _ _) (Only.up (screen_only s _))
    · exact Only.refl _ s

theorem passHeld_keeps (s : State) : Keeps [] s s.passHeld := by
  unfold State.passHeld
  split
  · exact Keeps.refl _ s
  · next h rest hh =>
    split
    · next hr =>
      refine Keeps.after (joinLocal_keeps _ _ _ _ hr) (screen_keeps s _ (fun hl => ?_) (fun h => h) (fun h => h) (by rfl))
      rw [hh] at hl; simp at hl; show rest.length ≤ 8; omega
    · exact Keeps.refl _ s

theorem transmit_only (s : State) (o : FibreSide) (f : Frame) : Only [.ring] s (s.transmit o f) := setFibre_only s o _ rfl rfl

theorem transmit_keeps (s : State) (o : FibreSide) (f : Frame) : Keeps [] s (s.transmit o f) :=
  setFibre_keeps s o _ rfl (fun h => h) (fun h => h)

theorem left_only (s : State) (q : Queued) : Only [.angle, .master, .ctl, .notices] s (s.left q) := by
  cases q
  case ownCycle => exact emitted_only s _ _
  all_goals exact Only.refl _ s

theorem left_keeps (s : State) (q : Queued) : Keeps [] s (s.left q) := by
  cases q
  case ownCycle => exact emitted_keeps s _ _
  all_goals exact Keeps.refl _ s

/-- What an arbiter may change: the ring's queues and transmitters, the hold queue, and, as the master's own cycle frame leaves, the
angle record, the master's record and a notice. -/
theorem arbitrate_only (s : State) (o : FibreSide) :
    Only [.angle, .master, .ring, .screen, .ctl, .notices] s (s.arbitrate o) := by
  unfold State.arbitrate
  dsimp only
  split
  · split
    · exact Only.after (transmit_only _ _ _) (Only.up (setFibre_only s o _ (by rfl) (by rfl)))
    · exact Only.after (left_only _ _) (Only.after (transmit_only _ _ _) (Only.up (setFibre_only s o _ (by rfl) (by rfl))))
    · exact Only.after (transmit_only _ _ _) (Only.up (setFibre_only s o _ (by rfl) (by rfl)))
    · exact Only.after (passHeld_only _) (Only.after (transmit_only _ _ _) (Only.after
        (ring_only _ _ (by rfl) (by rfl) (by rfl)) (Only.up (setFibre_only s o _ (by rfl) (by rfl)))))
    · exact Only.refl _ s
  · exact Only.refl _ s

theorem tail_le {α : Type} {n : Nat} (l : List α) (h : l.length ≤ n) : l.tail.length ≤ n := by
  rw [List.length_tail]; omega

theorem arbitrate_keeps (s : State) (o : FibreSide) : Keeps [] s (s.arbitrate o) := by
  unfold State.arbitrate
  dsimp only
  split
  · split
    · exact Keeps.after (transmit_keeps _ _ _) (setFibre_keeps s o _ (by rfl) (tail_le _) (fun h => h))
    · exact Keeps.after (left_keeps _ _)
        (Keeps.after (transmit_keeps _ _ _) (setFibre_keeps s o _ (by rfl) (fun h => h) (fun h => h)))
    · exact Keeps.after (transmit_keeps _ _ _) (setFibre_keeps s o _ (by rfl) (fun h => h) (tail_le _))
    · next f turn _ =>
      refine Keeps.after (passHeld_keeps _) (Keeps.after (transmit_keeps _ _ _) (Keeps.after
        (ring_keeps _ _ (by rfl) (by rfl) (by rfl) fun h => ?_)
        (setFibre_keeps s o _ (by rfl) (fun h => h) (fun h => h))))
      refine tail_le _ ?_
      have : (s.setFibre o { s.fibre o with bulkTurn := turn }).ring.localQueue = s.ring.localQueue := by cases o <;> rfl
      rw [← this]; exact h
    · exact Keeps.refl _ s
  · exact Keeps.refl _ s

theorem arbitrateBoth_only (s : State) : Only [.angle, .master, .ring, .screen, .ctl, .notices] s s.arbitrateBoth :=
  (arbitrate_only s .a).trans (arbitrate_only _ .b)

theorem arbitrateBoth_keeps (s : State) : Keeps [] s s.arbitrateBoth := (arbitrate_keeps s .a).trans (arbitrate_keeps _ .b)

theorem dropForward_only (s : State) : Only [.ring] s s.dropForward := ring_only s _ rfl rfl rfl
theorem dropForward_keeps (s : State) : Keeps [] s s.dropForward := ring_keeps s _ rfl rfl rfl fun h => h
theorem dropUrgent_only (s : State) : Only [.ring] s s.dropUrgent := ring_only s _ rfl rfl rfl
theorem dropUrgent_keeps (s : State) : Keeps [] s s.dropUrgent := ring_keeps s _ rfl rfl rfl fun h => h

theorem joinUrgent_only (s : State) (o : FibreSide) (q : Queued) :
    Only [.angle, .master, .ring, .screen, .ctl, .notices] s (s.joinUrgent o q) := by
  unfold State.joinUrgent
  dsimp only
  split
  · exact Only.after (arbitrate_only _ _) (Only.up (setFibre_only s o _ (by rfl) (by rfl)))
  · exact (dropUrgent_only s).up

theorem joinUrgent_keeps (s : State) (o : FibreSide) (q : Queued) : Keeps [] s (s.joinUrgent o q) := by
  unfold State.joinUrgent
  dsimp only
  split
  · next h =>
    refine Keeps.after (arbitrate_keeps _ _) (setFibre_keeps s o _ (by rfl) (fun _ => ?_) (fun h => h))
    simp only [List.length_append, List.length_singleton]; exact h
  · exact dropUrgent_keeps s

theorem joinCycle_only (s : State) (o : FibreSide) (q : Queued) :
    Only [.angle, .master, .ring, .screen, .ctl, .notices] s (s.joinCycle o q) := by
  unfold State.joinCycle
  dsimp only
  refine Only.after (arbitrate_only _ _) (Only.after (setFibre_only _ o _ (by rfl) (by rfl)) ?_)
  split
  · exact Only.refl _ s
  · exact Only.after (left_only _ _) (Only.up (dropForward_only s))

theorem joinCycle_keeps (s : State) (o : FibreSide) (q : Queued) : Keeps [] s (s.joinCycle o q) := by
  unfold State.joinCycle
  dsimp only
  refine Keeps.after (arbitrate_keeps _ _) (Keeps.after (setFibre_keeps _ o _ (by rfl) (fun h => h) (fun h => h)) ?_)
  split
  · exact Keeps.refl _ s
  · exact Keeps.after (left_keeps _ _) (dropForward_keeps s)

theorem joinForwarded_only (s : State) (o : FibreSide) (q : Queued) :
    Only [.angle, .master, .ring, .screen, .ctl, .notices] s (s.joinForwarded o q) := by
  unfold State.joinForwarded
  dsimp only
  split
  · exact Only.after (arbitrate_only _ _) (Only.up (setFibre_only s o _ (by rfl) (by rfl)))
  · exact (dropForward_only s).up

theorem joinForwarded_keeps (s : State) (o : FibreSide) (q : Queued) : Keeps [] s (s.joinForwarded o q) := by
  unfold State.joinForwarded
  dsimp only
  split
  · next h =>
    refine Keeps.after (arbitrate_keeps _ _) (setFibre_keeps s o _ (by rfl) (fun h => h) (fun _ => ?_))
    simp only [List.length_append, List.length_singleton]; exact h
  · exact dropForward_keeps s

theorem joinByClass_only (s : State) (o : FibreSide) (k : FrameKind) (q : Queued) :
    Only [.angle, .master, .ring, .screen, .ctl, .notices] s (s.joinByClass o k q) := by
  cases k <;> first | exact joinCycle_only s o q | exact joinUrgent_only s o q | exact joinForwarded_only s o q

theorem joinByClass_keeps (s : State) (o : FibreSide) (k : FrameKind) (q : Queued) : Keeps [] s (s.joinByClass o k q) := by
  cases k <;> first | exact joinCycle_keeps s o q | exact joinUrgent_keeps s o q | exact joinForwarded_keeps s o q

theorem serveLocal_only (s : State) : Only [.angle, .master, .ring, .screen, .ctl, .notices] s s.serveLocal := by
  unfold State.serveLocal
  split
  · exact arbitrate_only s _
  · exact Only.refl _ s

theorem serveLocal_keeps (s : State) : Keeps [] s s.serveLocal := by
  unfold State.serveLocal
  split
  · exact arbitrate_keeps s _
  · exact Keeps.refl _ s

theorem originate_only (s : State) (k : FrameKind) (d : Nat) (p : List Byte) :
    Only [.angle, .master, .ring, .screen, .ctl, .notices] s (s.originate k d p).1 := by
  unfold State.originate
  split
  · exact Only.after (serveLocal_only _) (Only.up (joinLocal_only s _ _ _))
  · exact Only.up (ring_only s { s.ring with bulkSequence := s.ring.bulkSequence + 1 } rfl rfl rfl)

theorem originate_keeps (s : State) (k : FrameKind) (d : Nat) (p : List Byte) : Keeps [] s (s.originate k d p).1 := by
  unfold State.originate
  split
  · next h => exact Keeps.after (serveLocal_keeps _) (joinLocal_keeps s _ _ _ (of_decide_eq_true h))
  · exact ring_keeps s { s.ring with bulkSequence := s.ring.bulkSequence + 1 } rfl rfl rfl fun h => h

theorem hold_only (s : State) (h : HoldFrame) : Only [.angle, .master, .ring, .screen, .ctl, .notices] s (s.hold h) := by
  unfold State.hold
  split
  · exact Only.after (serveLocal_only _) (Only.up (joinLocal_only s _ _ _))
  · exact (screen_only s _).up

/-- Callers have found room in the hold queue. -/
theorem hold_keeps (s : State) (h : HoldFrame) (hr : s.screen.hold.length < 8) : Keeps [] s (s.hold h) := by
  unfold State.hold
  split
  · next hc =>
    rw [Bool.and_eq_true] at hc
    exact Keeps.after (serveLocal_keeps _) (joinLocal_keeps s _ _ _ (of_decide_eq_true hc.2))
  · exact screen_keeps s _ (fun _ => by simp; omega) (fun h => h) (fun h => h) rfl

/-- Passing or holding a frame lengthens the hold queue by at most one. -/
theorem passHeld_hold (s : State) : s.passHeld.screen.hold.length ≤ s.screen.hold.length := by
  unfold State.passHeld
  split
  · exact Nat.le_refl _
  · next hh =>
    split
    · rw [hh]; show List.length _ ≤ _; simp [State.joinLocal]
    · exact Nat.le_refl _

theorem emitted_screen (s : State) (n : Num16) (c : CycleFields) : (s.emitted n c).screen = s.screen :=
  (emitted_only s n c .screen (by decide)).symm

theorem left_screen (s : State) (q : Queued) : (s.left q).screen = s.screen := (left_only s q .screen (by decide)).symm

theorem arbitrate_hold (s : State) (o : FibreSide) : (s.arbitrate o).screen.hold.length ≤ s.screen.hold.length := by
  unfold State.arbitrate
  dsimp only
  split
  · split
    · simp [State.transmit]
    · rw [left_screen]; simp [State.transmit]
    · simp [State.transmit]
    · exact Nat.le_trans (passHeld_hold _) (by simp [State.transmit])
    · exact Nat.le_refl _
  · exact Nat.le_refl _

theorem hold_hold (s : State) (h : HoldFrame) : (s.hold h).screen.hold.length ≤ s.screen.hold.length + 1 := by
  unfold State.hold
  split
  · unfold State.serveLocal
    split
    · exact Nat.le_trans (arbitrate_hold _ _) (Nat.le_succ _)
    · exact Nat.le_succ _
  · simp

theorem sendTripFrame_only (s : State) (k : FrameKind) (p : List Byte) :
    Only [.angle, .master, .ring, .screen, .ctl, .notices] s (s.sendTripFrame k p) := by
  unfold State.sendTripFrame
  dsimp only
  split
  · exact Only.after (joinUrgent_only _ _ _) (Only.up (ring_only s _ (by rfl) (by rfl) (by rfl)))
  · exact Only.after (dropUrgent_only _) (Only.up (ring_only s _ (by rfl) (by rfl) (by rfl)))

theorem sendTripFrame_keeps (s : State) (k : FrameKind) (p : List Byte) : Keeps [] s (s.sendTripFrame k p) := by
  unfold State.sendTripFrame
  dsimp only
  split
  · exact Keeps.after (joinUrgent_keeps _ _ _) (ring_keeps s _ (by rfl) (by rfl) (by rfl) (fun h => h))
  · exact Keeps.after (dropUrgent_keeps _) (ring_keeps s _ (by rfl) (by rfl) (by rfl) (fun h => h))

/-! ## The order of a base's updates (R11), and what handing over a BULK frame does (R85, R87, R153) -/

/-- The updates of a base stand in rising order of their indices and instants. -/
theorem schedule_sorted (b : Base) (tb : Nat) : (b.schedule tb).Pairwise (fun x y => x.1 < y.1 ∧ x.2 ≤ y.2) := by
  unfold Base.schedule
  rw [List.pairwise_append]
  refine ⟨by split <;> simp, ?_, ?_⟩
  · rw [List.pairwise_filterMap]
    refine List.Pairwise.imp ?_ List.pairwise_lt_range
    intro i j hij x hx y hy
    split at hx <;> simp at hx
    split at hy <;> simp at hy
    subst hx hy
    have step : ((i * b.tu : Nat) : Int) ≤ ((j * b.tu : Nat) : Int) := by
      exact_mod_cast Nat.mul_le_mul_right b.tu (Nat.le_of_lt hij)
    push_cast at step
    refine ⟨hij, ?_⟩
    show (b.nominal i).toNat ≤ (b.nominal j).toNat
    unfold Base.nominal
    omega
  · intro x hx y hy
    split at hx
    · rename_i late
      obtain rfl : x = (0, tb) := by simpa using hx
      obtain ⟨j, _, hj⟩ := List.mem_filterMap.mp hy
      split at hj <;> simp at hj
      rename_i later
      subst hj
      have late0 : b.nominal 0 ≤ tb := by simpa [Base.late] using late
      refine ⟨?_, by show tb ≤ (b.nominal j).toNat; omega⟩
      show 0 < j
      rcases Nat.eq_zero_or_pos j with rfl | h
      · omega
      · exact h
    · simp at hx

theorem originate_room (s : State) (kind : FrameKind) (dest : Nat) (payload : List Byte) (h : s.ring.localQueue.length < 16) :
    s.originate kind dest payload = ((s.joinLocal kind dest payload).serveLocal, true) := by
  simp [State.originate, State.localHasRoom, localRoom, h]

theorem originate_full (s : State) (kind : FrameKind) (dest : Nat) (payload : List Byte) (h : ¬s.ring.localQueue.length < 16) :
    s.originate kind dest payload = ({ s with ring := { s.ring with bulkSequence := s.ring.bulkSequence + 1 } }, false) := by
  simp [State.originate, State.localHasRoom, localRoom, h]

theorem hold_passes (s : State) (h : HoldFrame) (empty : s.screen.hold = []) (room : s.ring.localQueue.length < 16) :
    s.hold h = (s.joinLocal h.kind h.dest h.payload).serveLocal := by
  simp [State.hold, State.localHasRoom, localRoom, empty, room]

theorem hold_waits (s : State) (h : HoldFrame) (waits : ¬(s.screen.hold = [] ∧ s.ring.localQueue.length < 16)) :
    s.hold h = { s with screen := { s.screen with hold := s.screen.hold ++ [h] } } := by
  have e : (s.screen.hold.isEmpty && s.localHasRoom) = false := by
    rw [Bool.eq_false_iff]
    intro both
    rw [Bool.and_eq_true, List.isEmpty_iff] at both
    exact waits ⟨both.1, of_decide_eq_true both.2⟩
  simp [State.hold, e]

/-- The worst class is that of an entry, or none, and no entry's is above it (R103). -/
theorem worst_spec (t : TripUnit) :
    (∀ e ∈ t.localList, e.cls.code ≤ t.worst.code) ∧ (t.worst = .none ∨ ∃ e ∈ t.localList, e.cls = t.worst) := by
  have run : ∀ (l : List LocalEntry) (c0 : TripClass), let w := l.foldl (fun c e => maxClass c e.cls) c0
      c0.code ≤ w.code ∧ (∀ e ∈ l, e.cls.code ≤ w.code) ∧ (w = c0 ∨ ∃ e ∈ l, e.cls = w) := by
    intro l
    induction l with
    | nil => intro c0; simp
    | cons a l ih =>
      intro c0
      have h := ih (maxClass c0 a.cls)
      have m : c0.code ≤ (maxClass c0 a.cls).code ∧ a.cls.code ≤ (maxClass c0 a.cls).code
          ∧ (maxClass c0 a.cls = c0 ∨ maxClass c0 a.cls = a.cls) := by
        unfold maxClass
        split <;> simp <;> omega
      simp only [List.foldl_cons] at h ⊢
      refine ⟨by omega, ?_, ?_⟩
      · intro e he
        rcases List.mem_cons.1 he with rfl | he
        · omega
        · exact h.2.1 e he
      · rcases h.2.2 with h3 | ⟨e, he, h3⟩
        · rcases m.2.2 with h4 | h4
          · exact Or.inl (h3.trans h4)
          · exact Or.inr ⟨a, by simp, by rw [h3, h4]⟩
        · exact Or.inr ⟨e, by simp [he], h3⟩
  exact ⟨(run t.localList .none).2.1, (run t.localList .none).2.2⟩

end Sys2Proof.Machine
end

