-- ==== Sys2Proof/Laws/Axes.lean ====
section
/-! SUPPORT. The axis engine (Machine/Axes.lean): what each operation changes, that each keeps the invariants, and what inhibiting
leaves. -/

set_option Elab.async false

namespace Sys2Proof.Machine

theorem postAxisState_only (s : State) (i : Fin 16) (c : AxisCause) : Only [.ctl, .notices] s (s.postAxisState i c) := post_only s _
theorem postAxisState_keeps (s : State) (i : Fin 16) (c : AxisCause) : Keeps [] s (s.postAxisState i c) := post_keeps s _
theorem postTrimLimit_only (s : State) (i : Fin 16) (w : TrimWriter) : Only [.ctl, .notices] s (s.postTrimLimit i w) := post_only s _
theorem postTrimLimit_keeps (s : State) (i : Fin 16) (w : TrimWriter) : Keeps [] s (s.postTrimLimit i w) := post_keeps s _

/-! ## Inhibit (R44) -/

theorem Axis.engaged_iff (a : Axis) : a.engaged = true ↔ a.state = .catching ∨ a.state = .coupled := by
  unfold Axis.engaged; exact decide_eq_true_iff

theorem Axis.engaged_ne_free {a : Axis} (h : a.engaged = true) : a.state ≠ .free := by
  rcases (Axis.engaged_iff a).mp h with h | h <;> rw [h] <;> decide

theorem inhibit_only (s : State) (i : Fin 16) (c : AxisCause) : Only [.axes, .ctl, .notices] s (s.inhibit i c) := by
  unfold State.inhibit
  split
  · exact Only.after (postAxisState_only _ _ _) (Only.up (setAxis_only s i _ (by rfl)))
  · exact Only.refl _ s

theorem inhibit_keeps (s : State) (i : Fin 16) (c : AxisCause) : Keeps [] s (s.inhibit i c) := by
  unfold State.inhibit
  split
  · next h =>
    exact Keeps.after (postAxisState_keeps _ _ _) (setAxis_keeps s i _ (fun h => by simp at h) (fun _ => Axis.engaged_ne_free h)
      (by rfl) (fun h => h))
  · exact Keeps.refl _ s

/-- After `inhibit` the axis is not engaged, and any other axis is as it was. -/
theorem inhibit_axis (s : State) (i j : Fin 16) (c : AxisCause) :
    (s.inhibit i c).axis j = if i = j ∧ (s.axis i).engaged = true then { s.axis j with state := .inhibited } else s.axis j := by
  unfold State.inhibit
  by_cases h : (s.axis i).engaged = true
  · rw [if_pos h]
    show (s.setAxis i { s.axis i with state := .inhibited }).axis j = _
    rw [setAxis_axis_eq]
    by_cases e : i = j
    · subst e; simp [h]
    · simp [e]
  · rw [if_neg h]; simp [h]

theorem inhibit_not_engaged (s : State) (i : Fin 16) (c : AxisCause) : ((s.inhibit i c).axis i).engaged = false := by
  rw [inhibit_axis]
  by_cases h : (s.axis i).engaged = true
  · rw [if_pos ⟨rfl, h⟩]; rfl
  · rw [if_neg fun k => h k.2]; simpa using h

/-- Inhibiting engages no axis. -/
theorem inhibit_engaged (s : State) (i j : Fin 16) (c : AxisCause) (h : ((s.inhibit i c).axis j).engaged = true) :
    (s.axis j).engaged = true := by
  rw [inhibit_axis] at h
  split at h
  · simp [Axis.engaged] at h
  · exact h

theorem inhibit_binding (s : State) (i j : Fin 16) (c : AxisCause) : ((s.inhibit i c).axis j).binding = (s.axis j).binding := by
  rw [inhibit_axis]; split <;> rfl

theorem inhibitAll_only (s : State) (c : AxisCause) : Only [.axes, .ctl, .notices] s (s.inhibitAll c) :=
  Only.foldl (fun s i => inhibit_only s i c) _ s

theorem inhibitAll_keeps (s : State) (c : AxisCause) : Keeps [] s (s.inhibitAll c) :=
  Keeps.foldl (fun s i => inhibit_keeps s i c) _ s

/-- A fold of steps that engage no axis, over a list that holds `j` and whose step at `j` leaves it not engaged. -/
theorem foldl_not_engaged (f : State → Fin 16 → State) (h1 : ∀ s i j, ((f s i).axis j).engaged = true → (s.axis j).engaged = true)
    (j : Fin 16) (l : List (Fin 16)) (s : State)
    (h2 : j ∈ l → ∀ s, ((f s j).axis j).engaged = false) (hs : j ∉ l → (s.axis j).engaged = false) :
    ((l.foldl f s).axis j).engaged = false := by
  induction l generalizing s with
  | nil => exact hs (by simp)
  | cons x l ih =>
    refine ih (f s x) (fun hm => h2 (List.mem_cons_of_mem _ hm)) fun hn => ?_
    by_cases e : x = j
    · subst e; exact h2 (List.mem_cons_self ..) s
    · have : (s.axis j).engaged = false := hs (by simp [hn, Ne.symm e])
      cases hc : ((f s x).axis j).engaged
      · rfl
      · exact absurd (h1 s x j hc) (by simp [this])

theorem mem_axisNumbers (i : Fin 16) : i ∈ axisNumbers := by revert i; decide

/-- No axis is engaged after all sixteen are inhibited. -/
theorem inhibitAll_not_engaged (s : State) (c : AxisCause) (j : Fin 16) : ((s.inhibitAll c).axis j).engaged = false :=
  foldl_not_engaged _ (fun s i j => inhibit_engaged s i j c) j _ s (fun _ s => inhibit_not_engaged s j c)
    (fun h => absurd (mem_axisNumbers j) h)

theorem safe_of_not_engaged {s : State} (h : ∀ i, (s.axis i).engaged = false) : AxesSafe s := fun i hi => by
  have := (Axis.engaged_iff (s.axis i)).mpr hi
  rw [h i] at this; cases this

theorem inhibitAll_safe (s : State) (c : AxisCause) : AxesSafe (s.inhibitAll c) :=
  safe_of_not_engaged (inhibitAll_not_engaged s c)

/-- The step of `inhibitPort` on one axis. -/
theorem inhibitPort_step_only (s : State) (p : Fin 4) (i : Fin 16) :
    Only [.axes, .ctl, .notices] s (if ((s.axis i).binding.map (·.1)) = some p then s.inhibit i .port else s) :=
  Only.ite (fun _ => inhibit_only s i .port) (fun _ => Only.refl _ s)

theorem inhibitPort_only (s : State) (p : Fin 4) : Only [.axes, .ctl, .notices] s (s.inhibitPort p) :=
  Only.foldl (fun s i => inhibitPort_step_only s p i) _ s

theorem inhibitPort_keeps (s : State) (p : Fin 4) : Keeps [] s (s.inhibitPort p) :=
  Keeps.foldl (fun s i => Keeps.ite (fun _ => inhibit_keeps s i .port) (fun _ => Keeps.refl _ s)) _ s

theorem inhibitPort_engaged (s : State) (p : Fin 4) (j : Fin 16) (h : ((s.inhibitPort p).axis j).engaged = true) :
    (s.axis j).engaged = true ∧ ((s.axis j).binding.map (·.1)) ≠ some p := by
  unfold State.inhibitPort at h
  generalize hl : axisNumbers = l at h
  have hj : j ∈ l := hl ▸ mem_axisNumbers j
  clear hl
  have key : ∀ (l : List (Fin 16)) (s : State),
      ((l.foldl (fun s i => if ((s.axis i).binding.map (·.1)) = some p then s.inhibit i .port else s) s).axis j).engaged = true →
      (s.axis j).engaged = true ∧ (j ∈ l → ((s.axis j).binding.map (·.1)) ≠ some p) := by
    intro l
    induction l with
    | nil => intro s h; exact ⟨h, fun hm => by simp at hm⟩
    | cons x l ih =>
      intro s h
      obtain ⟨he, hb⟩ := ih _ h
      dsimp only at he hb
      by_cases hc : ((s.axis x).binding.map (·.1)) = some p
      · rw [if_pos hc] at he hb
        have he' := inhibit_engaged s x j .port he
        refine ⟨he', fun hm => ?_⟩
        rw [inhibit_binding] at hb
        by_cases e : x = j
        · subst e; rw [inhibit_not_engaged] at he; cases he
        · exact hb ((List.mem_cons.mp hm).resolve_left (Ne.symm e))
      · rw [if_neg hc] at he hb
        refine ⟨he, fun hm => ?_⟩
        by_cases e : x = j
        · subst e; exact hc
        · exact hb ((List.mem_cons.mp hm).resolve_left (Ne.symm e))
  exact ⟨(key l s h).1, (key l s h).2 hj⟩

theorem inhibitPort_binding (s : State) (p : Fin 4) (j : Fin 16) : ((s.inhibitPort p).axis j).binding = (s.axis j).binding :=
  ((inhibitPort_only s p) .bindings (by decide) j).symm

theorem inhibitPort_ports (s : State) (p : Fin 4) : (s.inhibitPort p).ports = s.ports :=
  ((inhibitPort_only s p) .ports (by decide)).symm

/-- After the axes bound to a port are inhibited the part is safe, if only those axes were not. -/
theorem inhibitPort_safe (s : State) (p : Fin 4)
    (h : ∀ i : Fin 16, (s.axis i).state = .catching ∨ (s.axis i).state = .coupled →
      (∃ b, (s.axis i).binding = some b ∧ (b.1 ≠ p → (s.port b.1).state = .up)) ∧ s.trips.effective ≠ .stopFast
        ∧ s.angle.state ≠ .none ∧ s.angle.state ≠ .lost) : AxesSafe (s.inhibitPort p) := by
  intro i hi
  obtain ⟨he, hb⟩ := inhibitPort_engaged s p i ((Axis.engaged_iff _).mpr hi)
  obtain ⟨⟨b, hb1, hu⟩, hr⟩ := h i ((Axis.engaged_iff _).mp he)
  have ha : (s.inhibitPort p).angle = s.angle := (inhibitPort_only s p .angle (by decide)).symm
  have ht : (s.inhibitPort p).trips = s.trips := (inhibitPort_only s p .trips (by decide)).symm
  refine ⟨⟨b, by rw [inhibitPort_binding]; exact hb1, ?_⟩, by rw [ha, ht]; exact hr⟩
  unfold State.port
  rw [inhibitPort_ports]
  exact hu fun e => hb (by rw [hb1, ← e]; rfl)

/-! ## Trim (R38 to R40) -/

theorem clampTo_le (m : Nat) (x : Int) : -(m : Int) ≤ clampTo m x ∧ clampTo m x ≤ (m : Int) := by
  unfold clampTo
  constructor
  · exact le_max_left _ _
  · exact max_le (by omega) (min_le_left _ _)

theorem clampTo_of_le (m : Nat) (x : Int) (h : -(m : Int) ≤ x) (k : x ≤ (m : Int)) : clampTo m x = x := by
  unfold clampTo
  rw [min_eq_right k, max_eq_right h]

theorem writeTrim_only (s : State) (i : Fin 16) (v : Int) (w : TrimWriter) : Only [.axes, .ctl, .notices] s (s.writeTrim i v w) := by
  unfold State.writeTrim
  dsimp only
  split
  · exact Only.after (postTrimLimit_only _ _ _) (Only.up (setAxis_only s i _ (by rfl)))
  · exact Only.up (setAxis_only s i _ (by rfl))

theorem writeTrim_keeps (s : State) (i : Fin 16) (v : Int) (w : TrimWriter) : Keeps [] s (s.writeTrim i v w) := by
  unfold State.writeTrim
  dsimp only
  have h := setAxis_keeps s i { s.axis i with t := clampTo (s.axis i).trimLimit v } (fun h => h) (fun h => h) (by rfl)
    (fun h => ⟨h.1, h.2.1, clampTo_le _ _⟩)
  split
  · exact Keeps.after (postTrimLimit_keeps _ _ _) h
  · exact h

/-- The axis after a write of its trim target. -/
theorem writeTrim_axis (s : State) (i j : Fin 16) (v : Int) (w : TrimWriter) :
    (s.writeTrim i v w).axis j = if i = j then { s.axis i with t := clampTo (s.axis i).trimLimit v } else s.axis j := by
  unfold State.writeTrim
  dsimp only
  split
  · show (s.setAxis i _).axis j = _
    rw [setAxis_axis_eq]
  · rw [setAxis_axis_eq]

theorem takeTrimStep_only (s : State) (i : Fin 16) (v : Int) (w : TrimWriter) :
    Only [.axes, .ctl, .notices] s (s.takeTrimStep i v w) := by
  unfold State.takeTrimStep
  dsimp only
  split
  · exact Only.after (writeTrim_only _ _ _ _) (Only.up (setAxis_only s i _ (by rfl)))
  · exact Only.up (setAxis_only s i _ (by rfl))

theorem takeTrimStep_keeps (s : State) (i : Fin 16) (v : Int) (w : TrimWriter) : Keeps [] s (s.takeTrimStep i v w) := by
  unfold State.takeTrimStep
  dsimp only
  split
  · exact Keeps.after (writeTrim_keeps _ _ _ _) (setAxis_keeps s i _ (fun h => h) (fun h => h) (by rfl) (fun h => h))
  · exact setAxis_keeps s i _ (fun h => h) (fun h => h) (by rfl) (fun h => h)

theorem deliverTrimStep_only (s : State) (p : List Byte) : Only [.axes, .straySteps, .ctl, .notices] s (s.deliverTrimStep p) := by
  unfold State.deliverTrimStep
  split
  · dsimp only
    split
    · exact Only.up (takeTrimStep_only s _ _ _)
    · exact Only.up (setAxis_only s _ _ (by rfl))
  · exact Only.up (straySteps_only s _)

theorem deliverTrimStep_keeps (s : State) (p : List Byte) : Keeps [] s (s.deliverTrimStep p) := by
  unfold State.deliverTrimStep
  split
  · dsimp only
    split
    · exact takeTrimStep_keeps s _ _ _
    · exact setAxis_keeps s _ _ (fun h => h) (fun h => h) (by rfl) (fun h => h)
  · exact straySteps_keeps s _

/-! ## The work of one update (R27 to R34) -/

theorem Axis.takeStaged_state (a : Axis) : a.takeStaged.state = a.state ∧ a.takeStaged.binding = a.binding := by
  unfold Axis.takeStaged; split <;> exact ⟨rfl, rfl⟩

/-- A rescaled remainder lies below the new denominator (R28). -/
theorem rescale_lt (r d d' : Nat) (h : r < d) (h' : 0 < d') : r * d' / d < d' := by
  rw [Nat.div_lt_iff_lt_mul (by omega)]
  calc r * d' < d * d' := Nat.mul_lt_mul_of_pos_right h h'
    _ = d' * d := Nat.mul_comm _ _

theorem Axis.takeStaged_inRange {a : Axis} (h : a.inRange) : a.takeStaged.inRange := by
  unfold Axis.takeStaged
  split
  · exact h
  · next n d hs => exact ⟨rescale_lt _ _ _ h.1 (h.2.1 _ hs), fun x hx => by simp at hx, h.2.2⟩

/-- R29: the new remainder is what division rounding toward minus infinity leaves. -/
theorem Axis.gear_r (a : Axis) (delta : Int) (h : 0 < a.d) :
    ((a.gear delta).r : Int) = a.gearInput delta % (a.d : Int) ∧ (a.gear delta).r < a.d := by
  have hd : (0 : Int) < (a.d : Int) := by exact_mod_cast h
  have e : a.gearInput delta - a.gearedIncrement delta * (a.d : Int) = a.gearInput delta % (a.d : Int) := by
    unfold Axis.gearedIncrement
    have := Int.mul_ediv_add_emod (a.gearInput delta) (a.d : Int)
    rw [Int.mul_comm] at this
    omega
  have hr : (a.gear delta).r = (a.gearInput delta % (a.d : Int)).toNat := by
    show (a.gearInput delta - a.gearedIncrement delta * (a.d : Int)).toNat = _
    rw [e]
  have h0 := Int.emod_nonneg (a.gearInput delta) (show (a.d : Int) ≠ 0 by omega)
  have h1 := Int.emod_lt_of_pos (a.gearInput delta) hd
  rw [hr]
  constructor
  · exact Int.toNat_of_nonneg h0
  · omega

theorem Axis.gear_inRange {a : Axis} (h : a.inRange) (delta : Int) : (a.gear delta).inRange :=
  ⟨(Axis.gear_r a delta (by have := h.1; omega)).2, h.2⟩

theorem Axis.worked_binding (a : Axis) (delta : Int) (e : Bool) : (a.worked delta e).binding = a.binding := (Axis.takeStaged_state a).2

/-- The work of an update engages no axis and frees none (R32). -/
theorem Axis.worked_state (a : Axis) (delta : Int) (e : Bool) :
    (a.worked delta e).state = a.state ∨ (a.state = .catching ∧ (a.worked delta e).state = .coupled) := by
  have hs : (a.takeStaged.gear delta).state = a.state := (Axis.takeStaged_state a).1
  show (if (a.takeStaged.gear delta).state = .catching ∧ _ then AxisState.coupled else (a.takeStaged.gear delta).state) = _ ∨ _
  split
  · next h => exact Or.inr ⟨hs ▸ h.1, by
      show (if (a.takeStaged.gear delta).state = .catching ∧ _ then AxisState.coupled else _) = _
      rw [if_pos h]⟩
  · exact Or.inl hs

theorem Axis.worked_inRange {a : Axis} (h : a.inRange) (delta : Int) (e : Bool) : (a.worked delta e).inRange :=
  Axis.gear_inRange (Axis.takeStaged_inRange h) delta

theorem workAxis_only (s : State) (i : Fin 16) (delta : Int) (e : Bool) : Only [.axes, .ctl, .notices] s (s.workAxis i delta e) := by
  unfold State.workAxis
  dsimp only
  split
  · exact Only.refl _ s
  · split
    · exact Only.after (postAxisState_only _ _ _) (Only.up (setAxis_only s i _ (Axis.worked_binding _ _ _)))
    · exact Only.up (setAxis_only s i _ (Axis.worked_binding _ _ _))

theorem workAxis_keeps (s : State) (i : Fin 16) (delta : Int) (e : Bool) : Keeps [] s (s.workAxis i delta e) := by
  unfold State.workAxis
  dsimp only
  split
  · exact Keeps.refl _ s
  · next hf =>
    have h := setAxis_keeps s i ((s.axis i).worked delta e)
      (fun h => by
        rcases Axis.worked_state (s.axis i) delta e with hw | hw
        · rw [← hw]; exact h
        · exact Or.inl hw.1)
      (fun _ => hf) (Axis.worked_binding _ _ _) (fun h => Axis.worked_inRange h delta e)
    split
    · exact Keeps.after (postAxisState_keeps _ _ _) h
    · exact h

theorem Axis.handed_state (a : Axis) : a.handed.state = a.state ∧ a.handed.binding = a.binding := by
  unfold Axis.handed
  split
  · exact ⟨rfl, rfl⟩
  · split <;> exact ⟨rfl, rfl⟩

theorem Axis.handed_inRange {a : Axis} (h : a.inRange) : a.handed.inRange := by
  unfold Axis.handed
  split
  · exact h
  · split <;> exact h

/-- Every axis record is rewritten, its binding kept. -/
theorem axesMap_only (s : State) (v : Vector Axis 16) (hb : ∀ i : Fin 16, v[i].binding = s.axes[i].binding) :
    Only [.axes] s { s with axes := v } := by
  intro p hp
  cases p <;> first | exact absurd (by decide) hp | skip
  case bindings => exact fun i => (hb i).symm
  all_goals simp [Part.same, State.port]

/-- Every axis record is rewritten, its state and binding kept. -/
theorem axesMap_keeps (s : State) (v : Vector Axis 16) (hs : ∀ i : Fin 16, v[i].state = s.axes[i].state)
    (hb : ∀ i : Fin 16, v[i].binding = s.axes[i].binding) (hr : ∀ i : Fin 16, s.axes[i].inRange → v[i].inRange) :
    Keeps [] s { s with axes := v } := by
  intro l _
  cases l
  case safe =>
    intro h i hi
    have hi : v[i].state = .catching ∨ v[i].state = .coupled := hi
    rw [hs] at hi
    obtain ⟨⟨b, hb', hu⟩, hrest⟩ := h i hi
    exact ⟨⟨b, (hb i).trans hb', hu⟩, hrest⟩
  case axes => exact fun h i => hr i (h i)
  case bindings =>
    intro h
    refine ⟨fun i j hij hi => ?_, fun i hi => ?_⟩
    · have hi : v[i].binding.isSome = true := hi
      show v[i].binding ≠ v[j].binding
      rw [hb] at hi
      rw [hb, hb]; exact h.1 i j hij hi
    · have hi : v[i].state ≠ .free := hi
      show v[i].binding.isSome = true
      rw [hs] at hi
      rw [hb]; exact h.2 i hi
  all_goals exact fun h => h

/-! ## Requests -/

theorem workSetAxis_only (f : AxisFields) (s : State) : Only [.axes, .bindings, .ctl, .notices] s (workSetAxis f s).1 := by
  unfold workSetAxis
  split
  · dsimp only
    split
    · exact Only.refl _ s
    · split
      · exact Only.refl _ s
      · refine Only.after (writeTrim_only _ _ _ _) ?_
        intro p hp
        cases p <;> first | exact absurd (by decide) hp | simp [Part.same, State.port]
  · exact Only.refl _ s

/-- A write of an axis record with another binding, as SET_AXIS makes it. -/
theorem rebind_keeps (s : State) (i : Fin 16) (a : Axis) (hs : a.state = (s.axis i).state)
    (hf : a.binding ≠ (s.axis i).binding → (s.axis i).state = .free)
    (hu : a.binding.isSome = true → ∀ j, j ≠ i → (s.axis j).binding ≠ a.binding) : Keeps [.axes] s (s.setAxis i a) := by
  intro l hl
  cases l
  case axes => exact absurd (by decide) hl
  case safe =>
    intro h j hj
    rw [setAxis_axis_eq] at hj ⊢
    by_cases e : i = j
    · subst e
      rw [if_pos rfl] at hj ⊢
      rw [hs] at hj
      have hb : a.binding = (s.axis i).binding := by
        by_contra hc
        rw [hf hc] at hj; simp at hj
      rw [hb]; exact h i hj
    · rw [if_neg e] at hj ⊢; exact h j hj
  case bindings =>
    intro h
    refine ⟨fun j k hjk hsome => ?_, fun j hj => ?_⟩
    · rw [setAxis_axis_eq] at hsome
      rw [setAxis_axis_eq, setAxis_axis_eq]
      by_cases e : i = j
      · subst e
        rw [if_pos rfl] at hsome
        rw [if_pos rfl, if_neg hjk]
        exact fun e => hu hsome k (Ne.symm hjk) e.symm
      · rw [if_neg e] at hsome
        rw [if_neg e]
        by_cases e2 : i = k
        · subst e2
          rw [if_pos rfl]
          exact fun e3 => hu (e3 ▸ hsome) j (Ne.symm e) e3
        · rw [if_neg e2]; exact h.1 j k hjk hsome
    · rw [setAxis_axis_eq] at hj ⊢
      by_cases e : i = j
      · subst e
        rw [if_pos rfl] at hj ⊢
        rw [hs] at hj
        by_cases hb : a.binding = (s.axis i).binding
        · rw [hb]; exact h.2 i hj
        · exact absurd (hf hb) hj
      · rw [if_neg e] at hj ⊢; exact h.2 j hj
  all_goals exact fun h => h

theorem workSetAxis_keeps (f : AxisFields) (s : State) : Keeps [] s (workSetAxis f s).1 := by
  unfold workSetAxis
  split
  · dsimp only
    split
    · exact Keeps.refl _ s
    · next h1 =>
      split
      · exact Keeps.refl _ s
      · next h2 =>
        refine Keeps.put .axes (Keeps.after (writeTrim_keeps _ _ _ _) (rebind_keeps s _ _ (by rfl) (fun hne => ?_)
          (fun hsome j hj e => h2 ⟨hsome, List.any_eq_true.mpr ⟨j, mem_axisNumbers j, decide_eq_true ⟨hj, e⟩⟩⟩))) ?_
        · by_contra hc; exact h1 ⟨hne, hc⟩
        · intro h j
          show ((State.writeTrim _ _ _ _).axis j).inRange
          rw [writeTrim_axis, setAxis_axis, setAxis_axis_eq]
          have h : AxesInRange s := h
          by_cases e : Fin.ofNat 16 f.axis = j
          · rw [if_pos e]
            have := h (Fin.ofNat 16 f.axis)
            exact ⟨this.1, this.2.1, clampTo_le _ _⟩
          · rw [if_neg e, if_neg e]; exact h j
  · exact Keeps.refl _ s

/-- The axis numbered in a request is in range of the file. -/
theorem workGearChangeSmooth_only (f : GearFields) (s : State) : Only [.axes] s (workGearChangeSmooth f s).1 := by
  unfold workGearChangeSmooth
  split
  · exact setAxis_only s _ _ (by rfl)
  · exact Only.refl _ s

theorem workGearChangeSmooth_keeps (f : GearFields) (s : State) : Keeps [] s (workGearChangeSmooth f s).1 := by
  unfold workGearChangeSmooth
  split
  · next h =>
    refine setAxis_keeps s _ _ (fun h => h) (fun h => h) (by rfl) (fun hr => ⟨hr.1, fun x hx => ?_, hr.2.2⟩)
    have := (of_decide_eq_true h).2
    simp at hx
    rw [← hx]; show 0 < f.d; omega
  · exact Keeps.refl _ s

theorem workGearChangeJump_only (f : GearFields) (s : State) : Only [.axes] s (workGearChangeJump f s).1 := by
  unfold workGearChangeJump
  split
  · dsimp only
    split
    · exact setAxis_only s _ _ (by rfl)
    · exact Only.refl _ s
  · exact Only.refl _ s

theorem workGearChangeJump_keeps (f : GearFields) (s : State) : Keeps [] s (workGearChangeJump f s).1 := by
  unfold workGearChangeJump
  split
  · next h =>
    dsimp only
    split
    · refine setAxis_keeps s _ _ (fun h => h) (fun h => h) (by rfl) (fun hr => ⟨?_, fun x hx => by simp at hx, hr.2.2⟩)
      have := (of_decide_eq_true h).2
      show 0 < f.d; omega
    · exact Keeps.refl _ s
  · exact Keeps.refl _ s

theorem workSetPhase_only (f : OffsetFields) (s : State) : Only [.axes] s (workSetPhase f s).1 := by
  unfold workSetPhase
  split
  · exact setAxis_only s _ _ (by rfl)
  · exact Only.refl _ s

theorem workSetPhase_keeps (f : OffsetFields) (s : State) : Keeps [] s (workSetPhase f s).1 := by
  unfold workSetPhase
  split
  · exact setAxis_keeps s _ _ (fun h => h) (fun h => h) (by rfl) (fun h => h)
  · exact Keeps.refl _ s

theorem workSetTrim_only (f : OffsetFields) (s : State) : Only [.axes, .ctl, .notices] s (workSetTrim f s).1 := by
  unfold workSetTrim
  split
  · exact writeTrim_only s _ _ _
  · exact Only.refl _ s

theorem workSetTrim_keeps (f : OffsetFields) (s : State) : Keeps [] s (workSetTrim f s).1 := by
  unfold workSetTrim
  split
  · exact writeTrim_keeps s _ _ _
  · exact Keeps.refl _ s

theorem workCouple_only (i : Nat) (s : State) : Only [.axes, .ctl, .notices] s (workCouple i s).1 := by
  unfold workCouple
  split
  · dsimp only
    split
    · exact Only.refl _ s
    · split
      · exact Only.refl _ s
      · split
        · exact Only.refl _ s
        · split
          · exact Only.refl _ s
          · exact Only.after (postAxisState_only _ _ _) (Only.up (setAxis_only s _ _ (by rfl)))
  · exact Only.refl _ s

/-- What COUPLE's check 4 says of the axis (R42). -/
theorem readyToCouple_spec (s : State) (i : Fin 16) (h : s.readyToCouple i = true) :
    (∃ b, (s.axis i).binding = some b ∧ (s.port b.1).state = .up) ∧ (s.axis i).fresh = true ∧ s.angle.state = .tracking := by
  unfold State.readyToCouple at h
  split at h
  · cases h
  · next b hb =>
    simp only [Bool.and_eq_true, decide_eq_true_eq] at h
    exact ⟨⟨b, hb, h.1.1⟩, h.1.2, h.2⟩

/-- COUPLE keeps the invariants: an axis comes into CATCHING only where R44 allows it. -/
theorem workCouple_keeps (n : Nat) (s : State) : Keeps [] s (workCouple n s).1 := by
  unfold workCouple
  split
  · dsimp only
    split
    · exact Keeps.refl _ s
    · split
      · exact Keeps.refl _ s
      · next htr =>
        split
        · exact Keeps.refl _ s
        · next hready =>
          split
          · exact Keeps.refl _ s
          · generalize Fin.ofNat 16 n = i at *
            have hr := readyToCouple_spec s i (by simpa using hready)
            obtain ⟨⟨b, hb, hu⟩, _, ht⟩ := hr
            refine Keeps.after (postAxisState_keeps _ _ _) ?_
            intro l _
            cases l
            case safe =>
              intro h j hj
              rw [setAxis_axis_eq] at hj ⊢
              by_cases e : i = j
              · subst e
                rw [if_pos rfl] at hj ⊢
                exact ⟨⟨b, hb, hu⟩, htr, by show s.angle.state ≠ _; rw [ht]; decide, by show s.angle.state ≠ _; rw [ht]; decide⟩
              · rw [if_neg e] at hj ⊢; exact h j hj
            case axes =>
              intro h j
              rw [setAxis_axis_eq]
              split
              · next e => subst e; exact h i
              · exact h j
            case bindings =>
              intro h
              refine ⟨fun j k hjk hs => ?_, fun j hj => ?_⟩
              · have hbd : ∀ j, ((s.setAxis i
                    { s.axis i with c := sdiff (s.axis i).f (s.axis i).g, followCount := 0, state := .catching }).axis j).binding
                      = (s.axis j).binding := by
                  intro j
                  rw [setAxis_axis_eq]
                  split
                  · next e => subst e; rfl
                  · rfl
                rw [hbd] at hs
                rw [hbd, hbd]; exact h.1 j k hjk hs
              · rw [setAxis_axis_eq] at hj ⊢
                split
                · next e => subst e; show (s.axis i).binding.isSome = true; rw [hb]; rfl
                · next e => rw [if_neg e] at hj; exact h.2 j hj
            all_goals exact fun h => h
  · exact Keeps.refl _ s

theorem workRelease_only (i : Nat) (s : State) : Only [.axes, .ctl, .notices] s (workRelease i s).1 := by
  unfold workRelease
  split
  · dsimp only
    show Only _ s (taken _).1
    unfold taken
    dsimp only
    split
    · exact Only.up (setAxis_only s _ _ (by rfl))
    · exact Only.after (postAxisState_only _ _ _) (Only.up (setAxis_only s _ _ (by rfl)))
  · exact Only.refl _ s

theorem workRelease_keeps (i : Nat) (s : State) : Keeps [] s (workRelease i s).1 := by
  unfold workRelease
  split
  · have h := setAxis_keeps s (Fin.ofNat 16 i) { s.axis (Fin.ofNat 16 i) with state := .free, staged := none }
      (fun h => by simp at h) (fun h => absurd rfl h) (by rfl) (fun hr => ⟨hr.1, fun x hx => by simp at hx, hr.2.2⟩)
    unfold taken
    dsimp only
    split
    · exact h
    · exact Keeps.after (postAxisState_keeps _ _ _) h
  · exact Keeps.refl _ s

/-! ## What an inhibit and a trim step give (R44, R39, R40) -/

/-- Inhibiting, in turn, the axes of a list that `reached` chooses: each of them becomes INHIBITED and posts its notice, and no other
field of the state is written but by the notices. -/
theorem inhibit_foldl (reached : Axis → Bool) (why : AxisCause) (l : List (Fin 16)) (s : State) (hn : l.Nodup) :
    l.foldl (fun s i =>
        if reached (s.axis i) then (s.setAxis i { s.axis i with state := .inhibited }).post (.axisState i .inhibited why (s.axis i).binding)
        else s) s
      = ((l.filter fun i => reached (s.axis i)).map fun i => Notice.axisState i .inhibited why (s.axis i).binding).foldl State.post
        { s with axes := Vector.ofFn fun i => if i ∈ l ∧ reached (s.axis i) then { s.axis i with state := .inhibited } else s.axis i } := by
  induction l generalizing s with
  | nil =>
    have : (Vector.ofFn fun i => s.axis i) = s.axes := by apply Vector.ext; intro i h; simp [State.axis]
    simp [this]
  | cons x l ih =>
    simp only [List.nodup_cons] at hn
    rw [List.foldl_cons, ih _ hn.2]
    have same (t : State) (ht : ∀ i ∈ l, t.axis i = s.axis i) :
        ((l.filter fun i => reached (t.axis i)).map fun i => Notice.axisState i .inhibited why (t.axis i).binding)
          = ((l.filter fun i => reached (s.axis i)).map fun i => Notice.axisState i .inhibited why (s.axis i).binding) := by
      rw [List.filter_congr (fun i hi => by rw [ht i hi])]
      exact List.map_congr_left fun i hi => by rw [ht i (List.mem_of_mem_filter hi)]
    by_cases hx : reached (s.axis x) = true
    · simp only [hx, if_true]
      have other (i : Fin 16) (hi : i ≠ x) :
          ((s.setAxis x { s.axis x with state := .inhibited }).post (.axisState x .inhibited why (s.axis x).binding)).axis i = s.axis i := by
        simp only [State.axis, State.setAxis, State.post, Fin.getElem_fin]
        rw [Vector.getElem_set_ne]
        exact fun e => hi (Fin.ext e.symm)
      have self :
          ((s.setAxis x { s.axis x with state := .inhibited }).post (.axisState x .inhibited why (s.axis x).binding)).axis x
            = { s.axis x with state := .inhibited } := by
        simp [State.axis, State.setAxis, State.post]
      rw [same _ (fun i hi => other i (fun e => hn.1 (e ▸ hi)))]
      simp only [List.filter_cons, hx, if_true, List.map_cons, List.foldl_cons]
      congr 1
      unfold State.post State.setAxis
      simp only [State.mk.injEq, true_and, and_true]
      apply Vector.ext
      intro j hj
      simp only [Vector.getElem_ofFn]
      by_cases e : (⟨j, hj⟩ : Fin 16) = x
      · subst e
        have := self
        unfold State.post State.setAxis at this
        rw [this]
        simp [hn.1, hx]
      · have := other _ e
        unfold State.post State.setAxis at this
        rw [this]
        simp [e]
    · simp only [List.filter_cons, hx, if_false, Bool.false_eq_true]
      congr 2
      apply Vector.ext
      intro j hj
      simp only [Vector.getElem_ofFn]
      by_cases e : (⟨j, hj⟩ : Fin 16) = x
      · subst e
        simp [hx]
      · simp [e]

/-- Over all axes the vector of `inhibit_foldl` is a map over the axes. -/
theorem ofFn_inhibited (reached : Axis → Bool) (s : State) :
    (Vector.ofFn fun i => if i ∈ axisNumbers ∧ reached (s.axis i) then { s.axis i with state := .inhibited } else s.axis i)
      = s.axes.map fun a => if reached a then { a with state := .inhibited } else a := by
  apply Vector.ext
  intro j hj
  simp [mem_axisNumbers, State.axis]

/-- A trim step at an axis: applied and clamped in COUPLED, with TRIM_LIMIT if the clamp changed it, discarded otherwise. -/
theorem takeTrimStep_eq (s : State) (i : Fin 16) (step : Int) (writer : TrimWriter) :
    s.takeTrimStep i step writer =
      (let a := s.axis i
       let sum := max (-(a.trimLimit : Int)) (min (a.trimLimit : Int) (a.t + step))
       if a.state = .coupled then
         let u := s.setAxis i { a with applied := min (a.applied + 1) 65535, t := sum }
         if sum = a.t + step then u else u.post (.trimLimit i sum a.trimLimit writer)
       else s.setAxis i { a with discarded := min (a.discarded + 1) 65535 }) := by
  unfold State.takeTrimStep State.writeTrim State.postTrimLimit bump clampTo
  have get (x : Axis) : (s.setAxis i x).axis i = x := by simp [State.axis, State.setAxis]
  have set (x y : Axis) : (s.setAxis i x).setAxis i y = s.setAxis i y := by simp [State.setAxis]
  simp only [get, set]
  by_cases hc : (s.axis i).state = .coupled
  · simp only [hc, if_true]
    by_cases hs : max (-((s.axis i).trimLimit : Int)) (min ((s.axis i).trimLimit : Int) ((s.axis i).t + step)) = (s.axis i).t + step
    · simp only [hs, ne_eq, not_true, if_false, if_true]
    · simp only [hs, ne_eq, not_false_eq_true, if_false, if_true]
  · simp only [hc, if_false]

end Sys2Proof.Machine
end

