-- ==== Sys2Proof/Laws/Trips.lean ====
section
/-! SUPPORT. The trip unit (Machine/Trips.lean): what each operation changes, that each keeps the invariants, and what forming the
effective class again leaves. -/

set_option Elab.async false

namespace Sys2Proof.Machine

/-! ## Updates of the trip unit's record -/

theorem trips_only (s : State) (x : TripUnit) : Only [.trips, .sources] s { s with trips := x } := by
  intro p hp
  cases p <;> first | exact absurd (by decide) hp | simp [Part.same, State.axis, State.port]

theorem trips_only_lists (s : State) (x : TripUnit) (h : x.sources = s.trips.sources) :
    Only [.trips] s { s with trips := x } := by
  intro p hp
  cases p <;> first | exact absurd (by decide) hp | simp [Part.same, State.axis, State.port, h]

/-- A change of fields that the effective class and the lists do not rest on. -/
theorem trips_keeps (s : State) (x : TripUnit) (he : x.effective = s.trips.effective) (hi : x.impressionOff = s.trips.impressionOff)
    (hl : x.localList = s.trips.localList) (hr : x.remote = s.trips.remote) (ho : x.overflow = s.trips.overflow)
    (hc : x.overflowClass = s.trips.overflowClass) (hh : x.held = s.trips.held) : Keeps [] s { s with trips := x } := by
  intro l _
  cases l
  case impression => intro h; show x.impressionOff = assertsImpressionOff x.effective; rw [he, hi]; exact h
  case trips =>
    intro h
    have hf : x.formed = s.trips.formed := by
      unfold TripUnit.formed TripUnit.worst TripUnit.highestRemote TripUnit.highestHeld
      rw [hl, hr, ho, hc, hh]
    have hk : x.candidates s.angle.nodeId = s.trips.candidates s.angle.nodeId := by
      unfold TripUnit.candidates; rw [hl, hr]
    refine ⟨?_, ?_⟩
    · show x.effective = x.formed; rw [he, hf]; exact h.1
    · show s.screen.headClass = (((headOf (x.candidates s.angle.nodeId)).map (·.1)).map (·.cls)).getD .none
      rw [hk]; exact h.2
  case lists =>
    intro h
    show (x.localList.map (·.source)).Nodup ∧ (x.remote.map fun e => (e.origin, e.source)).Nodup ∧ x.remote.length ≤ 32
      ∧ ∀ e ∈ x.remote, e.origin ≠ s.angle.nodeId
    rw [hl, hr]; exact h
  case safe =>
    intro h i hi
    obtain ⟨hb, he', hn⟩ := h i hi
    exact ⟨hb, by show x.effective ≠ _; rw [he]; exact he', hn⟩
  all_goals exact fun h => h

/-- A change of the lists, the overflow or the held slots that leaves the effective class to be formed again. -/
theorem trips_keeps_lists (s : State) (x : TripUnit) (he : x.effective = s.trips.effective)
    (hi : x.impressionOff = s.trips.impressionOff)
    (hl : TripListsOk s → TripListsOk { s with trips := x }) : Keeps [.trips] s { s with trips := x } := by
  intro l hx
  cases l
  case trips => exact absurd (by decide) hx
  case impression => intro h; show x.impressionOff = assertsImpressionOff x.effective; rw [he, hi]; exact h
  case lists => exact hl
  case safe =>
    intro h i hi
    obtain ⟨hb, he', hn⟩ := h i hi
    exact ⟨hb, by show x.effective ≠ _; rw [he]; exact he', hn⟩
  all_goals exact fun h => h

theorem postTrip_only (s : State) (e : LocalEntry) (st : TripNoticeState) : Only [.ctl, .notices] s (s.postTrip e st) := post_only s _
theorem postTrip_keeps (s : State) (e : LocalEntry) (st : TripNoticeState) : Keeps [] s (s.postTrip e st) := post_keeps s _
theorem postRemoteTrips_only (s : State) : Only [.ctl, .notices] s s.postRemoteTrips := post_only s _
theorem postRemoteTrips_keeps (s : State) : Keeps [] s s.postRemoteTrips := post_keeps s _

/-! ## The effective class and its reactions (R109 to R112) -/

theorem lineReaction_only (s : State) : Only [.angle, .master, .ctl, .notices] s s.lineReaction := by
  unfold State.lineReaction
  dsimp only
  split
  · exact Only.after (postLineState_only _) (Only.up (angleMaster_only s _ _ (by rfl) (by rfl) (by rfl)))
  · exact Only.up (angleMaster_only s _ _ (by rfl) (by rfl) (by rfl))

theorem lineReaction_keeps (s : State) : Keeps [] s s.lineReaction := by
  unfold State.lineReaction
  dsimp only
  split
  · exact Keeps.after (postLineState_keeps _) (angleMaster_keeps s _ _ (by rfl) (by rfl))
  · exact angleMaster_keeps s _ _ (by rfl) (by rfl)

theorem reform_only (s : State) : Only [.angle, .master, .axes, .trips, .ctl, .notices] s s.reform := by
  unfold State.reform
  dsimp only
  split
  · exact Only.refl _ s
  · have h : Only [.angle, .master, .axes, .trips, .ctl, .notices] s (State.postRemoteTrips { s with trips :=
        { s.trips with effective := s.trips.formed, impressionOff := assertsImpressionOff s.trips.formed } }) :=
      Only.after (postRemoteTrips_only _) (Only.up (trips_only_lists s _ (by rfl)))
    split
    · split
      · exact Only.after (lineReaction_only _) (Only.after (inhibitAll_only _ _) h)
      · exact Only.after (inhibitAll_only _ _) h
    · split
      · exact Only.after (lineReaction_only _) h
      · exact h

/-- The trip unit after its effective class was formed again. -/
theorem reform_trips (s : State) :
    s.reform.trips = if s.trips.formed = s.trips.effective then s.trips
      else { s.trips with effective := s.trips.formed, impressionOff := assertsImpressionOff s.trips.formed } := by
  unfold State.reform
  dsimp only
  by_cases h : s.trips.formed = s.trips.effective
  · rw [if_pos h, if_pos h]
  · rw [if_neg h, if_neg h]
    split
    · split
      · rw [← lineReaction_only _ .trips (by decide), ← inhibitAll_only _ _ .trips (by decide)]; rfl
      · rw [← inhibitAll_only _ _ .trips (by decide)]; rfl
    · split
      · rw [← lineReaction_only _ .trips (by decide)]; rfl
      · rfl

/-- After it is formed again the effective class is the one R109 forms, and the lists are as they were. -/
theorem reform_formed (s : State) :
    s.reform.trips.effective = s.reform.trips.formed ∧ s.reform.trips.localList = s.trips.localList
      ∧ s.reform.trips.remote = s.trips.remote ∧ s.reform.trips.sources = s.trips.sources := by
  rw [reform_trips]
  split
  · next h => exact ⟨h.symm, rfl, rfl, rfl⟩
  · exact ⟨rfl, rfl, rfl, rfl⟩

theorem reform_keeps (s : State) : Keeps [.trips] s s.reform := by
  unfold State.reform
  dsimp only
  split
  · exact Keeps.refl _ s
  · have h : Keeps [.safe, .trips] s (State.postRemoteTrips { s with trips :=
        { s.trips with effective := s.trips.formed, impressionOff := assertsImpressionOff s.trips.formed } }) := by
      refine Keeps.after (postRemoteTrips_keeps _) ?_
      intro l hl
      cases l
      case safe => exact absurd (by decide) hl
      case trips => exact absurd (by decide) hl
      case impression => exact fun _ => rfl
      all_goals exact fun h => h
    split
    · have h2 : Keeps [.trips] s (State.inhibitAll (State.postRemoteTrips { s with trips :=
          { s.trips with effective := s.trips.formed, impressionOff := assertsImpressionOff s.trips.formed } }) .trip) :=
        Keeps.put .safe (Keeps.after (inhibitAll_keeps _ _) h) (fun _ => inhibitAll_safe _ _)
      split
      · exact Keeps.after (lineReaction_keeps _) h2
      · exact h2
    · next hc =>
      have h2 : Keeps [.trips] s (State.postRemoteTrips { s with trips :=
          { s.trips with effective := s.trips.formed, impressionOff := assertsImpressionOff s.trips.formed } }) :=
        Keeps.put .safe h (fun hs i hi => ⟨(hs i hi).1, hc, (hs i hi).2.2⟩)
      split
      · exact Keeps.after (lineReaction_keeps _) h2
      · exact h2

theorem reportHeadTrip_only (s : State) : Only [.fresh, .screen] s s.reportHeadTrip := reportHead_only s _
theorem reportHeadTrip_keeps (s : State) : Keeps [.trips] s s.reportHeadTrip := reportHead_keeps s _

theorem listsChanged_only (s : State) :
    Only [.fresh, .angle, .master, .axes, .trips, .screen, .ctl, .notices] s s.listsChanged := by
  unfold State.listsChanged
  exact Only.after (reportHeadTrip_only _) (Only.up (reform_only s))

theorem listsChanged_keeps (s : State) : Keeps [.trips] s s.listsChanged := by
  unfold State.listsChanged
  exact Keeps.after (reportHeadTrip_keeps _) (reform_keeps s)

theorem listsChanged_lists (s : State) : s.listsChanged.trips.localList = s.trips.localList
    ∧ s.listsChanged.trips.remote = s.trips.remote ∧ s.listsChanged.trips.sources = s.trips.sources := by
  have h : s.listsChanged.trips = s.reform.trips := (reportHeadTrip_only s.reform .trips (by decide)).symm
  rw [h]
  exact ⟨(reform_formed s).2.1, (reform_formed s).2.2.1, (reform_formed s).2.2.2⟩

/-- Whatever the lists were changed to, the effective class and the head class answer them (R109, R112). -/
theorem listsChanged_trips (s : State) : TripsOk s.listsChanged := by
  have h : s.listsChanged.trips = s.reform.trips := (reportHeadTrip_only s.reform .trips (by decide)).symm
  have ha : s.listsChanged.angle = s.reform.angle := (reportHeadTrip_only s.reform .angle (by decide)).symm
  refine ⟨by rw [h]; exact (reform_formed s).1, ?_⟩
  have hh : s.listsChanged.headTrip = s.reform.headTrip := by unfold State.headTrip; rw [h, ha]
  rw [hh]
  exact reportHead_headClass _ _

/-! ## The local trip list (R98 to R102) -/

theorem setEntry_only (s : State) (e : LocalEntry) : Only [.trips] s (s.setEntry e) := trips_only_lists s _ (by rfl)

theorem setEntry_keeps (s : State) (e : LocalEntry) : Keeps [] s (s.setEntry e) := by
  have hw : ∀ l : List LocalEntry, (l.map fun x => if x.source = e.source then { x with state := e.state, repeats := e.repeats } else x).foldl
      (fun c e => maxClass c e.cls) TripClass.none = l.foldl (fun c e => maxClass c e.cls) TripClass.none := by
    intro l
    rw [List.foldl_map]
    congr 1
    funext c x
    split <;> rfl
  refine Keeps.put .trips (trips_keeps_lists s _ (by rfl) (by rfl) fun h => ?_) ?_
  · refine ⟨?_, h.2⟩
    show ((s.trips.localList.map fun x => if x.source = e.source then { x with state := e.state, repeats := e.repeats } else x).map
      (·.source)).Nodup
    rw [List.map_map]
    have : ((fun x : LocalEntry => x.source) ∘ fun x => if x.source = e.source then { x with state := e.state, repeats := e.repeats } else x)
        = fun x => x.source := by funext x; dsimp only [Function.comp]; split <;> rfl
    rw [this]; exact h.1
  · intro h
    have h : TripsOk s := h
    refine ⟨?_, ?_⟩
    · have hf : (s.setEntry e).trips.formed = s.trips.formed := by
        unfold TripUnit.formed TripUnit.worst
        exact congrArg (fun c => maxClass (maxClass c _) _) (hw s.trips.localList)
      exact h.1.trans hf.symm
    · show s.screen.headClass = (((headOf (List.map _ (List.map _ s.trips.localList) ++ _)).map (·.1)).map (·.cls)).getD .none
      rw [List.map_map]
      have : ((fun e : LocalEntry => (({ origin := s.angle.nodeId, source := e.source.val, cls := e.cls } : HeadTrip), e.priority)) ∘
          fun x => if x.source = e.source then { x with state := e.state, repeats := e.repeats } else x)
          = fun e => ({ origin := s.angle.nodeId, source := e.source.val, cls := e.cls }, e.priority) := by
        funext x; dsimp only [Function.comp]; split <;> rfl
      show s.screen.headClass = (((headOf (List.map ((fun e : LocalEntry =>
        (({ origin := s.angle.nodeId, source := e.source.val, cls := e.cls } : HeadTrip), e.priority)) ∘ _) s.trips.localList ++ _)).map
          (·.1)).map (·.cls)).getD .none
      rw [this]; exact h.2

theorem entryOf_none (s : State) (i : Fin 24) (h : s.entryOf i = none) : i ∉ s.trips.localList.map (·.source) := by
  intro hm
  obtain ⟨e, he, hs⟩ := List.mem_map.mp hm
  have := List.find?_eq_none.mp h e he
  simp [hs] at this

theorem latch_only (s : State) (i : Fin 24) (st : EntryState) :
    Only [.fresh, .angle, .master, .axes, .ring, .trips, .screen, .ctl, .notices] s (s.latch i st) := by
  unfold State.latch
  exact Only.after (listsChanged_only _) (Only.after (postTrip_only _ _ _) (Only.after (sendTripFrame_only _ _ _)
    (Only.up (trips_only_lists s _ (by rfl)))))

theorem latch_keeps (s : State) (i : Fin 24) (st : EntryState) (hn : s.entryOf i = none) : Keeps [] s (s.latch i st) := by
  unfold State.latch
  refine Keeps.put .trips (Keeps.after (listsChanged_keeps _) (Keeps.after (postTrip_keeps _ _ _) (Keeps.after
    (sendTripFrame_keeps _ _ _) (trips_keeps_lists s _ (by rfl) (by rfl) fun h => ⟨?_, h.2⟩)))) (fun _ => listsChanged_trips _)
  show (List.map _ (s.trips.localList ++ [_])).Nodup
  rw [List.map_append, List.nodup_append]
  exact ⟨h.1, by simp, fun a ha b hb hab => entryOf_none s i hn (by simp at hb; rw [← hb, ← hab]; exact ha)⟩

theorem removeEntry_only (s : State) (e : LocalEntry) :
    Only [.fresh, .angle, .master, .axes, .ring, .trips, .screen, .ctl, .notices] s (s.removeEntry e) := by
  unfold State.removeEntry
  exact Only.after (listsChanged_only _) (Only.after (postTrip_only _ _ _) (Only.after (sendTripFrame_only _ _ _)
    (Only.up (trips_only_lists s _ (by rfl)))))

theorem removeEntry_keeps (s : State) (e : LocalEntry) : Keeps [] s (s.removeEntry e) := by
  unfold State.removeEntry
  refine Keeps.put .trips (Keeps.after (listsChanged_keeps _) (Keeps.after (postTrip_keeps _ _ _) (Keeps.after
    (sendTripFrame_keeps _ _ _) (trips_keeps_lists s _ (by rfl) (by rfl) fun h => ⟨?_, h.2⟩)))) (fun _ => listsChanged_trips _)
  exact h.1.sublist (List.filter_sublist.map _)

theorem repeatEntry_only (s : State) (e : LocalEntry) (st : EntryState) : Only [.trips, .ctl, .notices] s (s.repeatEntry e st) := by
  unfold State.repeatEntry
  exact Only.after (postTrip_only _ _ _) (Only.up (setEntry_only s _))

theorem repeatEntry_keeps (s : State) (e : LocalEntry) (st : EntryState) : Keeps [] s (s.repeatEntry e st) := by
  unfold State.repeatEntry
  exact Keeps.after (postTrip_keeps _ _ _) (setEntry_keeps s _)

theorem appears_only (s : State) (i : Fin 24) :
    Only [.fresh, .angle, .master, .axes, .ring, .trips, .screen, .ctl, .notices] s (s.appears i) := by
  unfold State.appears
  split
  · exact Only.ite (fun _ => latch_only s i _) (fun _ => Only.refl _ s)
  · exact Only.ite (fun _ => Only.up (repeatEntry_only s _ _)) (fun _ => Only.refl _ s)

theorem appears_keeps (s : State) (i : Fin 24) : Keeps [] s (s.appears i) := by
  unfold State.appears
  split
  · next h => exact Keeps.ite (fun _ => latch_keeps s i _ h) (fun _ => Keeps.refl _ s)
  · exact Keeps.ite (fun _ => repeatEntry_keeps s _ _) (fun _ => Keeps.refl _ s)

theorem edgeOccurs_only (s : State) (i : Fin 24) :
    Only [.fresh, .angle, .master, .axes, .ring, .trips, .screen, .ctl, .notices] s (s.edgeOccurs i) := by
  unfold State.edgeOccurs
  split
  · exact Only.ite (fun _ => latch_only s i _) (fun _ => Only.refl _ s)
  · exact Only.up (repeatEntry_only s _ _)

theorem edgeOccurs_keeps (s : State) (i : Fin 24) : Keeps [] s (s.edgeOccurs i) := by
  unfold State.edgeOccurs
  split
  · next h => exact Keeps.ite (fun _ => latch_keeps s i _ h) (fun _ => Keeps.refl _ s)
  · exact repeatEntry_keeps s _ _

theorem drops_only (s : State) (i : Fin 24) :
    Only [.fresh, .angle, .master, .axes, .ring, .trips, .screen, .ctl, .notices] s (s.drops i) := by
  unfold State.drops
  split
  · exact Only.refl _ s
  · split
    · exact Only.after (postTrip_only _ _ _) (Only.up (setEntry_only s _))
    · exact removeEntry_only s _
    · exact Only.refl _ s

theorem drops_keeps (s : State) (i : Fin 24) : Keeps [] s (s.drops i) := by
  unfold State.drops
  split
  · exact Keeps.refl _ s
  · split
    · exact Keeps.after (postTrip_keeps _ _ _) (setEntry_keeps s _)
    · exact removeEntry_keeps s _
    · exact Keeps.refl _ s

/-- What a change of a source's condition may change: of the sources, that condition alone. -/
theorem setCondition_only (s : State) (i : Fin 24) (b : Bool) :
    Only [.fresh, .angle, .master, .axes, .ring, .trips, .sources, .screen, .ctl, .notices] s (s.setCondition i b) := by
  unfold State.setCondition
  dsimp only
  split
  · exact Only.refl _ s
  · split
    · exact Only.after (appears_only _ i) (Only.up (setSource_only s i _))
    · exact Only.after (drops_only _ i) (Only.up (setSource_only s i _))

theorem setCondition_keeps (s : State) (i : Fin 24) (b : Bool) : Keeps [] s (s.setCondition i b) := by
  unfold State.setCondition
  dsimp only
  split
  · exact Keeps.refl _ s
  · split
    · exact Keeps.after (appears_keeps _ i) (setSource_keeps s i _)
    · exact Keeps.after (drops_keeps _ i) (setSource_keeps s i _)

/-- The source records after a change of a condition: the condition of that source alone is new. -/
theorem setCondition_source (s : State) (i j : Fin 24) (b : Bool) :
    (s.setCondition i b).source j = if i = j then { s.source j with condition := b } else s.source j := by
  have hsrc : ∀ t : State, t.trips.sources = (s.setSource i { s.source i with condition := b }).trips.sources →
      t.source j = if i = j then { s.source j with condition := b } else s.source j := by
    intro t ht
    have : t.source j = (s.setSource i { s.source i with condition := b }).source j := congrArg (fun v => v[j]) ht
    rw [this]
    by_cases e : i = j
    · subst e; simp
    · rw [setSource_source_ne _ _ _ _ e, if_neg e]
  unfold State.setCondition
  dsimp only
  split
  · next h =>
    by_cases e : i = j
    · subst e; rw [if_pos rfl, ← h]
    · rw [if_neg e]
  · split
    · exact hsrc _ (appears_only _ i .sources (by decide)).symm
    · exact hsrc _ (drops_only _ i .sources (by decide)).symm

/-! ## Pins (R94) -/

theorem setFiltered_only (s : State) (pin : Fin 12) (level : Bool) :
    Only [.fresh, .angle, .master, .axes, .ring, .trips, .sources, .screen, .ctl, .notices] s (s.setFiltered pin level) := by
  unfold State.setFiltered
  dsimp only
  split
  · exact Only.up (setSource_only s _ _)
  · split
    · exact Only.after (edgeOccurs_only _ _) (Only.after (setCondition_only _ _ _) (Only.up (setSource_only s _ _)))
    · exact Only.after (setCondition_only _ _ _) (Only.up (setSource_only s _ _))

theorem setFiltered_keeps (s : State) (pin : Fin 12) (level : Bool) : Keeps [] s (s.setFiltered pin level) := by
  unfold State.setFiltered
  dsimp only
  split
  · exact setSource_keeps s _ _
  · split
    · exact Keeps.after (edgeOccurs_keeps _ _) (Keeps.after (setCondition_keeps _ _ _) (setSource_keeps s _ _))
    · exact Keeps.after (setCondition_keeps _ _ _) (setSource_keeps s _ _)

theorem pinChanges_only (s : State) (pin : Fin 12) (level : Bool) :
    Only [.fresh, .angle, .master, .axes, .ring, .trips, .sources, .screen, .ctl, .notices] s (s.pinChanges pin level) := by
  unfold State.pinChanges
  dsimp only
  generalize (if level = true then s.trips.pins ||| BitVec.twoPow 12 pin.val else s.trips.pins &&& ~~~ BitVec.twoPow 12 pin.val) = q
  split
  · exact Only.refl _ s
  · split
    · exact Only.after (setFiltered_only _ _ _) (Only.up (trips_only s _))
    · split
      · exact Only.after (setSource_only _ _ _) (Only.up (trips_only s _))
      · exact Only.after (setSource_only _ _ _) (Only.up (trips_only s _))

theorem pinChanges_keeps (s : State) (pin : Fin 12) (level : Bool) : Keeps [] s (s.pinChanges pin level) := by
  unfold State.pinChanges
  dsimp only
  have h : ∀ p, Keeps [] s { s with trips := { s.trips with pins := p } } :=
    fun p => trips_keeps s _ rfl rfl rfl rfl rfl rfl rfl
  generalize (if level = true then s.trips.pins ||| BitVec.twoPow 12 pin.val else s.trips.pins &&& ~~~ BitVec.twoPow 12 pin.val) = q
  split
  · exact Keeps.refl _ s
  · split
    · exact Keeps.after (setFiltered_keeps _ _ _) (h _)
    · split
      · exact Keeps.after (setSource_keeps _ _ _) (h _)
      · exact Keeps.after (setSource_keeps _ _ _) (h _)

/-! ## The remote trip table (R105 to R108) -/

theorem settleOverflow_only (s : State) :
    Only [.fresh, .angle, .master, .axes, .trips, .screen, .ctl, .notices] s s.settleOverflow := by
  unfold State.settleOverflow
  split
  · exact Only.after (listsChanged_only _) (Only.after (postRemoteTrips_only _) (Only.up (trips_only_lists s _ (by rfl))))
  · exact Only.refl _ s

theorem settleOverflow_keeps (s : State) : Keeps [] s s.settleOverflow := by
  unfold State.settleOverflow
  split
  · exact Keeps.put .trips (Keeps.after (listsChanged_keeps _) (Keeps.after (postRemoteTrips_keeps _)
      (trips_keeps_lists s _ (by rfl) (by rfl) fun h => h))) (fun _ => listsChanged_trips _)
  · exact Keeps.refl _ s

theorem record_sources (t : TripUnit) (o n : Nat) (c : TripClass) (p : Nat) (y : Num16) :
    (t.record o n c p y).sources = t.sources ∧ (t.record o n c p y).effective = t.effective
      ∧ (t.record o n c p y).impressionOff = t.impressionOff ∧ (t.record o n c p y).localList = t.localList := by
  unfold TripUnit.record
  split
  · exact ⟨rfl, rfl, rfl, rfl⟩
  · split <;> exact ⟨rfl, rfl, rfl, rfl⟩

theorem renew_key (o n : Nat) (c : TripClass) (p : Nat) (e : RemoteEntry) :
    (RemoteEntry.renew o n c p e).origin = e.origin ∧ (RemoteEntry.renew o n c p e).source = e.source := by
  unfold RemoteEntry.renew; split <;> exact ⟨rfl, rfl⟩

/-- A TRIP frame of another node keeps the table's keys distinct, its room and its origins (R105). -/
theorem record_lists (s : State) (o n : Nat) (c : TripClass) (p : Nat) (y : Num16) (ho : o ≠ s.angle.nodeId) (h : TripListsOk s) :
    TripListsOk { s with trips := s.trips.record o n c p y } := by
  refine ⟨by show ((s.trips.record o n c p y).localList.map _).Nodup; rw [(record_sources _ _ _ _ _ _).2.2.2]; exact h.1, ?_⟩
  show ((s.trips.record o n c p y).remote.map _).Nodup ∧ (s.trips.record o n c p y).remote.length ≤ 32
    ∧ ∀ e ∈ (s.trips.record o n c p y).remote, e.origin ≠ s.angle.nodeId
  unfold TripUnit.record
  split
  · refine ⟨?_, by simpa using h.2.2.1, fun e he => ?_⟩
    · show ((s.trips.remote.map (RemoteEntry.renew o n c p)).map _).Nodup
      rw [List.map_map]
      have : ((fun e : RemoteEntry => (e.origin, e.source)) ∘ RemoteEntry.renew o n c p) = fun e => (e.origin, e.source) := by
        funext e; exact Prod.ext (renew_key o n c p e).1 (renew_key o n c p e).2
      rw [this]; exact h.2.1
    · obtain ⟨e', he', hee⟩ := List.mem_map.mp he
      rw [← hee, (renew_key o n c p e').1]; exact h.2.2.2 e' he'
  · next hno =>
    split
    · next hroom =>
      refine ⟨?_, ?_, fun e he => ?_⟩
      · show (List.map _ (s.trips.remote ++ [_])).Nodup
        rw [List.map_append, List.nodup_append]
        refine ⟨h.2.1, by simp, fun a ha b hb hab => hno ?_⟩
        obtain ⟨e, he, hk⟩ := List.mem_map.mp ha
        simp at hb
        rw [hab, hb] at hk
        refine List.any_eq_true.mpr ⟨e, he, decide_eq_true ?_⟩
        exact ⟨congrArg Prod.fst hk, congrArg Prod.snd hk⟩
      · show (s.trips.remote ++ [_]).length ≤ 32
        rw [List.length_append, List.length_singleton]; exact hroom
      · rcases List.mem_append.mp he with h1 | h1
        · exact h.2.2.2 e h1
        · rw [List.mem_singleton.mp h1]; exact ho
    · exact h.2

theorem deliverTrip_only (s : State) (o : Nat) (p : List Byte) :
    Only [.fresh, .angle, .master, .axes, .trips, .screen, .ctl, .notices] s (s.deliverTrip o p) := by
  unfold State.deliverTrip
  exact Only.after (listsChanged_only _) (Only.after (postRemoteTrips_only _) (Only.up (trips_only_lists s _
    (record_sources _ _ _ _ _ _).1)))

theorem deliverTrip_keeps (s : State) (o : Nat) (p : List Byte) (ho : o ≠ s.angle.nodeId) : Keeps [] s (s.deliverTrip o p) := by
  unfold State.deliverTrip
  exact Keeps.put .trips (Keeps.after (listsChanged_keeps _) (Keeps.after (postRemoteTrips_keeps _)
    (trips_keeps_lists s _ (record_sources _ _ _ _ _ _).2.1 (record_sources _ _ _ _ _ _).2.2.1 (record_lists s _ _ _ _ _ ho))))
    (fun _ => listsChanged_trips _)

/-- Entries left out of the remote table keep what R105 says of it. -/
theorem remote_sublist_lists (s : State) (x : TripUnit) (hl : x.localList = s.trips.localList)
    (hk : (x.remote.map fun e => (e.origin, e.source)).Sublist (s.trips.remote.map fun e => (e.origin, e.source)))
    (h : TripListsOk s) : TripListsOk { s with trips := x } := by
  refine ⟨by show (x.localList.map _).Nodup; rw [hl]; exact h.1, h.2.1.sublist hk, ?_, fun e he => ?_⟩
  · have := hk.length_le
    simp at this
    exact Nat.le_trans this h.2.2.1
  · have : (e.origin, e.source) ∈ s.trips.remote.map fun e => (e.origin, e.source) :=
      hk.subset (List.mem_map.mpr ⟨e, he, rfl⟩)
    obtain ⟨e', he', hk'⟩ := List.mem_map.mp this
    have : e'.origin = e.origin := congrArg Prod.fst hk'
    show e.origin ≠ s.angle.nodeId
    rw [← this]; exact h.2.2.2 e' he'

theorem deliverTripClear_only (s : State) (o : Nat) (p : List Byte) :
    Only [.fresh, .angle, .master, .axes, .trips, .screen, .ctl, .notices] s (s.deliverTripClear o p) := by
  unfold State.deliverTripClear
  dsimp only
  split
  · exact Only.after (settleOverflow_only _) (Only.after (listsChanged_only _) (Only.after (postRemoteTrips_only _)
      (Only.up (trips_only_lists s _ (by rfl)))))
  · exact Only.up (trips_only_lists s _ (by rfl))

theorem deliverTripClear_keeps (s : State) (o : Nat) (p : List Byte) : Keeps [] s (s.deliverTripClear o p) := by
  unfold State.deliverTripClear
  dsimp only
  split
  · refine Keeps.after (settleOverflow_keeps _) (Keeps.put .trips (Keeps.after (listsChanged_keeps _) (Keeps.after
      (postRemoteTrips_keeps _) (trips_keeps_lists s _ (by rfl) (by rfl) fun h => ?_))) (fun _ => listsChanged_trips _))
    exact remote_sublist_lists s _ rfl (List.filter_sublist.map _) h
  · exact trips_keeps s _ rfl rfl rfl rfl rfl rfl rfl

theorem judged_fields (e : RemoteEntry) (v : Vector StatusSlot 32) :
    (e.judged v).origin = e.origin ∧ (e.judged v).source = e.source ∧ (e.judged v).cls = e.cls ∧ (e.judged v).priority = e.priority :=
  ⟨rfl, rfl, rfl, rfl⟩

theorem keptEntries_keys (r : List RemoteEntry) (v : Vector StatusSlot 32) :
    ((keptEntries r v).map fun e => (e.origin, e.source)).Sublist (r.map fun e => (e.origin, e.source)) := by
  unfold keptEntries
  have h : ((r.map fun e => e.judged v).map fun e => (e.origin, e.source)) = r.map fun e => (e.origin, e.source) := by
    rw [List.map_map]; rfl
  rw [← h]
  exact List.filter_sublist.map _

/-- With no entry pruned the table holds the same trips. -/
theorem keptEntries_all (r : List RemoteEntry) (v : Vector StatusSlot 32) (h : (keptEntries r v).length = r.length) :
    keptEntries r v = r.map fun e => e.judged v := by
  unfold keptEntries at h ⊢
  rw [List.filter_eq_self]
  have h : (List.filter (fun e : RemoteEntry => decide (e.lowCount < 2)) (r.map fun e => e.judged v)).length
      = (r.map fun e => e.judged v).length := by rw [h, List.length_map]
  exact List.length_filter_eq_length_iff.mp h

theorem keepRemote_only (s : State) (k : List RemoteEntry) :
    Only [.fresh, .angle, .master, .axes, .trips, .screen, .ctl, .notices] s (s.keepRemote k) := by
  unfold State.keepRemote
  split
  · exact Only.up (trips_only_lists s _ (by rfl))
  · exact Only.after (settleOverflow_only _) (Only.after (listsChanged_only _) (Only.after (postRemoteTrips_only _)
      (Only.up (trips_only_lists s _ (by rfl)))))

theorem keepRemote_keeps (s : State) (v : Vector StatusSlot 32) : Keeps [] s (s.keepRemote (keptEntries s.trips.remote v)) := by
  unfold State.keepRemote
  split
  · next hl =>
    refine Keeps.put .trips (trips_keeps_lists s _ (by rfl) (by rfl)
      (remote_sublist_lists s _ rfl (keptEntries_keys _ _))) fun h => ?_
    have h : TripsOk s := h
    have hk := keptEntries_all _ _ hl
    refine ⟨?_, ?_⟩
    · show s.trips.effective = maxClass (maxClass _ (List.foldl (fun c e => maxClass c e.cls) _ (keptEntries s.trips.remote v))) _
      rw [hk, List.foldl_map]; exact h.1
    · show s.screen.headClass = (((headOf (_ ++ List.map _ (keptEntries s.trips.remote v))).map (·.1)).map (·.cls)).getD .none
      rw [hk, List.map_map]; exact h.2
  · refine Keeps.after (settleOverflow_keeps _) (Keeps.put .trips (Keeps.after (listsChanged_keeps _) (Keeps.after
      (postRemoteTrips_keeps _) (trips_keeps_lists s _ (by rfl) (by rfl) fun h => ?_))) (fun _ => listsChanged_trips _))
    exact remote_sublist_lists s _ rfl (keptEntries_keys _ _) h

theorem takeVector_only (s : State) (v : Vector StatusSlot 32) :
    Only [.fresh, .angle, .master, .axes, .trips, .screen, .ctl, .notices] s (s.takeVector v) := by
  unfold State.takeVector State.holdVector
  exact Only.after (keepRemote_only _ _) (Only.after (reform_only _) (Only.up (trips_only_lists s _ (by rfl))))

/-- The held slots replaced and the effective class formed again: the lists are as they were. -/
theorem reheld_keeps (s : State) (w : Vector (Option TripClass) 32) :
    Keeps [] s (State.reform { s with trips := { s.trips with held := w } })
      ∧ (State.reform { s with trips := { s.trips with held := w } }).trips.remote = s.trips.remote := by
  generalize ht : ({ s with trips := { s.trips with held := w } } : State) = t
  have hremote : t.trips.remote = s.trips.remote := by rw [← ht]
  have hlocal : t.trips.localList = s.trips.localList := by rw [← ht]
  have hscreen : t.screen = s.screen := by rw [← ht]
  have hnode : t.angle.nodeId = s.angle.nodeId := by rw [← ht]
  have h1 : Keeps [.trips] s t := by
    rw [← ht]; exact trips_keeps_lists s _ (by rfl) (by rfl) fun h => h
  refine ⟨Keeps.put .trips (Keeps.after (reform_keeps t) h1) fun h => ?_, (reform_formed t).2.2.1.trans hremote⟩
  have h : TripsOk s := h
  refine ⟨(reform_formed t).1, ?_⟩
  have hs : t.reform.screen = s.screen := (reform_only t .screen (by decide)).symm.trans hscreen
  have hi : t.reform.angle.nodeId = s.angle.nodeId := (reform_only t .identity (by decide)).2.symm.trans hnode
  have hh : t.reform.headTrip = s.headTrip := by
    unfold State.headTrip TripUnit.candidates
    rw [(reform_formed t).2.1, (reform_formed t).2.2.1, hi, hremote, hlocal]
  rw [hs, hh]; exact h.2

theorem retake_keeps (s : State) (w : Vector (Option TripClass) 32) (v : Vector StatusSlot 32) :
    Keeps [] s ((State.reform { s with trips := { s.trips with held := w } }).keepRemote (keptEntries s.trips.remote v)) := by
  obtain ⟨h1, hr⟩ := reheld_keeps s w
  have h3 := keepRemote_keeps (State.reform { s with trips := { s.trips with held := w } }) v
  rw [hr] at h3
  exact h1.trans h3

theorem takeVector_keeps (s : State) (v : Vector StatusSlot 32) : Keeps [] s (s.takeVector v) :=
  retake_keeps s (heldOf v s.angle.nodeId) v

/-! ## The keepalive window and the requests (R96, R97, R101, R113, R114) -/

theorem openWindow_only (s : State) : Only [.trips] s s.openWindow := trips_only_lists s _ rfl
theorem openWindow_keeps (s : State) : Keeps [] s s.openWindow := trips_keeps s _ rfl rfl rfl rfl rfl rfl rfl

theorem keepaliveFault_only (s : State) :
    Only [.fresh, .angle, .master, .axes, .ring, .trips, .sources, .screen, .ctl, .notices] s s.keepaliveFault := by
  unfold State.keepaliveFault
  split
  · exact Only.refl _ s
  · exact Only.after (setCondition_only _ _ _) (Only.up (trips_only_lists s _ (by rfl)))

theorem keepaliveFault_keeps (s : State) : Keeps [] s s.keepaliveFault := by
  unfold State.keepaliveFault
  split
  · exact Keeps.refl _ s
  · exact Keeps.after (setCondition_keeps _ _ _) (trips_keeps s _ (by rfl) (by rfl) (by rfl) (by rfl) (by rfl) (by rfl) (by rfl))

theorem workKeepalive_only (s : State) :
    Only [.fresh, .angle, .master, .axes, .ring, .trips, .sources, .screen, .ctl, .notices] s (workKeepalive s).1 := by
  unfold workKeepalive
  split
  · exact Only.refl _ s
  · split
    · exact Only.after (keepaliveFault_only _) (Only.up (openWindow_only s))
    · exact Only.after (setCondition_only _ _ _) (Only.up (openWindow_only s))
  · exact Only.after (setCondition_only _ _ _) (Only.up (openWindow_only s))

theorem workKeepalive_keeps (s : State) : Keeps [] s (workKeepalive s).1 := by
  unfold workKeepalive
  split
  · exact Keeps.refl _ s
  · split
    · exact Keeps.after (keepaliveFault_keeps _) (openWindow_keeps s)
    · exact Keeps.after (setCondition_keeps _ _ _) (openWindow_keeps s)
  · exact Keeps.after (setCondition_keeps _ _ _) (openWindow_keeps s)

theorem workSetKeepalive_only (f : KeepaliveLimits) (s : State) :
    Only [.fresh, .angle, .master, .axes, .ring, .trips, .sources, .screen, .ctl, .notices] s (workSetKeepalive f s).1 := by
  unfold workSetKeepalive
  split
  · exact Only.after (setCondition_only _ _ _) (Only.up (trips_only_lists s _ (by rfl)))
  · split
    · exact Only.refl _ s
    · exact Only.after (openWindow_only _) (Only.up (trips_only_lists s _ (by rfl)))

theorem workSetKeepalive_keeps (f : KeepaliveLimits) (s : State) : Keeps [] s (workSetKeepalive f s).1 := by
  unfold workSetKeepalive
  split
  · exact Keeps.after (setCondition_keeps _ _ _) (trips_keeps s _ (by rfl) (by rfl) (by rfl) (by rfl) (by rfl) (by rfl) (by rfl))
  · split
    · exact Keeps.refl _ s
    · exact Keeps.after (openWindow_keeps _) (trips_keeps s _ (by rfl) (by rfl) (by rfl) (by rfl) (by rfl) (by rfl) (by rfl))

theorem windowExpires_only (s : State) :
    Only [.fresh, .angle, .master, .axes, .ring, .trips, .sources, .screen, .ctl, .notices] s s.windowExpires := by
  unfold State.windowExpires
  exact Only.after (keepaliveFault_only _) (Only.up (trips_only_lists s _ (by rfl)))

theorem windowExpires_keeps (s : State) : Keeps [] s s.windowExpires := by
  unfold State.windowExpires
  exact Keeps.after (keepaliveFault_keeps _) (trips_keeps s _ (by rfl) (by rfl) (by rfl) (by rfl) (by rfl) (by rfl) (by rfl))

theorem applySource_only (s : State) (i : Fin 24) (f : SourceFields) :
    Only [.fresh, .angle, .master, .axes, .ring, .trips, .sources, .screen, .ctl, .notices] s (s.applySource i f) := by
  unfold State.applySource
  dsimp only
  split
  · have h : Only [.fresh, .angle, .master, .axes, .ring, .trips, .sources, .screen, .ctl, .notices] s
        ((s.setSource i { s.source i with
          enable := f.enable, cls := f.cls, priority := f.priority, conditioning := f.conditioning, filter := f.filter }).setCondition
            i (levelCondition f.conditioning (s.source i).filtered)) :=
      Only.after (setCondition_only _ _ _) (Only.up (setSource_only s i _))
    split
    · split
      · exact Only.after (latch_only _ _ _) (Only.after (setFiltered_only _ _ _) h)
      · exact Only.after (setFiltered_only _ _ _) h
    · split
      · exact Only.after (latch_only _ _ _) h
      · exact h
  · split
    · exact Only.after (latch_only _ _ _) (Only.up (setSource_only s i _))
    · exact Only.up (setSource_only s i _)

theorem isNone_of_and {a b c d : Bool} {α : Type} {x : Option α} (h : (a && b && c && d && x.isNone) = true) : x = none := by
  rw [Bool.and_eq_true] at h
  exact Option.isNone_iff_eq_none.mp h.2

theorem applySource_keeps (s : State) (i : Fin 24) (f : SourceFields) : Keeps [] s (s.applySource i f) := by
  unfold State.applySource
  dsimp only
  split
  · have h : Keeps [] s
        ((s.setSource i { s.source i with
          enable := f.enable, cls := f.cls, priority := f.priority, conditioning := f.conditioning, filter := f.filter }).setCondition
            i (levelCondition f.conditioning (s.source i).filtered)) :=
      Keeps.after (setCondition_keeps _ _ _) (setSource_keeps s i _)
    split
    · split
      · next hc => exact Keeps.after (latch_keeps _ _ _ (isNone_of_and hc)) (Keeps.after (setFiltered_keeps _ _ _) h)
      · exact Keeps.after (setFiltered_keeps _ _ _) h
    · split
      · next hc => exact Keeps.after (latch_keeps _ _ _ (isNone_of_and hc)) h
      · exact h
  · split
    · next hc => exact Keeps.after (latch_keeps _ _ _ (isNone_of_and hc)) (setSource_keeps s i _)
    · exact setSource_keeps s i _

theorem workSetTripSource_only (f : SourceFields) (s : State) :
    Only [.fresh, .angle, .master, .axes, .ring, .trips, .sources, .screen, .ctl, .notices] s (workSetTripSource f s).1 := by
  unfold workSetTripSource
  split
  · dsimp only
    split
    · exact Only.refl _ s
    · exact applySource_only s _ f
  · exact Only.refl _ s

theorem workSetTripSource_keeps (f : SourceFields) (s : State) : Keeps [] s (workSetTripSource f s).1 := by
  unfold workSetTripSource
  split
  · dsimp only
    split
    · exact Keeps.refl _ s
    · exact applySource_keeps s _ f
  · exact Keeps.refl _ s

theorem ackSource_only (s : State) (i : Fin 24) :
    Only [.fresh, .angle, .master, .axes, .ring, .trips, .screen, .ctl, .notices] s (s.ackSource i) := by
  unfold State.ackSource
  split
  · exact Only.refl _ s
  · split
    · exact removeEntry_only s _
    · exact Only.after (postTrip_only _ _ _) (Only.up (setEntry_only s _))
    · exact Only.refl _ s

theorem ackSource_keeps (s : State) (i : Fin 24) : Keeps [] s (s.ackSource i) := by
  unfold State.ackSource
  split
  · exact Keeps.refl _ s
  · split
    · exact removeEntry_keeps s _
    · exact Keeps.after (postTrip_keeps _ _ _) (setEntry_keeps s _)
    · exact Keeps.refl _ s

theorem workAckTrip_only (l : Option (List Nat)) (s : State) :
    Only [.fresh, .angle, .master, .axes, .ring, .trips, .screen, .ctl, .notices] s (workAckTrip l s).1 := by
  unfold workAckTrip
  split
  · exact Only.foldl (fun s i => ackSource_only s i) _ s
  · split
    · exact Only.refl _ s
    · exact Only.foldl (fun s i => ackSource_only s i) _ s

theorem workAckTrip_keeps (l : Option (List Nat)) (s : State) : Keeps [] s (workAckTrip l s).1 := by
  unfold workAckTrip
  split
  · exact Keeps.foldl (fun s i => ackSource_keeps s i) _ s
  · split
    · exact Keeps.refl _ s
    · exact Keeps.foldl (fun s i => ackSource_keeps s i) _ s

theorem workRaiseTrip_only (n : Nat) (b : Bool) (s : State) :
    Only [.fresh, .angle, .master, .axes, .ring, .trips, .sources, .screen, .ctl, .notices] s (workRaiseTrip n b s).1 := by
  unfold workRaiseTrip
  split
  · exact setCondition_only s _ _
  · exact Only.refl _ s

theorem workRaiseTrip_keeps (n : Nat) (b : Bool) (s : State) : Keeps [] s (workRaiseTrip n b s).1 := by
  unfold workRaiseTrip
  split
  · exact setCondition_keeps s _ _
  · exact Keeps.refl _ s

/-! ## The highest class (R109) -/

/-- The higher of two classes is one of them, and no lower than either. -/
theorem maxClass_bounds (a b : TripClass) :
    a.code ≤ (maxClass a b).code ∧ b.code ≤ (maxClass a b).code ∧ (maxClass a b = a ∨ maxClass a b = b) := by
  cases a <;> cases b <;> decide

/-- The highest class of a list, from a start: no lower than the start or any class of the list, and one of them. -/
theorem foldl_maxClass {α : Type} (f : α → TripClass) (l : List α) (a : TripClass) :
    let top := l.foldl (fun c e => maxClass c (f e)) a
    a.code ≤ top.code ∧ (∀ e ∈ l, (f e).code ≤ top.code) ∧ (top = a ∨ ∃ e ∈ l, f e = top) := by
  induction l generalizing a with
  | nil => simp
  | cons x l ih =>
    have h := ih (maxClass a (f x))
    have m := maxClass_bounds a (f x)
    simp only [List.foldl_cons]
    refine ⟨m.1.trans h.1, ?_, ?_⟩
    · intro e he
      rcases List.mem_cons.mp he with rfl | he
      · exact m.2.1.trans h.1
      · exact h.2.1 e he
    · rcases h.2.2 with h2 | ⟨e, he, h2⟩
      · rcases m.2.2 with m2 | m2
        · exact Or.inl (h2.trans m2)
        · exact Or.inr ⟨x, by simp, (h2.trans m2).symm⟩
      · exact Or.inr ⟨e, by simp [he], h2⟩

end Sys2Proof.Machine
end

