-- ==== Sys2Proof/Laws/Ports.lean ====
section
/-! SUPPORT. The drive ports (Machine/Ports.lean): what each operation changes, and that each keeps the invariants. -/

set_option Elab.async false

namespace Sys2Proof.Machine

theorem postPortState_only (s : State) (p : Fin 4) : Only [.ctl, .notices] s (s.postPortState p) := post_only s _
theorem postPortState_keeps (s : State) (p : Fin 4) : Keeps [] s (s.postPortState p) := post_keeps s _
theorem postServiceReply_only (s : State) (p : Fin 4) (st : ServiceStatus) (r : Option (Fin 4 × List Byte)) :
    Only [.ctl, .notices] s (s.postServiceReply p st r) := post_only s _
theorem postServiceReply_keeps (s : State) (p : Fin 4) (st : ServiceStatus) (r : Option (Fin 4 × List Byte)) :
    Keeps [] s (s.postServiceReply p st r) := post_keeps s _

/-- A write of a port that keeps its queue's room keeps every invariant but R44's, which rests on the port's state. -/
theorem setPort_keeps_queue (s : State) (i : Fin 4) (r : DrivePort) (hq : (s.port i).queue.length ≤ 2 → r.queue.length ≤ 2) :
    Keeps [.safe] s (s.setPort i r) := by
  intro l hl
  cases l
  case safe => exact absurd (by decide) hl
  case receive =>
    intro h j
    rw [setPort_port_eq]
    split
    · next e => subst e; exact hq (h i)
    · exact h j
  all_goals exact fun h => h

/-- A port changed its state: with the axes bound to it inhibited the part is safe again (R44). -/
theorem inhibitPort_after (s t : State) (p : Fin 4) (ho : Only [.ports, .portStates, .ctl, .notices] s t)
    (hp : ∀ q, q ≠ p → (t.port q).state = (s.port q).state) (h : AxesSafe s) : AxesSafe (t.inhibitPort p) := by
  have ha : s.axes = t.axes := ho .axes (by decide)
  have ht : s.trips = t.trips := ho .trips (by decide)
  have hg : s.angle = t.angle := ho .angle (by decide)
  have hx : ∀ i, t.axis i = s.axis i := fun i => congrArg (fun v => v[i]) ha.symm
  refine inhibitPort_safe t p fun i hi => ?_
  rw [hx] at hi ⊢
  obtain ⟨⟨b, hb, hu⟩, he, hn⟩ := h i hi
  rw [← ht, ← hg]
  exact ⟨⟨b, hb, fun hbp => by rw [hp b.1 hbp]; exact hu⟩, he, hn⟩

/-- A port's record changes, PORT_STATE is posted, and its bound axes are inhibited. -/
theorem setPortInhibit_only (s : State) (p : Fin 4) (r : DrivePort) :
    Only [.axes, .ports, .portStates, .ctl, .notices] s (((s.setPort p r).postPortState p).inhibitPort p) :=
  Only.after (inhibitPort_only _ p) (Only.after (postPortState_only _ p) (Only.up (setPort_only s p r)))

theorem setPortInhibit_keeps (s : State) (p : Fin 4) (r : DrivePort) (hq : (s.port p).queue.length ≤ 2 → r.queue.length ≤ 2) :
    Keeps [] s (((s.setPort p r).postPortState p).inhibitPort p) :=
  Keeps.put .safe (Keeps.after (inhibitPort_keeps _ p) (Keeps.after (postPortState_keeps _ p) (setPort_keeps_queue s p r hq)))
    (inhibitPort_after s _ p (Only.after (postPortState_only _ p) (Only.up (setPort_only s p r)))
      fun q hqp => by
        show ((s.setPort p r).port q).state = _
        rw [setPort_port_eq, if_neg fun e => hqp e.symm])

/-! ## The drain (R56 to R59, R65) -/

theorem takeTelegram_queue (p : DrivePort) (t : RxTelegram) (h : p.queue.length ≤ 2) :
    (p.takeTelegram t).queue.length ≤ 2 ∧ (p.takeTelegram t).state = p.state := by
  unfold DrivePort.takeTelegram
  split
  · exact ⟨h, rfl⟩
  · split
    · next hr => exact ⟨by simp only [List.length_append, List.length_singleton]; exact hr, rfl⟩
    · exact ⟨h, rfl⟩

theorem dealWith_state (p : DrivePort) (t : RxTelegram) : (p.dealWith t).1.state = p.state := by
  unfold DrivePort.dealWith DrivePort.takeReply
  split
  · split
    · split <;> rfl
    · split <;> rfl
  · rfl

theorem dealWithAll_state (p : DrivePort) (l : List RxTelegram) : (p.dealWithAll l).1.state = p.state := by
  induction l generalizing p with
  | nil => rfl
  | cons t l ih => exact (ih _).trans (dealWith_state p t)

theorem countDrain_state (p : DrivePort) (f : Option (List FeedbackEntry)) :
    (p.countDrain f).state = p.state ∧ (p.countDrain f).queue = p.queue := by
  cases f <;> exact ⟨rfl, rfl⟩

theorem ageService_state (p : DrivePort) (a b : Bool) : (p.ageService a b).1.state = p.state ∧ (p.ageService a b).1.queue = p.queue := by
  unfold DrivePort.ageService
  split
  · split <;> exact ⟨rfl, rfl⟩
  · exact ⟨rfl, rfl⟩

theorem Axis.deliver_same (a : Axis) (sub : Fin 4) (es : List FeedbackEntry) :
    (a.deliver sub es).state = a.state ∧ (a.deliver sub es).binding = a.binding ∧ (a.inRange → (a.deliver sub es).inRange) := by
  unfold Axis.deliver
  split <;> exact ⟨rfl, rfl, fun h => h⟩

theorem deliverFeedback_only (s : State) (p : Fin 4) (es : List FeedbackEntry) : Only [.axes] s (s.deliverFeedback p es) :=
  Only.foldl (fun (s : State) (x : Fin 4 × Fin 16) => setAxis_only s x.2 _ (Axis.deliver_same _ x.1 es).2.1) _ s

theorem deliverFeedback_keeps (s : State) (p : Fin 4) (es : List FeedbackEntry) : Keeps [] s (s.deliverFeedback p es) :=
  Keeps.foldl (fun (s : State) (x : Fin 4 × Fin 16) => setAxis_keeps s x.2 ((s.axis x.2).deliver x.1 es) (by rw [(Axis.deliver_same _ _ _).1]; exact fun h => h)
    (by rw [(Axis.deliver_same _ _ _).1]; exact fun h => h) (Axis.deliver_same _ _ _).2.1 (Axis.deliver_same _ _ _).2.2) _ s

theorem portFaults_only (s : State) (p : Fin 4) (c : FaultReason) (pl : Option (Fin 4 × Option (Fin 16))) :
    Only [.fresh, .angle, .master, .axes, .ports, .portStates, .ring, .trips, .sources, .screen, .ctl, .notices] s
      (s.portFaults p c pl) :=
  Only.after (setCondition_only _ _ _) (Only.up (setPortInhibit_only s p _))

theorem portFaults_keeps (s : State) (p : Fin 4) (c : FaultReason) (pl : Option (Fin 4 × Option (Fin 16))) :
    Keeps [] s (s.portFaults p c pl) :=
  Keeps.after (setCondition_keeps _ _ _) (setPortInhibit_keeps s p _ fun h => h)

theorem afterDrain_only (s : State) (p : Fin 4) (f : Option (List FeedbackEntry)) :
    Only [.fresh, .angle, .master, .axes, .ports, .portStates, .ring, .trips, .sources, .screen, .ctl, .notices] s
      (s.afterDrain p f) := by
  unfold State.afterDrain
  dsimp only
  split
  · exact Only.refl _ s
  · exact Only.refl _ s
  · split
    · split
      · exact Only.after (postPortState_only _ _) (Only.up (setPort_only s _ _))
      · exact Only.up (setPort_only s _ _)
    · exact Only.up (setPort_only s _ _)
  · split
    · exact portFaults_only s _ _ _
    · exact Only.ite (fun _ => portFaults_only s _ _ _) (fun _ => Only.refl _ s)

theorem afterDrain_keeps (s : State) (p : Fin 4) (f : Option (List FeedbackEntry)) : Keeps [] s (s.afterDrain p f) := by
  unfold State.afterDrain
  dsimp only
  split
  · exact Keeps.refl _ s
  · exact Keeps.refl _ s
  · next h =>
    split
    · split
      · exact Keeps.after (postPortState_keeps _ _) (setPort_keeps s _ _ (fun _ => rfl) fun h => h)
      · exact setPort_keeps s _ _ (fun h => h) fun h => h
    · exact setPort_keeps s _ _ (fun h => h) fun h => h
  · split
    · exact portFaults_keeps s _ _ _
    · exact Keeps.ite (fun _ => portFaults_keeps s _ _ _) (fun _ => Keeps.refl _ s)

/-- What a drain may change. -/
theorem drain_only (s : State) (p : Fin 4) :
    Only [.fresh, .angle, .master, .axes, .ports, .portStates, .ring, .trips, .sources, .screen, .ctl, .notices] s (s.drain p) := by
  unfold State.drain
  dsimp only
  split
  · exact (deliverFeedback_only s p _).up
  · refine Only.after (afterDrain_only _ _ _) (Only.after (deliverFeedback_only _ _ _) ?_)
    split
    · split
      · exact Only.after (postServiceReply_only _ _ _ _) (Only.after (postServiceReply_only _ _ _ _) (Only.up (setPort_only s _ _)))
      · exact Only.after (postServiceReply_only _ _ _ _) (Only.up (setPort_only s _ _))
    · split
      · exact Only.after (postServiceReply_only _ _ _ _) (Only.up (setPort_only s _ _))
      · exact Only.up (setPort_only s _ _)

theorem drain_keeps (s : State) (p : Fin 4) : Keeps [] s (s.drain p) := by
  unfold State.drain
  dsimp only
  split
  · exact deliverFeedback_keeps s p _
  · have h : ∀ f a b, Keeps [] s (s.setPort p (((({ ((s.port p).dealWithAll (s.port p).queue).1 with
        queue := [], stopped := false } : DrivePort)).countDrain f).ageService a b).1) := fun f a b =>
      setPort_keeps s _ _
        (fun hs => by rw [(ageService_state _ _ _).1, (countDrain_state _ _).1]; exact (dealWithAll_state _ _).trans hs)
        (fun _ => by rw [(ageService_state _ _ _).2, (countDrain_state _ _).2]; exact Nat.zero_le _)
    refine Keeps.after (afterDrain_keeps _ _ _) (Keeps.after (deliverFeedback_keeps _ _ _) ?_)
    split
    · split
      · exact Keeps.after (postServiceReply_keeps _ _ _ _) (Keeps.after (postServiceReply_keeps _ _ _ _) (h _ _ _))
      · exact Keeps.after (postServiceReply_keeps _ _ _ _) (h _ _ _)
    · split
      · exact Keeps.after (postServiceReply_keeps _ _ _ _) (h _ _ _)
      · exact h _ _ _

/-! ## SETPOINT and SERVICE (R54, R64), FOLLOW (R60) -/

theorem serviceStep_state (p : DrivePort) (a : Bool) (n tu : Nat) :
    (p.serviceStep a n tu).1.state = p.state ∧ (p.serviceStep a n tu).1.queue = p.queue := by
  unfold DrivePort.serviceStep
  split
  · split
    · exact ⟨rfl, rfl⟩
    · split <;> exact ⟨rfl, rfl⟩
  · exact ⟨rfl, rfl⟩

theorem sendStep_state (p : DrivePort) (c : Bool) (es : List SetpointEntry) (a : Bool) (n tu : Nat) :
    ((if c = true then p.sendSetpoint es else p.holdSetpoint es).serviceStep a n tu).1.state = p.state
      ∧ ((if c = true then p.sendSetpoint es else p.holdSetpoint es).serviceStep a n tu).1.queue = p.queue := by
  refine ⟨(serviceStep_state _ _ _ _).1.trans ?_, (serviceStep_state _ _ _ _).2.trans ?_⟩ <;> split <;> rfl

theorem sendPort_only (s : State) (p : Fin 4) (tu : Nat) : Only [.ports, .ctl, .notices] s (s.sendPort p tu) := by
  unfold State.sendPort
  dsimp only
  split
  · exact Only.refl _ s
  · have key : ∀ x : DrivePort × Bool, x.1.state = (s.port p).state → Only [.ports, .ctl, .notices] s
        (if x.2 = true then (s.setPort p x.1).postServiceReply p .noRoom none else s.setPort p x.1) := fun x hx =>
      Only.ite (fun _ => Only.after (postServiceReply_only _ _ _ _) (Only.up (setPort_only_same s p _ hx)))
        fun _ => Only.up (setPort_only_same s p _ hx)
    exact key _ (sendStep_state _ _ _ _ _ _).1

theorem sendPort_keeps (s : State) (p : Fin 4) (tu : Nat) : Keeps [] s (s.sendPort p tu) := by
  unfold State.sendPort
  dsimp only
  split
  · exact Keeps.refl _ s
  · have key : ∀ x : DrivePort × Bool, x.1.state = (s.port p).state → x.1.queue = (s.port p).queue → Keeps [] s
        (if x.2 = true then (s.setPort p x.1).postServiceReply p .noRoom none else s.setPort p x.1) := fun x hx hq =>
      have h := setPort_keeps s p x.1 (fun h => hx.trans h) (fun h => by rw [hq]; exact h)
      Keeps.ite (fun _ => Keeps.after (postServiceReply_keeps _ _ _ _) h) fun _ => h
    exact key _ (sendStep_state _ _ _ _ _ _).1 (sendStep_state _ _ _ _ _ _).2

theorem transmitterEnd_state (p : DrivePort) : p.transmitterEnd.state = p.state ∧ p.transmitterEnd.queue = p.queue := by
  unfold DrivePort.transmitterEnd
  dsimp only
  split
  · split <;> exact ⟨rfl, rfl⟩
  · exact ⟨rfl, rfl⟩

theorem follow_only (s : State) (p sub : Fin 4) (i : Fin 16) :
    Only [.fresh, .angle, .master, .axes, .ports, .portStates, .ring, .trips, .sources, .screen, .ctl, .notices] s (s.follow p sub i) :=
  Only.ite (fun _ => portFaults_only s _ _ _) (fun _ => Only.refl _ s)

theorem follow_keeps (s : State) (p sub : Fin 4) (i : Fin 16) : Keeps [] s (s.follow p sub i) :=
  Keeps.ite (fun _ => portFaults_keeps s _ _ _) (fun _ => Keeps.refl _ s)

/-! ## Requests -/

theorem workSetPortEnable_only (f : PortFields) (s : State) :
    Only [.ports, .portStates, .ctl, .notices] s (workSetPortEnable f s).1 := by
  unfold workSetPortEnable
  split
  · dsimp only
    split
    · split
      · exact Only.refl _ s
      · exact Only.up (setPort_only s _ _)
    · split
      · exact Only.refl _ s
      · exact Only.after (postPortState_only _ _) (Only.up (setPort_only s _ _))
  · exact Only.refl _ s

theorem workSetPortEnable_keeps (f : PortFields) (s : State) : Keeps [] s (workSetPortEnable f s).1 := by
  unfold workSetPortEnable
  split
  · dsimp only
    split
    · split
      · exact Keeps.refl _ s
      · exact setPort_keeps s _ _ (fun h => h) fun h => h
    · next h =>
      split
      · exact Keeps.refl _ s
      · refine Keeps.after (postPortState_keeps _ _) (setPort_keeps s _ _ (fun hu => absurd hu ?_) fun h => h)
        rw [Decidable.not_not.mp h]; decide
  · exact Keeps.refl _ s

theorem portOff_only (s : State) (p : Fin 4) :
    Only [.fresh, .angle, .master, .axes, .ports, .portStates, .ring, .trips, .sources, .screen, .ctl, .notices] s (s.portOff p) := by
  unfold State.portOff
  dsimp only
  split
  · exact Only.after (inhibitPort_only _ _) (Only.after (postPortState_only _ _) (by
      split
      · exact Only.up (setPort_only s _ _)
      · exact Only.after (postServiceReply_only _ _ _ _) (Only.up (setPort_only s _ _))))
  · exact Only.after (setCondition_only _ _ _) (Only.after (postPortState_only _ _) (by
      split
      · exact Only.up (setPort_only s _ _)
      · exact Only.after (postServiceReply_only _ _ _ _) (Only.up (setPort_only s _ _))))
  all_goals
    exact Only.after (postPortState_only _ _) (by
      split
      · exact Only.up (setPort_only s _ _)
      · exact Only.after (postServiceReply_only _ _ _ _) (Only.up (setPort_only s _ _)))

/-- A port that is not UP enters OFF: no axis bound to it was engaged. -/
theorem setPortOff_keeps (s : State) (p : Fin 4) (h : (s.port p).state ≠ .up) : Keeps [] s (s.setPort p (s.port p).off) :=
  setPort_keeps s p _ (fun hu => absurd hu h) fun _ => Nat.zero_le _

theorem portOff_keeps (s : State) (p : Fin 4) : Keeps [] s (s.portOff p) := by
  unfold State.portOff
  dsimp only
  split
  · refine Keeps.put .safe (Keeps.after (inhibitPort_keeps _ _) (Keeps.after (postPortState_keeps _ _) ?_))
      (inhibitPort_after s _ p (Only.after (postPortState_only _ _) ?_) ?_)
    · split
      · exact setPort_keeps_queue s _ _ fun _ => Nat.zero_le _
      · exact Keeps.after (postServiceReply_keeps _ _ _ _) (setPort_keeps_queue s _ _ fun _ => Nat.zero_le _)
    · split
      · exact Only.up (setPort_only s _ _)
      · exact Only.after (postServiceReply_only _ _ _ _) (Only.up (setPort_only s _ _))
    · intro q hq
      have : ∀ t : State, t.ports = (s.setPort p (s.port p).off).ports → (t.port q).state = (s.port q).state := by
        intro t ht
        have : t.port q = (s.setPort p (s.port p).off).port q := congrArg (fun v => v[q]) ht
        rw [this, setPort_port_eq, if_neg fun e => hq e.symm]
      refine this _ ?_
      split <;> rfl
  all_goals
    next h =>
      have h1 := setPortOff_keeps s p (by rw [h]; decide)
      have h2 : Keeps [] s (State.postPortState (if (s.port p).slot = .empty then s.setPort p (s.port p).off
          else (s.setPort p (s.port p).off).postServiceReply p .aborted none) p) :=
        Keeps.after (postPortState_keeps _ _) (Keeps.ite (fun _ => h1) fun _ => Keeps.after (postServiceReply_keeps _ _ _ _) h1)
      first | exact h2 | exact Keeps.after (setCondition_keeps _ _ _) h2

theorem workSetPortDisable_only (f : PortFields) (s : State) :
    Only [.fresh, .angle, .master, .axes, .ports, .portStates, .ring, .trips, .sources, .screen, .ctl, .notices] s
      (workSetPortDisable f s).1 := by
  unfold workSetPortDisable
  split
  · exact Only.ite (fun _ => Only.up (setPort_only s _ _)) fun _ => Only.after (portOff_only _ _) (Only.up (setPort_only s _ _))
  · exact Only.refl _ s

theorem workSetPortDisable_keeps (f : PortFields) (s : State) : Keeps [] s (workSetPortDisable f s).1 := by
  unfold workSetPortDisable
  split
  · have h := setPort_keeps s (Fin.ofNat 4 f.port) { s.port (Fin.ofNat 4 f.port) with divider := f.divider, missLimit := f.missLimit }
      (fun h => h) fun h => h
    exact Keeps.ite (fun _ => h) fun _ => Keeps.after (portOff_keeps _ _) h
  · exact Keeps.refl _ s

theorem workResetPort_only (n : Nat) (s : State) :
    Only [.fresh, .angle, .master, .axes, .ports, .portStates, .ring, .trips, .sources, .screen, .ctl, .notices] s
      (workResetPort n s).1 := by
  unfold workResetPort
  split
  · dsimp only
    split
    · exact Only.after (setCondition_only _ _ _) (Only.after (postPortState_only _ _) (Only.up (setPort_only s _ _)))
    · exact Only.refl _ s
  · exact Only.refl _ s

theorem workResetPort_keeps (n : Nat) (s : State) : Keeps [] s (workResetPort n s).1 := by
  unfold workResetPort
  split
  · dsimp only
    split
    · next h =>
      exact Keeps.after (setCondition_keeps _ _ _) (Keeps.after (postPortState_keeps _ _)
        (setPort_keeps s _ _ (fun hu => by rw [h] at hu; cases hu) fun _ => Nat.zero_le _))
    · exact Keeps.refl _ s
  · exact Keeps.refl _ s

theorem workPortService_only (f : ServiceFields) (s : State) : Only [.ports] s (workPortService f s).1 := by
  unfold workPortService
  split
  · dsimp only
    split
    · exact Only.refl _ s
    · split
      · exact Only.refl _ s
      · exact setPort_only_same s _ _ (by rfl)
  · exact Only.refl _ s

theorem workPortService_keeps (f : ServiceFields) (s : State) : Keeps [] s (workPortService f s).1 := by
  unfold workPortService
  split
  · dsimp only
    split
    · exact Keeps.refl _ s
    · split
      · exact Keeps.refl _ s
      · exact setPort_keeps s _ _ (fun h => h) fun h => h
  · exact Keeps.refl _ s

/-! ## What a drain reads and hands on (R56, R57, R26) -/

/-- The last value a list gives, found by going through it once. -/
theorem foldl_or_eq_findSome {α β : Type} (f : α → Option β) (l : List α) :
    l.foldl (fun found t => (f t).or found) none = l.reverse.findSome? f := by
  have : ∀ acc, l.foldl (fun found t => (f t).or found) acc = (l.reverse.findSome? f).or acc := by
    induction l with
    | nil => simp
    | cons x l ih => intro acc; simp only [List.foldl_cons, ih, List.reverse_cons, List.findSome?_append]; cases (List.findSome? f l.reverse) <;> simp
  simpa using this none

/-- Dealing with entries writes the counters and the service slot alone, and a slot that is not SENT gets no reply. -/
theorem dealWithAll_keeps (d : DrivePort) (ts : List RxTelegram) :
    (d.dealWithAll ts).1.serviceAge = d.serviceAge ∧ (d.dealWithAll ts).1.state = d.state
      ∧ (d.dealWithAll ts).1.linkCount = d.linkCount ∧ (d.dealWithAll ts).1.reason = d.reason ∧ (d.dealWithAll ts).1.place = d.place
      ∧ (d.dealWithAll ts).1.missLimit = d.missLimit ∧ (d.dealWithAll ts).1.missCount = d.missCount
      ∧ (d.dealWithAll ts).1.reports = d.reports ∧ (d.slot ≠ .sent → (d.dealWithAll ts).2 = none) := by
  induction ts generalizing d with
  | nil => simp [DrivePort.dealWithAll]
  | cons t ts ih =>
    have h1 := ih (d.dealWith t).1
    have h2 : (d.dealWith t).1.serviceAge = d.serviceAge ∧ (d.dealWith t).1.state = d.state ∧ (d.dealWith t).1.linkCount = d.linkCount
      ∧ (d.dealWith t).1.reason = d.reason ∧ (d.dealWith t).1.place = d.place ∧ (d.dealWith t).1.missLimit = d.missLimit
      ∧ (d.dealWith t).1.missCount = d.missCount ∧ (d.dealWith t).1.reports = d.reports ∧ (d.slot ≠ .sent → (d.dealWith t).2 = none
      ∧ (d.dealWith t).1.slot ≠ .sent) := by
      unfold DrivePort.dealWith DrivePort.takeReply
      split
      · split
        · split <;> simp
        · split <;> simp_all
      · simp
    unfold DrivePort.dealWithAll; dsimp only
    simp only [h1, h2, true_and]
    intro hs; rw [(h2.2.2.2.2.2.2.2.2 hs).1, h1.2.2.2.2.2.2.2.2 (h2.2.2.2.2.2.2.2.2 hs).2]; rfl

/-- What a feedback from port `p` with entries `es` makes of an axis. -/
def Axis.fed (p : Fin 4) (es : List FeedbackEntry) (a : Axis) : Axis :=
  match a.binding with
  | none => a
  | some b =>
    if b.1 = p then
      match es.find? fun e => decide (e.sub = b.2) with
      | some e => { a with f := e.position, fresh := true }
      | none => { a with fresh := false }
    else a

theorem fed_of_binding (es : List FeedbackEntry) (a : Axis) (x : Fin 4 × Fin 4) (h : a.binding = some x) :
    Axis.fed x.1 es a = a.deliver x.2 es := by
  obtain ⟨sub, rest⟩ := x
  unfold Axis.fed Axis.deliver
  rw [h]
  exact if_pos rfl

/-- No two axes share a binding (R25), as the invariant `BindingsOk` says. -/
abbrev UniqueBindings (s : State) : Prop :=
  ∀ i j : Fin 16, i ≠ j → (s.axis i).binding.isSome = true → (s.axis i).binding ≠ (s.axis j).binding

theorem mem_portNumbers (i : Fin 4) : i ∈ portNumbers := by revert i; decide

theorem boundAxis_binding (s : State) (p sub : Fin 4) (i : Fin 16) (h : s.boundAxis p sub = some i) :
    (s.axis i).binding = some (p, sub) := by
  simpa using List.find?_some (show axisNumbers.find? _ = some i from h)

theorem boundAxis_eq (s : State) (hu : UniqueBindings s) (p sub : Fin 4) (i : Fin 16) (h : (s.axis i).binding = some (p, sub)) :
    s.boundAxis p sub = some i := by
  unfold State.boundAxis
  cases hh : axisNumbers.find? (fun i => decide ((s.axis i).binding = some (p, sub))) with
  | none =>
    rw [List.find?_eq_none] at hh
    simpa [h] using hh i (mem_axisNumbers i)
  | some j =>
    have hj := List.find?_some hh
    simp at hj
    by_cases e : i = j
    · rw [e]
    · exact absurd (h.trans hj.symm) (hu i j e (by simp [h]))

theorem boundAxes_axes_nodup (s : State) (p : Fin 4) : ((s.boundAxes p).map (·.2)).Nodup := by
  unfold State.boundAxes
  rw [List.map_filterMap]
  have : (portNumbers : List (Fin 4)).Nodup := by decide
  refine List.Nodup.filterMap ?_ this
  intro a b i ha hb
  simp at ha hb
  have := (boundAxis_binding s p a _ ha).symm.trans (boundAxis_binding s p b _ hb); simpa using this

theorem deliver_foldl (es : List FeedbackEntry) : ∀ (l : List (Fin 4 × Fin 16)) (s : State), (l.map (·.2)).Nodup →
    l.foldl (fun s x => s.setAxis x.2 ((s.axis x.2).deliver x.1 es)) s =
      { s with axes := Vector.ofFn fun i =>
        match l.find? (fun x => decide (x.2 = i)) with
        | some x => (s.axis i).deliver x.1 es
        | none => s.axis i } := by
  intro l; induction l with
  | nil =>
    intro s _
    have : (Vector.ofFn fun i => s.axis i) = s.axes := by apply Vector.ext; intro i h; simp [State.axis]
    simp only [List.foldl_nil, List.find?_nil]; rw [this]
  | cons x l ih =>
    intro s hn; simp only [List.map_cons, List.nodup_cons] at hn
    rw [List.foldl_cons, ih _ hn.2]
    simp only [State.setAxis]; congr 1
    apply Vector.ext; intro i h; simp only [Vector.getElem_ofFn]
    by_cases hx : x.2 = ⟨i, h⟩
    · simp only [List.find?_cons, hx, decide_true]
      have : l.find? (fun x => decide (x.2 = ⟨i, h⟩)) = none := by
        rw [List.find?_eq_none]; intro y hy; simp; intro e; exact hn.1 (by rw [hx, ← e]; exact List.mem_map_of_mem hy)
      rw [this]; simp [State.axis]
    · simp only [List.find?_cons, hx, decide_false]
      have h2 : x.2.val ≠ i := fun e => hx (Fin.ext e)
      simp [State.axis, h2]

/-- The feedback of a port reaches the axes bound to it and no other part of the state. -/
theorem deliverFeedback_eq_map (s : State) (hu : UniqueBindings s) (p : Fin 4) (es : List FeedbackEntry) :
    s.deliverFeedback p es = { s with axes := s.axes.map (Axis.fed p es) } := by
  unfold State.deliverFeedback; rw [deliver_foldl es _ s (boundAxes_axes_nodup s p)]; congr 1
  apply Vector.ext; intro i h; simp only [Vector.getElem_ofFn, Vector.getElem_map]
  show _ = Axis.fed p es (s.axis ⟨i, h⟩)
  cases hb : (s.axis ⟨i, h⟩).binding with
  | none =>
    have : (s.boundAxes p).find? (fun x => decide (x.2 = ⟨i, h⟩)) = none := by
      rw [List.find?_eq_none]; intro y hy; simp; intro e
      simp [State.boundAxes] at hy; obtain ⟨sub, _, j, hj, rfl⟩ := hy; simp at e; rw [← e, boundAxis_binding s p _ _ hj] at hb; cases hb
    rw [this]; generalize s.axis ⟨i, h⟩ = a at hb; cases a; simp at hb; subst hb; rfl
  | some b =>
    obtain ⟨b1, b2⟩ := b
    by_cases hp : b1 = p
    · subst hp
      have hm : (b2, (⟨i, h⟩ : Fin 16)) ∈ s.boundAxes b1 := by
        simp [State.boundAxes]; refine ⟨mem_portNumbers _, boundAxis_eq s hu _ _ _ hb⟩
      cases hf : (s.boundAxes b1).find? (fun x => decide (x.2 = ⟨i, h⟩)) with
      | none => rw [List.find?_eq_none] at hf; have := hf _ hm; simp at this
      | some y =>
        have h1 := List.find?_some hf; have h2 := List.mem_of_find?_eq_some hf; simp at h1
        simp [State.boundAxes] at h2; obtain ⟨sub, _, j, hj, rfl⟩ := h2; simp at h1; subst h1
        have := boundAxis_binding s _ _ _ hj; rw [hb] at this; simp at this; subst this; exact (fed_of_binding _ _ _ hb).symm
    · rw [show Axis.fed p es (s.axis ⟨i, h⟩) = s.axis ⟨i, h⟩ by generalize s.axis ⟨i, h⟩ = a at hb; cases a; simp at hb; subst hb; simp only [Axis.fed, hp, if_false]]
      have : (s.boundAxes p).find? (fun x => decide (x.2 = ⟨i, h⟩)) = none := by
        rw [List.find?_eq_none]; intro y hy; simp; intro e
        simp [State.boundAxes] at hy; obtain ⟨sub, _, j, hj, rfl⟩ := hy; simp at e; rw [← e, boundAxis_binding s p _ _ hj] at hb; simp at hb; exact hp hb.1.symm
      rw [this]

end Sys2Proof.Machine
end

