-- ==== Sys2Proof/Laws/Line.lean ====
section
/-! SUPPORT. The requests of the angle unit and the line master (Machine/Line.lean): what each changes, and that each keeps the
invariants. -/

set_option Elab.async false

namespace Sys2Proof.Machine

theorem workSetCycle_only (f : CycleFieldsReq) (s : State) : Only [.angle, .master] s (workSetCycle f s).1 := by
  unfold workSetCycle
  repeat' split
  all_goals first | exact Only.refl _ s | exact angleMaster_only s _ _ (by rfl) (by rfl) (by rfl)

theorem workSetCycle_keeps (f : CycleFieldsReq) (s : State) : Keeps [] s (workSetCycle f s).1 := by
  unfold workSetCycle
  repeat' split
  all_goals exact Keeps.refl _ s

theorem workSetSpeed_only (v : Nat) (s : State) : Only [.master] s (workSetSpeed v s).1 := by
  unfold workSetSpeed
  split
  · exact master_only s _
  · exact Only.refl _ s

theorem workSetSpeed_keeps (v : Nat) (s : State) : Keeps [] s (workSetSpeed v s).1 := by
  unfold workSetSpeed
  split
  · exact master_keeps s _
  · exact Keeps.refl _ s

theorem workSetRamp_only (f : RampFields) (s : State) : Only [.master] s (workSetRamp f s).1 := by
  unfold workSetRamp
  repeat' split
  all_goals first | exact Only.refl _ s | exact master_only s _

theorem workSetRamp_keeps (f : RampFields) (s : State) : Keeps [] s (workSetRamp f s).1 := by
  unfold workSetRamp
  repeat' split
  all_goals exact Keeps.refl _ s

theorem setLine_only (s : State) (l : LineState) : Only [.angle, .ctl, .notices] s (s.setLine l) :=
  Only.after (postLineState_only _) (Only.up (angle_only s _ rfl rfl rfl))

theorem setLine_keeps (s : State) (l : LineState) : Keeps [] s (s.setLine l) :=
  Keeps.after (postLineState_keeps _) (angle_keeps s _ rfl fun h => h)

theorem workStart_only (s : State) : Only [.angle, .master, .ctl, .notices] s (workStart s).1 := by
  unfold workStart
  repeat' split
  all_goals first | exact Only.refl _ s | exact Only.after (setLine_only _ _) (Only.up (master_only s _))

theorem workStart_keeps (s : State) : Keeps [] s (workStart s).1 := by
  unfold workStart
  repeat' split
  all_goals first | exact Keeps.refl _ s | exact Keeps.after (setLine_keeps _ _) (master_keeps s _)

theorem workStop_only (s : State) : Only [.angle, .ctl, .notices] s (workStop s).1 := by
  unfold workStop
  repeat' split
  all_goals first | exact Only.refl _ s | exact setLine_only s _

theorem workStop_keeps (s : State) : Keeps [] s (workStop s).1 := by
  unfold workStop
  repeat' split
  all_goals first | exact Keeps.refl _ s | exact setLine_keeps s _

end Sys2Proof.Machine
end

