-- ==== Sys2Proof/Laws/Store.lean ====
section
/-! SUPPORT. The image store (Machine/Store.lean): what each operation changes, that none but SET_MAP touches the entries of a map, and
that each keeps the invariants. -/

set_option Elab.async false

namespace Sys2Proof.Machine

theorem hide_entries (m : ImageMap) (p : Nat → Bool) : (m.hide p).entries = m.entries := rfl
theorem setSlot_entries (m : ImageMap) (i : Nat) (r : SlotRecord) : (m.setSlot i r).entries = m.entries := rfl

theorem setMap_entries (s : State) (i j : Fin 4) (m : ImageMap) (h : m.entries = (s.map i).entries) :
    ((s.setMap i m).map j).entries = (s.map j).entries := by
  rw [setMap_map_eq]
  split
  · next e => subst e; exact h
  · rfl

theorem map_of_store {s t : State} (h : s.store = t.store) (j : Fin 4) : s.map j = t.map j := congrArg (fun x => x.maps[j]) h

theorem postMapState_only (s : State) (i : Fin 4) : Only [.ctl, .notices] s (s.postMapState i) := post_only s _
theorem postMapState_keeps (s : State) (i : Fin 4) : Keeps [] s (s.postMapState i) := post_keeps s _

/-! ## Writing a line (R127 to R130) -/

theorem stream_only (s : State) (w : LineWrite) :
    Only [.angle, .master, .ring, .store, .screen, .ctl, .notices] s (s.stream w) := by
  unfold State.stream
  split
  · exact Only.refl _ s
  · dsimp only
    split
    · exact (originate_only s _ _ _).up
    · exact Only.after (store_only _ _ (by rfl)) (Only.up (originate_only s _ _ _))

theorem stream_keeps (s : State) (w : LineWrite) : Keeps [] s (s.stream w) := by
  unfold State.stream
  split
  · exact Keeps.refl _ s
  · dsimp only
    split
    · exact originate_keeps s _ _ _
    · exact Keeps.after (store_keeps _ _ (by rfl) (by exact fun h => h)) (originate_keeps s _ _ _)

theorem stream_map (s : State) (w : LineWrite) (j : Fin 4) : (s.stream w).map j = s.map j := by
  unfold State.stream
  split
  · rfl
  · dsimp only
    split
    · exact map_of_store (originate_only s _ _ _ .store (by decide)).symm j
    · exact map_of_store (originate_only s _ _ _ .store (by decide)).symm j

theorem dropLine_only (s : State) (i : Fin 4) : Only [.store] s (s.dropLine i) :=
  Only.ite (fun _ => Only.refl _ s) fun _ => setMap_only s i _

theorem dropLine_keeps (s : State) (i : Fin 4) : Keeps [] s (s.dropLine i) :=
  Keeps.ite (fun _ => Keeps.refl _ s) fun _ => setMap_keeps s i _ rfl

theorem dropLine_entries (s : State) (i j : Fin 4) : ((s.dropLine i).map j).entries = (s.map j).entries := by
  unfold State.dropLine
  split
  · rfl
  · exact setMap_entries s i j _ rfl

theorem beginWrite_only (s : State) (i : Fin 4) (l : LineWrite) :
    Only [.angle, .master, .ring, .store, .screen, .ctl, .notices] s (s.beginWrite i l) :=
  Only.ite (fun _ => Only.after (stream_only _ _) (Only.up (setMap_only s i _))) fun _ => Only.up (setMap_only s i _)

theorem beginWrite_keeps (s : State) (i : Fin 4) (l : LineWrite) : Keeps [] s (s.beginWrite i l) :=
  Keeps.ite (fun _ => Keeps.after (stream_keeps _ _) (setMap_keeps s i _ rfl)) fun _ => setMap_keeps s i _ rfl

theorem beginWrite_entries (s : State) (i j : Fin 4) (l : LineWrite) : ((s.beginWrite i l).map j).entries = (s.map j).entries := by
  unfold State.beginWrite
  dsimp only
  split
  · rw [stream_map]; exact setMap_entries s i j _ rfl
  · exact setMap_entries s i j _ rfl

theorem startWrite_only (s : State) (i : Fin 4) (l : LineWrite) :
    Only [.angle, .master, .ring, .store, .screen, .ctl, .notices] s (s.startWrite i l) := by
  unfold State.startWrite
  dsimp only
  split
  · exact (dropLine_only s i).up
  · split
    · exact Only.after (postMapState_only _ _) (Only.up (setMap_only s i _))
    · split
      · exact (setMap_only s i _).up
      · exact beginWrite_only s i l

theorem startWrite_keeps (s : State) (i : Fin 4) (l : LineWrite) : Keeps [] s (s.startWrite i l) := by
  unfold State.startWrite
  dsimp only
  split
  · exact dropLine_keeps s i
  · split
    · exact Keeps.after (postMapState_keeps _ _) (setMap_keeps s i _ (by rfl))
    · split
      · exact setMap_keeps s i _ (by rfl)
      · exact beginWrite_keeps s i l

theorem startWrite_entries (s : State) (i j : Fin 4) (l : LineWrite) : ((s.startWrite i l).map j).entries = (s.map j).entries := by
  unfold State.startWrite
  dsimp only
  split
  · exact dropLine_entries s i j
  · split
    · exact setMap_entries s i j _ rfl
    · split
      · exact setMap_entries s i j _ rfl
      · exact beginWrite_entries s i j l

theorem putLine_only (s : State) (i : Fin 4) (l : LineWrite) :
    Only [.angle, .master, .ring, .store, .screen, .ctl, .notices] s (s.putLine i l) :=
  Only.ite (fun _ => (setMap_only s i _).up) fun _ => startWrite_only s i l

theorem putLine_keeps (s : State) (i : Fin 4) (l : LineWrite) : Keeps [] s (s.putLine i l) :=
  Keeps.ite (fun _ => setMap_keeps s i _ rfl) fun _ => startWrite_keeps s i l

/-- Pages may change too. -/
theorem pages_only (s : State) (x : List Host.Cell) : Only [.store, .pages] s { s with store := { s.store with pages := x } } := by
  intro p hp
  cases p <;> first | exact absurd (by decide) hp | simp [Part.same, State.axis, State.port]

theorem finishWrite_only (s : State) (i : Fin 4) (w : LineWrite) : Only [.store, .pages] s (s.finishWrite i w) :=
  Only.after (pages_only _ _) (Only.up (setMap_only s i _))

theorem finishWrite_keeps (s : State) (i : Fin 4) (w : LineWrite) : Keeps [] s (s.finishWrite i w) := by
  unfold State.finishWrite
  exact Keeps.after (store_keeps _ _ (by rfl) fun h => Memory.writeBytes_wf _ _ _ h) (setMap_keeps s i _ (by rfl))

theorem finishWrite_entries (s : State) (i j : Fin 4) (w : LineWrite) : ((s.finishWrite i w).map j).entries = (s.map j).entries :=
  setMap_entries s i j _ rfl

theorem serveWaiting_only (s : State) (i : Fin 4) (l : List LineWrite) :
    Only [.angle, .master, .ring, .store, .screen, .ctl, .notices] s (s.serveWaiting i l) := by
  induction l generalizing s with
  | nil => exact (setMap_only s i _).up
  | cons x l ih =>
    unfold State.serveWaiting
    dsimp only
    split
    · exact Only.after (setMap_only _ i _) (Only.up (startWrite_only s i x))
    · exact (startWrite_only s i x).trans (ih _)

theorem serveWaiting_keeps (s : State) (i : Fin 4) (l : List LineWrite) : Keeps [] s (s.serveWaiting i l) := by
  induction l generalizing s with
  | nil => exact setMap_keeps s i _ rfl
  | cons x l ih =>
    unfold State.serveWaiting
    dsimp only
    split
    · exact Keeps.after (setMap_keeps _ i _ (by rfl)) (startWrite_keeps s i x)
    · exact (startWrite_keeps s i x).trans (ih _)

theorem serveWaiting_entries (s : State) (i j : Fin 4) (l : List LineWrite) :
    ((s.serveWaiting i l).map j).entries = (s.map j).entries := by
  induction l generalizing s with
  | nil => exact setMap_entries s i j _ rfl
  | cons x l ih =>
    unfold State.serveWaiting
    dsimp only
    split
    · exact (setMap_entries (s.startWrite i x) i j { (s.startWrite i x).map i with waiting := l } rfl).trans (startWrite_entries s i j x)
    · exact (ih _).trans (startWrite_entries s i j x)

theorem endWrite_only (s : State) (i : Fin 4) :
    Only [.angle, .master, .ring, .store, .pages, .screen, .ctl, .notices] s (s.endWrite i) := by
  unfold State.endWrite
  split
  · exact Only.refl _ s
  · exact Only.after (serveWaiting_only _ _ _) (Only.up (finishWrite_only s i _))

theorem endWrite_keeps (s : State) (i : Fin 4) : Keeps [] s (s.endWrite i) := by
  unfold State.endWrite
  split
  · exact Keeps.refl _ s
  · exact Keeps.after (serveWaiting_keeps _ _ _) (finishWrite_keeps s i _)

theorem endWrite_entries (s : State) (i j : Fin 4) : ((s.endWrite i).map j).entries = (s.map j).entries := by
  unfold State.endWrite
  split
  · rfl
  · exact (serveWaiting_entries _ i j _).trans (finishWrite_entries s i j _)

theorem drainWrites_only (s : State) (i : Fin 4) :
    Only [.angle, .master, .ring, .store, .pages, .screen, .ctl, .notices] s (s.drainWrites i) :=
  Only.foldl (fun s _ => endWrite_only s i) _ s

theorem drainWrites_keeps (s : State) (i : Fin 4) : Keeps [] s (s.drainWrites i) :=
  Keeps.foldl (fun s _ => endWrite_keeps s i) _ s

theorem drainWrites_entries (s : State) (i j : Fin 4) : ((s.drainWrites i).map j).entries = (s.map j).entries := by
  unfold State.drainWrites
  generalize List.range _ = l
  induction l generalizing s with
  | nil => rfl
  | cons x l ih => exact (ih (s.endWrite i)).trans (endWrite_entries s i j)

theorem capture_only (s : State) (l : CameraLine) :
    Only [.angle, .master, .ring, .store, .screen, .ctl, .notices] s (s.capture l) :=
  Only.ite (fun _ => putLine_only s 0 _) fun _ => Only.refl _ s

theorem capture_keeps (s : State) (l : CameraLine) : Keeps [] s (s.capture l) :=
  Keeps.ite (fun _ => putLine_keeps s 0 _) fun _ => Keeps.refl _ s

theorem deliverImageLine_only (s : State) (o : Nat) (p : List Byte) :
    Only [.angle, .master, .ring, .store, .screen, .ctl, .notices] s (s.deliverImageLine o p) := by
  unfold State.deliverImageLine
  split
  · exact (store_only s _ (by rfl)).up
  · dsimp only
    split
    · exact (dropLine_only s _).up
    · exact putLine_only s _ _

theorem deliverImageLine_keeps (s : State) (o : Nat) (p : List Byte) : Keeps [] s (s.deliverImageLine o p) := by
  unfold State.deliverImageLine
  split
  · exact store_keeps s _ (by rfl) (by exact fun h => h)
  · dsimp only
    split
    · exact dropLine_keeps s _
    · exact putLine_keeps s _ _

/-- The settings of the store, which the writing of lines leaves alone (R126, R129). -/
def Store.settings (x : Store) : Nat × Nat × Nat × Nat := (x.decimation, x.hStep, x.stored, x.streamDest)

theorem stream_settings (s : State) (w : LineWrite) : (s.stream w).store.settings = s.store.settings := by
  have h : ∀ k d p, (s.originate k d p).1.store = s.store := fun k d p => (originate_only s k d p .store (by decide)).symm
  unfold State.stream
  split
  · rfl
  · dsimp only
    split
    · rw [h]
    · simp only [Store.settings, h]

theorem startWrite_settings (s : State) (i : Fin 4) (l : LineWrite) : (s.startWrite i l).store.settings = s.store.settings := by
  unfold State.startWrite State.dropLine State.beginWrite
  dsimp only
  repeat' split
  all_goals first | rfl | exact stream_settings _ _

theorem serveWaiting_settings (s : State) (i : Fin 4) (l : List LineWrite) :
    (s.serveWaiting i l).store.settings = s.store.settings := by
  induction l generalizing s with
  | nil => rfl
  | cons x l ih =>
    unfold State.serveWaiting
    dsimp only
    split
    · exact startWrite_settings s i x
    · exact (ih _).trans (startWrite_settings s i x)

theorem endWrite_settings (s : State) (i : Fin 4) : (s.endWrite i).store.settings = s.store.settings := by
  unfold State.endWrite
  split
  · rfl
  · exact serveWaiting_settings _ i _

theorem drainWrites_settings (s : State) (i : Fin 4) : (s.drainWrites i).store.settings = s.store.settings := by
  unfold State.drainWrites
  generalize List.range _ = l
  induction l generalizing s with
  | nil => rfl
  | cons x l ih => exact (ih _).trans (endWrite_settings s i)

/-! ## Requests (R124 to R126, R129, R131) -/

theorem workSetCapture_only (f : CaptureFields) (s : State) : Only [.store] s (workSetCapture f s).1 := by
  unfold workSetCapture
  repeat' split
  all_goals first | exact Only.refl _ s | exact Only.after (store_only _ _ (by rfl)) (setMap_only s 0 _)

theorem workSetCapture_keeps (f : CaptureFields) (s : State) : Keeps [] s (workSetCapture f s).1 := by
  unfold workSetCapture
  repeat' split
  all_goals first
    | exact Keeps.refl _ s
    | exact Keeps.after (store_keeps _ _ (by rfl) (by exact fun h => h)) (setMap_keeps s 0 _ (by rfl))

theorem workSetStream_only (d : Nat) (s : State) : Only [.store] s (workSetStream d s).1 := by
  unfold workSetStream
  split
  · exact store_only s _ (by rfl)
  · exact Only.refl _ s

theorem workSetStream_keeps (d : Nat) (s : State) : Keeps [] s (workSetStream d s).1 := by
  unfold workSetStream
  split
  · exact store_keeps s _ (by rfl) (by exact fun h => h)
  · exact Keeps.refl _ s

theorem workEnableMap_only (m : Nat) (a : Bool) (s : State) :
    Only [.angle, .master, .ring, .store, .pages, .screen, .ctl, .notices] s (workEnableMap m a s).1 := by
  unfold workEnableMap
  split
  · dsimp only
    repeat' split
    · exact Only.refl _ s
    · exact Only.after (postMapState_only _ _) (Only.up (setMap_only s _ _))
    · exact Only.refl _ s
    · exact Only.after (postMapState_only _ _) (Only.after (setMap_only _ _ _) (drainWrites_only s _))
  · exact Only.refl _ s

theorem workEnableMap_keeps (m : Nat) (a : Bool) (s : State) : Keeps [] s (workEnableMap m a s).1 := by
  unfold workEnableMap
  split
  · dsimp only
    repeat' split
    · exact Keeps.refl _ s
    · exact Keeps.after (postMapState_keeps _ _) (setMap_keeps s _ _ (by rfl))
    · exact Keeps.refl _ s
    · exact Keeps.after (postMapState_keeps _ _) (Keeps.after (setMap_keeps _ _ _ (by rfl)) (drainWrites_keeps s _))
  · exact Keeps.refl _ s

theorem configure_entries (m : ImageMap) (f : MapFields) : (m.configure f).entries = applyWrites m.entries f.writes := by
  unfold ImageMap.configure
  dsimp only
  rw [hide_entries]
  split <;> rfl

theorem workSetMap_only (f : MapFields) (s : State) :
    Only [.angle, .master, .ring, .store, .pages, .screen, .ctl, .notices] s (workSetMap f s).1 := by
  unfold workSetMap
  dsimp only
  repeat' split
  all_goals first | exact Only.refl _ s | exact Only.after (setMap_only _ _ _) (drainWrites_only s _)

/-- New entries whose targets were found distinct (check 4 of R124). -/
theorem setMap_keeps_targets (s : State) (i : Fin 4) (m : ImageMap) (h : s.targetsDistinct i m.entries = true) :
    Keeps [] s (s.setMap i m) := by
  intro l _
  cases l
  case pages =>
    intro _
    have h := of_decide_eq_true h
    show (portNumbers.flatMap fun j => targets ((s.setMap i m).map j).entries).Nodup
    have : ∀ j, ((s.setMap i m).map j).entries = if j = i then m.entries else (s.map j).entries := by
      intro j
      rw [setMap_map_eq]
      by_cases e : i = j
      · subst e; rw [if_pos rfl, if_pos rfl]
      · rw [if_neg e, if_neg fun h => e h.symm]
    simpa only [this] using h
  all_goals exact fun h => h

theorem workSetMap_keeps (f : MapFields) (s : State) : Keeps [] s (workSetMap f s).1 := by
  unfold workSetMap
  dsimp only
  split
  · exact Keeps.refl _ s
  · split
    · exact Keeps.refl _ s
    · split
      · exact Keeps.refl _ s
      · split
        · exact Keeps.refl _ s
        · next h =>
          refine Keeps.after (setMap_keeps_targets _ _ _ ?_) (drainWrites_keeps s _)
          rw [configure_entries]
          unfold State.targetsDistinct at h ⊢
          simp only [drainWrites_entries]
          simpa using h

theorem workReadStoreSlot_only (m n : Nat) (s : State) : Only [.fresh] s (workReadStoreSlot m n s).1 := by
  unfold workReadStoreSlot
  split
  · dsimp only
    repeat' split
    all_goals first | exact Only.refl _ s | exact fresh_only s _
  · exact Only.refl _ s

theorem workReadStoreSlot_keeps (m n : Nat) (s : State) : Keeps [] s (workReadStoreSlot m n s).1 := by
  unfold workReadStoreSlot
  split
  · dsimp only
    repeat' split
    all_goals exact Keeps.refl _ s
  · exact Keeps.refl _ s

/-- Hiding the slots of a map that `p` chooses: each of them loses its present flag, and no slot anything else. -/
theorem slot_hide (m : ImageMap) (p : Nat → Bool) (slot : Nat) (hn : (m.directory.map (·.1)).Nodup) :
    (m.hide p).slot slot = if p slot then { m.slot slot with present := false } else m.slot slot := by
  have keys : (m.directory.map fun x => if p x.1 then (x.1, { x.2 with present := false }) else x).map (·.1) = m.directory.map (·.1) := by
    rw [List.map_map]
    exact List.map_congr_left fun x _ => by simp only [Function.comp_apply]; split <;> rfl
  refine (Sparse.get_filter _ _ _ (keys ▸ hn)).trans ?_
  exact Sparse.get_map (f := fun x => if p x.1 then (x.1, { x.2 with present := false }) else x) {}
    (fun k v => if p k then { v with present := false } else v)
    (fun x => by cases p x.1 <;> rfl) m.directory slot (by split <;> rfl)

end Sys2Proof.Machine
end

