-- ==== Sys2Proof/Laws/Marks.lean ====
section
/-! SUPPORT. The mark unit and the camera port (Machine/Marks.lean, Machine/Camera.lean): what each operation changes, and that each
keeps the invariants. -/

set_option Elab.async false

namespace Sys2Proof.Machine

/-- The parts that a change of a trip condition may change. -/
abbrev tripParts : List Part := [.fresh, .angle, .master, .axes, .ring, .trips, .sources, .screen, .ctl, .notices]

/-- The parts that the mark unit's work on a line may change. -/
abbrev markParts : List Part := tripParts ++ [.marks, .localSteps]

theorem postMarkState_only (s : State) (i : Fin 8) : Only [.ctl, .notices] s (s.postMarkState i) := post_only s _
theorem postMarkState_keeps (s : State) (i : Fin 8) : Keeps [] s (s.postMarkState i) := post_keeps s _

/-- The mark unit's record and the trip unit's flag of it change. -/
theorem marksTrips_only (s : State) (x : MarkUnit) (b : Bool) :
    Only [.marks, .trips] s { s with marks := x, trips := { s.trips with marksLocked := b } } := by
  intro p hp
  cases p <;> first | exact absurd (by decide) hp | simp [Part.same, State.axis, State.port]

theorem marksTrips_keeps (s : State) (x : MarkUnit) (b : Bool) :
    Keeps [] s { s with marks := x, trips := { s.trips with marksLocked := b } } := by
  intro l _
  cases l <;> exact fun h => h

theorem reportMarks_only (s : State) : Only markParts s s.reportMarks := by
  unfold State.reportMarks
  dsimp only
  split
  · exact (marksTrips_only s _ _).up
  · exact Only.after (setCondition_only _ _ _) (Only.up (marksTrips_only s _ _))

theorem reportMarks_keeps (s : State) : Keeps [] s s.reportMarks := by
  unfold State.reportMarks
  dsimp only
  split
  · exact marksTrips_keeps s _ _
  · exact Keeps.after (setCondition_keeps _ _ _) (marksTrips_keeps s _ _)

theorem putChannel_only (s : State) (i : Fin 8) (c : Channel) : Only markParts s (s.putChannel i c) := by
  unfold State.putChannel
  dsimp only
  split
  · exact (setChannel_only s i c).up
  · exact Only.after (reportMarks_only _) (Only.after (postMarkState_only _ _) (Only.up (setChannel_only s i c)))

theorem putChannel_keeps (s : State) (i : Fin 8) (c : Channel) : Keeps [] s (s.putChannel i c) := by
  unfold State.putChannel
  dsimp only
  split
  · exact setChannel_keeps s i c
  · exact Keeps.after (reportMarks_keeps _) (Keeps.after (postMarkState_keeps _ _) (setChannel_keeps s i c))

/-! ## Steps (R145, R146) -/

theorem sendStep_only (s : State) (i : Fin 8) (v : Int) : Only markParts s (s.sendStep i v) := by
  unfold State.sendStep
  dsimp only
  split
  · exact Only.after (localSteps_only _ _) (Only.up (setChannel_only s i _))
  · split <;> exact Only.after (setChannel_only _ i _) (Only.up (originate_only s _ _ _))

theorem sendStep_keeps (s : State) (i : Fin 8) (v : Int) : Keeps [] s (s.sendStep i v) := by
  unfold State.sendStep
  dsimp only
  split
  · exact Keeps.after (localSteps_keeps _ _) (setChannel_keeps s i _)
  · split <;> exact Keeps.after (setChannel_keeps _ i _) (originate_keeps s _ _ _)

theorem formStep_only (s : State) (i : Fin 8) (t a : Angle) : Only markParts s (s.formStep i t a) := by
  unfold State.formStep
  dsimp only
  split
  · exact (setChannel_only s i _).up
  · exact Only.after (sendStep_only _ i _) (Only.up (setChannel_only s i _))

theorem formStep_keeps (s : State) (i : Fin 8) (t a : Angle) : Keeps [] s (s.formStep i t a) := by
  unfold State.formStep
  dsimp only
  split
  · exact setChannel_keeps s i _
  · exact Keeps.after (sendStep_keeps _ i _) (setChannel_keeps s i _)

/-! ## Repeats (R140 to R144) -/

theorem closeSpan_only (s : State) (i : Fin 8) : Only markParts s (s.closeSpan i) := by
  unfold State.closeSpan
  dsimp only
  split
  · exact (putChannel_only s i _).trans (formStep_only _ i _ _)
  · exact putChannel_only s i _

theorem closeSpan_keeps (s : State) (i : Fin 8) : Keeps [] s (s.closeSpan i) := by
  unfold State.closeSpan
  dsimp only
  split
  · exact (putChannel_keeps s i _).trans (formStep_keeps _ i _ _)
  · exact putChannel_keeps s i _

theorem arm_only (s : State) (e : Angle) (i : Fin 8) : Only markParts s (s.arm e i) := by
  unfold State.arm
  dsimp only
  split
  · exact Only.refl _ s
  · exact Only.after (setChannel_only _ i _) (Only.ite (fun _ => closeSpan_only s i) fun _ => Only.refl _ s)

theorem arm_keeps (s : State) (e : Angle) (i : Fin 8) : Keeps [] s (s.arm e i) := by
  unfold State.arm
  dsimp only
  split
  · exact Keeps.refl _ s
  · exact Keeps.after (setChannel_keeps _ i _) (Keeps.ite (fun _ => closeSpan_keeps s i) fun _ => Keeps.refl _ s)

theorem offerReference_only (s : State) (e : Option Angle) : Only markParts s (s.offerReference e) := by
  unfold State.offerReference
  dsimp only
  split
  · exact Only.refl _ s
  · split
    · exact ((setChannel_only s 0 _).up).trans (Only.foldl (fun s i => arm_only s _ i) _ _)
    · exact Only.refl _ s

theorem offerReference_keeps (s : State) (e : Option Angle) : Keeps [] s (s.offerReference e) := by
  unfold State.offerReference
  dsimp only
  split
  · exact Keeps.refl _ s
  · split
    · exact (setChannel_keeps s 0 _).trans (Keeps.foldl (fun s i => arm_keeps s _ i) _ _)
    · exact Keeps.refl _ s

theorem missWaiting_only (s : State) (i : Fin 8) : Only markParts s (s.missWaiting i) :=
  Only.ite (fun _ => putChannel_only s i _) fun _ => Only.refl _ s

theorem missWaiting_keeps (s : State) (i : Fin 8) : Keeps [] s (s.missWaiting i) :=
  Keeps.ite (fun _ => putChannel_keeps s i _) fun _ => Keeps.refl _ s

theorem leavePartial_only (s : State) (i : Fin 8) : Only markParts s (s.leavePartial i) :=
  Only.ite (fun _ => (setChannel_only s i _).up) fun _ => Only.refl _ s

theorem leavePartial_keeps (s : State) (i : Fin 8) : Keeps [] s (s.leavePartial i) :=
  Keeps.ite (fun _ => setChannel_keeps s i _) fun _ => Keeps.refl _ s

theorem closeReference_only (s : State) : Only markParts s s.closeReference := by
  unfold State.closeReference
  dsimp only
  refine Only.trans ?_ (Only.foldl leavePartial_only _ _)
  split
  · split
    · exact putChannel_only s 0 _
    · exact (putChannel_only s 0 _).trans (Only.foldl missWaiting_only _ _)
  · exact (setChannel_only s 0 _).up

theorem closeReference_keeps (s : State) : Keeps [] s s.closeReference := by
  unfold State.closeReference
  dsimp only
  refine Keeps.trans ?_ (Keeps.foldl leavePartial_keeps _ _)
  split
  · split
    · exact putChannel_keeps s 0 _
    · exact (putChannel_keeps s 0 _).trans (Keeps.foldl missWaiting_keeps _ _)
  · exact setChannel_keeps s 0 _

theorem workReference_only (s : State) (l : CameraLine) : Only markParts s (s.workReference l) := by
  unfold State.workReference
  dsimp only
  have h := ((setChannel_only s 0 { s.channel 0 with previous := some (s.look 0 l).2 }).up (m := markParts)).trans
    (offerReference_only _ (s.look 0 l).1)
  exact Only.ite (fun _ => Only.refl _ s) fun _ => Only.ite (fun _ => h.trans (closeReference_only _)) fun _ => h

theorem workReference_keeps (s : State) (l : CameraLine) : Keeps [] s (s.workReference l) := by
  unfold State.workReference
  dsimp only
  have h := (setChannel_keeps s 0 { s.channel 0 with previous := some (s.look 0 l).2 }).trans (offerReference_keeps _ (s.look 0 l).1)
  exact Keeps.ite (fun _ => Keeps.refl _ s) fun _ => Keeps.ite (fun _ => h.trans (closeReference_keeps _)) fun _ => h

theorem workFollower_only (s : State) (l : CameraLine) (i : Fin 8) : Only markParts s (s.workFollower l i) := by
  unfold State.workFollower
  dsimp only
  have h := fun c => (setChannel_only s i c).up (m := markParts)
  exact Only.ite (fun _ => Only.refl _ s) fun _ => Only.ite (fun _ => (h _).trans (closeSpan_only _ i)) fun _ => h _

theorem workFollower_keeps (s : State) (l : CameraLine) (i : Fin 8) : Keeps [] s (s.workFollower l i) := by
  unfold State.workFollower
  dsimp only
  exact Keeps.ite (fun _ => Keeps.refl _ s) fun _ =>
    Keeps.ite (fun _ => (setChannel_keeps s i _).trans (closeSpan_keeps _ i)) fun _ => setChannel_keeps s i _

/-- What the mark unit's work on a line may change. -/
theorem markLine_only (s : State) (l : CameraLine) : Only markParts s (s.markLine l) :=
  Only.after (marks_only _ _) ((workReference_only s l).trans (Only.foldl (fun s i => workFollower_only s l i) _ _))

theorem markLine_keeps (s : State) (l : CameraLine) : Keeps [] s (s.markLine l) :=
  Keeps.after (marks_keeps _ _) ((workReference_keeps s l).trans (Keeps.foldl (fun s i => workFollower_keeps s l i) _ _))

theorem marksCameraOn_only (s : State) : Only [.marks] s s.marksCameraOn := marks_only s _
theorem marksCameraOn_keeps (s : State) : Keeps [] s s.marksCameraOn := marks_keeps s _

theorem workSetMarkChannel_only (f : MarkFields) (s : State) : Only markParts s (workSetMarkChannel f s).1 := by
  unfold workSetMarkChannel
  split
  · exact Only.refl _ s
  · dsimp only
    split
    · exact Only.refl _ s
    · exact Only.ite (fun _ => ((setChannel_only s _ _).up).trans (reportMarks_only _)) fun _ =>
        (Only.after (postMarkState_only _ _) (Only.up (setChannel_only s _ _))).trans (reportMarks_only _)

theorem workSetMarkChannel_keeps (f : MarkFields) (s : State) : Keeps [] s (workSetMarkChannel f s).1 := by
  unfold workSetMarkChannel
  split
  · exact Keeps.refl _ s
  · dsimp only
    split
    · exact Keeps.refl _ s
    · exact Keeps.ite (fun _ => (setChannel_keeps s _ _).trans (reportMarks_keeps _)) fun _ =>
        (Keeps.after (postMarkState_keeps _ _) (setChannel_keeps s _ _)).trans (reportMarks_keeps _)

theorem workSetMarkUnit_only (v : Nat) (s : State) : Only [.marks] s (workSetMarkUnit v s).1 := by
  unfold workSetMarkUnit
  split
  · exact marks_only s _
  · exact Only.refl _ s

theorem workSetMarkUnit_keeps (v : Nat) (s : State) : Keeps [] s (workSetMarkUnit v s).1 := by
  unfold workSetMarkUnit
  split
  · exact marks_keeps s _
  · exact Keeps.refl _ s

/-! ## The camera port (R118 to R122) -/

/-- The issue of a trigger keeps the room of the outstanding queue and touches no pending trigger (R120). -/
theorem issue_room (n : Nat) (c : Camera) (t : Trigger) (h : c.outstanding.length ≤ 4) :
    (Camera.issue n c t).outstanding.length ≤ 4 ∧ (Camera.issue n c t).triggers = c.triggers := by
  refine ⟨?_, rfl⟩
  show ((if decide (4 ≤ c.outstanding.length) = true then c.outstanding.tail else c.outstanding) ++ [_]).length ≤ 4
  rw [List.length_append, List.length_singleton]
  split
  · rw [List.length_tail]; omega
  · next hn => simp at hn; omega

theorem issueAll_room (n : Nat) (c : Camera) (h : c.outstanding.length ≤ 4) : (Camera.issueAll n c).outstanding.length ≤ 4 := by
  have fold : ∀ (l : List Trigger) (d : Camera), d.outstanding.length ≤ 4 → (l.foldl (Camera.issue n) d).outstanding.length ≤ 4 := by
    intro l
    induction l with
    | nil => exact fun _ h => h
    | cons t l ih => exact fun d h => ih _ (issue_room n d t h).1
  exact fold _ _ h

theorem cameraUpdate_only (s : State) (e : UpdateEvent) : Only [.camera] s (s.cameraUpdate e) :=
  Only.ite (fun _ => camera_only s _) fun _ => Only.refl _ s

theorem cameraUpdate_keeps (s : State) (e : UpdateEvent) : Keeps [] s (s.cameraUpdate e) := by
  refine Keeps.ite (fun _ => camera_keeps s _ fun h => ⟨?_, ?_⟩) fun _ => Keeps.refl _ s
  · show ((List.range (min _ 8)).map _).length ≤ 8
    rw [List.length_map, List.length_range]; omega
  · exact issueAll_room e.at_ s.camera h.2

theorem handLine_only (s : State) (l : CameraLine) : Only (markParts ++ [.store]) s (s.handLine l) :=
  Only.after (capture_only _ l) (Only.up (markLine_only s l))

theorem handLine_keeps (s : State) (l : CameraLine) : Keeps [] s (s.handLine l) :=
  Keeps.after (capture_keeps _ l) (markLine_keeps s l)

theorem lineMessage_only (s : State) (bs : List Byte) : Only (markParts ++ [.store, .camera]) s (s.lineMessage bs) := by
  unfold State.lineMessage
  dsimp only
  split
  · split
    · exact Only.after (handLine_only _ _) (Only.up (camera_only s _))
    · exact (camera_only s _).up
  · exact (camera_only s _).up

theorem lineMessage_keeps (s : State) (bs : List Byte) : Keeps [] s (s.lineMessage bs) := by
  unfold State.lineMessage
  dsimp only
  split
  · split
    · refine Keeps.after (handLine_keeps _ _) (camera_keeps s _ fun h => ⟨h.1, ?_⟩)
      show (s.camera.outstanding.drop _).length ≤ 4
      rw [List.length_drop]; exact Nat.le_trans (Nat.sub_le _ _) h.2
    · exact camera_keeps s _ fun h => h
  · exact camera_keeps s _ fun h => h

theorem Camera.turn_room (c : Camera) (on : Bool) (a : Angle) (h : c.triggers.length ≤ 8 ∧ c.outstanding.length ≤ 4) :
    (c.turn on a).triggers.length ≤ 8 ∧ (c.turn on a).outstanding.length ≤ 4 := by
  unfold Camera.turn
  repeat' split
  all_goals first | exact h | exact ⟨Nat.zero_le _, Nat.zero_le _⟩

/-- A map, the stored count and the camera record change. -/
theorem storeCamera_only (s : State) (x : Store) (c : Camera) (hp : x.pages = s.store.pages) :
    Only [.store, .camera] s { s with store := x, camera := c } := by
  intro p hp
  cases p <;> first | exact absurd (by decide) hp | simp [Part.same, State.axis, State.port, *]

theorem applyCamera_only (s : State) (f : CameraFields) :
    Only [.angle, .master, .ring, .store, .pages, .screen, .ctl, .notices, .camera] s (s.applyCamera f) := by
  unfold State.applyCamera
  dsimp only
  refine Only.after (storeCamera_only _ _ _ (by rfl)) (Only.after (setMap_only _ 0 _) ?_)
  exact Only.ite (fun _ => (drainWrites_only s 0).up) fun _ => Only.refl _ s

theorem applyCamera_keeps (s : State) (f : CameraFields) : Keeps [] s (s.applyCamera f) := by
  unfold State.applyCamera
  dsimp only
  have h1 : ∀ c : Bool, Keeps [] s (if c = true then s.drainWrites 0 else s) := fun c =>
    Keeps.ite (fun _ => drainWrites_keeps s 0) fun _ => Keeps.refl _ s
  generalize decide (f.width ≠ s.camera.width ∨ f.pitch ≠ s.camera.pitch) = changed
  have h1 := h1 changed
  generalize (if changed = true then s.drainWrites 0 else s) = s1 at h1 ⊢
  have h2 := h1.trans (setMap_keeps s1 0 ({ s1.map 0 with slotCount := captureSlots f.pitch s1.store.decimation }.hide fun _ => changed)
    (by rfl))
  generalize s1.setMap 0 _ = s2 at h2 ⊢
  have h3 := h2.trans (store_keeps s2 { s2.store with stored := f.width / s2.store.hStep } (by rfl) (by exact fun h => h))
  exact h3.trans (camera_keeps { s2 with store := { s2.store with stored := f.width / s2.store.hStep } }
    ({ s2.camera with width := f.width, pitch := f.pitch }.turn f.on s.angle.previousAngle) fun h =>
      Camera.turn_room { s2.camera with width := f.width, pitch := f.pitch } _ _ h)

theorem workSetCamera_only (f : CameraFields) (s : State) :
    Only [.angle, .master, .ring, .store, .pages, .screen, .ctl, .notices, .camera, .marks] s (workSetCamera f s).1 := by
  unfold workSetCamera
  dsimp only
  split
  · exact Only.refl _ s
  · split
    · exact Only.refl _ s
    · split
      · exact Only.refl _ s
      · exact Only.ite (fun _ => Only.after (marksCameraOn_only _) (Only.up (applyCamera_only s f))) fun _ =>
          (applyCamera_only s f).up

theorem workSetCamera_keeps (f : CameraFields) (s : State) : Keeps [] s (workSetCamera f s).1 := by
  unfold workSetCamera
  dsimp only
  split
  · exact Keeps.refl _ s
  · split
    · exact Keeps.refl _ s
    · split
      · exact Keeps.refl _ s
      · exact Keeps.ite (fun _ => Keeps.after (marksCameraOn_keeps _) (applyCamera_keeps s f)) fun _ => applyCamera_keeps s f

end Sys2Proof.Machine
end

