-- ==== Sys2Proof/Laws/Updates.lean ====
section
/-! SUPPORT. Update events, missing frames and the deadline (Machine/Updates.lean): what each operation changes, and that each keeps the
invariants. -/

set_option Elab.async false

namespace Sys2Proof.Machine

/-- The parts that an update event may change. -/
abbrev updateParts : List Part := tripParts ++ [.ports, .portStates, .camera]

theorem recordUpdate_only (s : State) (e : UpdateEvent) : Only [.angle] s (s.recordUpdate e) := angle_only s _ rfl rfl rfl
theorem recordUpdate_keeps (s : State) (e : UpdateEvent) : Keeps [] s (s.recordUpdate e) := angle_keeps s _ rfl fun h => h

theorem drainAll_only (s : State) : Only updateParts s s.drainAll := Only.foldl (fun s p => (drain_only s p).up) _ s
theorem drainAll_keeps (s : State) : Keeps [] s s.drainAll := Keeps.foldl drain_keeps _ s

theorem workAxes_only (s : State) (e : UpdateEvent) (g : List (Fin 16)) : Only [.axes, .ctl, .notices] s (s.workAxes e g) :=
  Only.foldl (fun s i => workAxis_only s i _ _) _ s

theorem workAxes_keeps (s : State) (e : UpdateEvent) (g : List (Fin 16)) : Keeps [] s (s.workAxes e g) :=
  Keeps.foldl (fun s i => workAxis_keeps s i _ _) _ s

theorem followReports_only (s b : State) (p : Fin 4) : Only updateParts s (s.followReports b p) :=
  Only.foldl (fun _ _ => Only.ite (fun _ => (follow_only _ _ _ _).up) fun _ => Only.refl _ _) _ s

theorem followReports_keeps (s b : State) (p : Fin 4) : Keeps [] s (s.followReports b p) :=
  Keeps.foldl (fun _ _ => Keeps.ite (fun _ => follow_keeps _ _ _ _) fun _ => Keeps.refl _ _) _ s

theorem telegrams_only (s : State) (tu : Nat) : Only [.axes, .ports, .ctl, .notices] s (s.telegrams tu) := by
  unfold State.telegrams
  refine ((axesMap_only s _ fun i => ?_).up).trans (Only.foldl (fun s p => (sendPort_only s p tu).up) _ _)
  simpa using (Axis.handed_state s.axes[i]).2

theorem telegrams_keeps (s : State) (tu : Nat) : Keeps [] s (s.telegrams tu) := by
  unfold State.telegrams
  refine (axesMap_keeps s _ (fun i => ?_) (fun i => ?_) fun i => ?_).trans (Keeps.foldl (fun s p => sendPort_keeps s p tu) _ _)
  · simpa using (Axis.handed_state s.axes[i]).1
  · simpa using (Axis.handed_state s.axes[i]).2
  · simpa using fun h => Axis.handed_inRange h

theorem reportCoupled_only (s : State) : Only [.trips] s s.reportCoupled := trips_only_lists s _ rfl
theorem reportCoupled_keeps (s : State) : Keeps [] s s.reportCoupled := trips_keeps s _ rfl rfl rfl rfl rfl rfl rfl

theorem screenUpdate_only (s : State) (e : UpdateEvent) : Only [.fresh, .screen] s (s.screenUpdate e) :=
  Only.ite (fun _ => Only.refl _ s) fun _ => ((screen_only s _).up).trans (runSender_only _)

theorem screenUpdate_keeps (s : State) (e : UpdateEvent) : Keeps [] s (s.screenUpdate e) :=
  Keeps.ite (fun _ => Keeps.refl _ s) fun _ =>
    (screen_keeps s s.screen.markWebViews (fun h => h) (fun h => h) (fun h => h) rfl).trans (runSender_keeps _)

theorem driveUpdate_only (s : State) (e : UpdateEvent) : Only updateParts s (s.driveUpdate e) := by
  unfold State.driveUpdate
  exact Only.after (reportCoupled_only _) (Only.after (telegrams_only _ _) (((drainAll_only s).trans
    ((workAxes_only _ e _).up)).trans (Only.foldl (fun t p => followReports_only t _ p) _ _)))

theorem driveUpdate_keeps (s : State) (e : UpdateEvent) : Keeps [] s (s.driveUpdate e) := by
  unfold State.driveUpdate
  exact Keeps.after (reportCoupled_keeps _) (Keeps.after (telegrams_keeps _ _) (((drainAll_keeps s).trans
    (workAxes_keeps _ e _)).trans (Keeps.foldl (fun t p => followReports_keeps t _ p) _ _)))

/-- What an update event may change. -/
theorem takeUpdate_only (s : State) (e : UpdateEvent) : Only updateParts s (s.takeUpdate e) := by
  unfold State.takeUpdate
  exact Only.after (screenUpdate_only _ e) (Only.after (cameraUpdate_only _ e) (((recordUpdate_only s e).up).trans
    (driveUpdate_only _ e)))

theorem takeUpdate_keeps (s : State) (e : UpdateEvent) : Keeps [] s (s.takeUpdate e) := by
  unfold State.takeUpdate
  exact Keeps.after (screenUpdate_keeps _ e) (Keeps.after (cameraUpdate_keeps _ e) ((recordUpdate_keeps s e).trans
    (driveUpdate_keeps _ e)))

theorem nextUpdate_only (s : State) : Only (updateParts ++ [.now]) s s.nextUpdate := by
  unfold State.nextUpdate
  split
  · exact Only.after (takeUpdate_only _ _) (Only.after (tick_only _ _) (Only.up (angle_only s _ (by rfl) (by rfl) (by rfl))))
  · exact Only.refl _ s

theorem nextUpdate_keeps (s : State) : Keeps [] s s.nextUpdate := by
  unfold State.nextUpdate
  split
  · exact Keeps.after (takeUpdate_keeps _ _) (Keeps.after (tick_keeps _ _) (angle_keeps s _ (by rfl) fun h => h))
  · exact Keeps.refl _ s

theorem ownUpdate_only (s : State) : Only (updateParts ++ [.now]) s s.ownUpdate := by
  unfold State.ownUpdate
  split
  · exact Only.refl _ s
  · exact Only.after (takeUpdate_only _ _) (Only.after (tick_only _ _) (Only.up (angle_only s _ (by rfl) (by rfl) (by rfl))))

theorem ownUpdate_keeps (s : State) : Keeps [] s s.ownUpdate := by
  unfold State.ownUpdate
  split
  · exact Keeps.refl _ s
  · exact Keeps.after (takeUpdate_keeps _ _) (Keeps.after (tick_keeps _ _) (angle_keeps s _ (by rfl) fun h => h))

/-! ## Missing frames (R7, R8) -/

theorem enterLost_only (s : State) : Only (tripParts ++ [.angleState]) s s.enterLost := by
  unfold State.enterLost
  exact Only.after (postAngleState_only _) (Only.after (setCondition_only _ _ _) (Only.after (inhibitAll_only _ _)
    (Only.up (angle_only_state s _ (by rfl) (by rfl)))))

/-- A member enters LOST: its engaged axes are inhibited, so R44 holds after it. -/
theorem enterLost_keeps (s : State) : Keeps [] s s.enterLost := by
  unfold State.enterLost
  refine Keeps.after (postAngleState_keeps _) (Keeps.after (setCondition_keeps _ _ _) (Keeps.put .safe
    (Keeps.after (inhibitAll_keeps _ _) ?_) fun _ => inhibitAll_safe _ _))
  intro l hl
  cases l
  case safe => exact absurd (by decide) hl
  all_goals exact fun h => h

theorem coastBase_only (s : State) (b : Option Base) : Only [.angle] s (s.coastBase b) := formBase_only s _ _
theorem coastBase_keeps (s : State) (b : Option Base) : Keeps [] s (s.coastBase b) := formBase_keeps s _ _

theorem missFrame_only (s : State) (d : Nat) : Only (tripParts ++ [.angleState]) s (s.missFrame d) := by
  unfold State.missFrame
  dsimp only
  split
  · exact Only.after (postAngleState_only _) (Only.after (coastBase_only _ _) (Only.up (angle_only_state s _ (by rfl) (by rfl))))
  · exact Only.after (enterLost_only _) (Only.up (angle_only s _ (by rfl) (by rfl) (by rfl)))

theorem missFrame_keeps (s : State) (d : Nat) : Keeps [] s (s.missFrame d) := by
  unfold State.missFrame
  dsimp only
  split
  · refine Keeps.after (postAngleState_keeps _) (Keeps.after (coastBase_keeps _ _) (angle_keeps s _ (by rfl) fun _ => ?_))
    exact ⟨(by decide : AngleState.coasting ≠ .none), (by decide : AngleState.coasting ≠ .lost)⟩
  · exact Keeps.after (enterLost_keeps _) (angle_keeps s _ (by rfl) fun h => h)

theorem deadlineComes_only (s : State) : Only (tripParts ++ [.angleState, .now]) s s.deadlineComes := by
  unfold State.deadlineComes
  split
  · exact Only.refl _ s
  · split
    · exact Only.refl _ s
    · exact Only.after (missFrame_only _ _) (Only.up (tick_only s _))

theorem deadlineComes_keeps (s : State) : Keeps [] s s.deadlineComes := by
  unfold State.deadlineComes
  split
  · exact Keeps.refl _ s
  · split
    · exact Keeps.refl _ s
    · exact Keeps.after (missFrame_keeps _ _) (tick_keeps s _)

end Sys2Proof.Machine
end

