-- ==== Sys2Proof/Laws/Panel.lean ====
section
/-! SUPPORT. The screen controller's requests and the panel's messages (Machine/Panel.lean): what each operation changes, and that each
keeps the invariants. -/

set_option Elab.async false

namespace Sys2Proof.Machine

/-- The parts that handing a frame to the hold queue may change, and the sender's. -/
abbrev screenParts : List Part := [.fresh, .angle, .master, .ring, .screen, .ctl, .notices]

theorem shown_only {l : List Part} {s t : State} (h : Only l s t) (hf : ∀ x ∈ [Part.fresh, .screen], x ∈ l := by decide) :
    Only l s (shown t).1 := h.trans ((runSender_only t).up hf)

theorem shown_keeps {s t : State} (h : Keeps [] s t) : Keeps [] s (shown t).1 := h.trans (runSender_keeps t)

/-- A change of the screen that leaves the hold queue, the windows, the tiles and the head class. -/
theorem screen_keeps_same (s : State) (x : Screen) (hh : x.hold = s.screen.hold) (hw : x.windows = s.screen.windows)
    (ht : x.tiles = s.screen.tiles) (hc : x.headClass = s.screen.headClass) : Keeps [] s { s with screen := x } :=
  screen_keeps s x (by rw [hh]; exact fun h => h) (by rw [hw]; exact fun h => h) (by rw [ht]; exact fun h => h) hc

/-! ## SET_SCREEN (R151) -/

theorem switchScreen_only (s : State) (e : Bool) : Only [.screen, .ctl, .notices] s (s.switchScreen e) := by
  unfold State.switchScreen
  repeat' split
  · exact Only.after (postScreenState_only _) (Only.up (screen_only s _))
  · exact Only.refl _ s
  · exact Only.refl _ s
  · exact Only.after (postScreenState_only _) (Only.up (screen_only s _))

theorem switchScreen_keeps (s : State) (e : Bool) : Keeps [] s (s.switchScreen e) := by
  unfold State.switchScreen
  repeat' split
  · exact Keeps.after (postScreenState_keeps _) (screen_keeps_same s _ (by rfl) (by rfl) (by rfl) (by rfl))
  · exact Keeps.refl _ s
  · exact Keeps.refl _ s
  · exact Keeps.after (postScreenState_keeps _) (screen_keeps_same s _ (by rfl) (by rfl) (by rfl) (by rfl))

theorem workSetScreen_only (f : ScreenFields) (s : State) : Only screenParts s (workSetScreen f s).1 := by
  unfold workSetScreen
  repeat' split
  · exact Only.refl _ s
  · exact Only.refl _ s
  · exact shown_only (Only.after (switchScreen_only _ _) (Only.up (screen_only s _)))

theorem workSetScreen_keeps (f : ScreenFields) (s : State) : Keeps [] s (workSetScreen f s).1 := by
  unfold workSetScreen
  repeat' split
  · exact Keeps.refl _ s
  · exact Keeps.refl _ s
  · exact shown_keeps (Keeps.after (switchScreen_keeps _ _) (screen_keeps_same s _ (by rfl) (by rfl) (by rfl) (by rfl)))

/-! ## Windows (R155, R156) -/

theorem replaceWindow_ids (l : List Window) (w : Window) : (replaceWindow l w).map (·.id) = l.map (·.id) := by
  unfold replaceWindow
  rw [List.map_map]
  refine List.map_congr_left fun x _ => ?_
  dsimp only [Function.comp]
  split
  · next h => exact h.symm
  · rfl

/-- A window of an id not in the list joins it. -/
theorem windows_append (l : List Window) (w : Window) (h : (l.map (·.id)).Nodup) (hn : ∀ x ∈ l, x.id ≠ w.id) :
    ((l ++ [w]).map (·.id)).Nodup := by
  rw [List.map_append, List.nodup_append]
  refine ⟨h, by simp, fun a ha b hb hab => ?_⟩
  obtain ⟨x, hx, hxa⟩ := List.mem_map.mp ha
  simp at hb
  exact hn x hx (by rw [hxa, hab, hb])

theorem withoutWindow_ids (l : List Window) (id : Nat) (h : (l.map (·.id)).Nodup) : ((withoutWindow l id).map (·.id)).Nodup :=
  h.sublist (List.filter_sublist.map _)

theorem withoutWindow_length (l : List Window) (id : Nat) : (withoutWindow l id).length ≤ l.length := List.length_filter_le _ _

/-- Taking out a window that is there makes room for one. -/
theorem withoutWindow_room (l : List Window) (w : Window) (h : w ∈ l) : (withoutWindow l w.id).length < l.length := by
  unfold withoutWindow
  rw [List.length_filter_lt_length_iff_exists]
  exact ⟨w, h, by simp⟩

theorem window_mem {sc : Screen} {id : Nat} {w : Window} (h : sc.window id = some w) : w ∈ sc.windows ∧ w.id = id := by
  unfold Screen.window at h
  exact ⟨List.mem_of_find?_eq_some h, by simpa using List.find?_some h⟩

theorem window_none {sc : Screen} {id : Nat} (h : sc.window id = none) : ∀ x ∈ sc.windows, x.id ≠ id := by
  intro x hx e
  have := List.find?_eq_none.mp h x hx
  simp [e] at this

/-- A change of the screen's window list that leaves the hold queue, the tiles and the head class. -/
theorem screen_keeps_windows (s : State) (x : Screen) (hh : x.hold = s.screen.hold) (ht : x.tiles = s.screen.tiles)
    (hc : x.headClass = s.screen.headClass)
    (hw : (s.screen.windows.map (·.id)).Nodup ∧ s.screen.windows.length ≤ 8 → (x.windows.map (·.id)).Nodup ∧ x.windows.length ≤ 8) :
    Keeps [] s { s with screen := x } :=
  screen_keeps s x (by rw [hh]; exact fun h => h) hw (by rw [ht]; exact fun h => h) hc

theorem workSetWindow_only (w : Window) (s : State) : Only screenParts s (workSetWindow w s).1 := by
  unfold workSetWindow
  split
  · exact Only.refl _ s
  · dsimp only
    split
    · exact shown_only ((screen_only s _).up)
    · split
      · exact Only.refl _ s
      · exact shown_only ((screen_only s _).up)

theorem workSetWindow_keeps (w : Window) (s : State) : Keeps [] s (workSetWindow w s).1 := by
  unfold workSetWindow
  split
  · exact Keeps.refl _ s
  · dsimp only
    split
    · refine shown_keeps (screen_keeps_windows s _ (by rfl) (by rfl) (by rfl) fun h => ?_)
      show ((replaceWindow s.screen.windows w).map (·.id)).Nodup ∧ (replaceWindow s.screen.windows w).length ≤ 8
      rw [replaceWindow_ids]
      exact ⟨h.1, by unfold replaceWindow; rw [List.length_map]; exact h.2⟩
    · next hn =>
      split
      · exact Keeps.refl _ s
      · next hr =>
        refine shown_keeps (screen_keeps_windows s _ (by rfl) (by rfl) (by rfl) fun h => ⟨?_, ?_⟩)
        · exact windows_append _ w h.1 (window_none hn)
        · show (s.screen.windows ++ [w]).length ≤ 8
          rw [List.length_append, List.length_singleton]; omega

theorem workRaiseWindow_only (n : Nat) (s : State) : Only screenParts s (workRaiseWindow n s).1 := by
  unfold workRaiseWindow
  split
  · dsimp only
    split
    · exact Only.refl _ s
    · split
      · exact shown_only (Only.refl _ s)
      · exact shown_only ((screen_only s _).up)
  · exact Only.refl _ s

theorem workRaiseWindow_keeps (n : Nat) (s : State) : Keeps [] s (workRaiseWindow n s).1 := by
  unfold workRaiseWindow
  split
  · dsimp only
    split
    · exact Keeps.refl _ s
    · next w hw =>
      split
      · exact shown_keeps (Keeps.refl _ s)
      · refine shown_keeps (screen_keeps_windows s _ (by rfl) (by rfl) (by rfl) fun h => ⟨?_, ?_⟩)
        · refine windows_append _ w (withoutWindow_ids _ _ h.1) fun x hx => ?_
          have := (List.mem_filter.mp hx).2
          rw [(window_mem hw).2]
          simpa using this
        · show (withoutWindow s.screen.windows n ++ [w]).length ≤ 8
          have := withoutWindow_room _ w (window_mem hw).1
          rw [(window_mem hw).2] at this
          rw [List.length_append, List.length_singleton]
          have := h.2
          omega
  · exact Keeps.refl _ s

theorem workRemoveWindow_only (n : Nat) (s : State) : Only screenParts s (workRemoveWindow n s).1 := by
  unfold workRemoveWindow
  split
  · dsimp only
    split
    · exact Only.refl _ s
    · exact shown_only ((screen_only s _).up)
  · exact Only.refl _ s

theorem workRemoveWindow_keeps (n : Nat) (s : State) : Keeps [] s (workRemoveWindow n s).1 := by
  unfold workRemoveWindow
  split
  · dsimp only
    split
    · exact Keeps.refl _ s
    · exact shown_keeps (screen_keeps_windows s _ (by rfl) (by rfl) (by rfl) fun h =>
        ⟨withoutWindow_ids _ _ h.1, Nat.le_trans (withoutWindow_length _ _) h.2⟩)
  · exact Keeps.refl _ s

/-! ## Tiles, grants and the banner (R153, R154, R158) -/

theorem writeTile_same (sc : Screen) (t : Nat) (px : List Byte) :
    (sc.writeTile t px).hold = sc.hold ∧ (sc.writeTile t px).windows = sc.windows ∧ (sc.writeTile t px).headClass = sc.headClass
      ∧ (Memory.wf sc.tiles → Memory.wf (sc.writeTile t px).tiles) :=
  ⟨rfl, rfl, rfl, fun h => Memory.writeBytes_wf _ _ _ h⟩

theorem writeTiles_same (ts : List TileWrite) (sc : Screen) :
    (ts.foldl (fun sc t => sc.writeTile t.tile t.pixels) sc).hold = sc.hold
      ∧ (ts.foldl (fun sc t => sc.writeTile t.tile t.pixels) sc).windows = sc.windows
      ∧ (ts.foldl (fun sc t => sc.writeTile t.tile t.pixels) sc).headClass = sc.headClass
      ∧ (Memory.wf sc.tiles → Memory.wf (ts.foldl (fun sc t => sc.writeTile t.tile t.pixels) sc).tiles) := by
  induction ts generalizing sc with
  | nil => exact ⟨rfl, rfl, rfl, fun h => h⟩
  | cons t ts ih =>
    have h := writeTile_same sc t.tile t.pixels
    have k := ih (sc.writeTile t.tile t.pixels)
    exact ⟨k.1.trans h.1, k.2.1.trans h.2.1, k.2.2.1.trans h.2.2.1, fun m => k.2.2.2 (h.2.2.2 m)⟩

/-- Frames handed to the hold queue in turn, with room for all of them. -/
theorem holdAll_keeps (d : Nat) (ts : List TileWrite) (s : State) (h : s.screen.hold.length + ts.length ≤ 8) :
    Keeps [] s (ts.foldl (fun s t => s.hold (tileFrame d t)) s) := by
  induction ts generalizing s with
  | nil => exact Keeps.refl _ s
  | cons t ts ih =>
    rw [List.length_cons] at h
    have := hold_hold s (tileFrame d t)
    exact (hold_keeps s (tileFrame d t) (by omega)).trans (ih _ (by omega))

theorem workPutTiles_only (d : Nat) (ts : List TileWrite) (s : State) : Only screenParts s (workPutTiles d ts s).1 := by
  unfold workPutTiles
  repeat' split
  · exact Only.refl _ s
  · exact shown_only ((screen_only s _).up)
  · exact Only.refl _ s
  · exact shown_only (Only.foldl (fun s t => (hold_only s _).up) ts s)

theorem workPutTiles_keeps (d : Nat) (ts : List TileWrite) (s : State) : Keeps [] s (workPutTiles d ts s).1 := by
  unfold workPutTiles
  repeat' split
  · exact Keeps.refl _ s
  · have h := writeTiles_same ts s.screen
    exact shown_keeps (screen_keeps s _ (by rw [h.1]; exact fun k => k) (by rw [h.2.1]; exact fun k => k) h.2.2.2 h.2.2.1)
  · exact Keeps.refl _ s
  · next hr => exact shown_keeps (holdAll_keeps d ts s (Nat.le_of_not_lt hr))

theorem workSetGrant_only (f : GrantFields) (s : State) : Only screenParts s (workSetGrant f s).1 := by
  unfold workSetGrant
  split
  · exact shown_only ((screen_only s _).up)
  · exact Only.refl _ s

theorem workSetGrant_keeps (f : GrantFields) (s : State) : Keeps [] s (workSetGrant f s).1 := by
  unfold workSetGrant
  split
  · exact shown_keeps (screen_keeps_same s _ (by rfl) (by rfl) (by rfl) (by rfl))
  · exact Keeps.refl _ s

theorem deliverTiles_only (s : State) (o : Nat) (p : List Byte) : Only [.fresh, .screen] s (s.deliverTiles o p) := by
  unfold State.deliverTiles
  dsimp only
  split
  · exact ((screen_only s _).up).trans (runSender_only _)
  · exact (screen_only s _).up

theorem deliverTiles_keeps (s : State) (o : Nat) (p : List Byte) : Keeps [] s (s.deliverTiles o p) := by
  unfold State.deliverTiles
  dsimp only
  split
  · have h := writeTile_same s.screen (fieldAt p 0 2) (p.drop 2)
    exact (screen_keeps s _ (by rw [h.1]; exact fun k => k) (by rw [h.2.1]; exact fun k => k) h.2.2.2 h.2.2.1).trans (runSender_keeps _)
  · exact screen_keeps_same s _ (by rfl) (by rfl) (by rfl) (by rfl)

theorem setBanner_same (sc : Screen) (b : Option Banner) :
    (sc.setBanner b).hold = sc.hold ∧ (sc.setBanner b).windows = sc.windows ∧ (sc.setBanner b).tiles = sc.tiles
      ∧ (sc.setBanner b).headClass = sc.headClass := by
  unfold Screen.setBanner
  dsimp only
  repeat' split
  · rw [markBanner_hold, markBanner_windows, markBanner_tiles, markBanner_headClass]; exact ⟨rfl, rfl, rfl, rfl⟩
  · rw [markBanner_hold, markBanner_windows, markBanner_tiles, markBanner_headClass]; exact ⟨rfl, rfl, rfl, rfl⟩
  · exact ⟨rfl, rfl, rfl, rfl⟩

theorem workSetBanner_only (b : Option Banner) (s : State) : Only screenParts s (workSetBanner b s).1 := by
  unfold workSetBanner
  split
  · exact shown_only ((screen_only s _).up)
  · exact Only.refl _ s

theorem workSetBanner_keeps (b : Option Banner) (s : State) : Keeps [] s (workSetBanner b s).1 := by
  unfold workSetBanner
  split
  · have h := setBanner_same s.screen b
    exact shown_keeps (screen_keeps_same s _ h.1 h.2.1 h.2.2.1 h.2.2.2)
  · exact Keeps.refl _ s

/-! ## Touches (R161, R162) and the panel (R152, R160) -/

theorem holdTouch_only (s : State) (h : HoldFrame) : Only screenParts s (s.holdTouch h) :=
  Only.ite (fun _ => (hold_only s h).up) fun _ => (screen_only s _).up

theorem holdTouch_keeps (s : State) (h : HoldFrame) : Keeps [] s (s.holdTouch h) :=
  Keeps.ite (fun hr => hold_keeps s h hr) fun _ => screen_keeps_same s _ (by rfl) (by rfl) (by rfl) (by rfl)

theorem badPanelMessage_only (s : State) : Only [.screen] s s.badPanelMessage := screen_only s _
theorem badPanelMessage_keeps (s : State) : Keeps [] s s.badPanelMessage := screen_keeps_same s _ rfl rfl rfl rfl

theorem touchWindow_only (s : State) (w : Window) (k : Byte) (x y : Nat) : Only screenParts s (s.touchWindow w k x y) := by
  unfold State.touchWindow
  dsimp only
  split
  · exact (post_only s _).up
  · exact holdTouch_only s _
  · exact (screen_only s _).up

theorem touchWindow_keeps (s : State) (w : Window) (k : Byte) (x y : Nat) : Keeps [] s (s.touchWindow w k x y) := by
  unfold State.touchWindow
  dsimp only
  split
  · exact post_keeps s _
  · exact holdTouch_keeps s _
  · exact screen_keeps_same s _ (by rfl) (by rfl) (by rfl) (by rfl)

theorem routeTouch_only (s : State) (k : Byte) (x y : Nat) : Only screenParts s (s.routeTouch k x y) := by
  unfold State.routeTouch
  dsimp only
  split
  · exact (badPanelMessage_only s).up
  · split
    · exact (post_only s _).up
    · exact touchWindow_only s _ _ _ _
    · exact (post_only s _).up

theorem routeTouch_keeps (s : State) (k : Byte) (x y : Nat) : Keeps [] s (s.routeTouch k x y) := by
  unfold State.routeTouch
  dsimp only
  split
  · exact badPanelMessage_keeps s
  · split
    · exact post_keeps s _
    · exact touchWindow_keeps s _ _ _ _
    · exact post_keeps s _

theorem deliverTouch_only (s : State) (o : Nat) (p : List Byte) : Only [.ctl, .notices] s (s.deliverTouch o p) := post_only s _
theorem deliverTouch_keeps (s : State) (o : Nat) (p : List Byte) : Keeps [] s (s.deliverTouch o p) := post_keeps s _

theorem panelStatus_only (s : State) : Only [.fresh, .screen, .ctl, .notices] s s.panelStatus := by
  unfold State.panelStatus
  dsimp only
  split
  · exact Only.after (runSender_only _) (Only.after (postScreenState_only _) (Only.up (screen_only s _)))
  · exact (screen_only s _).up

theorem panelStatus_keeps (s : State) : Keeps [] s s.panelStatus := by
  unfold State.panelStatus
  dsimp only
  split
  · exact Keeps.after (runSender_keeps _) (Keeps.after (postScreenState_keeps _)
      (screen_keeps_same s _ (by rfl) (by rfl) (by rfl) (by rfl)))
  · exact screen_keeps_same s _ (by rfl) (by rfl) (by rfl) (by rfl)

theorem panelMessage_only (s : State) (bs : List Byte) : Only screenParts s (s.panelMessage bs) := by
  unfold State.panelMessage
  repeat' split
  · exact Only.refl _ s
  · exact (badPanelMessage_only s).up
  · exact (panelStatus_only s).up
  · exact routeTouch_only s _ _ _
  · exact (badPanelMessage_only s).up

theorem panelMessage_keeps (s : State) (bs : List Byte) : Keeps [] s (s.panelMessage bs) := by
  unfold State.panelMessage
  repeat' split
  · exact Keeps.refl _ s
  · exact badPanelMessage_keeps s
  · exact panelStatus_keeps s
  · exact routeTouch_keeps s _ _ _
  · exact badPanelMessage_keeps s

theorem panelExpires_only (s : State) : Only [.now, .screen, .ctl, .notices] s s.panelExpires := by
  unfold State.panelExpires
  split
  · exact Only.after (postScreenState_only _) (Only.after (screen_only _ _) (Only.up (tick_only s _)))
  · exact Only.refl _ s

theorem panelExpires_keeps (s : State) : Keeps [] s s.panelExpires := by
  unfold State.panelExpires
  split
  · exact Keeps.after (postScreenState_keeps _) (Keeps.after (screen_keeps_same _ _ (by rfl) (by rfl) (by rfl) (by rfl)) (tick_keeps s _))
  · exact Keeps.refl _ s

theorem tileSent_only (s : State) : Only [.fresh, .screen] s s.tileSent := by
  unfold State.tileSent
  split
  · exact ((screen_only s _).up).trans (runSender_only _)
  · exact Only.refl _ s

theorem tileSent_keeps (s : State) : Keeps [] s s.tileSent := by
  unfold State.tileSent
  split
  · exact (screen_keeps_same s _ (by rfl) (by rfl) (by rfl) (by rfl)).trans (runSender_keeps _)
  · exact Keeps.refl _ s

end Sys2Proof.Machine
end

