-- ==== Sys2Proof/Laws/Links.lean ====
section
/-! SUPPORT. The fibre ports, the ring mode and the roster (Machine/Links.lean): what each operation changes, and that each keeps the
invariants; the ring mode follows the usable flags once it is formed again (R72). -/

set_option Elab.async false

namespace Sys2Proof.Machine

/-- The parts that a change of the ring mode may change. -/
abbrev linkParts : List Part := tripParts ++ [.links]

theorem postRingState_only (s : State) : Only [.ctl, .notices] s s.postRingState := post_only s _
theorem postRingState_keeps (s : State) : Keeps [] s s.postRingState := post_keeps s _

/-- Any change of the ring controller. -/
theorem ring_only_links (s : State) (x : Ring) : Only [.ring, .links] s { s with ring := x } := by
  intro p hp
  cases p <;> first | exact absurd (by decide) hp | simp [Part.same, State.axis, State.port]

theorem setFibre_only_links (s : State) (o : FibreSide) (p : FibrePort) : Only [.ring, .links] s (s.setFibre o p) := by
  cases o <;> exact ring_only_links s _

/-- A write of a fibre port that keeps the room of its queues keeps every invariant but the mode's. -/
theorem setFibre_keeps_mode (s : State) (o : FibreSide) (p : FibrePort) (hq : (s.fibre o).urgent.length ≤ 8 → p.urgent.length ≤ 8)
    (hf : (s.fibre o).forwarded.length ≤ 16 → p.forwarded.length ≤ 16) : Keeps [.mode] s (s.setFibre o p) := by
  intro l hl
  cases l
  case mode => exact absurd (by decide) hl
  case ring =>
    intro h
    refine ⟨by cases o <;> exact h.1, fun q => ?_⟩
    by_cases e : o = q
    · subst e; rw [setFibre_fibre]; exact ⟨hq (h.2 o).1, hf (h.2 o).2⟩
    · rw [setFibre_fibre_ne _ _ _ _ e]; exact h.2 q
  all_goals cases o <;> exact fun h => h

/-! ## The ring mode (R72, R73) -/

theorem flush_only (s : State) (o : FibreSide) : Only [.angle, .master, .ring, .ctl, .notices] s (s.flush o) := by
  unfold State.flush
  dsimp only
  split
  · exact Only.after (left_only _ _) (Only.after (ring_only _ _ (by rfl) (by rfl) (by rfl)) (Only.up (setFibre_only s o _ (by rfl) (by rfl))))
  · exact Only.after (ring_only _ _ (by rfl) (by rfl) (by rfl)) (Only.up (setFibre_only s o _ (by rfl) (by rfl)))

theorem flush_keeps (s : State) (o : FibreSide) : Keeps [] s (s.flush o) := by
  unfold State.flush
  dsimp only
  have h := setFibre_keeps s o { s.fibre o with urgent := [], cycle := none, forwarded := [] } (by rfl) (fun _ => Nat.zero_le _)
    fun _ => Nat.zero_le _
  split
  · exact Keeps.after (left_keeps _ _) (Keeps.after (ring_keeps _ _ (by rfl) (by rfl) (by rfl) (by exact fun h => h)) h)
  · exact Keeps.after (ring_keeps _ _ (by rfl) (by rfl) (by rfl) (by exact fun h => h)) h

/-- The operations on a new mode after the mode field is set. -/
theorem changeMode_only (s : State) (m : RingMode) : Only linkParts s (s.changeMode m) := by
  unfold State.changeMode
  dsimp only
  refine Only.after (arbitrateBoth_only _) (Only.after (setCondition_only _ _ _) (Only.after (postRingState_only _) ?_))
  have h1 : Only linkParts s ({ s with ring := { s.ring with mode := m } } : State) := (ring_only_links s _).up
  have h2 := Only.ite (c := losesRole s.ring.mode m .a = true) (fun _ => Only.after (m := [.angle, .master, .ring, .ctl, .notices])
    (flush_only { s with ring := { s.ring with mode := m } } .a) h1) fun _ => h1
  exact Only.ite (fun _ => Only.after (flush_only _ .b) h2) fun _ => h2

/-- Apart from the mode itself. -/
theorem mode_keeps (s : State) (m : RingMode) : Keeps [.mode] s { s with ring := { s.ring with mode := m } } := by
  intro l hl
  cases l
  case mode => exact absurd (by decide) hl
  case ring => exact fun h => ⟨h.1, fun side => by cases side <;> [exact h.2 .a; exact h.2 .b]⟩
  all_goals exact fun h => h

theorem flushes_keeps (t : State) (c d : Prop) [Decidable c] [Decidable d] (hb : State → State) (hh : ∀ x, Keeps [] x (hb x)) :
    Keeps [] t (hb (if d then State.flush (if c then t.flush .a else t) .b else (if c then t.flush .a else t))) := by
  have h1 : Keeps [] t (if c then t.flush .a else t) := Keeps.ite (fun _ => flush_keeps t .a) fun _ => Keeps.refl _ t
  exact (Keeps.ite (fun _ => h1.trans (flush_keeps _ .b)) fun _ => h1).trans (hh _)

theorem changeMode_after (s : State) (m : RingMode) :
    Keeps [] ({ s with ring := { s.ring with mode := m } } : State) (s.changeMode m) :=
  flushes_keeps _ _ _ (fun x => (x.postRingState.setCondition ringWrappedSource (decide (m ≠ .closed))).arbitrateBoth)
    fun x => Keeps.after (arbitrateBoth_keeps _) (Keeps.after (setCondition_keeps _ _ _) (postRingState_keeps x))

theorem reformMode_only (s : State) : Only linkParts s s.reformMode := by
  unfold State.reformMode
  dsimp only
  split
  · exact Only.refl _ s
  · exact changeMode_only s _

/-- After the mode is formed again it is the one of the usable flags, whatever it was (R72). -/
theorem reformMode_mode (s : State) : ModeOk s.reformMode := by
  unfold State.reformMode
  dsimp only
  split
  · next h => exact h.symm
  · exact changeMode_after s _ .mode (by decide) rfl

theorem reformMode_keeps (s : State) : Keeps [.mode] s s.reformMode := by
  unfold State.reformMode
  dsimp only
  split
  · exact Keeps.refl _ s
  · exact (mode_keeps s _).trans ((changeMode_after s _).up)

/-! ## Training, loss and idle sets (R68 to R71) -/

theorem startTraining_only (s : State) (o : FibreSide) : Only linkParts s (s.startTraining o) := by
  unfold State.startTraining
  dsimp only
  split
  · exact Only.after (postRingState_only _) (Only.up (setFibre_only_links s o _))
  · exact Only.refl _ s

theorem startTraining_keeps (s : State) (o : FibreSide) : Keeps [] s (s.startTraining o) := by
  unfold State.startTraining
  dsimp only
  split
  · exact Keeps.after (postRingState_keeps _) (setFibre_keeps s o _ (by rfl) (fun h => h) fun h => h)
  · exact Keeps.refl _ s

theorem loseLock_only (s : State) (o : FibreSide) : Only linkParts s (s.loseLock o) := by
  unfold State.loseLock
  dsimp only
  split
  · exact Only.refl _ s
  · exact Only.after (reformMode_only _) (Only.after (postRingState_only _) (Only.up (setFibre_only_links s o _)))

theorem loseLock_keeps (s : State) (o : FibreSide) : Keeps [] s (s.loseLock o) := by
  unfold State.loseLock
  dsimp only
  split
  · exact Keeps.refl _ s
  · exact Keeps.put .mode (Keeps.after (reformMode_keeps _) (Keeps.after (postRingState_keeps _)
      (setFibre_keeps_mode s o _ (fun h => h) fun h => h))) fun _ => reformMode_mode _

theorem restartRun_same (p : FibrePort) : p.restartRun.usable = p.usable ∧ p.restartRun.urgent = p.urgent
    ∧ p.restartRun.forwarded = p.forwarded ∧ p.restartRun.state = p.state := by
  unfold FibrePort.restartRun
  split <;> exact ⟨rfl, rfl, rfl, rfl⟩

theorem shortLoss_only (s : State) (o : FibreSide) : Only [.ring] s (s.shortLoss o) :=
  setFibre_only s o _ (restartRun_same _).1 (restartRun_same _).2.2.2

theorem shortLoss_keeps (s : State) (o : FibreSide) : Keeps [] s (s.shortLoss o) :=
  setFibre_keeps s o _ (restartRun_same _).1 (by rw [(restartRun_same _).2.1]; exact fun h => h)
    (by rw [(restartRun_same _).2.2.1]; exact fun h => h)

theorem sendIdle_only (s : State) (o : FibreSide) : Only [.ring] s (s.sendIdle o) :=
  Only.ite (fun _ => Only.refl _ s) fun _ => setFibre_only s o _ (by rfl) (by rfl)

theorem sendIdle_keeps (s : State) (o : FibreSide) : Keeps [] s (s.sendIdle o) :=
  Keeps.ite (fun _ => Keeps.refl _ s) fun _ => setFibre_keeps s o _ (by rfl) (fun h => h) fun h => h

theorem takeIdle_queues (p : FibrePort) (x : IdleSet) (t : Nat) :
    (p.takeIdle x t).urgent = p.urgent ∧ (p.takeIdle x t).forwarded = p.forwarded := by
  unfold FibrePort.takeIdle
  dsimp only
  split
  · exact ⟨rfl, rfl⟩
  · split
    · split
      · unfold FibrePort.sample
        dsimp only
        split <;> exact ⟨rfl, rfl⟩
      · exact ⟨(restartRun_same _).2.1, (restartRun_same _).2.2.1⟩
    · exact ⟨(restartRun_same _).2.1, (restartRun_same _).2.2.1⟩
  · unfold FibrePort.countOk
    dsimp only
    split <;> exact ⟨rfl, rfl⟩

theorem idleReceived_only (s : State) (o : FibreSide) (t : Nat) (g : Bool) (bs : List Byte) :
    Only linkParts s (s.idleReceived o t g bs) := by
  unfold State.idleReceived
  dsimp only
  generalize (if g = true then decodeIdle bs else none) = d
  cases d with
  | none => exact (shortLoss_only s o).up
  | some x =>
    have h : Only linkParts s (s.setFibre o ((s.fibre o).takeIdle x t)) := (setFibre_only_links s o _).up
    exact (Only.ite (fun _ => h) fun _ => Only.after (postRingState_only _) h).trans (reformMode_only _)

theorem idleReceived_keeps (s : State) (o : FibreSide) (t : Nat) (g : Bool) (bs : List Byte) : Keeps [] s (s.idleReceived o t g bs) := by
  unfold State.idleReceived
  dsimp only
  generalize (if g = true then decodeIdle bs else none) = d
  cases d with
  | none => exact shortLoss_keeps s o
  | some x =>
    have h : Keeps [.mode] s (s.setFibre o ((s.fibre o).takeIdle x t)) :=
      setFibre_keeps_mode s o _ (by rw [(takeIdle_queues _ _ _).1]; exact fun h => h) (by rw [(takeIdle_queues _ _ _).2]; exact fun h => h)
    exact Keeps.put .mode ((Keeps.ite (fun _ => h) fun _ => Keeps.after (postRingState_keeps _) h).trans (reformMode_keeps _))
      fun _ => reformMode_mode _

/-! ## The roster (R88, R89) and SEND_MESSAGE (R90) -/

theorem setLost_only (s : State) (l : List Nat) : Only tripParts s (s.setLost l) := by
  unfold State.setLost
  dsimp only
  have h := ring_only s { s.ring with lost := l } rfl rfl rfl
  exact Only.ite (fun _ => h.up) fun _ => Only.after (setCondition_only _ _ _) (Only.after (postRingState_only _) (Only.up h))

theorem setLost_keeps (s : State) (l : List Nat) : Keeps [] s (s.setLost l) := by
  unfold State.setLost
  dsimp only
  have h := ring_keeps s { s.ring with lost := l } rfl rfl rfl fun h => h
  exact Keeps.ite (fun _ => h) fun _ => Keeps.after (setCondition_keeps _ _ _) (Keeps.after (postRingState_keeps _) h)

theorem workSetRoster_only (l : List Nat) (s : State) : Only tripParts s (workSetRoster l s).1 := by
  unfold workSetRoster
  split
  · exact Only.refl _ s
  · split
    · exact Only.refl _ s
    · exact Only.after (setLost_only _ _) (Only.up (ring_only s _ (by rfl) (by rfl) (by rfl)))

theorem workSetRoster_keeps (l : List Nat) (s : State) : Keeps [] s (workSetRoster l s).1 := by
  unfold workSetRoster
  split
  · exact Keeps.refl _ s
  · split
    · exact Keeps.refl _ s
    · exact Keeps.after (setLost_keeps _ _) (ring_keeps s _ (by rfl) (by rfl) (by rfl) fun h => h)

theorem checkRoster_only (s : State) (v : Vector StatusSlot 32) : Only tripParts s (s.checkRoster v) := by
  unfold State.checkRoster
  exact Only.after (setLost_only _ _) (Only.up (ring_only s _ (by rfl) (by rfl) (by rfl)))

theorem checkRoster_keeps (s : State) (v : Vector StatusSlot 32) : Keeps [] s (s.checkRoster v) := by
  unfold State.checkRoster
  exact Keeps.after (setLost_keeps _ _) (ring_keeps s _ (by rfl) (by rfl) (by rfl) fun h => h)

theorem workSendMessage_only (d : Nat) (bs : List Byte) (s : State) :
    Only [.angle, .master, .ring, .screen, .ctl, .notices] s (workSendMessage d bs s).1 := by
  unfold workSendMessage
  split
  · exact Only.refl _ s
  · dsimp only
    split
    · exact originate_only s _ _ _
    · exact Only.refl _ s

theorem workSendMessage_keeps (d : Nat) (bs : List Byte) (s : State) : Keeps [] s (workSendMessage d bs s).1 := by
  unfold workSendMessage
  split
  · exact Keeps.refl _ s
  · dsimp only
    split
    · exact originate_keeps s _ _ _
    · exact Keeps.refl _ s

end Sys2Proof.Machine
end

