-- ==== Sys2Proof/Laws/Arrival.lean ====
section
/-! SUPPORT. Ring frames on arrival and the master's cycle timer (Machine/Arrival.lean): what each operation changes, and that each keeps
the invariants. -/

set_option Elab.async false

namespace Sys2Proof.Machine

/-! ## Cycle frames at a member (R5, R6, R9) -/

/-- The parts that an accepted cycle frame may change. -/
abbrev cycleParts : List Part := tripParts ++ [.angleState]

theorem frameBase_only (s : State) (x : CycleArrival) : Only [.angle] s (s.frameBase x) := by
  unfold State.frameBase
  exact Only.after (formBase_only _ _ _) (angle_only s _ (by rfl) (by rfl) (by rfl))

theorem frameBase_keeps (s : State) (x : CycleArrival) : Keeps [] s (s.frameBase x) := by
  unfold State.frameBase
  exact Keeps.after (formBase_keeps _ _ _) (angle_keeps s _ (by rfl) fun h => h)

theorem acceptCycle_only (s : State) (x : CycleArrival) : Only cycleParts s (s.acceptCycle x) := by
  unfold State.acceptCycle
  dsimp only
  have h1 : Only cycleParts s (({ s with angle := s.angle.accept x } : State).frameBase x) :=
    Only.after (frameBase_only _ x) ((angle_only_state s (s.angle.accept x) rfl rfl).up)
  have h2 := Only.after (takeVector_only _ x.fields.vector) h1
  have h3 := Only.after (setCondition_only _ angleLostSource false)
    (Only.ite (c := x.fields.lineState ≠ s.angle.lineState) (fun _ => Only.after (postLineState_only _) h2) fun _ => h2)
  exact Only.ite (fun _ => h3) fun _ => Only.after (postAngleState_only _) h3

theorem acceptCycle_keeps (s : State) (x : CycleArrival) : Keeps [] s (s.acceptCycle x) := by
  unfold State.acceptCycle
  dsimp only
  have h1 : Keeps [] s (({ s with angle := s.angle.accept x } : State).frameBase x) :=
    Keeps.after (frameBase_keeps _ x) (angle_keeps s (s.angle.accept x) rfl fun _ =>
      ⟨(by decide : AngleState.tracking ≠ .none), (by decide : AngleState.tracking ≠ .lost)⟩)
  have h2 := Keeps.after (takeVector_keeps _ x.fields.vector) h1
  have h3 := Keeps.after (setCondition_keeps _ angleLostSource false)
    (Keeps.ite (c := x.fields.lineState ≠ s.angle.lineState) (fun _ => Keeps.after (postLineState_keeps _) h2) fun _ => h2)
  exact Keeps.ite (fun _ => h3) fun _ => Keeps.after (postAngleState_keeps _) h3

theorem dropForeign_only (s : State) : Only [.angle] s s.dropForeign := angle_only s _ rfl rfl rfl
theorem dropForeign_keeps (s : State) : Keeps [] s s.dropForeign := angle_keeps s _ rfl fun h => h

theorem deliverCycle_only (s : State) (x : CycleArrival) : Only cycleParts s (s.deliverCycle x) := by
  unfold State.deliverCycle
  split
  · exact (dropForeign_only s).up
  · split
    · exact acceptCycle_only s x
    · exact acceptCycle_only s x
    · exact Only.ite (fun _ => (dropForeign_only s).up) fun _ => Only.ite (fun _ => acceptCycle_only s x) fun _ => Only.refl _ s
    · exact Only.ite (fun _ => (dropForeign_only s).up) fun _ => Only.ite (fun _ => Only.ite (fun _ => acceptCycle_only s x)
        fun _ => (enterLost_only s).trans (acceptCycle_only _ x)) fun _ => Only.refl _ s

theorem deliverCycle_keeps (s : State) (x : CycleArrival) : Keeps [] s (s.deliverCycle x) := by
  unfold State.deliverCycle
  split
  · exact dropForeign_keeps s
  · split
    · exact acceptCycle_keeps s x
    · exact acceptCycle_keeps s x
    · exact Keeps.ite (fun _ => dropForeign_keeps s) fun _ => Keeps.ite (fun _ => acceptCycle_keeps s x) fun _ => Keeps.refl _ s
    · exact Keeps.ite (fun _ => dropForeign_keeps s) fun _ => Keeps.ite (fun _ => Keeps.ite (fun _ => acceptCycle_keeps s x)
        fun _ => (enterLost_keeps s).trans (acceptCycle_keeps _ x)) fun _ => Keeps.refl _ s

/-! ## The return at the master (R15, R83, R89) -/

theorem cycleReturned_only (s : State) (v : Vector StatusSlot 32) (d : Nat) : Only tripParts s (s.cycleReturned v d) := by
  unfold State.cycleReturned
  exact Only.after (checkRoster_only _ v) (Only.after (takeVector_only _ v) (Only.up (angleMaster_only s _ _ (by rfl) (by rfl) (by rfl))))

theorem cycleReturned_keeps (s : State) (v : Vector StatusSlot 32) (d : Nat) : Keeps [] s (s.cycleReturned v d) := by
  unfold State.cycleReturned
  exact Keeps.after (checkRoster_keeps _ v) (Keeps.after (takeVector_keeps _ v) (angleMaster_keeps s _ _ (by rfl) (by rfl)))

theorem returnCycle_only (s : State) (n : Num16) (c : CycleFields) (d : Nat) : Only tripParts s (s.returnCycle n c d) :=
  Only.ite (fun _ => cycleReturned_only s _ d) fun _ => Only.refl _ s

theorem returnCycle_keeps (s : State) (n : Num16) (c : CycleFields) (d : Nat) : Keeps [] s (s.returnCycle n c d) :=
  Keeps.ite (fun _ => cycleReturned_keeps s _ d) fun _ => Keeps.refl _ s

/-! ## Trip frames (R81) and delivery (R76) -/

theorem remember_same (r : Ring) (o : Nat) (q : BitVec 8) : (r.remember o q).mode = r.mode ∧ (r.remember o q).a = r.a
    ∧ (r.remember o q).b = r.b ∧ (r.remember o q).localQueue = r.localQueue := by
  unfold Ring.remember
  split <;> exact ⟨rfl, rfl, rfl, rfl⟩

theorem deliverTripFrame_only (s : State) (f : Frame) : Only tripParts s (s.deliverTripFrame f) := by
  unfold State.deliverTripFrame
  dsimp only
  split
  · have h := ring_only s (s.ring.remember f.origin (f.seq.setWidth 8)) (remember_same _ _ _).1 (remember_same _ _ _).2.1
      (remember_same _ _ _).2.2.1
    exact Only.ite (fun _ => Only.after (deliverTrip_only _ _ _) (Only.up h)) fun _ =>
      Only.after (deliverTripClear_only _ _ _) (Only.up h)
  · exact (ring_only s _ (by rfl) (by rfl) (by rfl)).up

theorem deliverTripFrame_keeps (s : State) (f : Frame) (ho : f.origin ≠ s.angle.nodeId) : Keeps [] s (s.deliverTripFrame f) := by
  unfold State.deliverTripFrame
  dsimp only
  split
  · have h := ring_keeps s (s.ring.remember f.origin (f.seq.setWidth 8)) (remember_same _ _ _).1 (remember_same _ _ _).2.1
      (remember_same _ _ _).2.2.1 (by rw [(remember_same _ _ _).2.2.2]; exact fun h => h)
    exact Keeps.ite (fun _ => Keeps.after (deliverTrip_keeps _ _ _ ho) h) fun _ => Keeps.after (deliverTripClear_keeps _ _ _) h
  · exact ring_keeps s _ (by rfl) (by rfl) (by rfl) (by exact fun h => h)

/-- The parts that a ring frame handed to its block may change. -/
abbrev arrivalParts : List Part := cycleParts ++ [.store, .straySteps]

theorem deliver_only (s : State) (x : Arrived) : Only arrivalParts s (s.deliver x) := by
  unfold State.deliver
  dsimp only
  split
  · exact (deliverCycle_only s _).up
  · exact (deliverTripFrame_only s _).up
  · exact (deliverTripFrame_only s _).up
  · exact (deliverTrimStep_only s _).up
  · exact (deliverImageLine_only s _ _).up
  · exact (deliverTiles_only s _ _).up
  · exact (deliverTouch_only s _ _).up
  · exact (post_only s _).up

theorem deliver_keeps (s : State) (x : Arrived) (ho : x.frame.origin ≠ s.angle.nodeId) : Keeps [] s (s.deliver x) := by
  unfold State.deliver
  dsimp only
  split
  · exact deliverCycle_keeps s _
  · exact deliverTripFrame_keeps s _ ho
  · exact deliverTripFrame_keeps s _ ho
  · exact deliverTrimStep_keeps s _
  · exact deliverImageLine_keeps s _ _
  · exact deliverTiles_keeps s _ _
  · exact deliverTouch_keeps s _ _
  · exact post_keeps s _

/-! ## The paths (R74 to R77) -/

theorem countStray_only (s : State) : Only [.ring] s s.countStray := ring_only s _ rfl rfl rfl
theorem countStray_keeps (s : State) : Keeps [] s s.countStray := ring_keeps s _ rfl rfl rfl fun h => h

theorem ownReturned_only (s : State) (x : Arrived) : Only tripParts s (s.ownReturned x) := by
  unfold State.ownReturned
  split
  · exact returnCycle_only s _ _ _
  · exact (ring_only s _ (by rfl) (by rfl) (by rfl)).up
  · exact (ring_only s _ (by rfl) (by rfl) (by rfl)).up
  · exact Only.refl _ s

theorem ownReturned_keeps (s : State) (x : Arrived) : Keeps [] s (s.ownReturned x) := by
  unfold State.ownReturned
  split
  · exact returnCycle_keeps s _ _ _
  · exact ring_keeps s _ (by rfl) (by rfl) (by rfl) (by exact fun h => h)
  · exact ring_keeps s _ (by rfl) (by rfl) (by rfl) (by exact fun h => h)
  · exact Keeps.refl _ s

theorem forwardFrame_only (s : State) (x : Arrived) : Only tripParts s (s.forwardFrame x) := by
  unfold State.forwardFrame
  dsimp only
  split
  · exact (joinByClass_only s _ _ _).up
  · exact (dropForward_only s).up

theorem forwardFrame_keeps (s : State) (x : Arrived) : Keeps [] s (s.forwardFrame x) := by
  unfold State.forwardFrame
  dsimp only
  split
  · exact joinByClass_keeps s _ _ _
  · exact dropForward_keeps s

theorem processFrame_only (s : State) (x : Arrived) : Only arrivalParts s (s.processFrame x) := by
  unfold State.processFrame
  dsimp only
  have h := Only.ite (c := delivered s.angle.nodeId x.frame = true) (fun _ => deliver_only s x) fun _ => Only.refl _ s
  exact Only.ite (fun _ => (countStray_only s).up) fun _ => Only.ite (fun _ => (ownReturned_only s x).up) fun _ =>
    Only.ite (fun _ => (countStray_only s).up) fun _ => Only.ite (fun _ => h) fun _ => h.trans ((forwardFrame_only _ x).up)

theorem processFrame_keeps (s : State) (x : Arrived) : Keeps [] s (s.processFrame x) := by
  unfold State.processFrame
  dsimp only
  refine Keeps.ite (fun _ => countStray_keeps s) fun _ => Keeps.ite (fun _ => ownReturned_keeps s x) fun ho =>
    Keeps.ite (fun _ => countStray_keeps s) fun _ => ?_
  have h := Keeps.ite (c := delivered s.angle.nodeId x.frame = true) (fun _ => deliver_keeps s x ho) fun _ => Keeps.refl _ s
  exact Keeps.ite (fun _ => h) fun _ => h.trans (forwardFrame_keeps _ x)

theorem passFrame_only (s : State) (x : Arrived) : Only tripParts s (s.passFrame x) := by
  unfold State.passFrame
  repeat' split
  · exact (countStray_only s).up
  · exact (joinByClass_only s _ _ _).up
  · exact (dropForward_only s).up

theorem passFrame_keeps (s : State) (x : Arrived) : Keeps [] s (s.passFrame x) := by
  unfold State.passFrame
  repeat' split
  · exact countStray_keeps s
  · exact joinByClass_keeps s _ _ _
  · exact dropForward_keeps s

theorem takeFrame_only (s : State) (o : FibreSide) (t : Nat) (bs : List Byte) : Only arrivalParts s (s.takeFrame o t bs) := by
  unfold State.takeFrame
  dsimp only
  split
  · split
    · exact (countStray_only s).up
    · exact Only.ite (fun _ => processFrame_only s _) fun _ => (passFrame_only s _).up
  · exact (dropForward_only s).up

theorem takeFrame_keeps (s : State) (o : FibreSide) (t : Nat) (bs : List Byte) : Keeps [] s (s.takeFrame o t bs) := by
  unfold State.takeFrame
  dsimp only
  split
  · split
    · exact countStray_keeps s
    · exact Keeps.ite (fun _ => processFrame_keeps s _) fun _ => passFrame_keeps s _
  · exact dropForward_keeps s

/-- What the arrival of a ring frame may change. -/
theorem frameArrives_only (s : State) (o : FibreSide) (t : Nat) (bs : List Byte) : Only arrivalParts s (s.frameArrives o t bs) := by
  unfold State.frameArrives
  dsimp only
  split
  · exact Only.refl _ s
  · exact (shortLoss_only s o).up
  · exact Only.ite (fun _ => (setFibre_only s o _ (by rfl) (by rfl)).up) fun _ => takeFrame_only s o t bs

theorem frameArrives_keeps (s : State) (o : FibreSide) (t : Nat) (bs : List Byte) : Keeps [] s (s.frameArrives o t bs) := by
  unfold State.frameArrives
  dsimp only
  split
  · exact Keeps.refl _ s
  · exact shortLoss_keeps s o
  · exact Keeps.ite (fun _ => setFibre_keeps s o _ (by rfl) (fun h => h) fun h => h) fun _ => takeFrame_keeps s o t bs

/-! ## The master's cycle timer (R14, R15) -/

theorem judgeReturn_only (s : State) : Only tripParts s s.judgeReturn := by
  unfold State.judgeReturn State.judgeReturned State.judgeMissed
  dsimp only
  have h := fun m => (master_only s m).up (m := tripParts)
  exact Only.ite (fun _ => Only.refl _ s) fun _ => Only.ite
    (fun _ => Only.ite (fun _ => Only.after (postAngleState_only _) (Only.after (setCondition_only _ _ _) (h _))) fun _ => h _)
    fun _ => Only.ite (fun _ => Only.after (postAngleState_only _) (Only.after (setCondition_only _ _ _) (Only.up (master_only s _))))
      fun _ => h _

theorem judgeReturn_keeps (s : State) : Keeps [] s s.judgeReturn := by
  unfold State.judgeReturn State.judgeReturned State.judgeMissed
  dsimp only
  have h := fun m => master_keeps s m
  exact Keeps.ite (fun _ => Keeps.refl _ s) fun _ => Keeps.ite
    (fun _ => Keeps.ite (fun _ => Keeps.after (postAngleState_keeps _) (Keeps.after (setCondition_keeps _ _ _) (h _))) fun _ => h _)
    fun _ => Keeps.ite (fun _ => Keeps.after (postAngleState_keeps _) (Keeps.after (setCondition_keeps _ _ _) (h _))) fun _ => h _

theorem discardOwnCycle_only (s : State) (o : FibreSide) : Only [.angle, .master, .ring, .ctl, .notices] s (s.discardOwnCycle o) := by
  unfold State.discardOwnCycle
  split
  · exact Only.after (emitted_only _ _ _) (Only.after (dropForward_only _) (Only.up (setFibre_only s o _ (by rfl) (by rfl))))
  · exact Only.refl _ s

theorem discardOwnCycle_keeps (s : State) (o : FibreSide) : Keeps [] s (s.discardOwnCycle o) := by
  unfold State.discardOwnCycle
  split
  · exact Keeps.after (emitted_keeps _ _ _) (Keeps.after (dropForward_keeps _) (setFibre_keeps s o _ (by rfl) (fun h => h) fun h => h))
  · exact Keeps.refl _ s

theorem discardReplaced_only (s : State) : Only [.angle, .master, .ring, .ctl, .notices] s s.discardReplaced := by
  unfold State.discardReplaced
  split
  · exact discardOwnCycle_only s _
  · exact Only.refl _ s

theorem discardReplaced_keeps (s : State) : Keeps [] s s.discardReplaced := by
  unfold State.discardReplaced
  split
  · exact discardOwnCycle_keeps s _
  · exact Keeps.refl _ s

/-- What waits at an output other than the processing output is not touched (R73). -/
theorem discardReplaced_fibre (s : State) (o : FibreSide) (h : RingMode.processingOutput s.ring.mode ≠ some o) :
    s.discardReplaced.fibre o = s.fibre o := by
  have emits (t : State) (n : Num16) (c : CycleFields) : (t.emitted n c).ring = t.ring := by
    exact ((emitted_only t n c .ring (by decide))).symm
  unfold State.discardReplaced
  split
  · rename_i p hp
    have ne : p ≠ o := fun e => h (e ▸ hp)
    unfold State.discardOwnCycle
    split
    · unfold State.fibre
      rw [emits]
      cases o <;> cases p <;> first | exact absurd rfl ne | rfl
    · rfl
  · rfl

theorem handOver_only (s : State) (d : Nat) : Only [.angle, .master] s (s.handOver d) := angleMaster_only s _ _ rfl rfl rfl
theorem handOver_keeps (s : State) (d : Nat) : Keeps [] s (s.handOver d) := angleMaster_keeps s _ _ rfl rfl

theorem sendCycle_only (s : State) (n : Num16) (c : CycleFields) : Only tripParts s (s.sendCycle n c) := by
  unfold State.sendCycle
  split
  · exact (joinCycle_only s _ _).up
  · exact (emitted_only s n c).up

theorem sendCycle_keeps (s : State) (n : Num16) (c : CycleFields) : Keeps [] s (s.sendCycle n c) := by
  unfold State.sendCycle
  split
  · exact joinCycle_keeps s _ _
  · exact emitted_keeps s n c

theorem cycleExpires_only (s : State) : Only (tripParts ++ [.now]) s s.cycleExpires := by
  unfold State.cycleExpires
  split
  · exact Only.refl _ s
  · exact Only.after (sendCycle_only _ _ _) (Only.after (handOver_only _ _) (Only.after (discardReplaced_only _)
      (Only.after (judgeReturn_only _) (Only.up (tick_only s _)))))

theorem cycleExpires_keeps (s : State) : Keeps [] s s.cycleExpires := by
  unfold State.cycleExpires
  split
  · exact Keeps.refl _ s
  · exact Keeps.after (sendCycle_keeps _ _ _) (Keeps.after (handOver_keeps _ _) (Keeps.after (discardReplaced_keeps _)
      (Keeps.after (judgeReturn_keeps _) (tick_keeps s _))))

end Sys2Proof.Machine
end

