-- ==== Sys2Proof/Laws/ControlPort.lean ====
section
/-! SUPPORT. The control port (Machine/ControlPort.lean): what working any request may change, that it keeps the invariants, and that they
hold right after a reset. -/

set_option Elab.async false

namespace Sys2Proof.Machine

/-! ## The control port's own record -/

/-- A change of the control port that leaves the notices. -/
theorem ctl_only (s : State) (x : ControlPort) (hn : x.notices = s.ctl.notices) (ho : x.overflow = s.ctl.overflow) :
    Only [.ctl, .request] s { s with ctl := x } := by
  intro p hp
  cases p <;> first | exact absurd (by decide) hp | simp [Part.same, State.axis, State.port, hn, ho]

theorem ctl_keeps (s : State) (x : ControlPort) (hn : x.notices = s.ctl.notices) : Keeps [] s { s with ctl := x } := by
  intro l _
  cases l
  case notices => intro h; show x.notices.length ≤ 32 ∧ (x.notices.filterMap Notice.key).Nodup; rw [hn]; exact h
  all_goals exact fun h => h

theorem take_only (s : State) (x : Item) : Only [.ctl, .request] s (s.take x) :=
  Only.ite (fun _ => ctl_only s _ (by rfl) (by rfl)) fun _ => ctl_only s _ (by rfl) (by rfl)

theorem take_keeps (s : State) (x : Item) : Keeps [] s (s.take x) :=
  Keeps.ite (fun _ => ctl_keeps s _ (by rfl)) fun _ => ctl_keeps s _ (by rfl)

theorem note_only (s : State) (a : Answer) : Only [.ctl, .request] s (s.note a) := ctl_only s _ rfl rfl
theorem note_keeps (s : State) (a : Answer) : Keeps [] s (s.note a) := ctl_keeps s _ rfl

theorem holdReply_only (s : State) (bs : List Byte) : Only [.fresh, .ctl, .request] s (s.holdReply bs) := by
  unfold State.holdReply
  split
  · exact Only.after (ctl_only { s with fresh := s.fresh + 1 } _ (by rfl) (by rfl)) (Only.up (fresh_only s (s.fresh + 1)))
  · exact Only.after (ctl_only { s with fresh := s.fresh + 1 } _ (by rfl) (by rfl)) (Only.up (fresh_only s (s.fresh + 1)))

theorem holdReply_keeps (s : State) (bs : List Byte) : Keeps [] s (s.holdReply bs) := by
  unfold State.holdReply
  split
  · exact Keeps.after (ctl_keeps { s with fresh := s.fresh + 1 } _ (by rfl)) (fresh_keeps s (s.fresh + 1))
  · exact Keeps.after (ctl_keeps { s with fresh := s.fresh + 1 } _ (by rfl)) (fresh_keeps s (s.fresh + 1))

/-! ## FETCH_NOTICE and RESTART (R169, R171) -/

theorem notices_only (s : State) (x : ControlPort) (h1 : x.inProgress = s.ctl.inProgress) (h2 : x.waiting = s.ctl.waiting)
    (h3 : x.reply = s.ctl.reply) (h4 : x.lostMark = s.ctl.lostMark) : Only [.ctl, .notices] s { s with ctl := x } := by
  intro p hp
  cases p <;> first | exact absurd (by decide) hp | simp [Part.same, State.axis, State.port, h1, h2, h3, h4]

theorem workFetchNotice_only (s : State) : Only [.ctl, .notices] s (workFetchNotice s).1 := notices_only s _ rfl rfl rfl rfl

theorem workFetchNotice_keeps (s : State) : Keeps [] s (workFetchNotice s).1 := by
  intro l _
  cases l
  case notices =>
    intro h
    show (s.ctl.notices.drop _).length ≤ 32 ∧ ((s.ctl.notices.drop _).filterMap Notice.key).Nodup
    refine ⟨?_, h.2.sublist ((List.drop_sublist _ _).filterMap _)⟩
    rw [List.length_drop]; exact Nat.le_trans (Nat.sub_le _ _) h.1
  all_goals exact fun h => h

theorem workRestart_only (s : State) : Only [.ctl, .notices] s (workRestart s).1 := notices_only s _ rfl rfl rfl rfl

theorem workRestart_keeps (s : State) : Keeps [] s (workRestart s).1 := ctl_keeps s _ rfl

/-! ## Any request -/

/-- The parts that working a request may change: never the clock, the queue of commands, the node's identity, the angle state, the
state and usable flag of a fibre port or the ring mode, or the requests and reply of the control port. -/
abbrev workParts : List Part :=
  [.fresh, .angle, .master, .axes, .bindings, .localSteps, .ports, .portStates, .ring, .trips, .sources, .camera, .store, .pages,
    .marks, .screen, .ctl, .notices]

theorem workReadAxis_state (n : Nat) (s : State) : (workReadAxis n s).1 = s := by unfold workReadAxis; split <;> rfl
theorem workReadPort_state (n : Nat) (s : State) : (workReadPort n s).1 = s := by unfold workReadPort; split <;> rfl
theorem workReadStoreSummary_state (n : Nat) (s : State) : (workReadStoreSummary n s).1 = s := by
  unfold workReadStoreSummary; split <;> rfl

theorem workRequest_only (r : Request) (s : State) : Only workParts s (workRequest r s).1 := by
  cases r
  case keepalive => exact (workKeepalive_only s).up
  case setKeepalive f => exact (workSetKeepalive_only f s).up
  case setCycle f => exact (workSetCycle_only f s).up
  case setRamp f => exact (workSetRamp_only f s).up
  case setSpeed v => exact (workSetSpeed_only v s).up
  case start => exact (workStart_only s).up
  case stop => exact (workStop_only s).up
  case setAxis f => exact (workSetAxis_only f s).up
  case gearChangeSmooth f => exact (workGearChangeSmooth_only f s).up
  case gearChangeJump f => exact (workGearChangeJump_only f s).up
  case setPhase f => exact (workSetPhase_only f s).up
  case setTrim f => exact (workSetTrim_only f s).up
  case couple n => exact (workCouple_only n s).up
  case release n => exact (workRelease_only n s).up
  case readAxis n => show Only workParts s (workReadAxis n s).1; rw [workReadAxis_state]; exact Only.refl _ s
  case setPortEnable f => exact (workSetPortEnable_only f s).up
  case setPortDisable f => exact (workSetPortDisable_only f s).up
  case resetPort n => exact (workResetPort_only n s).up
  case portService f => exact (workPortService_only f s).up
  case readPort n => show Only workParts s (workReadPort n s).1; rw [workReadPort_state]; exact Only.refl _ s
  case setTripSource f => exact (workSetTripSource_only f s).up
  case ackTrip l => exact (workAckTrip_only l s).up
  case raiseTrip n b => exact (workRaiseTrip_only n b s).up
  case setRoster l => exact (workSetRoster_only l s).up
  case sendMessage d bs => exact (workSendMessage_only d bs s).up
  case setCamera f => exact (workSetCamera_only f s).up
  case setCapture f => exact (workSetCapture_only f s).up
  case setStream d => exact (workSetStream_only d s).up
  case setMap f => exact (workSetMap_only f s).up
  case enableMap m a => exact (workEnableMap_only m a s).up
  case readStoreSlot m n => exact (workReadStoreSlot_only m n s).up
  case readStoreSummary n => show Only workParts s (workReadStoreSummary n s).1; rw [workReadStoreSummary_state]; exact Only.refl _ s
  case setMarkChannel f => exact (workSetMarkChannel_only f s).up
  case setMarkUnit v => exact (workSetMarkUnit_only v s).up
  case setScreen f => exact (workSetScreen_only f s).up
  case setWindow w => exact (workSetWindow_only w s).up
  case raiseWindow n => exact (workRaiseWindow_only n s).up
  case removeWindow n => exact (workRemoveWindow_only n s).up
  case putTiles d ts => exact (workPutTiles_only d ts s).up
  case setGrant f => exact (workSetGrant_only f s).up
  case setBanner b => exact (workSetBanner_only b s).up
  case fetchNotice => exact (workFetchNotice_only s).up
  case restart => exact (workRestart_only s).up
  all_goals exact Only.refl _ s

/-- Every request keeps every invariant of Safety.lean. -/
theorem workRequest_keeps (r : Request) (s : State) : Keeps [] s (workRequest r s).1 := by
  cases r
  case keepalive => exact workKeepalive_keeps s
  case setKeepalive f => exact workSetKeepalive_keeps f s
  case setCycle f => exact workSetCycle_keeps f s
  case setRamp f => exact workSetRamp_keeps f s
  case setSpeed v => exact workSetSpeed_keeps v s
  case start => exact workStart_keeps s
  case stop => exact workStop_keeps s
  case setAxis f => exact workSetAxis_keeps f s
  case gearChangeSmooth f => exact workGearChangeSmooth_keeps f s
  case gearChangeJump f => exact workGearChangeJump_keeps f s
  case setPhase f => exact workSetPhase_keeps f s
  case setTrim f => exact workSetTrim_keeps f s
  case couple n => exact workCouple_keeps n s
  case release n => exact workRelease_keeps n s
  case readAxis n => show Keeps [] s (workReadAxis n s).1; rw [workReadAxis_state]; exact Keeps.refl _ s
  case setPortEnable f => exact workSetPortEnable_keeps f s
  case setPortDisable f => exact workSetPortDisable_keeps f s
  case resetPort n => exact workResetPort_keeps n s
  case portService f => exact workPortService_keeps f s
  case readPort n => show Keeps [] s (workReadPort n s).1; rw [workReadPort_state]; exact Keeps.refl _ s
  case setTripSource f => exact workSetTripSource_keeps f s
  case ackTrip l => exact workAckTrip_keeps l s
  case raiseTrip n b => exact workRaiseTrip_keeps n b s
  case setRoster l => exact workSetRoster_keeps l s
  case sendMessage d bs => exact workSendMessage_keeps d bs s
  case setCamera f => exact workSetCamera_keeps f s
  case setCapture f => exact workSetCapture_keeps f s
  case setStream d => exact workSetStream_keeps d s
  case setMap f => exact workSetMap_keeps f s
  case enableMap m a => exact workEnableMap_keeps m a s
  case readStoreSlot m n => exact workReadStoreSlot_keeps m n s
  case readStoreSummary n => show Keeps [] s (workReadStoreSummary n s).1; rw [workReadStoreSummary_state]; exact Keeps.refl _ s
  case setMarkChannel f => exact workSetMarkChannel_keeps f s
  case setMarkUnit v => exact workSetMarkUnit_keeps v s
  case setScreen f => exact workSetScreen_keeps f s
  case setWindow w => exact workSetWindow_keeps w s
  case raiseWindow n => exact workRaiseWindow_keeps n s
  case removeWindow n => exact workRemoveWindow_keeps n s
  case putTiles d ts => exact workPutTiles_keeps d ts s
  case setGrant f => exact workSetGrant_keeps f s
  case setBanner b => exact workSetBanner_keeps b s
  case fetchNotice => exact workFetchNotice_keeps s
  case restart => exact workRestart_keeps s
  all_goals exact Keeps.refl _ s

/-- The parts that a request row, or the forming of a reply, may change. -/
abbrev portParts : List Part := workParts ++ [.request]

theorem workItem_only (s : State) (x : Item) : Only workParts s (s.workItem x).1 := by
  unfold State.workItem
  split
  · exact workRequest_only _ s
  · exact Only.refl _ s

theorem workItem_keeps (s : State) (x : Item) : Keeps [] s (s.workItem x).1 := by
  unfold State.workItem
  split
  · exact workRequest_keeps _ s
  · exact Keeps.refl _ s

theorem formReply_only (s : State) : Only portParts s s.formReply := by
  unfold State.formReply
  split
  · exact Only.refl _ s
  · exact Only.after (holdReply_only _ _) (Only.up (workItem_only s _))

theorem formReply_keeps (s : State) : Keeps [] s s.formReply := by
  unfold State.formReply
  split
  · exact Keeps.refl _ s
  · exact Keeps.after (holdReply_keeps _ _) (workItem_keeps s _)

theorem prepare_only (s : State) (r : Request) : Only portParts s (s.prepare r) := by
  unfold State.prepare State.finishRequests
  exact Only.ite (fun _ => Only.refl _ s) fun _ => Only.after (take_only _ _) ((formReply_only s).trans (formReply_only _))

theorem prepare_keeps (s : State) (r : Request) : Keeps [] s (s.prepare r) := by
  unfold State.prepare State.finishRequests
  exact Keeps.ite (fun _ => Keeps.refl _ s) fun _ => Keeps.after (take_keeps _ _) ((formReply_keeps s).trans (formReply_keeps _))

/-- What a request row may change. -/
theorem runRequest_only (s : State) (r : Request) : Only portParts s (s.runRequest r) := by
  unfold State.runRequest
  exact Only.after (note_only _ _) ((prepare_only s r).trans ((workRequest_only r _).up))

theorem runRequest_keeps (s : State) (r : Request) : Keeps [] s (s.runRequest r) := by
  unfold State.runRequest
  exact Keeps.after (note_keeps _ _) ((prepare_keeps s r).trans (workRequest_keeps r _))

theorem requestEnds_only (s : State) (bs : List Byte) : Only [.ctl, .request] s (s.requestEnds bs) := by
  unfold State.requestEnds
  exact Only.ite (fun _ => ctl_only s _ (by rfl) (by rfl)) fun _ => (ctl_only s _ (by rfl) (by rfl)).trans (take_only _ _)

theorem requestEnds_keeps (s : State) (bs : List Byte) : Keeps [] s (s.requestEnds bs) := by
  unfold State.requestEnds
  exact Keeps.ite (fun _ => ctl_keeps s _ (by rfl)) fun _ => (ctl_keeps s _ (by rfl)).trans (take_keeps _ _)

/-! ## After a reset (R172) -/

theorem formed_empty : TripClass.none = TripUnit.formed {} := by decide +kernel

/-- Every invariant holds at the end of a reset, whatever the straps and pins, if, for the memories, the pages are in canonical form. -/
theorem resetState_holds (c : ResetCause) (t : Nat) (st : Straps) (pins : BitVec 12) (cs : Bool) (pages : List Host.Cell) (fr : Nat)
    (q : List Instr) (l : Law) (hp : l = .memory → Memory.wf pages) : l.holds (resetState c t st pins cs pages fr q) := by
  have hx : ∀ i, (resetState c t st pins cs pages fr q).axis i = {} := by
    intro i
    show (Vector.replicate 16 ({} : Axis))[i] = {}
    exact Vector.getElem_replicate i.isLt
  cases l
  case notices => exact ⟨by show 1 ≤ 32; omega, by show ([(1, 0)] : List (Nat × Nat)).Nodup; decide⟩
  case impression => show false = assertsImpressionOff .none; decide
  case trips =>
    refine ⟨?_, ?_⟩
    · show TripClass.none = TripUnit.formed { sources := resetSources pins, pins := pins }
      unfold TripUnit.formed TripUnit.worst TripUnit.highestRemote TripUnit.highestHeld
      dsimp only
      exact formed_empty
    · have h : ∀ n, TripUnit.candidates { sources := resetSources pins, pins := pins } n = [] := fun _ => rfl
      show TripClass.none = (((headOf (TripUnit.candidates { sources := resetSources pins, pins := pins } (st.id.toNat + 1))).map
        (·.1)).map (·.cls)).getD .none
      rw [h]; rfl
  case lists => exact ⟨List.nodup_nil, List.nodup_nil, Nat.zero_le _, fun e he => absurd he (List.not_mem_nil)⟩
  case safe => intro i hi; rw [hx] at hi; rcases hi with h | h <;> cases h
  case axes => intro i; rw [hx]; exact ⟨by decide, by simp, by decide, by decide⟩
  case bindings =>
    refine ⟨fun i j _ h => ?_, fun i h => ?_⟩
    · rw [hx] at h; cases h
    · rw [hx] at h; exact absurd rfl h
  case receive =>
    intro p
    show ((Vector.replicate 4 ({} : DrivePort))[p]).queue.length ≤ 2
    rw [show (Vector.replicate 4 ({} : DrivePort))[p] = {} from Vector.getElem_replicate p.isLt]
    exact Nat.zero_le _
  case camera => exact ⟨Nat.zero_le _, Nat.zero_le _⟩
  case ring => exact ⟨Nat.zero_le _, fun side => by cases side <;> exact ⟨Nat.zero_le _, Nat.zero_le _⟩⟩
  case hold => exact Nat.zero_le _
  case windows => exact ⟨List.nodup_nil, Nat.zero_le _⟩
  case memory => exact ⟨hp rfl, by show Memory.wf []; decide⟩
  case pages => show (portNumbers.flatMap fun j => targets ((Vector.replicate 4 ({} : ImageMap))[j]).entries).Nodup; decide
  case mode => rfl

/-- A restart keeps the canonical form of the pages, and every other invariant holds after it. -/
theorem restartPart_keeps (s : State) (st : Straps) (m : List Byte) : Keeps [] s (s.restartPart st m) := by
  intro l _ hl
  have h := resetState_holds .restart s.now st s.trips.pins false s.keptPages (s.fresh + 1) s.pending l
    fun e => by subst e; exact keptPages_wf s hl.1
  exact ctl_keeps _ _ rfl l (by simp) h

theorem powerOn_keeps (s : State) (st : Straps) (pins : BitVec 12) (cs : Bool) : Keeps [] s (s.powerOn st pins cs) := by
  intro l _ hl
  exact resetState_holds .powerOn s.now st pins cs s.keptPages (s.fresh + 1) s.pending l
    fun e => by subst e; exact keptPages_wf s hl.1

end Sys2Proof.Machine
end

