-- ==== Sys2Proof/Laws/Events.lean ====
section
/-! SUPPORT. The operations of the event rows (Machine/EventRows.lean) and the read transaction: what each changes, and that each keeps
the invariants. -/

set_option Elab.async false

namespace Sys2Proof.Machine

/-- A read transaction keeps every invariant; after a restart every part of the state is new. -/
theorem readEnds_keeps (s : State) (n : Nat) (st : Straps) : Keeps [] s (s.readEnds n st) := by
  unfold State.readEnds
  dsimp only
  exact Keeps.ite (fun _ => ctl_keeps s _ (by rfl)) fun _ => Keeps.ite
    (fun _ => Keeps.ite (fun _ => restartPart_keeps s _ _) fun _ => ctl_keeps s _ (by rfl)) fun _ => ctl_keeps s _ (by rfl)

theorem transmitEnds_only (s : State) (o : FibreSide) : Only [.angle, .master, .ring, .screen, .ctl, .notices] s (s.transmitEnds o) :=
  Only.ite
    (fun _ => Only.after (arbitrate_only _ o)
      (Only.up ((setFibre_only s o { s.fibre o with sending := none } rfl rfl).trans (sendIdle_only _ o))))
    fun _ => Only.refl _ s

theorem transmitEnds_keeps (s : State) (o : FibreSide) : Keeps [] s (s.transmitEnds o) :=
  Keeps.ite
    (fun _ => ((setFibre_keeps s o { s.fibre o with sending := none } rfl (fun h => h) fun h => h).trans (sendIdle_keeps _ o)).trans
      (arbitrate_keeps _ o))
    fun _ => Keeps.refl _ s

theorem receive_same (p : DrivePort) (cs : List DriveChar) :
    (p.receive cs).state = p.state ∧ (p.queue.length ≤ 2 → (p.receive cs).queue.length ≤ 2) := by
  unfold DrivePort.receive
  split
  · exact ⟨rfl, fun h => h⟩
  · split
    · next t _ =>
      refine ⟨?_, fun h => (takeTelegram_queue p t h).1⟩
      unfold DrivePort.takeTelegram
      repeat' split
      all_goals rfl
    · exact ⟨rfl, fun h => h⟩

theorem localStepArrives_only (s : State) (i : Fin 16) (v : Int) :
    Only [.axes, .localSteps, .ctl, .notices] s (s.localStepArrives i v) :=
  Only.ite (fun _ => Only.after (takeTrimStep_only _ i v .localStep) (Only.up (localSteps_only s _))) fun _ => Only.refl _ s

theorem localStepArrives_keeps (s : State) (i : Fin 16) (v : Int) : Keeps [] s (s.localStepArrives i v) :=
  Keeps.ite (fun _ => (localSteps_keeps s _).trans (takeTrimStep_keeps _ i v .localStep)) fun _ => Keeps.refl _ s

theorem filterEnds_only (s : State) (p : Fin 12) : Only (.now :: tripParts) s (s.filterEnds p) := by
  unfold State.filterEnds
  dsimp only
  split
  · exact Only.after (setFiltered_only _ p _) (Only.up (tick_only s _))
  · exact Only.refl _ s

theorem filterEnds_keeps (s : State) (p : Fin 12) : Keeps [] s (s.filterEnds p) := by
  unfold State.filterEnds
  dsimp only
  split
  · exact (tick_keeps s _).trans (setFiltered_keeps _ p _)
  · exact Keeps.refl _ s

theorem windowEnds_only (s : State) : Only (.now :: tripParts) s s.windowEnds := by
  unfold State.windowEnds
  split
  · exact Only.after (windowExpires_only _) (Only.up (tick_only s _))
  · exact Only.refl _ s

theorem windowEnds_keeps (s : State) : Keeps [] s s.windowEnds := by
  unfold State.windowEnds
  split
  · exact (tick_keeps s _).trans (windowExpires_keeps _)
  · exact Keeps.refl _ s

theorem triggerComes_only (s : State) : Only [.now, .camera] s s.triggerComes := by
  unfold State.triggerComes
  split
  · exact Only.refl _ s
  · exact Only.after (tick_only _ _) (Only.up (camera_only s _))

theorem triggerComes_keeps (s : State) : Keeps [] s s.triggerComes := by
  unfold State.triggerComes
  split
  · exact Keeps.refl _ s
  · next t rest ht =>
    refine (camera_keeps s (Camera.issue t.issueAt { s.camera with triggers := rest, pulses := [] } t)
      fun h => ⟨?_, (issue_room _ { s.camera with triggers := rest, pulses := [] } t h.2).1⟩).trans (tick_keeps _ _)
    show rest.length ≤ 8
    have := h.1
    rw [ht, List.length_cons] at this
    omega

end Sys2Proof.Machine
end

