-- ==== Sys2Proof/Laws/Layouts.lean ====
section
/-! SUPPORT. Check sequences: bytes followed by their own CRC pass the check; the byte of a mark. -/

set_option Elab.async false

namespace Sys2Proof.Machine

theorem u16_length (n : Nat) : (u16 n).length = 2 := rfl

theorem u32_length (n : Nat) : (u32 n).length = 4 := rfl

theorem withCrc16_length (bs : List Byte) : (withCrc16 bs).length = bs.length + 2 := by simp [withCrc16, u16_length]

theorem withCrc32_length (bs : List Byte) : (withCrc32 bs).length = bs.length + 4 := by simp [withCrc32, u32_length]

@[simp] theorem uMark_true : uMark true = [1] := rfl

@[simp] theorem uMark_false : uMark false = [0] := rfl

theorem crc16Good_withCrc16 (bs : List Byte) : crc16Good (withCrc16 bs) = true := by
  simp [crc16Good, withCrc16, u16_length]

theorem crc32Good_withCrc32 (bs : List Byte) : crc32Good (withCrc32 bs) = true := by
  simp [crc32Good, withCrc32, u32_length]

end Sys2Proof.Machine
end

