-- ==== Sys2Proof/Laws/Rows.lean ====
section
/-! SUPPORT. What `exec` answers, by constructor: every command answers a next state. -/

set_option Elab.async false

namespace Sys2Proof.Machine

theorem exec_powerOnReset (at_ : Nat) (straps : Straps) (trp : BitVec 12) (csLow : Bool) (s : State) :
    exec (.powerOnReset at_ straps trp csLow) s = .next ((s.tick at_).powerOn straps trp csLow) := rfl
theorem exec_requestTransaction (bytes : List Byte) (s : State) :
    exec (.requestTransaction bytes) s = .next (s.requestEnds bytes) := rfl
theorem exec_readTransaction (at_ clocked : Nat) (straps : Straps) (s : State) :
    exec (.readTransaction at_ clocked straps) s = .next ((s.tick at_).readEnds clocked straps) := rfl
theorem exec_replyFormed (at_ : Nat) (s : State) :
    exec (.replyFormed at_) s = .next (s.tick at_).formReply := rfl
theorem exec_identify (s : State) :
    exec .identify s = .next (s.runRequest .identify) := rfl
theorem exec_status (s : State) :
    exec .status s = .next (s.runRequest .status) := rfl
theorem exec_keepalive (at_ : Nat) (s : State) :
    exec (.keepalive at_) s = .next ((s.tick at_).runRequest .keepalive) := rfl
theorem exec_setKeepalive (at_ : Nat) (f : KeepaliveLimits) (s : State) :
    exec (.setKeepalive at_ f) s = .next ((s.tick at_).runRequest (.setKeepalive f)) := rfl
theorem exec_setCycle (f : CycleFieldsReq) (s : State) :
    exec (.setCycle f) s = .next (s.runRequest (.setCycle f)) := rfl
theorem exec_setRamp (f : RampFields) (s : State) :
    exec (.setRamp f) s = .next (s.runRequest (.setRamp f)) := rfl
theorem exec_setSpeed (target : Nat) (s : State) :
    exec (.setSpeed target) s = .next (s.runRequest (.setSpeed target)) := rfl
theorem exec_start (s : State) :
    exec .start s = .next (s.runRequest .start) := rfl
theorem exec_stop (s : State) :
    exec .stop s = .next (s.runRequest .stop) := rfl
theorem exec_readLine (s : State) :
    exec .readLine s = .next (s.runRequest .readLine) := rfl
theorem exec_setAxis (f : AxisFields) (s : State) :
    exec (.setAxis f) s = .next (s.runRequest (.setAxis f)) := rfl
theorem exec_gearChangeSmooth (f : GearFields) (s : State) :
    exec (.gearChangeSmooth f) s = .next (s.runRequest (.gearChangeSmooth f)) := rfl
theorem exec_gearChangeJump (f : GearFields) (s : State) :
    exec (.gearChangeJump f) s = .next (s.runRequest (.gearChangeJump f)) := rfl
theorem exec_setPhase (f : OffsetFields) (s : State) :
    exec (.setPhase f) s = .next (s.runRequest (.setPhase f)) := rfl
theorem exec_setTrim (f : OffsetFields) (s : State) :
    exec (.setTrim f) s = .next (s.runRequest (.setTrim f)) := rfl
theorem exec_couple (axis : Nat) (s : State) :
    exec (.couple axis) s = .next (s.runRequest (.couple axis)) := rfl
theorem exec_release (axis : Nat) (s : State) :
    exec (.release axis) s = .next (s.runRequest (.release axis)) := rfl
theorem exec_readAxis (axis : Nat) (s : State) :
    exec (.readAxis axis) s = .next (s.runRequest (.readAxis axis)) := rfl
theorem exec_setPortEnable (f : PortFields) (s : State) :
    exec (.setPortEnable f) s = .next (s.runRequest (.setPortEnable f)) := rfl
theorem exec_setPortDisable (f : PortFields) (s : State) :
    exec (.setPortDisable f) s = .next (s.runRequest (.setPortDisable f)) := rfl
theorem exec_resetPort (port : Nat) (s : State) :
    exec (.resetPort port) s = .next (s.runRequest (.resetPort port)) := rfl
theorem exec_portService (f : ServiceFields) (s : State) :
    exec (.portService f) s = .next (s.runRequest (.portService f)) := rfl
theorem exec_readPort (port : Nat) (s : State) :
    exec (.readPort port) s = .next (s.runRequest (.readPort port)) := rfl
theorem exec_setTripSource (at_ : Nat) (f : SourceFields) (s : State) :
    exec (.setTripSource at_ f) s = .next ((s.tick at_).runRequest (.setTripSource f)) := rfl
theorem exec_ackTrip (sources : Option (List Nat)) (s : State) :
    exec (.ackTrip sources) s = .next (s.runRequest (.ackTrip sources)) := rfl
theorem exec_raiseTrip (number : Nat) (set : Bool) (s : State) :
    exec (.raiseTrip number set) s = .next (s.runRequest (.raiseTrip number set)) := rfl
theorem exec_readTrips (at_ : Nat) (s : State) :
    exec (.readTrips at_) s = .next ((s.tick at_).runRequest .readTrips) := rfl
theorem exec_setRoster (ids : List Nat) (s : State) :
    exec (.setRoster ids) s = .next (s.runRequest (.setRoster ids)) := rfl
theorem exec_sendMessage (dest : Nat) (bytes : List Byte) (s : State) :
    exec (.sendMessage dest bytes) s = .next (s.runRequest (.sendMessage dest bytes)) := rfl
theorem exec_readRing (s : State) :
    exec .readRing s = .next (s.runRequest .readRing) := rfl
theorem exec_setCamera (f : CameraFields) (s : State) :
    exec (.setCamera f) s = .next (s.runRequest (.setCamera f)) := rfl
theorem exec_setCapture (f : CaptureFields) (s : State) :
    exec (.setCapture f) s = .next (s.runRequest (.setCapture f)) := rfl
theorem exec_setStream (dest : Nat) (s : State) :
    exec (.setStream dest) s = .next (s.runRequest (.setStream dest)) := rfl
theorem exec_setMap (f : MapFields) (s : State) :
    exec (.setMap f) s = .next (s.runRequest (.setMap f)) := rfl
theorem exec_enableMap (map : Nat) (active : Bool) (s : State) :
    exec (.enableMap map active) s = .next (s.runRequest (.enableMap map active)) := rfl
theorem exec_readStoreSlot (map : Nat) (slot : Nat) (s : State) :
    exec (.readStoreSlot map slot) s = .next (s.runRequest (.readStoreSlot map slot)) := rfl
theorem exec_readStoreSummary (map : Nat) (s : State) :
    exec (.readStoreSummary map) s = .next (s.runRequest (.readStoreSummary map)) := rfl
theorem exec_setMarkChannel (f : MarkFields) (s : State) :
    exec (.setMarkChannel f) s = .next (s.runRequest (.setMarkChannel f)) := rfl
theorem exec_setMarkUnit (vReg : Nat) (s : State) :
    exec (.setMarkUnit vReg) s = .next (s.runRequest (.setMarkUnit vReg)) := rfl
theorem exec_readMarks (s : State) :
    exec .readMarks s = .next (s.runRequest .readMarks) := rfl
theorem exec_setScreen (at_ : Nat) (f : ScreenFields) (s : State) :
    exec (.setScreen at_ f) s = .next ((s.tick at_).runRequest (.setScreen f)) := rfl
theorem exec_setWindow (w : Window) (s : State) :
    exec (.setWindow w) s = .next (s.runRequest (.setWindow w)) := rfl
theorem exec_raiseWindow (id : Nat) (s : State) :
    exec (.raiseWindow id) s = .next (s.runRequest (.raiseWindow id)) := rfl
theorem exec_removeWindow (id : Nat) (s : State) :
    exec (.removeWindow id) s = .next (s.runRequest (.removeWindow id)) := rfl
theorem exec_putTiles (dest : Nat) (tiles : List TileWrite) (s : State) :
    exec (.putTiles dest tiles) s = .next (s.runRequest (.putTiles dest tiles)) := rfl
theorem exec_setGrant (f : GrantFields) (s : State) :
    exec (.setGrant f) s = .next (s.runRequest (.setGrant f)) := rfl
theorem exec_setBanner (banner : Option Banner) (s : State) :
    exec (.setBanner banner) s = .next (s.runRequest (.setBanner banner)) := rfl
theorem exec_fetchNotice (s : State) :
    exec .fetchNotice s = .next (s.runRequest .fetchNotice) := rfl
theorem exec_restart (s : State) :
    exec .restart s = .next (s.runRequest .restart) := rfl
theorem exec_updateEvent (s : State) :
    exec .updateEvent s = .next s.nextUpdate := rfl
theorem exec_ownTimerUpdate (s : State) :
    exec .ownTimerUpdate s = .next s.ownUpdate := rfl
theorem exec_deadline (s : State) :
    exec .deadline s = .next s.deadlineComes := rfl
theorem exec_cycleTimerExpiry (s : State) :
    exec .cycleTimerExpiry s = .next s.cycleExpires := rfl
theorem exec_ringFrameArrival (side : FibreSide) (arrival at_ : Nat) (bytes : List Byte) (s : State) :
    exec (.ringFrameArrival side arrival at_ bytes) s = .next ((s.tick at_).frameArrives side arrival bytes) := rfl
theorem exec_frameTransmitEnd (side : FibreSide) (at_ : Nat) (s : State) :
    exec (.frameTransmitEnd side at_) s = .next ((s.tick at_).transmitEnds side) := rfl
theorem exec_idleSetSend (side : FibreSide) (at_ : Nat) (s : State) :
    exec (.idleSetSend side at_) s = .next ((s.tick at_).sendIdle side) := rfl
theorem exec_idleSetReceived (side : FibreSide) (arrival : Nat) (symbolsGood : Bool) (bytes : List Byte) (s : State) :
    exec (.idleSetReceived side arrival symbolsGood bytes) s = .next ((s.tick arrival).idleReceived side arrival symbolsGood bytes) := rfl
theorem exec_linkTrainingStart (side : FibreSide) (s : State) :
    exec (.linkTrainingStart side) s = .next (s.startTraining side) := rfl
theorem exec_lossOfLock (side : FibreSide) (at_ : Nat) (s : State) :
    exec (.lossOfLock side at_) s = .next ((s.tick at_).loseLock side) := rfl
theorem exec_telegramClosed (port : Fin 4) (chars : List DriveChar) (s : State) :
    exec (.telegramClosed port chars) s = .next (s.setPort port ((s.port port).receive chars)) := rfl
theorem exec_transmitterFrees (port : Fin 4) (s : State) :
    exec (.transmitterFrees port) s = .next (s.setPort port (s.port port).transmitterEnd) := rfl
theorem exec_localTrimStep (axis : Fin 16) (step : Int) (s : State) :
    exec (.localTrimStep axis step) s = .next (s.localStepArrives axis step) := rfl
theorem exec_trpPinChange (pin : Fin 12) (level : Bool) (at_ : Nat) (s : State) :
    exec (.trpPinChange pin level at_) s = .next ((s.tick at_).pinChanges pin level) := rfl
theorem exec_filterRunEnd (pin : Fin 12) (s : State) :
    exec (.filterRunEnd pin) s = .next (s.filterEnds pin) := rfl
theorem exec_keepaliveWindowExpiry (s : State) :
    exec .keepaliveWindowExpiry s = .next s.windowEnds := rfl
theorem exec_triggerIssue (s : State) :
    exec .triggerIssue s = .next s.triggerComes := rfl
theorem exec_lineMessage (bytes : List Byte) (s : State) :
    exec (.lineMessage bytes) s = .next (s.lineMessage bytes) := rfl
theorem exec_lineWriteEnd (map : Fin 4) (s : State) :
    exec (.lineWriteEnd map) s = .next (s.endWrite map) := rfl
theorem exec_panelMessage (at_ : Nat) (bytes : List Byte) (s : State) :
    exec (.panelMessage at_ bytes) s = .next ((s.tick at_).panelMessage bytes) := rfl
theorem exec_panelTimerExpiry (s : State) :
    exec .panelTimerExpiry s = .next s.panelExpires := rfl
theorem exec_tileMessageEnd (s : State) :
    exec .tileMessageEnd s = .next s.tileSent := rfl
theorem exec_shortLossOfLock (side : FibreSide) (s : State) :
    exec (.shortLossOfLock side) s = .next (s.shortLoss side) := rfl

end Sys2Proof.Machine
end

