-- ==== Sys2Proof/Tests/Slice0.lean ====
section
/-! SUPPORT. Tests: an ill-formed command for each check of `Instr.wf`, the check sequences and worked examples of the manual, and for every
statement with hypotheses a state and operands that meet them, clause by clause, at boundary values where a range has them. -/

set_option Elab.async false

namespace Sys2Proof.Tests

open Sys2Proof Sys2Proof.Machine

/-! ## Helpers -/

/-- A state in which the control port works request `r`. -/
def busy (r : Request) (s : State) : State := { s with ctl := { s.ctl with inProgress := some { kind := 0, tag := 0, work := .todo r } } }

theorem busy_working (r : Request) (s : State) : (busy r s).working r = true := by simp [busy, State.working]

/-- A member after a reset with every TRP pin high, and the line master with node id 4. -/
def member : State := resetState .powerOn 0 { master := false, id := 0 } 0xFFF false [] 0 []
def lineMaster : State := resetState .powerOn 0 { master := true, id := 3 } 0xFFF false [] 0 []

def withAxis (i : Fin 16) (a : Axis) (s : State) : State := s.setAxis i a
def withPort (p : Fin 4) (r : DrivePort) (s : State) : State := s.setPort p r
def withLine (l : LineState) (s : State) : State := { s with angle := { s.angle with lineState := l } }
def withClass (c : TripClass) (s : State) : State := { s with trips := { s.trips with effective := c } }

/-! ## Ill-formed commands, one for each check -/

def axisFields : AxisFields :=
  { axis := 15, binding := some (3, 3), slew := 65535, trimLimit := 1048575, catchLimit := 8388607, followLimit := 8388607, accept := true }
def markFields : MarkFields :=
  { channel := 7, on := true, c0 := 0, c1 := 64, threshold := 255, width := 1, g0 := 16777215, g1 := 0, spacing := -8388607, span := 1
    gain := 256, deadband := 65535, stepClamp := 65535, node := 32, axis := 15, lostLimit := 15, tripFlag := false }
def rect : Rect := { x := 0, y := 0, w := 80, h := 48 }
def window : Window :=
  { id := 7, rect := { x := 79, y := 47, w := 1, h := 1 }, kind := .webview, tileBase := 0, map := 3, line0 := 2047, col0 := 511, vStep := 16
    hStep := 16, greyBase := 224, staleIndex := 255, touch := .toNode 32, freeze := false, visible := true }
def banner : Banner := { rect := { x := 0, y := 0, w := 1, h := 1 }, warn := 511, impressionOff := 0, stopRamp := 0, stopFast := 0 }
def tile (n : Nat) : TileWrite := { tile := n, pixels := List.replicate 256 7 }
def geometry : Geometry := { origin := 32, stride := 64, slotCount := 2048 }

theorem test_wf_accepts :
    (Instr.setAxis axisFields).wf ∧ (Instr.setMarkChannel markFields).wf ∧ (Instr.setWindow window).wf ∧ (Instr.setBanner (some banner)).wf
      ∧ (Instr.putTiles 0 [tile 511]).wf ∧ (Instr.setMap { map := 3, geometry := some geometry, writes := [⟨63, true, true, 127⟩] }).wf := by
  decide +kernel

theorem test_wf_refuses_line :
    ¬(Instr.setKeepalive 0 ⟨65536, 0⟩).wf ∧ ¬(Instr.setKeepalive 0 ⟨0, 65536⟩).wf ∧ ¬(Instr.setCycle ⟨none, 256, 0, 0, 0⟩).wf
      ∧ ¬(Instr.setCycle ⟨none, 0, 16777216, 0, 0⟩).wf ∧ ¬(Instr.setCycle ⟨none, 0, 0, 256, 0⟩).wf
      ∧ ¬(Instr.setCycle ⟨none, 0, 0, 0, 16777216⟩).wf ∧ ¬(Instr.setRamp ⟨16777216, 0, 0, 0⟩).wf ∧ ¬(Instr.setRamp ⟨0, 65536, 0, 0⟩).wf
      ∧ ¬(Instr.setRamp ⟨0, 0, 65536, 0⟩).wf ∧ ¬(Instr.setRamp ⟨0, 0, 0, 65536⟩).wf ∧ ¬(Instr.setSpeed 16777216).wf := by decide

theorem test_wf_refuses_axes :
    ¬(Instr.setAxis { axisFields with axis := 256 }).wf ∧ ¬(Instr.setAxis { axisFields with binding := some (256, 0) }).wf
      ∧ ¬(Instr.setAxis { axisFields with binding := some (0, 256) }).wf ∧ ¬(Instr.setAxis { axisFields with slew := 65536 }).wf
      ∧ ¬(Instr.setAxis { axisFields with trimLimit := 16777216 }).wf ∧ ¬(Instr.setAxis { axisFields with catchLimit := 16777216 }).wf
      ∧ ¬(Instr.setAxis { axisFields with followLimit := 16777216 }).wf ∧ ¬(Instr.gearChangeSmooth ⟨256, 0, 0, 0⟩).wf
      ∧ ¬(Instr.gearChangeSmooth ⟨0, 32768, 0, 0⟩).wf ∧ ¬(Instr.gearChangeJump ⟨0, -32769, 0, 0⟩).wf
      ∧ ¬(Instr.gearChangeJump ⟨0, 0, 65536, 0⟩).wf ∧ ¬(Instr.setPhase ⟨256, 0⟩).wf ∧ ¬(Instr.setTrim ⟨0, 8388608⟩).wf
      ∧ ¬(Instr.couple 256).wf ∧ ¬(Instr.release 256).wf ∧ ¬(Instr.readAxis 256).wf ∧ ¬(Instr.localTrimStep 0 65536).wf := by decide

theorem test_wf_refuses_ports_trips_ring :
    ¬(Instr.setPortEnable ⟨256, 0, 0⟩).wf ∧ ¬(Instr.setPortEnable ⟨0, 256, 0⟩).wf ∧ ¬(Instr.setPortDisable ⟨0, 0, 256⟩).wf
      ∧ ¬(Instr.resetPort 256).wf ∧ ¬(Instr.readPort 256).wf ∧ ¬(Instr.portService ⟨256, 0, []⟩).wf ∧ ¬(Instr.portService ⟨0, 256, []⟩).wf
      ∧ ¬(Instr.portService ⟨0, 0, List.replicate 256 0⟩).wf ∧ ¬(Instr.setTripSource 0 ⟨256, true, .warn, 0, .levelLow, 0⟩).wf
      ∧ ¬(Instr.setTripSource 0 ⟨0, true, .warn, 256, .levelLow, 0⟩).wf ∧ ¬(Instr.setTripSource 0 ⟨0, true, .warn, 0, .levelLow, 256⟩).wf
      ∧ ¬(Instr.ackTrip (some [256])).wf ∧ ¬(Instr.ackTrip (some (List.replicate 256 0))).wf ∧ ¬(Instr.raiseTrip 256 true).wf
      ∧ ¬(Instr.setRoster [256]).wf ∧ ¬(Instr.sendMessage 256 []).wf ∧ ¬(Instr.sendMessage 1 (List.replicate 257 0)).wf
      ∧ ¬(Instr.ringFrameArrival .a 2 1 []).wf
      ∧ ¬(Instr.setRoster (List.replicate 33 1)).wf := by decide +kernel

theorem test_wf_refuses_camera_store :
    ¬(Instr.setCamera ⟨true, 65536, 0⟩).wf ∧ ¬(Instr.setCamera ⟨true, 0, 16777216⟩).wf ∧ ¬(Instr.setCapture ⟨256, 0, 0⟩).wf
      ∧ ¬(Instr.setCapture ⟨0, 256, 0⟩).wf ∧ ¬(Instr.setCapture ⟨0, 0, 65536⟩).wf ∧ ¬(Instr.setStream 256).wf
      ∧ ¬(Instr.setMap ⟨256, none, []⟩).wf ∧ ¬(Instr.setMap ⟨0, some { geometry with origin := 256 }, []⟩).wf
      ∧ ¬(Instr.setMap ⟨0, some { geometry with stride := 65536 }, []⟩).wf
      ∧ ¬(Instr.setMap ⟨0, some { geometry with slotCount := 65536 }, []⟩).wf ∧ ¬(Instr.setMap ⟨0, none, [⟨256, true, true, 0⟩]⟩).wf
      ∧ ¬(Instr.setMap ⟨0, none, [⟨0, true, true, 256⟩]⟩).wf ∧ ¬(Instr.enableMap 256 true).wf ∧ ¬(Instr.readStoreSlot 256 0).wf
      ∧ ¬(Instr.readStoreSlot 0 65536).wf ∧ ¬(Instr.readStoreSummary 256).wf := by decide

theorem test_wf_refuses_marks :
    ¬(Instr.setMarkChannel { markFields with channel := 256 }).wf ∧ ¬(Instr.setMarkChannel { markFields with c0 := 65536 }).wf
      ∧ ¬(Instr.setMarkChannel { markFields with c1 := 65536 }).wf ∧ ¬(Instr.setMarkChannel { markFields with threshold := 256 }).wf
      ∧ ¬(Instr.setMarkChannel { markFields with width := 256 }).wf ∧ ¬(Instr.setMarkChannel { markFields with g0 := 16777216 }).wf
      ∧ ¬(Instr.setMarkChannel { markFields with g1 := 16777216 }).wf ∧ ¬(Instr.setMarkChannel { markFields with spacing := 8388608 }).wf
      ∧ ¬(Instr.setMarkChannel { markFields with span := 16777216 }).wf ∧ ¬(Instr.setMarkChannel { markFields with gain := 65536 }).wf
      ∧ ¬(Instr.setMarkChannel { markFields with deadband := 65536 }).wf ∧ ¬(Instr.setMarkChannel { markFields with stepClamp := 65536 }).wf
      ∧ ¬(Instr.setMarkChannel { markFields with node := 256 }).wf ∧ ¬(Instr.setMarkChannel { markFields with axis := 256 }).wf
      ∧ ¬(Instr.setMarkChannel { markFields with lostLimit := 256 }).wf ∧ ¬(Instr.setMarkUnit 16777216).wf := by decide

theorem test_wf_refuses_screen :
    ¬(Instr.setScreen 0 ⟨true, 256, 0, 0⟩).wf ∧ ¬(Instr.setScreen 0 ⟨true, 0, 256, 0⟩).wf ∧ ¬(Instr.setScreen 0 ⟨true, 0, 0, 256⟩).wf
      ∧ ¬(Instr.setWindow { window with id := 256 }).wf ∧ ¬(Instr.setWindow { window with rect := { rect with x := 256 } }).wf
      ∧ ¬(Instr.setWindow { window with rect := { rect with y := 256 } }).wf ∧ ¬(Instr.setWindow { window with rect := { rect with w := 256 } }).wf
      ∧ ¬(Instr.setWindow { window with rect := { rect with h := 256 } }).wf ∧ ¬(Instr.setWindow { window with tileBase := 65536 }).wf
      ∧ ¬(Instr.setWindow { window with map := 256 }).wf ∧ ¬(Instr.setWindow { window with line0 := 65536 }).wf
      ∧ ¬(Instr.setWindow { window with col0 := 65536 }).wf ∧ ¬(Instr.setWindow { window with vStep := 256 }).wf
      ∧ ¬(Instr.setWindow { window with hStep := 256 }).wf ∧ ¬(Instr.setWindow { window with greyBase := 256 }).wf
      ∧ ¬(Instr.setWindow { window with staleIndex := 256 }).wf ∧ ¬(Instr.setWindow { window with touch := .toNode 256 }).wf
      ∧ ¬(Instr.raiseWindow 256).wf ∧ ¬(Instr.removeWindow 256).wf ∧ ¬(Instr.putTiles 256 []).wf ∧ ¬(Instr.putTiles 0 [tile 65536]).wf
      ∧ ¬(Instr.putTiles 0 [{ tile := 0, pixels := [] }]).wf ∧ ¬(Instr.putTiles 0 (List.replicate 256 (tile 0))).wf
      ∧ ¬(Instr.setGrant ⟨256, 0, 0, 1⟩).wf ∧ ¬(Instr.setGrant ⟨0, 256, 0, 1⟩).wf ∧ ¬(Instr.setGrant ⟨0, 0, 65536, 1⟩).wf
      ∧ ¬(Instr.setGrant ⟨0, 0, 0, 65536⟩).wf ∧ ¬(Instr.setBanner (some { banner with rect := { rect with x := 256 } })).wf
      ∧ ¬(Instr.setBanner (some { banner with warn := 65536 })).wf ∧ ¬(Instr.setBanner (some { banner with impressionOff := 65536 })).wf
      ∧ ¬(Instr.setBanner (some { banner with stopRamp := 65536 })).wf ∧ ¬(Instr.setBanner (some { banner with stopFast := 65536 })).wf := by
  decide +kernel

/-! ## Check sequences and worked examples -/

/-- R175: the check sequences of the digits 1 to 9. -/
theorem test_crc16_of_digits : crc16 [0x31, 0x32, 0x33, 0x34, 0x35, 0x36, 0x37, 0x38, 0x39] = 0x29B1 := by decide +kernel

theorem test_crc32_of_digits : crc32 [0x31, 0x32, 0x33, 0x34, 0x35, 0x36, 0x37, 0x38, 0x39] = 0xFC891918 := by decide +kernel

/-- 1.7: the angles of the four updates of frame 7,210. -/
theorem test_update_angles_across_a_wrap :
    let a := { member.angle with k := 4, lAlign := 20000 }
    let b := a.makeBase 16770000 40000 .us1000 311 (-6400)
    ((List.range 4).map fun j => (b.angle j).toNat) = [16770800, 3584, 13584, 23584]
      ∧ ((List.range 4).map fun j => (b.updateRevolution j).toNat) = [311, 312, 312, 312] := by decide

/-- 2.9: the geared increments, remainders, positions, setpoints and feedforwards of the five updates, with the step of +149 after two. -/
def gearedAxis : Axis :=
  { state := .catching, binding := some (1, 0), n := -3, d := 7, r := 3, g := 100, p := 2000, t := -120, c := 1850, slew := 64 }
def shown (s : State) : List Int × AxisState :=
  let a := s.axis 0
  ([a.r, a.g.toNat, a.c, a.s.toNat, a.v], a.state)
theorem test_gearing_with_a_remainder :
    let s1 := (withAxis 0 gearedAxis member).workAxis 0 10000 true
    let s2 := s1.workAxis 0 10000 true
    let s3 := (s2.setAxis 0 { s2.axis 0 with t := 29 }).workAxis 0 10000 true
    let s4 := s3.workAxis 0 10000 true
    shown s1 = ([5, 16773030, 1880, 16774910, -4256], .coupled) ∧ shown s2 = ([0, 16768745, 1880, 16770625, -4285], .coupled)
      ∧ shown s3 = ([2, 16764459, 1944, 16766403, -4222], .coupled) ∧ shown s4 = ([4, 16760173, 2008, 16762181, -4222], .coupled)
      ∧ shown (s4.workAxis 0 10000 true) = ([6, 16755887, 2029, 16757916, -4265], .coupled) := by decide +kernel

/-- 7.9: the two edges, the follower's edge with its predecessor missing, and the two steps. -/
theorem test_edges_and_their_steps :
    let c0 : Channel := { width := 53, previous := some 0 }
    let c2 : Channel := { width := 6, previous := some 2, gain := 96, deadband := 40, stepClamp := 200 }
    c0.edge 4096 (some 1028096) 1032192 114 = some 1030000 ∧ c2.edge 4096 (some 1048576) 1052672 11 = some 1050396
      ∧ c2.edge 4096 none 1052672 11 = some 1052672 ∧ c2.stepOf 396 = 149 ∧ c2.stepOf 2672 = 200 ∧ c2.stepOf (-396) = -149
      ∧ c2.stepOf 40 = 0 := by decide +kernel

/-- R11: an update 0 late at a frame that arrived at 50 is taken at 50, though the frame's end has moved the clock to 900. -/
theorem test_late_update_is_taken_at_its_instant :
    let x : Trigger := { line := 0, stamp := 0, revolution := 0, issueAt := 40 }
    let s : State := { member with
      now := 900
      angle := { member.angle with base := some (member.angle.makeBase 0 0 .us1000 0 0), updates := [(0, 50)] }
      camera := { member.camera with on := true, triggers := [x] } }
    s.nextUpdate.camera.pulses = [(50, 0)] ∧ s.nextUpdate.now = 900 := by decide +kernel

/-- A SETPOINT telegram is laid out as 10.3 gives it. -/
theorem test_setpoint_bytes :
    (encodeSetpoint [{ sub := 2, enable := true, setpoint := 0x123456, feedforward := -2 }]).take 9
      = [0xA1, 0x01, 0x82, 0x12, 0x34, 0x56, 0xFF, 0xFF, 0xFE] := by decide +kernel

/-! ## The hypotheses of the statements are met -/

/-- Request rows and the control port. -/
theorem test_hyp_StepRunsTheCommandInFront :
    ({ member with pending := [.start, .stop] } : State).pending = .start :: [.stop] ∧ member.pending = [] := by decide +kernel

theorem test_hyp_RequestRowActsOnTheRequestInProgress :
    requestOf .start = some .start ∧ (busy .start member).working .start = true ∧ member.working .start = false := by decide +kernel

/-- A restart whose reply is clocked exactly whole. -/
theorem test_hyp_ResetGivesEveryAxisItsTableValues :
    let s := { member with ctl := { member.ctl with reply := some [0x7E], restartPending := true } }
    s.ctl.ignoring = false ∧ s.ctl.reply = some [0x7E] ∧ [(0x7E : Byte)].length ≤ 1 ∧ s.ctl.restartPending = true := by decide +kernel

theorem test_hyp_PowerOnResetGivesTheBlocksTheirTableValues : member.writeAt 262143 = none := by decide +kernel

theorem test_hyp_ReplyIsHeldOrDiscarded :
    member.ctl.inProgress = none ∧ (busy .start member).ctl.inProgress = some { kind := 0, tag := 0, work := .todo .start }
      ∧ ∃ t a, ((busy .start member).tick 5).workItem { kind := 0, tag := 0, work := .todo .start } = (t, a) :=
  ⟨by decide +kernel, by decide +kernel, _, _, rfl⟩

theorem test_hyp_ReadTransactionClocksTheReply :
    let s := { member with ctl := { member.ctl with ignoring := true } }
    let t := { member with ctl := { member.ctl with reply := some [0x7E] } }
    s.ctl.ignoring = true ∧ member.ctl.ignoring = false ∧ member.ctl.reply = none ∧ t.ctl.ignoring = false ∧ t.ctl.reply = some [0x7E] := by
  decide +kernel

theorem test_hyp_ReadRequestsAnswerAndChangeNothing :
    (busy .identify member).working .identify = true ∧ (busy .status member).working .status = true
      ∧ (busy .readLine member).working .readLine = true ∧ (busy (.readAxis 15) member).working (.readAxis 15) = true
      ∧ (busy (.readPort 3) member).working (.readPort 3) = true ∧ (busy .readTrips member).working .readTrips = true
      ∧ (busy .readRing member).working .readRing = true ∧ (busy (.readStoreSummary 4) member).working (.readStoreSummary 4) = true
      ∧ (busy .readMarks member).working .readMarks = true := by decide +kernel

theorem test_hyp_SlotReadCopiesBetweenTwoLooks :
    (busy (.readStoreSlot 3 255) member).working (.readStoreSlot 3 255) = true ∧ member.writeAt 0 = none
      ∧ member.torn { map := 3, slot := 255, present := false, stamp := 0, writeNumber := 0, writing := false, bytes := [] } = false := by
  decide +kernel

/-- A copy whose slot is being written at the second look, one that was at the first, and one whose slot was written between. -/
theorem test_hyp_SlotRead_torn :
    let c : StoreCopy := { map := 0, slot := 255, present := true, stamp := 1, writeNumber := 255, writing := false, bytes := [7, 8] }
    let s (r : SlotRecord) : State := member.setMap 0 ((member.map 0).setSlot 255 r)
    (s { writing := true, writeNumber := 255 }).torn c = true ∧ member.torn { c with writing := true } = true
      ∧ (s { writeNumber := 0 }).torn c = true ∧ (s { writeNumber := 255 }).torn c = false := by decide +kernel

/-- The byte of an optional field is 1 when the reply carries it and 0 when not (R174); a torn copy carries the mark (R131). -/
theorem test_torn_mark_byte :
    let c : StoreCopy := { map := 0, slot := 255, present := true, stamp := 0x1234, writeNumber := 0, writing := false, bytes := [] }
    member.copyBody c = [1, 0, 0x12, 0x34, 0] ∧ member.copyBody { c with writing := true } = [1, 0, 0x12, 0x34, 1] := by decide +kernel

theorem test_hyp_NoticesAreAdmittedAndFetched :
    (busy .fetchNotice member).working .fetchNotice = true ∧ (busy .restart member).working .restart = true
      ∧ 1040 < (u8 0 ++ u8 4 ++ (List.replicate 4 (Notice.peerMessage 1 0 (List.replicate 256 0))).flatMap Notice.record).length := by
  decide +kernel

/-- The angle unit and the line master. -/
theorem test_hyp_SetCycle_checks :
    let q : Request := .setCycle ⟨none, 3, 1000, 1, 1⟩
    (busy q member).working q = true
      ∧ (∀ f ∈ [(⟨none, 3, 1000, 1, 1⟩ : CycleFieldsReq), ⟨none, 8, 999, 1, 1⟩, ⟨none, 8, 500001, 1, 1⟩, ⟨none, 8, 1000, 0, 1⟩, ⟨none, 8, 1000, 9, 1⟩,
          ⟨none, 8, 1000, 1, 0⟩, ⟨none, 8, 1000, 1, 1048576⟩],
        ¬((f.k = 1 ∨ f.k = 2 ∨ f.k = 4 ∨ f.k = 8) ∧ 1000 ≤ f.lAlign ∧ f.lAlign ≤ 500000 ∧ 1 ≤ f.coastLimit ∧ f.coastLimit ≤ 8
          ∧ 1 ≤ f.stepTolerance ∧ f.stepTolerance ≤ 1048575))
      ∧ (busy q member).angle.role = .member ∧ (busy q lineMaster).angle.role = .master
      ∧ (withLine .running (busy q lineMaster)).angle.lineState ≠ .stopped := by decide +kernel

/-- KEEP at a period shorter than the lag; a period that no enabled port fits; a period that fits, with the widest fields. -/
theorem test_hyp_SetCycle_stores :
    let f : CycleFieldsReq := ⟨none, 8, 500000, 8, 1048575⟩
    let s : State := busy (.setCycle f) { lineMaster with angle := { lineMaster.angle with period := .us250 } }
    let t : State := busy (.setCycle f) (withPort 3 { state := .linking } { lineMaster with angle := { lineMaster.angle with period := .us500 } })
    let u : State := busy (.setCycle f) lineMaster
    s.working (.setCycle f) = true ∧ (f.period.getD s.angle.period).ns < f.lAlign
      ∧ f.lAlign ≤ (f.period.getD t.angle.period).ns
      ∧ ¬(∀ i : Fin 4, (t.port i).state ≠ .off → 560 * 40 * ((t.port i).divider + 1) + 4000 ≤ (f.period.getD t.angle.period).ns / f.k)
      ∧ f.lAlign ≤ (f.period.getD u.angle.period).ns
      ∧ (∀ i : Fin 4, (u.port i).state ≠ .off → 560 * 40 * ((u.port i).divider + 1) + 4000 ≤ (f.period.getD u.angle.period).ns / f.k)
      ∧ u.master.pendingPeriod = none := by decide +kernel

theorem test_hyp_SpeedRampStartAndTheNextFrame :
    (busy (.setSpeed 4194303) lineMaster).working (.setSpeed 4194303) = true
      ∧ (busy (.setRamp ⟨1, 1, 65535, 1⟩) lineMaster).working (.setRamp ⟨1, 1, 65535, 1⟩) = true
      ∧ (busy .start lineMaster).working .start = true ∧ (busy .stop lineMaster).working .stop = true := by decide +kernel

/-- Axes. -/
theorem test_hyp_SetAxis :
    let f : AxisFields := axisFields
    (busy (.setAxis f) member).working (.setAxis f) = true ∧ f.axis = (15 : Fin 16).val
      ∧ f.binding = (some ((3 : Fin 4), (3 : Fin 4))).map (fun b => (b.1.val, b.2.val)) ∧ 1 ≤ f.slew ∧ f.slew ≤ 65535
      ∧ f.trimLimit ≤ 1048575 ∧ 1 ≤ f.catchLimit ∧ f.catchLimit ≤ 8388607 ∧ f.followLimit ≤ 8388607
      ∧ ¬(({ f with axis := 16 } : AxisFields).axis < 16) := by decide +kernel

theorem test_hyp_axis_requests :
    let q : GearFields := ⟨15, -3, 7, 0⟩
    let o : OffsetFields := ⟨15, 8388607⟩
    (busy (.gearChangeSmooth q) member).working (.gearChangeSmooth q) = true
      ∧ (busy (.gearChangeJump q) member).working (.gearChangeJump q) = true ∧ (busy (.setPhase o) member).working (.setPhase o) = true
      ∧ (busy (.setTrim o) member).working (.setTrim o) = true ∧ (busy (.couple 15) member).working (.couple 15) = true
      ∧ (busy (.release 15) member).working (.release 15) = true ∧ (member.axis 15).state = .free
      ∧ ({ state := .inhibited } : Axis).state = .inhibited := by decide +kernel

/-- The check of COUPLE is passed: bound to an UP port, fresh, tracking. -/
theorem test_hyp_CoupleChecksThenCatches :
    let s := withPort 3 { state := .up } (withAxis 15 { binding := some (3, 3), fresh := true, f := 4194304 } (busy (.couple 15) lineMaster))
    s.working (.couple 15) = true ∧ (s.axis 15).binding = some (3, 3) ∧ (s.port 3).state = .up ∧ (s.axis 15).fresh = true
      ∧ s.angle.state = .tracking ∧ ((s.axis 15).f - (s.axis 15).g).toInt ≤ ((s.axis 15).catchLimit : Int)
      ∧ s.trips.effective ≠ .stopFast ∧ (s.axis 15).state = .free := by decide +kernel

theorem test_hyp_gearing_and_correction :
    gearedAxis.r < gearedAxis.d ∧ ({ gearedAxis with r := 6 } : Axis).r < gearedAxis.d ∧ (-8388608 : Int) ≤ -8388608 ∧ gearedAxis.state = .catching
      ∧ (1880 - gearedAxis.c).natAbs ≤ gearedAxis.slew ∧ gearedAxis.slew < ((1915 : Int) - gearedAxis.c).natAbs
      ∧ gearedAxis.c < 1915 ∧ (1785 : Int) < gearedAxis.c ∧ ((withAxis 0 gearedAxis member).axis 0).state ≠ .free := by decide +kernel

/-- A TRIM_STEP frame for axis 15, the last there is, and one for axis 16; a step on its way and one that is not. -/
theorem test_hyp_LocalTrimStepReachesItsAxis :
    let s := { withAxis 15 { state := .coupled, accept := true } member with localSteps := [(15, -1)] }
    (15, -1) ∈ s.localSteps ∧ (15, -1) ∉ member.localSteps ∧ (s.axis 15).state = .coupled ∧ (s.axis 15).accept = true
      ∧ (s.axis 14).accept = false ∧ 15 < (byteAt [16, 0, 0, 1] 0).toNat ∧ (byteAt [15, 0, 0, 1] 0).toNat = (15 : Fin 16).val := by
  decide +kernel

/-- Drive ports. -/
theorem test_hyp_port_requests :
    let f : PortFields := ⟨3, 255, 15⟩
    (busy (.setPortEnable f) member).working (.setPortEnable f) = true ∧ (busy (.setPortDisable f) member).working (.setPortDisable f) = true
      ∧ (busy (.resetPort 3) member).working (.resetPort 3) = true
      ∧ (busy (.portService ⟨3, 3, [0]⟩) member).working (.portService ⟨3, 3, [0]⟩) = true := by decide +kernel

/-- A good FEEDBACK for an empty sent list, and one with a drive fault for sub-address 0. -/
def goodFeedback : RxTelegram := { kind := .feedback, bytes := withCrc16 [0xA2, 0], mark := .good }
def faultFeedback : RxTelegram := { kind := .feedback, bytes := withCrc16 [0xA2, 1, 0x80, 0, 0, 0, 5], mark := .good }

theorem test_hyp_DrainDecidesThePortState :
    let linking : DrivePort := { state := .linking, queue := [goodFeedback], linkCount := 2 }
    let up : DrivePort := { state := .up, queue := [faultFeedback], sentList := [0] }
    let missing : DrivePort := { state := .up, missCount := 2 }
    linking.newestUsable = some [] ∧ up.newestUsable.isSome = true ∧ ((up.newestUsable.getD []).find? (·.fault)).isSome = true ∧ missing.newestUsable = none
      ∧ missing.missLimit ≤ min (missing.missCount + 1) 255
      ∧ min (({ state := .up } : DrivePort).missCount + 1) 255 < ({ state := .up } : DrivePort).missLimit
      ∧ ({ state := .fault } : DrivePort).state ≠ .off ∧ (member.port 0).state = .off := by decide +kernel

/-- The premise on the bindings, and an entry of each kind: usable, of another sent list, of each mark, a reply asked for and a stray one. -/
theorem test_hyp_Drain_entries :
    let bound := withAxis 15 { binding := some (3, 3) } (withAxis 0 { binding := some (3, 0) } member)
    let r : DrivePort := {}
    let reply : RxTelegram := { kind := .serviceReply, bytes := withCrc16 [0xA4, 0xC1, 9], mark := .good }
    let asked : DrivePort := { slot := .sent, service := some (3, [1]) }
    let usable (r : DrivePort) (t : RxTelegram) : Prop :=
      t.mark = .good ∧ t.kind = .feedback ∧ (decodeFeedback t.bytes).map (·.sub) = r.sentList
    (∀ i j : Fin 16, i ≠ j → (bound.axis i).binding.isSome = true → (bound.axis i).binding ≠ (bound.axis j).binding)
      ∧ usable r goodFeedback ∧ ¬usable { r with sentList := [3] } goodFeedback ∧ goodFeedback.kind = .feedback
      ∧ (∀ m : RxMark, ({ goodFeedback with mark := m } : RxTelegram).mark = m) ∧ reply.kind = .serviceReply ∧ reply.mark = .good
      ∧ asked.service.map (·.1) = some (decodeServiceReply reply.bytes).1 ∧ asked.slot = .sent ∧ r.slot ≠ .sent := by
  refine ⟨by decide +kernel, ⟨rfl, rfl, by decide +kernel⟩, fun h => absurd h.2.2 (by decide +kernel), rfl, fun _ => rfl, rfl, rfl, ?_, rfl, ?_⟩
    <;> decide +kernel

theorem test_hyp_TelegramsInAndOut :
    let chars : List DriveChar := goodFeedback.bytes.map fun b => ⟨b, true⟩
    (closeTelegram chars = some goodFeedback) ∧ closeTelegram [] = none
      ∧ ((withPort 3 { state := .up } member).port 3).state ≠ .off := by decide +kernel

theorem test_hyp_Telegrams_sent :
    let r : DrivePort := { state := .up, slot := .waiting, service := some (3, [1]), serviceWait := 7 }
    let s := withPort 3 r member
    (s.port 3).state ≠ .off ∧ (s.port 3).slot = .waiting ∧ (s.port 3).service = some (3, [1]) ∧ (s.port 0).state = .off
      ∧ ((withPort 3 { state := .up } member).port 3).slot ≠ .waiting ∧ (0x55 : Byte) ≠ 0xA2 ∧ (0x55 : Byte) ≠ 0xA4
      ∧ ((⟨0xA4, true⟩ : DriveChar).byte = 0xA4) := by decide +kernel

/-- Trips. -/
def entry (st : EntryState) : LocalEntry :=
  { source := 23, cls := .warn, priority := 0, latchCycle := 0, latchAngle := 0, state := st }
def latched (st : EntryState) (condition : Bool) (s : State) : State :=
  { s.setSource 23 { s.source 23 with condition := condition, enable := true } with trips :=
    { (s.setSource 23 { s.source 23 with condition := condition, enable := true }).trips with localList := [entry st] } }

theorem test_hyp_ConditionsLatchRepeatAndDrop :
    (member.source 23).condition = false ∧ member.entryOf 23 = none ∧ (member.source 19).condition = true ∧ member.entryOf 19 = none
      ∧ ((latched .inactive false member).source 23).condition = false ∧ (latched .inactive false member).entryOf 23 = some (entry .inactive)
      ∧ ((latched .acked true member).source 23).condition = true ∧ (latched .acked true member).entryOf 23 = some (entry .acked)
      ∧ EntryState.active ≠ .acked ∧ EntryState.inactive ≠ .acked := by decide +kernel

theorem test_hyp_SetTripSource :
    let f : SourceFields := ⟨23, false, .stopFast, 3, .edgeRise, 255⟩
    (busy (.setTripSource f) member).working (.setTripSource f) = true ∧ f.source = (23 : Fin 24).val ∧ f.cls ≠ .none ∧ f.priority ≤ 3
      ∧ f.filter ≤ 255 ∧ f.enable = false ∧ (11 : Fin 12).val = (11 : Fin 24).val
      ∧ ((member.setSource 11 { member.source 11 with run := some 5 }).source 11).run = some 5 ∧ (latched .active true (busy (.setTripSource f) member)).entryOf 23 ≠ none
      ∧ member.entryOf 23 = none ∧ 12 ≤ (12 : Fin 24).val ∧ (11 : Fin 24).val < 12 ∧ (member.source 11).run = none
      ∧ ¬(({ f with source := 24 } : SourceFields).source < 24) ∧ ¬(({ f with priority := 4 } : SourceFields).priority ≤ 3) := by
  decide +kernel

theorem test_hyp_AckTrip_and_RaiseTrip :
    (busy (.ackTrip (some [23, 23])) member).working (.ackTrip (some [23, 23])) = true
      ∧ [23, 23] = [(23 : Fin 24), 23].map (·.val) ∧ [(23 : Fin 24), 23] ≠ [] ∧ [(23 : Fin 24), 23].length ≤ 24
      ∧ (∃ n ∈ [24], 23 < n) ∧ 24 < (List.replicate 25 0).length ∧ (busy (.ackTrip none) member).working (.ackTrip none) = true
      ∧ (latched .active true member).entryOf 23 = some (entry .active) ∧ (busy (.raiseTrip 2 true) member).working (.raiseTrip 2 true) = true
      ∧ (23 : Fin 24).val = 21 + 2 ∧ 2 < 3 ∧ 1 < natAt [0, 2] 1 := by decide +kernel

/-- The window opened at 0 with limits of 1 and 2 ms: a request at its minimum is in time, one a nanosecond earlier is early. -/
theorem test_hyp_KeepaliveAndItsWindow :
    let s := { busy .keepalive member with trips := { member.trips with window := .opened, openedAt := some 0, minimum := 1, maximum := 2 } }
    let t := { busy .keepalive member with trips := { member.trips with window := .expired } }
    s.working .keepalive = true ∧ s.trips.window = .opened ∧ s.trips.openedAt = some 0 ∧ (s.tick 999999).now - 0 < s.trips.minimum * 1000000
      ∧ s.trips.minimum * 1000000 ≤ (s.tick 1000000).now - 0 ∧ t.trips.window = .expired ∧ member.trips.window = .off
      ∧ (busy (.setKeepalive ⟨0, 65535⟩) member).working (.setKeepalive ⟨0, 65535⟩) = true ∧ t.trips.window ≠ .opened := by decide +kernel

theorem test_hyp_PinsAreFilteredIntoConditions :
    let filtering (run : Option Nat) : State := member.setSource 11 { member.source 11 with filter := 1, run := run }
    member.trips.pins.getLsbD 11 = true ∧ ((filtering none).source 11).filter ≠ 0 ∧ ((filtering none).source 11).filtered ≠ false
      ∧ ((filtering (some 4)).source 11).filtered = true ∧ (member.source 11).filter = 0 ∧ ((filtering (some 4)).source 11).run = some 4
      ∧ (member.source 11).run = none ∧ member.entryOf 11 = none
      ∧ ({ member with trips := { member.trips with localList := [{ entry .acked with source := 11 }] } } : State).entryOf 11
        = some { entry .acked with source := 11 }
      ∧ ({ filtering (some 4) with trips := { (filtering (some 4)).trips with pins := 0 } } : State).trips.pins.getLsbD 11 ≠ true := by
  decide +kernel

theorem test_hyp_EffectiveClassChangesReact :
    let s := latched .active true lineMaster
    s.trips.formed ≠ s.trips.effective ∧ s.angle.role = .master ∧ (latched .active true member).trips.formed ≠ member.trips.effective
      ∧ member.angle.role = .member ∧ member.trips.formed = member.trips.effective := by decide +kernel

/-- An entry held and one not, the table with room for one more and full, a line that moves, and the three first-out records. -/
theorem test_hyp_EffectiveClass_table_and_line :
    let e : RemoteEntry := { origin := 32, source := 23, cls := .warn, priority := 3, cycle := 0, lowCount := 1 }
    let remote (n : Nat) : TripUnit := { member.trips with remote := List.replicate n e }
    let slot (c : TripClass) : StatusSlot := { present := true, worst := c }
    let v := (Vector.replicate 32 ({} : StatusSlot)).set 31 (slot .stopFast)
    let running := withLine .running (latched .active true lineMaster)
    let seen := { withClass .stopFast member with angle := { member.angle with vector := v } }
    (∃ x ∈ (remote 31).remote, x.origin = 32 ∧ x.source = 23) ∧ (remote 31).remote.length < 32 ∧ 32 ≤ (remote 32).remote.length
      ∧ (¬∃ x ∈ (remote 32).remote, x.origin = 32 ∧ x.source = 22) ∧ running.angle.lineState = .running ∧ running.angle.role = .master
      ∧ ({ member with trips := remote 1 } : State).headTrip.map (·.cls) = some .warn
      ∧ seen.headTrip = none ∧ seen.angle.vector[(31 : Fin 32)].present = true ∧ seen.angle.vector[(31 : Fin 32)].worst = seen.trips.effective
      ∧ (∀ j : Fin 32, seen.angle.vector[j].present = true → seen.angle.vector[j].worst.code ≤ seen.angle.vector[(31 : Fin 32)].worst.code)
      ∧ (∀ j : Fin 32, j < 31 → seen.angle.vector[j].present = true →
        seen.angle.vector[j].worst.code < seen.angle.vector[(31 : Fin 32)].worst.code)
      ∧ (∀ j : Fin 32, member.angle.vector[j].present = true → member.angle.vector[j].worst ≠ member.trips.effective) := by decide +kernel

/-- A line in TRIP_STOP that becomes STOPPED without having moved; a head trip of the local list before one equal to it of the remote table,
and one of the remote table among lower entries; a head class that is new and one that is not. -/
theorem test_hyp_EffectiveClass_head_trip :
    let l (source : Fin 24) (cls : TripClass) (priority : Nat) : LocalEntry := { entry .active with source := source, cls := cls, priority := priority }
    let x (origin : Nat) (cls : TripClass) (priority : Nat) : RemoteEntry :=
      { origin := origin, source := 23, cls := cls, priority := priority, cycle := 0, lowCount := 0 }
    let s (ls : List LocalEntry) (rs : List RemoteEntry) : State := { lineMaster with trips := { lineMaster.trips with localList := ls, remote := rs } }
    let a := s [l 0 .warn 3, l 1 .stopFast 2, l 2 .stopFast 2] [x 32 .stopFast 2]
    let b := s [l 0 .stopFast 1] [x 1 .stopFast 0, x 32 .stopFast 2, x 2 .stopFast 2]
    a.headTrip = some { origin := 4, source := 1, cls := .stopFast } ∧ b.headTrip = some { origin := 32, source := 23, cls := .stopFast }
      ∧ (s [] []).headTrip = none ∧ a.screen.headClass = .none ∧ a.trips.formed = .stopFast ∧ a.trips.effective ≠ .stopFast
      ∧ LineState.stopped ≠ (withLine .tripStop a).angle.lineState
      ∧ ¬((withLine .tripStop a).angle.lineState = .running ∨ (withLine .tripStop a).angle.lineState = .stopping) := by decide +kernel

/-- Ring. -/
theorem test_hyp_RosterAndMessages :
    (busy (.setRoster [32, 1, 32]) lineMaster).working (.setRoster [32, 1, 32]) = true ∧ lineMaster.angle.role = .master
      ∧ [32, 1, 32].length ≤ 32 ∧ (∀ i ∈ [32, 1, 32], 1 ≤ i ∧ i ≤ 32) ∧ member.angle.role = .member ∧ (∃ i ∈ [33], i = 0 ∨ 32 < i)
      ∧ 32 < (List.replicate 33 1).length ∧ (busy (.sendMessage 32 [0]) member).working (.sendMessage 32 [0]) = true := by decide +kernel

def ringFrame : Frame := { kind := .peerMessage, reverse := 31, origin := 32, dest := 1, hop := 31, seq := 65535, payload := [1] }
def arrived (f : Frame) : Arrived := { frame := f, arrival := 0, linkDelay := 0 }
def linked (s : State) : State := { s with ring := { s.ring with mode := .closed, a := { state := .up }, b := { state := .up } } }

theorem test_hyp_RingFrameArrives :
    let bs := encodeFrame ringFrame
    ((linked member).fibre .a).state = .up ∧ (linked member).ring.mode = .closed
      ∧ ¬(bs.length < 16 ∨ crc32Good bs = false ∨ 512 < fieldAt bs 7 2 ∨ fieldAt bs 7 2 ≠ bs.length - 16) ∧ decodeFrame bs = some ringFrame
      ∧ ([] : List Byte).length < 16 ∧ (member.fibre .a).state = .dark ∧ decodeFrame (withCrc32 (0xFF :: List.replicate 11 0)) = none := by
  decide +kernel

theorem test_hyp_RingFrameGoesItsWay :
    let stray : Frame := { ringFrame with origin := 33 }
    frameStray stray = true ∧ frameStray ringFrame = false ∧ ringFrame.origin ≠ member.angle.nodeId ∧ ringFrame.hop < 32
      ∧ ringFrame.dest = member.angle.nodeId ∧ ({ ringFrame with dest := 2 } : Frame).dest ≠ member.angle.nodeId
      ∧ 32 ≤ ({ ringFrame with hop := 32 } : Frame).hop ∧ ({ ringFrame with origin := 1 } : Frame).origin = member.angle.nodeId
      ∧ ringFrame.reverse = 31 ∧ ({ ringFrame with reverse := 30 } : Frame).reverse ≠ 31 ∧ (linked member).ring.mode = .closed := by decide +kernel

/-- Sequences at both ends of what a trip frame may carry, an own CYCLE frame back at the master, and every mode's way on. -/
theorem test_hyp_RingFrame_delivery :
    let f : Frame := { kind := .trip, origin := 32, dest := 0, seq := 0, payload := [0, 1, 0] }
    let s (l : Option (BitVec 8)) : Ring := { member.ring with memory := member.ring.memory.set 31 l }
    let q : BitVec 8 := f.seq.setWidth 8
    let back : Frame := { kind := .cycle, origin := 4, dest := 0, seq := 65535, payload := [] }
    let handed : State := { lineMaster with master := { lineMaster.master with lastHanded := some 65535 } }
    f.origin = (31 : Fin 32).val + 1 ∧ (s (some 255)).memory[(31 : Fin 32)] = some 255 ∧ 1 ≤ (q - 255).toNat ∧ (q - 129).toNat ≤ 127
      ∧ ¬((q - 128).toNat ≤ 127) ∧ ¬(1 ≤ (q - 0).toNat) ∧ (s none).memory[(31 : Fin 32)] = none ∧ f.kind = .trip
      ∧ ({ f with kind := .tripClear } : Frame).kind = .tripClear ∧ handed.angle.role = .master
      ∧ handed.master.lastHanded = some back.seq ∧ lineMaster.master.lastHanded ≠ some back.seq ∧ back.kind = .cycle
      ∧ ringFrame.kind ≠ .cycle ∧ ringFrame.kind ≠ .trip ∧ ringFrame.kind ≠ .tripClear ∧ (linked member).ring.mode = .closed
      ∧ member.ring.mode = .isolated := by decide +kernel

theorem test_hyp_RingFramesAreReadBackAsSent :
    let c : CycleFields := { period := .us250, lineState := .running, aM := 0, revolution := 0, v := 4194303, dAcc := 65535, vector := Vector.replicate 32 {} }
    ringFrame.reverse < 32 ∧ ringFrame.origin < 256 ∧ ringFrame.dest < 256 ∧ ringFrame.hop < 256
      ∧ ({ ringFrame with payload := List.replicate 512 0 } : Frame).payload.length ≤ 512 ∧ c.v < 4194304 ∧ c.dAcc < 65536 := by decide +kernel

def cycleFields (v : Nat) : CycleFields :=
  { period := .us1000, lineState := .stopped, aM := 0, revolution := 0, v := v, dAcc := 0, vector := Vector.replicate 32 {} }
def usedOutput : FibrePort := { urgent := [.own ringFrame], cycle := some (.own ringFrame), forwarded := [.primary ringFrame 0 0] }
theorem test_hyp_ArbiterChoosesByClass :
    usedOutput.urgent = .own ringFrame :: [] ∧ ({ usedOutput with urgent := [] } : FibrePort).cycle = some (.own ringFrame)
      ∧ ({ usedOutput with urgent := [], cycle := none } : FibrePort).forwarded = .primary ringFrame 0 0 :: []
      ∧ ({} : FibrePort).urgent = [] ∧ ({} : FibrePort).cycle = none ∧ ({} : FibrePort).forwarded = [] := by decide +kernel

/-- Outputs with a role and without, each choice with a held frame that takes the freed place, and a queue of each class. -/
theorem test_hyp_Arbiter_outputs :
    let held : HoldFrame := { kind := .touch, dest := 2, payload := [] }
    let s : State := { linked member with
      ring := { (linked member).ring with localQueue := [ringFrame] }
      screen := { member.screen with hold := [held] } }
    let p := s.fibre .b
    p.sending = none ∧ s.ring.mode = .closed ∧ member.ring.mode = .isolated ∧ p.choose s.ring.localQueue = .localFrame ringFrame p.bulkTurn
      ∧ s.screen.hold = held :: [] ∧ s.ring.localQueue.tail.length < 16 ∧ 16 ≤ (List.replicate 17 ringFrame).tail.length
      ∧ usedOutput.choose [] = .urgent (.own ringFrame) ∧ ({ usedOutput with urgent := [] } : FibrePort).choose [] = .cycle (.own ringFrame)
      ∧ ({ usedOutput with urgent := [], cycle := none } : FibrePort).choose [] = .forwarded (.primary ringFrame 0 0) p.bulkTurn
      ∧ ({} : FibrePort).choose [] = .nothing
      ∧ ({ cycle := some (.ownCycle 0 (cycleFields 0)) } : FibrePort).choose [] = .cycle (.ownCycle 0 (cycleFields 0))
      ∧ ({ sending := some [] } : FibrePort).sending ≠ none ∧ (∀ number c, Queued.own ringFrame ≠ .ownCycle number c) := by
  refine ⟨?_, ?_, ?_, ?_, ?_, ?_, ?_, ?_, ?_, ?_, ?_, ?_, ?_, fun _ _ => Queued.noConfusion⟩ <;> decide +kernel

/-- The eighth sample brings a port up, the seventh does not; an idle set without an echo starts the run over. -/
theorem test_hyp_FibrePortsTrain :
    let x (echo : Option (BitVec 32)) : IdleSet := { receivingOk := true, timestamp := 7, echo := echo, hold := 0 }
    decodeIdle (encodeIdle (x (some 3))) = some (x (some 3)) ∧ decodeIdle (encodeIdle (x none)) = some (x none) ∧ decodeIdle [] = none
      ∧ 8 ≤ ({ state := .training, idleRun := 7 } : FibrePort).idleRun + 1 ∧ ({ state := .training, idleRun := 6 } : FibrePort).idleRun + 1 < 8
      ∧ (3 : BitVec 32) ∈ ({ stamps := [5, 3] } : FibrePort).stamps ∧ ({ stamps := [5] } : FibrePort).stamps = [5] ∧ (x (some 3)).echo ≠ some 5
      ∧ ({ state := .up } : FibrePort).state = .up ∧ (member.fibre .b).state = .dark := by decide +kernel

/-- Camera and image store. -/
def cameraFields : CameraFields := { on := true, width := 1024, pitch := 65536 }
theorem test_hyp_SetCamera :
    let f := cameraFields
    let s := busy (.setCamera f) member
    s.working (.setCamera f) = true ∧ f.on = true ∧ s.camera.on = false ∧ f.width = s.camera.width ∧ f.pitch = s.camera.pitch
      ∧ captureFits f.width f.pitch s.store.decimation s.store.hStep (s.map 0).stride s.store.streamDest = true
      ∧ captureFits 2048 f.pitch s.store.decimation s.store.hStep (s.map 0).stride s.store.streamDest = false
      ∧ ¬(64 ≤ ({ f with width := 63 } : CameraFields).width) ∧ ({ f with width := 64 } : CameraFields).width ≠ s.camera.width
      ∧ ({ s with camera := { s.camera with on := true } } : State).camera.on = true ∧ (s.map 0).write = none ∧ (s.map 0).waiting = []
      ∧ ((s.map 0).directory.map (·.1)).Nodup := by decide +kernel

theorem test_hyp_CaptureAndStream :
    (busy (.setCapture ⟨16, 8, 64⟩) member).working (.setCapture ⟨16, 8, 64⟩) = true
      ∧ (busy (.setStream 32) member).working (.setStream 32) = true := by decide +kernel

theorem test_hyp_SetMap :
    let f : MapFields := { map := 3, geometry := some geometry, writes := [⟨63, true, true, 127⟩] }
    let s := busy (.setMap f) member
    s.working (.setMap f) = true ∧ f.map = (3 : Fin 4).val ∧ f.writes.length ≤ 64 ∧ (∀ w ∈ f.writes, w.page < 64 ∧ w.physical < 128)
      ∧ geometry.slotCount * geometry.stride ≤ 131072 ∧ geometry.origin ≤ 32 ∧ geometry.origin ≠ s.angle.nodeId ∧ (s.map 3).state = .off
      ∧ (∀ j : Fin 4, (s.map j).origin ≠ geometry.origin)
      ∧ (portNumbers.flatMap fun j => ((if j = 3 then applyWrites (s.map 3).entries f.writes else (s.map j).entries).toList.filter (·.valid)).map
          (·.page)).Nodup
      ∧ ¬(portNumbers.flatMap fun j => ((if j = 3 then applyWrites (s.map 3).entries [⟨62, true, true, 127⟩, ⟨63, true, true, 127⟩]
          else (s.map j).entries).toList.filter (·.valid)).map (·.page)).Nodup
      ∧ (s.map 3).write = none ∧ (s.map 3).waiting = [] ∧ ¬(({ f with map := 4 } : MapFields).map < 4) := by decide +kernel

/-- A page given another target under a map whose directory lists one slot. -/
theorem test_hyp_SetMapConfigures :
    let m : ImageMap := { directory := [(255, { present := true })] }
    (m.directory.map (·.1)).Nodup ∧ 255 * m.stride / 2048 < 64 ∧ 63 < 64 := by decide +kernel

theorem test_hyp_EnableMap :
    (busy (.enableMap 3 true) member).working (.enableMap (3 : Fin 4).val true) = true ∧ (member.map 3).state ≠ .active
      ∧ (member.map 3).state = .off ∧ 4 ≤ 4 ∧ ((member.setMap 3 { state := .faulted }).map 3).state ≠ .off
      ∧ ((member.setMap 3 { state := .active }).map 3).state = .active := by decide +kernel

def lineWrite : LineWrite := { slot := 255, revolution := 1, bytes := [1, 2], address := 0 }
def mapped (valid writeProtect : Bool) : ImageMap :=
  { state := .active, entries := (Vector.replicate 64 ({} : PageEntry)).set 63 { valid := valid, writeProtect := writeProtect } }
theorem test_hyp_LineIsWrittenIntoItsPage :
    let s := member.setMap 0 { mapped true false with write := some lineWrite }
    (s.map 0).state = .active ∧ ((mapped true false).entry (255 * 512 / 2048)).valid = true
      ∧ ((mapped true false).entry (255 * 512 / 2048)).writeProtect = false ∧ ((mapped true true).entry (255 * 512 / 2048)).writeProtect = true
      ∧ ((mapped false false).entry (255 * 512 / 2048)).valid = false ∧ s.store.streamDest = 0
      ∧ ({ s with store := { s.store with streamDest := 32 } } : State).store.streamDest ≠ 0 ∧ (s.map 0).write = some lineWrite
      ∧ Memory.wf s.store.pages ∧ (s.map 0).waiting = [] ∧ (member.map 0).write = none := by decide +kernel

/-- A line streamed with one place left in the local queue goes out with the number at hand; with none left it is a stream skip. -/
theorem test_a_streamed_line_joins_the_local_queue :
    let f : Frame := { kind := .peerMessage, origin := 1, dest := 2, seq := 0, payload := [0] }
    let s (n : Nat) : State :=
      { member with store := { member.store with streamDest := 32 }, ring := { member.ring with localQueue := List.replicate n f } }
    (s 15).store.streamDest ≠ 0 ∧ ((s 15).stream lineWrite).ring.localQueue.length = 16 ∧ ((s 15).stream lineWrite).store.streamSkips = 0
      ∧ (((s 15).stream lineWrite).ring.localQueue.getLast?).map (·.dest) = some 32
      ∧ ((s 16).stream lineWrite).ring.localQueue.length = 16 ∧ ((s 16).stream lineWrite).store.streamSkips = 1 := by decide +kernel

/-- A screen frame passes to the local queue while there is room, and waits in the hold queue otherwise. -/
theorem test_a_screen_frame_passes_or_waits :
    let f : Frame := { kind := .peerMessage, origin := 1, dest := 2, seq := 0, payload := [0] }
    let h : HoldFrame := { kind := .touch, dest := 32, payload := [1] }
    let s (n : Nat) : State := { member with ring := { member.ring with localQueue := List.replicate n f } }
    ((s 15).hold h).ring.localQueue.length = 16 ∧ ((s 15).hold h).screen.hold = [] ∧ ((s 16).hold h).ring.localQueue.length = 16
      ∧ ((s 16).hold h).screen.hold = [h] := by decide +kernel

/-- A reset by RESET_N releases ATTN_N and then lets it fall. -/
theorem test_attn_in_a_reset :
    State.reset.ctl.attnInReset = [false, true] ∧ State.reset.attnLow = true
      ∧ (member.restartPart { master := false, id := 0 } []).ctl.attnInReset = [] := by decide +kernel

/-- An IMAGE_LINE frame of an origin bound to map 3, and of one bound to none. -/
theorem test_hyp_ImageLineReachesItsMap :
    let s := member.setMap 3 { mapped true false with origin := 32 }
    (3 : Fin 4) ≠ 0 ∧ (s.map 3).origin = 32 ∧ (∀ j : Fin 4, j ≠ 0 → j < 3 → (s.map j).origin ≠ 32)
      ∧ (∀ i : Fin 4, i ≠ 0 → (member.map i).origin ≠ 32) ∧ (s.map 3).state = .active := by decide +kernel

theorem test_hyp_TriggersAndLineMessages :
    let x : Trigger := { line := 0, stamp := 0, revolution := 0, issueAt := 5 }
    let o (tag : Nat) : Outstanding := { line := 0, tag := tag, stamp := 0, revolution := 0 }
    let s := { member with camera := { member.camera with width := 64, triggers := [x], outstanding := [o 14, o 15] } }
    let bs := withCrc16 ([0x0F, 0x00, 0x40] ++ List.replicate 64 9)
    s.camera.triggers = x :: [] ∧ member.camera.triggers = [] ∧ member.camera.on = false
      ∧ ({ s.camera with on := true } : Camera).on = true
      ∧ (5 ≤ bs.length ∧ crc16Good bs = true ∧ fieldAt bs 1 2 = s.camera.width ∧ bs.length - 5 = s.camera.width)
      ∧ s.camera.outstanding = [o 14] ++ o 15 :: [] ∧ (byteAt bs 0).toNat % 16 = 15 ∧ (∀ y ∈ [o 14], y.tag ≠ 15)
      ∧ (∀ y ∈ member.camera.outstanding, y.tag ≠ 15) := by
  refine ⟨?_, ?_, ?_, ?_, ⟨?_, crc16Good_withCrc16 _, ?_, ?_⟩, ?_, ?_, ?_, ?_⟩ <;> decide +kernel

/-- A line that starts a mark for the reference, whose gate holds the edge at its first angle and not one before it, and for the ARMED follower
7, whose span holds the edge at its last angle and not one past it; and the phases in which a close finds them. -/
theorem test_hyp_MarkUnitWorksOnALine :
    let reference : Channel :=
      { state := .searching, width := 64, c1 := 64, threshold := 255, previous := some 0, phase := .opened, g0 := 4096, g1 := 8192 }
    let follower : Channel :=
      { reference with phase := .armed, armed := some 0, spacing := 3072, span := 1024, g0 := 0, g1 := 0 }
    let s (r f : Channel) : State := { member with
      camera := { member.camera with width := 64, pitch := 4096 }
      marks := { member.marks with lastLine := some (0, 0), channels := (member.marks.channels.set 0 r).set 7 f } }
    let l (stamp : Angle) : CameraLine := { number := 1, stamp := stamp, revolution := 0, pixels := List.replicate 64 0 }
    let t := s reference follower
    (t.channel 0).state ≠ .off ∧ (member.channel 0).state = .off ∧ (t.look 0 (l 4096)).1 = some 4096 ∧ (t.look 7 (l 4096)).1 = some 4096
      ∧ ((s { reference with previous := none } follower).look 0 (l 4096)).1 = none
      ∧ ((4096 - reference.g0).toNat < (reference.g1 - reference.g0).toNat ∧ reference.edgeTaken = none)
      ∧ ¬((4095 - reference.g0).toNat < (reference.g1 - reference.g0).toNat)
      ∧ (4096 - (0 + BitVec.ofInt 24 (follower.spacing - follower.span)) : Angle).toNat ≤ 2 * follower.span
      ∧ ¬((4097 - (0 + BitVec.ofInt 24 (follower.spacing - follower.span)) : Angle).toNat ≤ 2 * follower.span)
      ∧ (t.channel 7).edgeTaken = none ∧ reference.phase = .opened ∧ (member.channel 0).phase ≠ .opened
      ∧ ({ reference with edgeTaken := some 4096 } : Channel).edgeTaken = some 4096 := by decide +kernel

/-- Marks. -/
theorem test_hyp_SetMark :
    let f := { markFields with channel := 0, c1 := member.camera.width }
    let s := busy (.setMarkChannel f) member
    s.working (.setMarkChannel f) = true ∧ f.channel = (0 : Fin 8).val ∧ f.axis = (15 : Fin 16).val ∧ f.c0 < f.c1 ∧ f.c1 ≤ s.camera.width
      ∧ 1 ≤ f.width ∧ f.width ≤ 255 ∧ f.width ≤ f.c1 - f.c0 ∧ f.g0 ≤ 16777215 ∧ f.g0 ≠ f.g1 ∧ -8388607 ≤ f.spacing ∧ 1 ≤ f.span
      ∧ f.gain ≤ 256 ∧ f.deadband ≤ 65535 ∧ f.stepClamp ≤ 65535 ∧ f.node ≤ 32 ∧ f.axis < 16 ∧ f.lostLimit ≤ 15
      ∧ (f.on = true ∧ (1 : Fin 8) ≠ 0 ∧ (s.channel 0).state = .off) ∧ ¬((s.channel 0).state ≠ .off)
      ∧ ¬(({ f with channel := 8 } : MarkFields).channel < 8) := by decide +kernel

theorem test_hyp_SetMarkUnit_and_RegisterError :
    let c : Channel := { state := .locked, edgeTaken := some 5, armed := some 1 }
    let s := withLine .running (busy (.setMarkUnit 4194303) { member with marks := { member.marks with channels := member.marks.channels.set 7 c } })
    s.working (.setMarkUnit 4194303) = true ∧ (1 : Int) ≠ 0 ∧ c.state = .locked ∧ s.angle.lineState = .running ∧ c.gain ≤ 256
      ∧ (s.channel 7).edgeTaken = some 5 ∧ (s.channel 7).armed = some 1 ∧ s.ring.localQueue.length < 16
      ∧ 16 ≤ (List.replicate 16 ringFrame).length := by decide +kernel

/-- The operator screen. -/
theorem test_hyp_SetScreen :
    let f : ScreenFields := ⟨true, 80, 48, 255⟩
    let s := busy (.setScreen f) { member with screen := { member.screen with windows := [window] } }
    s.working (.setScreen f) = true ∧ (1 ≤ f.cols ∧ f.cols ≤ 80 ∧ 1 ≤ f.rows ∧ f.rows ≤ 48 ∧ f.background ≤ 255)
      ∧ (∀ w ∈ s.screen.windows, 1 ≤ w.rect.w ∧ 1 ≤ w.rect.h ∧ w.rect.x + w.rect.w ≤ f.cols ∧ w.rect.y + w.rect.h ≤ f.rows)
      ∧ s.screen.banner = none ∧ ¬(window.rect.x + window.rect.w ≤ 79) := by decide +kernel

theorem test_hyp_WindowRequests :
    let s := busy (.setWindow window) { member with screen := { member.screen with windows := [{ window with id := 6 }, window] } }
    s.working (.setWindow window) = true ∧ window.id ≤ 7 ∧ window.line0 ≤ 2047 ∧ window.col0 ≤ 511 ∧ window.greyBase ≤ 224
      ∧ window.touch = .toNode 32 ∧ 32 ≠ s.angle.nodeId ∧ (∀ x ∈ ([] : List Window), x.id ≠ window.id)
      ∧ s.screen.windows.find? (fun x => x.id = window.id) = some window ∧ s.screen.windows.find? (fun x => x.id = 6) = some { window with id := 6 }
      ∧ (busy (.raiseWindow 7) member).working (.raiseWindow 7) = true ∧ (busy (.removeWindow 7) member).working (.removeWindow 7) = true
      ∧ 8 ≤ (List.replicate 8 { window with id := 0 }).length ∧ (∀ x ∈ List.replicate 8 { window with id := 0 }, x.id ≠ window.id)
      ∧ ¬(({ window with rect := { window.rect with w := 0 } } : Window).rect.w ≥ 1) := by decide +kernel

theorem test_hyp_PutTiles :
    let tiles := [tile 0, tile 511, tile 0, tile 1]
    let s := busy (.putTiles 0 tiles) member
    s.working (.putTiles 0 tiles) = true ∧ 1 ≤ tiles.length ∧ tiles.length ≤ 4 ∧ (∀ t ∈ tiles, t.tile ≤ 511) ∧ 0 ≠ s.angle.nodeId
      ∧ Memory.wf s.screen.tiles ∧ (∀ x ∈ tiles, x.pixels.length = 256) ∧ 32 ≠ s.angle.nodeId ∧ s.screen.hold.length + tiles.length ≤ 8
      ∧ 8 < (List.replicate 5 ({ kind := .touch, dest := 2, payload := [] } : HoldFrame)).length + tiles.length
      ∧ ¬(({ tile 512 with pixels := [] } : TileWrite).tile ≤ 511) := by decide +kernel

/-- Tile 511, the last, under a grant of its origin, and the tile before the grant's first. -/
theorem test_hyp_PutTiles_granted :
    let g : Grant := { origin := 32, first := 511, count := 1 }
    let s : State := { member with screen := { member.screen with grants := member.screen.grants.set 3 g } }
    let payload (tile : Nat) : List Byte := u16 tile ++ List.replicate 256 7
    (payload 511).length = 258 ∧ fieldAt (payload 511) 0 2 = 511 ∧ g ∈ s.screen.grants.toList ∧ g.origin = 32 ∧ g.first ≤ 511
      ∧ 511 < g.first + g.count ∧ ¬(g.first ≤ fieldAt (payload 510) 0 2) ∧ Memory.wf s.screen.tiles := by decide +kernel

theorem test_hyp_GrantsAndBanner :
    (busy (.setGrant ⟨3, 32, 511, 1⟩) member).working (.setGrant ⟨3, 32, 511, 1⟩) = true
      ∧ (busy (.setBanner (some banner)) member).working (.setBanner (some banner)) = true
      ∧ (1 ≤ banner.rect.w ∧ 1 ≤ banner.rect.h ∧ banner.rect.x + banner.rect.w ≤ member.screen.cols
        ∧ banner.rect.y + banner.rect.h ≤ member.screen.rows)
      ∧ (∀ base ∈ [banner.warn, banner.impressionOff, banner.stopRamp, banner.stopFast], base + banner.rect.w * banner.rect.h ≤ 512)
      ∧ ¬(512 + banner.rect.w * banner.rect.h ≤ 512) := by decide +kernel

/-- The first dirty tile at the cursor, and the wrap to the first of all. -/
theorem test_hyp_DirtySetAndSender :
    let s (cursor : Nat) : State := { member with screen := { member.screen with state := .up, dirty := [3, 3839], cursor := cursor } }
    (s 3).screen.state = .up ∧ (s 3).screen.inSend = none ∧ 3 ∈ (s 3).screen.dirty ∧ (s 3).screen.dirty.Pairwise (· < ·)
      ∧ ((s 3).screen.cursor ≤ 3 ∧ ∀ u ∈ (s 3).screen.dirty, (s 3).screen.cursor ≤ u → 3 ≤ u)
      ∧ (∀ u ∈ ({ (s 3) with screen := { (s 3).screen with dirty := [3], cursor := 4 } } : State).screen.dirty, u < 4 ∧ 3 ≤ u)
      ∧ member.screen.state ≠ .up := by decide +kernel

/-- The last tile of the screen under the banner, under a visible window, and under neither; a banner of class none is not shown. -/
theorem test_hyp_Composition :
    let last : Rect := { x := 79, y := 47, w := 1, h := 1 }
    let covers (q : Rect) : Prop := q.x ≤ 79 ∧ 79 < q.x + q.w ∧ q.y ≤ 47 ∧ 47 < q.y + q.h
    let sc : Screen := { member.screen with
      banner := some { banner with rect := last }, headClass := .stopFast, windows := [window, { window with id := 6, visible := false }] }
    sc.banner = some { banner with rect := last } ∧ sc.headClass ≠ .none ∧ covers last ∧ ({ sc with headClass := .none } : Screen).headClass = .none
      ∧ sc.windows = [] ++ window :: [{ window with id := 6, visible := false }] ∧ window.visible = true ∧ covers window.rect
      ∧ (∀ x ∈ [{ window with id := 6, visible := false }], x.visible ≠ true) ∧ window.kind = .webview
      ∧ ({ window with kind := .tiles } : Window).kind = .tiles ∧ ¬covers { last with x := 78 } ∧ window.map = (3 : Fin 4).val := by
  decide +kernel

theorem test_hyp_PanelMessagesAndTimers :
    let status : List Byte := withCrc16 [1]
    let touch : List Byte := withCrc16 [2, 0, 0, 0, 0, 0]
    let s (st : ScreenState) : State := { member with screen := { member.screen with state := st, inSend := some ⟨0, []⟩ } }
    (crc16Good status = true ∧ byteAt status 0 = 1 ∧ status.length = 3) ∧ (crc16Good touch = true ∧ byteAt touch 0 = 2 ∧ touch.length = 8)
      ∧ ¬(crc16Good [1] = true) ∧ (s .up).screen.state = .up ∧ (s .noPanel).screen.state = .noPanel ∧ (s .off).screen.state = .off
      ∧ (s .up).screen.inSend ≠ none ∧ member.screen.inSend = none := by decide +kernel

/-- Updates and the cycle. -/
def cycleArrival (number : Num16) : CycleArrival :=
  { origin := 4, number := number, arrival := 0, delay := 0
    fields := cycleFields 0 }
def following (st : AngleState) (number : Num16) : State :=
  { member with angle := { member.angle with state := st, masterOrigin := some 4, cycleNumber := number, expectedArrival := some 9 } }

theorem test_hyp_UpdateAngleIsTheRulesFormula :
    member.angle.newBase = true ∧ ({ member with angle := { member.angle with newBase := false } } : State).angle.newBase = false
      ∧ 4194303 ≤ 4194303 ∧ 7 < ({ member.angle with k := 8 } : AngleRecord).k := by decide +kernel

theorem test_hyp_BasesScheduleUpdates :
    let b := member.angle.makeBase 0 0 .us1000 0 0
    let s := { member with angle := { member.angle with updates := [(0, 50000)], base := some b } }
    s.angle.updates = (0, 50000) :: [] ∧ s.angle.base = some b ∧ member.angle.updates = [] ∧ member.angle.ownTimer = some 1000000
      ∧ lineMaster.angle.ownTimer = none ∧ ∃ t, exec .ownTimerUpdate lineMaster = .next t := by
  refine ⟨?_, ?_, ?_, ?_, ?_, _, rfl⟩ <;> decide +kernel

theorem test_hyp_MemberFollowsOrLosesTheCycle :
    (following .tracking 0).angle.expectedArrival = some 9 ∧ (following .tracking 0).angle.role = .member ∧ lineMaster.angle.role = .master
      ∧ min ((following .tracking 0).angle.coastCount + 1) 8 < (following .tracking 0).angle.coastLimit
      ∧ ({ member.angle with coastLimit := 1 } : AngleRecord).coastLimit ≤ min (member.angle.coastCount + 1) 8
      ∧ member.angle.expectedArrival = none ∧ (following .coasting 65535).angle.masterOrigin = some (cycleArrival 0).origin
      ∧ (1 ≤ ((cycleArrival 0).number - (following .coasting 65535).angle.cycleNumber).toNat
        ∧ ((cycleArrival 32766).number - (following .coasting 65535).angle.cycleNumber).toNat ≤ 32767)
      ∧ ¬(((cycleArrival 32767).number - (following .coasting 65535).angle.cycleNumber).toNat ≤ 32767) ∧ member.angle.state = .none
      ∧ member.angle.masterOrigin ≠ some (cycleArrival 0).origin := by decide +kernel

theorem test_hyp_CycleTimerHandsOverTheNextFrame :
    lineMaster.master.cycleTimer = some 1000000 ∧ member.master.cycleTimer = none ∧ lineMaster.master.lastHanded = none
      ∧ ({ lineMaster.master with lastHanded := some 7, returned := false } : MasterRecord).lastHanded ≠ none
      ∧ ({ lineMaster.master with lastHanded := some 7, returned := false } : MasterRecord).returned = false
      ∧ lineMaster.master.returned = true := by decide +kernel

/-- At a closed master whose outputs both send, an expiry gives up the own frame that waits at B and leaves the one that waits at A, which a
change from WRAP_B has made the pass-through output; no other frame is counted as dropped. -/
theorem test_an_expiry_leaves_the_own_frame_at_the_pass_through_output :
    let w : Queued := .ownCycle 0 lineMaster.nextCycle
    let busyPort : FibrePort := { lineMaster.ring.a with state := .up, usable := true, sending := some [0], cycle := some w }
    let s (b : Option Queued) : State :=
      { lineMaster with ring := { lineMaster.ring with mode := .closed, a := busyPort, b := { busyPort with cycle := b } } }
    ((s none).cycleExpires.fibre .a).cycle = some w ∧ (s none).cycleExpires.ring.forwardDrops = 0
      ∧ ((s none).cycleExpires.fibre .b).cycle.isSome = true
      ∧ ((s (some w)).cycleExpires.fibre .a).cycle = some w ∧ (s (some w)).cycleExpires.ring.forwardDrops = 1
      ∧ RingMode.processingOutput (s none).ring.mode ≠ some .a := by decide +kernel

/-- A state with a running axis meets the premise of the invariant, and a step from the reset state answers a next state. -/
theorem test_hyp_EveryStepKeepsTheInvariants :
    Law.holds State.reset .hold ∧ step State.reset = .next State.reset
      ∧ (∃ t, step { State.reset with pending := [.start] } = .next t) := by
  refine ⟨?_, rfl, _, rfl⟩
  show State.reset.screen.hold.length ≤ 8
  decide +kernel

theorem test_hyp_NoAxisRunsWithoutPortClassAndAngle :
    let s := withPort 3 { state := .up } (withAxis 15 { state := .coupled, binding := some (3, 3) } lineMaster)
    (∀ i : Fin 16, (s.axis i).state = .coupled ∨ (s.axis i).state = .catching → (s.axis i).binding = some (3, 3))
      ∧ (s.port 3).state = .up ∧ s.trips.effective ≠ .stopFast ∧ s.angle.state ≠ .none ∧ s.angle.state ≠ .lost
      ∧ (s.axis 15).state = .coupled := by decide +kernel

end Sys2Proof.Tests
end

