-- ==== Sys2Proof/Proofs/AngleAndLine.lean ====
section
/-! Proofs. The press angle and the line master (chapter 1): how a request row ends at a port that works it, STOP (R19), and the angles,
revolutions and increments of the updates of a base (R12). -/

namespace Sys2Proof.Machine

/-! ## A request row at the port that works it (R165) -/

theorem prepare_of_working {s : State} {r : Request} (hw : s.working r = true) : s.prepare r = s := if_pos hw

/-- At a port that works this request, its row ends with what working it gave. -/
theorem runRequest_replies {s t : State} {r : Request} {status : Status} {body : List Byte} (hw : s.working r = true)
    (hr : workRequest r s = (t, { status := status, body := body })) :
    Host.Outcome.next (s.runRequest r) = t.replies status body := by
  simp only [State.runRequest, State.replies, prepare_of_working hw, hr]

/-! ## STOP (R19) -/

theorem isMaster_eq_false_iff (s : State) : s.isMaster = false ↔ s.angle.role = .member := by
  cases h : s.angle.role <;> simp [State.isMaster, h]

theorem workStop_of_member {s : State} (hm : s.angle.role = .member) : workStop s = refuse s .notMaster :=
  if_pos ((isMaster_eq_false_iff s).mpr hm)

theorem workStop_of_running {s : State} (hm : s.angle.role ≠ .member) (hl : s.angle.lineState = .running) :
    workStop s = taken (s.setLine .stopping) :=
  (if_neg (mt (isMaster_eq_false_iff s).mp hm)).trans (if_pos hl)

theorem workStop_of_not_running {s : State} (hm : s.angle.role ≠ .member) (hl : s.angle.lineState ≠ .running) :
    workStop s = taken s :=
  (if_neg (mt (isMaster_eq_false_iff s).mp hm)).trans (if_neg hl)

/-- The ramp of a STOPPING line: the step that would reach or pass 0 gives 0 and STOPPED (R16). -/
theorem rampStep_stopping (m : MasterRecord) (v : Nat) :
    rampStep m .stopping v = if v ≤ m.aDown then (0, .stopped) else (v - m.aDown, .stopping) := by
  simp only [rampStep, Nat.sub_eq_zero_iff_le]

/-- Settles O13, by the three cases of STOP and the ramp of a STOPPING line. -/
theorem stopMakesARunningLineStop : Obligations.StopMakesARunningLineStop := by
  refine ⟨fun s hw => ?_, rampStep_stopping⟩
  rw [exec_stop]
  split
  case isTrue hm => exact runRequest_replies hw (workStop_of_member hm)
  case isFalse hm =>
    split
    case isTrue hl => exact runRequest_replies hw (workStop_of_running hm hl)
    case isFalse hl => exact runRequest_replies hw (workStop_of_not_running hm hl)

/-! ## The updates of a base (R11, R12) -/

theorem period_ns_pos (p : Period) : 0 < p.ns := by cases p <;> decide

theorem period_ns_le (p : Period) : p.ns ≤ 2000000 := by cases p <;> decide

/-- L of R11: L_align, or T_c if L_align exceeds it. -/
theorem makeBase_lag (a : AngleRecord) (aM : Angle) (v : Nat) (period : Period) (revolution : Num16) (t0 : Int) :
    (a.makeBase aM v period revolution t0).lag = if period.ns < a.lAlign then period.ns else a.lAlign := by
  simp only [AngleRecord.makeBase]
  split <;> omega

/-- The angle of update j is A_m + f_j modulo 2^24 (R12). -/
theorem base_angle_toNat (b : Base) (j : Nat) : (b.angle j).toNat = (b.aM.toNat + b.advance j) % 2 ^ 24 := by
  rw [Base.angle, BitVec.toNat_add, BitVec.toNat_ofNat, Nat.add_mod_mod]

theorem baseEvent_delta_of_newBase {s : State} (b : Base) (j at_ : Nat) (h : s.angle.newBase = true) :
    (s.baseEvent b j at_).delta = 0 := if_pos h

theorem baseEvent_delta_of_not_newBase {s : State} (b : Base) (j at_ : Nat) (h : s.angle.newBase = false) :
    (s.baseEvent b j at_).delta = ((s.baseEvent b j at_).angle - s.angle.previousAngle).toInt :=
  if_neg (Bool.eq_false_iff.mp h)

/-- The `j`-th of `k` whole parts of a period begins before the period ends. -/
theorem mul_div_lt_of_lt {t j k : Nat} (ht : 0 < t) (hj : j < k) : j * (t / k) < t :=
  calc j * (t / k) ≤ j * t / k := Nat.mul_div_le_mul_div_assoc j t k
    _ < t := Nat.div_lt_of_lt_mul (Nat.mul_lt_mul_of_pos_right hj ht)

/-- From the emission to an update of the base less than two periods pass (R12). -/
theorem makeBase_offset_lt (a : AngleRecord) (aM : Angle) (v : Nat) (period : Period) (revolution : Num16) (t0 : Int) {j : Nat}
    (hj : j < a.k) :
    (a.makeBase aM v period revolution t0).lag + j * (a.makeBase aM v period revolution t0).tu < 2 * period.ns := by
  have hlag : (a.makeBase aM v period revolution t0).lag ≤ period.ns := Nat.min_le_right _ _
  have htu : j * (a.makeBase aM v period revolution t0).tu < period.ns := mul_div_lt_of_lt (period_ns_pos period) hj
  omega

/-- A distance over less than two periods, rounded, is at most 2 V. -/
theorem roundedAdvance_le {v x t : Nat} (hx : x < 2 * t) : (v * x + t / 2) / t ≤ 2 * v := by
  have hvx : v * x ≤ 2 * v * t := calc
    v * x ≤ v * (2 * t) := Nat.mul_le_mul_left v hx.le
    _ = 2 * v * t := by ring
  apply Nat.le_of_lt_succ
  apply Nat.div_lt_of_lt_mul
  calc v * x + t / 2 < 2 * v * t + t := by omega
    _ = t * (2 * v + 1) := by ring

/-- The product of a speed in range and a time of less than two periods is below 2^45 (R12). -/
theorem speed_mul_lt {v x : Nat} (p : Period) (hv : v ≤ 4194303) (hx : x < 2 * p.ns) : v * x < 2 ^ 45 := by
  have hx' : x ≤ 4000000 := by have := period_ns_le p; omega
  calc v * x ≤ 4194303 * 4000000 := Nat.mul_le_mul hv hx'
    _ < 2 ^ 45 := by norm_num

/-- Settles O48: the angle and the increment by their lemmas, the bounds from the time being less than two periods. -/
theorem updateAngleIsTheRulesFormula : Obligations.UpdateAngleIsTheRulesFormula := by
  intro s a aM v period revolution t0 j at_ b l f e
  have hl : b.lag = l := makeBase_lag a aM v period revolution t0
  have hf : b.advance j = f := by
    show (v * (b.lag + j * (period.ns / a.k)) + period.ns / 2) / period.ns = f
    rw [hl]
  refine ⟨?_, ?_, baseEvent_delta_of_newBase b j at_, baseEvent_delta_of_not_newBase b j at_, rfl, fun hv hj => ?_⟩
  · rw [← hf]
    exact base_angle_toNat b j
  · rw [← hf]
    rfl
  · have hx : l + j * (period.ns / a.k) < 2 * period.ns := by
      rw [← hl]
      exact makeBase_offset_lt a aM v period revolution t0 hj
    have hf2v : f ≤ 2 * v := roundedAdvance_le hx
    exact ⟨speed_mul_lt period hv hx, by omega⟩

end Sys2Proof.Machine
end

section
/-! Proofs. The axes at the end of a reset (chapter 2): the read that ends in a restart (R171), and the axis records, bindings and notice
that either kind of reset leaves (R24). -/

namespace Sys2Proof.Machine

/-! ## The read transaction that restarts the part (R164, R171) -/

/-- A held reply clocked whole with a restart pending restarts the part. -/
theorem readEnds_of_restartPending {s : State} {clocked : Nat} {reply : List Byte} (straps : Straps) (hi : s.ctl.ignoring = false)
    (hr : s.ctl.reply = some reply) (hc : reply.length ≤ clocked) (hp : s.ctl.restartPending = true) :
    s.readEnds clocked straps = s.restartPart straps (misoBytes s.ctl.reply clocked) := by
  have hwhole : (s.ctl.reply.any fun r => decide (r.length ≤ clocked)) = true := by
    rw [hr]
    exact decide_eq_true hc
  unfold State.readEnds
  rw [hi, if_neg Bool.false_ne_true, if_pos hwhole, if_pos hp]

/-! ## Records at their table values, and none bound (R24) -/

theorem axis_of_axes_blank {s : State} (h : s.axes = Vector.replicate 16 {}) (i : Fin 16) : s.axis i = {} := by
  rw [State.axis, h]
  exact Vector.getElem_replicate i.isLt

theorem boundAxis_eq_none_of_unbound {s : State} (h : ∀ i, (s.axis i).binding = none) (p sub : Fin 4) : s.boundAxis p sub = none :=
  Option.eq_none_iff_forall_ne_some.mpr fun i hb => Option.some_ne_none _ ((boundAxis_binding s p sub i hb).symm.trans (h i))

theorem boundAxes_eq_nil_of_unbound {s : State} (h : ∀ i, (s.axis i).binding = none) (p : Fin 4) : s.boundAxes p = [] := by
  simp [State.boundAxes, boundAxis_eq_none_of_unbound h]

/-! ## What either kind of reset leaves of the axis engine (R24, R171, R172) -/

/-- The axis engine's part of a state at the end of a reset, with the notice of that reset. -/
structure AxesAtReset (t : State) : Prop where
  axes : t.axes = Vector.replicate 16 {}
  straySteps : t.straySteps = 0
  notices : ∃ cause id role, t.ctl.notices = [.resetDone cause id role]

theorem powerOn_axesAtReset (s : State) (straps : Straps) (trp : BitVec 12) (csLow : Bool) :
    AxesAtReset (s.powerOn straps trp csLow) := ⟨rfl, rfl, _, _, _, rfl⟩

theorem restartPart_axesAtReset (s : State) (straps : Straps) (miso : List Byte) : AxesAtReset (s.restartPart straps miso) :=
  ⟨rfl, rfl, _, _, _, rfl⟩

theorem AxesAtReset.axis_eq {t : State} (h : AxesAtReset t) (i : Fin 16) : t.axis i = {} := axis_of_axes_blank h.axes i

theorem AxesAtReset.boundAxes_eq_nil {t : State} (h : AxesAtReset t) (p : Fin 4) : t.boundAxes p = [] :=
  boundAxes_eq_nil_of_unbound (fun i => by rw [h.axis_eq i]) p

/-- Settles O3: both kinds of reset leave the axis engine as `AxesAtReset` says; a restart is reached by the read of its reply. -/
theorem resetGivesEveryAxisItsTableValues : Obligations.ResetGivesEveryAxisItsTableValues := by
  unfold Obligations.ResetGivesEveryAxisItsTableValues
  intro blank atReset
  have atReset_of : ∀ t, AxesAtReset t → atReset t := fun t h => ⟨h.axis_eq, h.straySteps, h.boundAxes_eq_nil, h.notices⟩
  refine ⟨fun s at_ straps trp csLow => ?powerOn, fun s at_ clocked straps reply hi hr hc hp => ?restart⟩
  case powerOn =>
    exact ⟨_, exec_powerOnReset at_ straps trp csLow s, atReset_of _ (powerOn_axesAtReset _ straps trp csLow)⟩
  case restart =>
    have hread := readEnds_of_restartPending (s := s.tick at_) straps hi hr hc hp
    rw [exec_readTransaction, hread]
    exact ⟨_, rfl, atReset_of _ (restartPart_axesAtReset _ straps _)⟩

end Sys2Proof.Machine
end

section
/-! Proofs. The register marks (chapter 7): SET_MARK in its unit form (R136), and the speed check of a trim step (R146). -/

namespace Sys2Proof.Machine

/-! ## SET_MARK in its unit form (R136) -/

theorem workSetMarkUnit_of_gt {s : State} {vReg : Nat} (h : 4194303 < vReg) : workSetMarkUnit vReg s = refuse s .range :=
  if_neg (Nat.not_le.mpr h)

theorem workSetMarkUnit_of_le {s : State} {vReg : Nat} (h : vReg ≤ 4194303) :
    workSetMarkUnit vReg s = taken { s with marks := { s.marks with vReg := vReg } } :=
  if_pos h

/-! ## The speed check of a step (R146) -/

/-- A step that passes the first three checks is judged by the speed, then by the binding and the state of the bound axis. -/
theorem withheld_of_locked_running {s : State} {c : Channel} {step : Int} (hstep : step ≠ 0) (hlocked : c.state = .locked)
    (hrunning : s.angle.lineState = .running) :
    s.withheld c step =
      if s.angle.v < s.marks.vReg then some .slow
      else if c.node = 0 then some .unbound
      else if c.node = s.angle.nodeId ∧ (s.axis c.axis).state ≠ .coupled then some .axisNotCoupled
      else none := by
  rw [State.withheld, if_neg hstep, if_neg (not_not_intro hlocked), if_neg (not_not_intro hrunning)]

/-- Such a step ends as SLOW exactly when V is below V_reg: the checks after the speed have other outcomes. -/
theorem withheld_eq_slow_iff {s : State} {c : Channel} {step : Int} (hstep : step ≠ 0) (hlocked : c.state = .locked)
    (hrunning : s.angle.lineState = .running) : s.withheld c step = some .slow ↔ s.angle.v < s.marks.vReg := by
  rw [withheld_of_locked_running hstep hlocked hrunning]
  split
  case isTrue hslow => exact iff_of_true rfl hslow
  case isFalse hfast =>
    refine iff_of_false ?_ hfast
    split
    case isTrue => simp
    case isFalse => split <;> simp

/-- Settles O40, by the range check of the unit form and the place of the speed check among the checks of R146. -/
theorem setMarkUnitStoresTheRegisterSpeed : Obligations.SetMarkUnitStoresTheRegisterSpeed := by
  refine ⟨fun s vReg hw => ?_, fun s c step => withheld_eq_slow_iff⟩
  rw [exec_setMarkUnit]
  split
  case isTrue hgt => exact runRequest_replies hw (workSetMarkUnit_of_gt hgt)
  case isFalse hle => exact runRequest_replies hw (workSetMarkUnit_of_le (Nat.not_lt.mp hle))

end Sys2Proof.Machine
end

section
/-! Proofs. One step (chapter 9): what a request row is, the request a row works (R165), and the invariants every step keeps. -/

namespace Sys2Proof.Machine

/-! ## The rows (R165, log 24) -/

/-- A request row runs its request at the instant it names, or at the clock. -/
theorem exec_of_requestOf {c : Instr} {r : Request} (h : requestOf c = some r) (s : State) :
    exec c s = .next ((clockOf c s).runRequest r) := by
  cases c <;> cases h <;> rfl

theorem step_of_cons {s : State} {c : Instr} {rest : List Instr} (h : s.pending = c :: rest) :
    step s = exec c { s with pending := rest } := by
  rw [step, h]

theorem step_of_nil {s : State} (h : s.pending = []) : step s = .next s := by
  rw [step, h]

/-- Settles O1. -/
theorem stepRunsTheCommandInFront : Obligations.StepRunsTheCommandInFront :=
  ⟨fun _ _ _ h => step_of_cons h, fun _ h => step_of_nil h⟩

/-! ## The request a row works (R165, R166, log 3) -/

theorem tick_of_le {s : State} {t : Nat} (h : t ≤ s.now) : s.tick t = s := by
  rw [State.tick, Nat.max_eq_left h]

theorem workItem_request (s : State) (x : Item) : Part.request.same s (s.workItem x).1 :=
  workItem_only s x .request (by decide)

theorem holdReply_waiting (s : State) (bytes : List Byte) : (s.holdReply bytes).ctl.waiting = none := by
  unfold State.holdReply
  cases h : s.ctl.waiting with
  | none => exact h
  | some w => rfl

theorem holdReply_inProgress (s : State) (bytes : List Byte) :
    (s.holdReply bytes).ctl.inProgress.isSome = s.ctl.waiting.isSome := by
  unfold State.holdReply
  cases s.ctl.waiting with
  | none => rfl
  | some w => rfl

theorem formReply_of_none {s : State} (h : s.ctl.inProgress = none) : s.formReply = s := by
  rw [State.formReply, h]

theorem formReply_of_some {s : State} {x : Item} (h : s.ctl.inProgress = some x) :
    s.formReply = (s.workItem x).1.holdReply ((s.workItem x).1.replyOf x (s.workItem x).2) := by
  rw [State.formReply, h]

/-- Forming the reply of the request in progress takes the waiting one, if any, and leaves none waiting. -/
theorem formReply_inProgress {s : State} {x : Item} (h : s.ctl.inProgress = some x) :
    s.formReply.ctl.inProgress.isSome = s.ctl.waiting.isSome ∧ s.formReply.ctl.waiting = none := by
  obtain ⟨-, hwaiting, -, -⟩ := workItem_request s x
  rw [formReply_of_some h, holdReply_inProgress, holdReply_waiting, hwaiting]
  exact ⟨rfl, rfl⟩

/-- After the requests in progress and waiting are finished the port is working none. -/
theorem finishRequests_inProgress (s : State) : s.finishRequests.ctl.inProgress = none := by
  rw [State.finishRequests]
  cases hfirst : s.ctl.inProgress with
  | none => rw [formReply_of_none hfirst, formReply_of_none hfirst, hfirst]
  | some x =>
    obtain ⟨-, hwaiting⟩ := formReply_inProgress hfirst
    cases hsecond : s.formReply.ctl.inProgress with
    | none => rw [formReply_of_none hsecond, hsecond]
    | some y =>
      have hlast := (formReply_inProgress hsecond).1
      rw [hwaiting] at hlast
      exact Option.not_isSome_iff_eq_none.mp (Bool.eq_false_iff.mp hlast)

theorem take_inProgress {s : State} (x : Item) (h : s.ctl.inProgress = none) : (s.take x).ctl.inProgress = some x := by
  simp [State.take, h]

/-- `prepare` ends at a port that works the request. -/
theorem prepare_working (s : State) (r : Request) : (s.prepare r).working r = true := by
  unfold State.prepare
  split
  case isTrue h => exact h
  case isFalse => simp [State.working, take_inProgress _ (finishRequests_inProgress s)]

theorem prepare_now (s : State) (r : Request) : (s.prepare r).now = s.now :=
  (prepare_only s r .now (by decide)).symm

theorem clockOf_ctl (c : Instr) (s : State) : (clockOf c s).ctl = s.ctl := by
  unfold clockOf
  split <;> rfl

theorem clockOf_of_now_eq {c : Instr} {s t : State} (h : t.now = (clockOf c s).now) : clockOf c t = t := by
  unfold clockOf at h ⊢
  split
  all_goals first | rfl | exact tick_of_le (h ▸ Nat.le_max_right _ _)

theorem working_of_ctl_eq {s t : State} (h : t.ctl = s.ctl) (r : Request) : t.working r = s.working r := by
  rw [State.working, State.working, h]

/-- Settles O2: `prepare` ends at a port that works the request, and there the row prepares nothing more. -/
theorem requestRowActsOnTheRequestInProgress : Obligations.RequestRowActsOnTheRequestInProgress := by
  intro c r hr s
  have hworking := prepare_working (clockOf c s) r
  have hclock : clockOf c ((clockOf c s).prepare r) = (clockOf c s).prepare r :=
    clockOf_of_now_eq (prepare_now _ r)
  refine ⟨?_, hworking, fun hw => ?_⟩
  · rw [exec_of_requestOf hr, exec_of_requestOf hr, hclock, State.runRequest, State.runRequest, prepare_of_working hworking]
  · rw [exec_of_requestOf hr, State.runRequest, prepare_of_working ((working_of_ctl_eq (clockOf_ctl c s) r).trans hw)]

/-! ## The invariants (Safety.lean) -/

theorem clockOf_keeps (c : Instr) (s : State) : Keeps [] s (clockOf c s) := by
  unfold clockOf
  split
  all_goals first | exact tick_keeps s _ | exact Keeps.refl _ s

/-- Every command answers a next state, which keeps every invariant of the state it ran in. -/
theorem exec_keeps (c : Instr) (s : State) : ∃ t, exec c s = .next t ∧ Keeps [] s t := by
  cases hr : requestOf c with
  | some r => exact ⟨_, exec_of_requestOf hr s, (clockOf_keeps c s).trans (runRequest_keeps _ r)⟩
  | none =>
    cases c
    case powerOnReset at_ straps trp csLow => exact ⟨_, rfl, (tick_keeps s at_).trans (powerOn_keeps _ straps trp csLow)⟩
    case requestTransaction bytes => exact ⟨_, rfl, requestEnds_keeps s bytes⟩
    case readTransaction at_ clocked straps => exact ⟨_, rfl, (tick_keeps s at_).trans (readEnds_keeps _ clocked straps)⟩
    case replyFormed at_ => exact ⟨_, rfl, (tick_keeps s at_).trans (formReply_keeps _)⟩
    case updateEvent => exact ⟨_, rfl, nextUpdate_keeps s⟩
    case ownTimerUpdate => exact ⟨_, rfl, ownUpdate_keeps s⟩
    case deadline => exact ⟨_, rfl, deadlineComes_keeps s⟩
    case cycleTimerExpiry => exact ⟨_, rfl, cycleExpires_keeps s⟩
    case ringFrameArrival side arrival at_ bytes => exact ⟨_, rfl, (tick_keeps s at_).trans (frameArrives_keeps _ side arrival bytes)⟩
    case frameTransmitEnd side at_ => exact ⟨_, rfl, (tick_keeps s at_).trans (transmitEnds_keeps _ side)⟩
    case idleSetSend side at_ => exact ⟨_, rfl, (tick_keeps s at_).trans (sendIdle_keeps _ side)⟩
    case idleSetReceived side arrival good bytes => exact ⟨_, rfl, (tick_keeps s arrival).trans (idleReceived_keeps _ side arrival good bytes)⟩
    case linkTrainingStart side => exact ⟨_, rfl, startTraining_keeps s side⟩
    case lossOfLock side at_ => exact ⟨_, rfl, (tick_keeps s at_).trans (loseLock_keeps _ side)⟩
    case telegramClosed port chars =>
      obtain ⟨hstate, hqueue⟩ := receive_same (s.port port) chars
      exact ⟨_, rfl, setPort_keeps s port _ (fun hup => hstate.trans hup) hqueue⟩
    case transmitterFrees port =>
      obtain ⟨hstate, hqueue⟩ := transmitterEnd_state (s.port port)
      exact ⟨_, rfl, setPort_keeps s port _ (fun hup => hstate.trans hup) fun hroom => hqueue ▸ hroom⟩
    case localTrimStep axis step => exact ⟨_, rfl, localStepArrives_keeps s axis step⟩
    case trpPinChange pin level at_ => exact ⟨_, rfl, (tick_keeps s at_).trans (pinChanges_keeps _ pin level)⟩
    case filterRunEnd pin => exact ⟨_, rfl, filterEnds_keeps s pin⟩
    case keepaliveWindowExpiry => exact ⟨_, rfl, windowEnds_keeps s⟩
    case triggerIssue => exact ⟨_, rfl, triggerComes_keeps s⟩
    case lineMessage bytes => exact ⟨_, rfl, lineMessage_keeps s bytes⟩
    case lineWriteEnd map => exact ⟨_, rfl, endWrite_keeps s map⟩
    case panelMessage at_ bytes => exact ⟨_, rfl, (tick_keeps s at_).trans (panelMessage_keeps _ bytes)⟩
    case panelTimerExpiry => exact ⟨_, rfl, panelExpires_keeps s⟩
    case tileMessageEnd => exact ⟨_, rfl, tileSent_keeps s⟩
    case shortLossOfLock side => exact ⟨_, rfl, shortLoss_keeps s side⟩
    all_goals exact absurd hr (Option.some_ne_none _)

/-- No invariant speaks of the queue of commands. -/
theorem pending_keeps (s : State) (q : List Instr) : Keeps [] s { s with pending := q } := by
  intro l _ h
  cases l <;> exact h

theorem step_keeps {s t : State} (h : step s = .next t) : Keeps [] s t := by
  cases hq : s.pending with
  | nil =>
    cases (step_of_nil hq).symm.trans h
    exact Keeps.refl [] s
  | cons c rest =>
    obtain ⟨u, hu, hkeeps⟩ := exec_keeps c { s with pending := rest }
    cases hu.symm.trans ((step_of_cons hq).symm.trans h)
    exact (pending_keeps s rest).trans hkeeps

/-- Settles O58. -/
theorem everyStepKeepsTheInvariants : Obligations.EveryStepKeepsTheInvariants :=
  fun l _ _ hl h => step_keeps h l List.not_mem_nil hl

/-- Settles O60: the pages of the reset state are empty, and empty pages are in canonical form. -/
theorem invariantsHoldAtReset : Obligations.InvariantsHoldAtReset :=
  fun l => resetState_holds .powerOn 0 { master := false, id := 0 } 0 false [] 0 [] l fun _ => by decide

/-- R44's sentence is the law `safe`, with the two running states named in the other order. -/
theorem axesSafe_iff (s : State) :
    AxesSafe s ↔ ∀ i : Fin 16, (s.axis i).state = .coupled ∨ (s.axis i).state = .catching →
      (∃ b, (s.axis i).binding = some b ∧ (s.port b.1).state = .up) ∧ s.trips.effective ≠ .stopFast
        ∧ s.angle.state ≠ .none ∧ s.angle.state ≠ .lost :=
  forall_congr' fun _ => imp_congr_left Or.comm

/-- Settles O59: the law `safe` at reset and along a step. -/
theorem noAxisRunsWithoutPortClassAndAngle : Obligations.NoAxisRunsWithoutPortClassAndAngle :=
  ⟨(axesSafe_iff _).mp (invariantsHoldAtReset .safe),
    fun _ _ hs h => (axesSafe_iff _).mp (everyStepKeepsTheInvariants .safe _ _ ((axesSafe_iff _).mpr hs) h)⟩

end Sys2Proof.Machine
end

section
/-! Proofs. How a request row ends at the port that works it, and the axis requests (chapter 2): R25, R35 to R43. -/

namespace Sys2Proof.Machine

/-! ## The end of a request row (R165) -/

/-- A request row ends: the state after the work, its answer noted. -/
def endRow (w : State × Answer) : Host.Outcome State Fault Refusal := .next (w.1.note w.2)

/-- At a port that works its request, a row ends with what the work gave. -/
theorem exec_of_working {c : Instr} {r : Request} {s : State} (hr : requestOf c = some r) (hw : s.working r = true) :
    exec c s = endRow (workRequest r (clockOf c s)) :=
  (requestRowActsOnTheRequestInProgress c r hr s).2.2 hw

@[simp] theorem endRow_taken (s : State) : endRow (taken s) = s.replies .ok := rfl
@[simp] theorem endRow_answered (s : State) (body : List Byte) : endRow (answered s body) = s.replies .ok body := rfl
@[simp] theorem endRow_refuse (s : State) (status : Status) : endRow (refuse s status) = s.replies status := rfl

@[simp] theorem endRow_ite (c : Prop) [Decidable c] (w x : State × Answer) :
    endRow (if c then w else x) = if c then endRow w else endRow x := apply_ite endRow c w x

/-! ## Indices and axis records -/

theorem finOfNat_of_lt {n k : Nat} [NeZero n] (h : k < n) : Fin.ofNat n k = ⟨k, h⟩ := Fin.ext (Nat.mod_eq_of_lt h)

theorem finOfNat_val {n : Nat} [NeZero n] (i : Fin n) : Fin.ofNat n i.val = i := finOfNat_of_lt i.isLt

theorem axisNumbers_any_iff (p : Fin 16 → Prop) [DecidablePred p] :
    axisNumbers.any (fun i => decide (p i)) = true ↔ ∃ i, p i := by
  simp [mem_axisNumbers]

theorem setAxis_setAxis (s : State) (i : Fin 16) (a b : Axis) : (s.setAxis i a).setAxis i b = s.setAxis i b := by
  simp [State.setAxis]

/-! ## Clamps (section 0.5) and the trim target (R38) -/

theorem clampTo_eq_ite (m : Nat) (x : Int) : clampTo m x = if x < -(m : Int) then -(m : Int) else if (m : Int) < x then (m : Int) else x := by
  unfold clampTo
  split
  · omega
  · split <;> omega

/-- A write of the trim target: clamped, and a clamp that changed the value posts its notice. -/
theorem writeTrim_eq (s : State) (i : Fin 16) (value : Int) (writer : TrimWriter) :
    s.writeTrim i value writer =
      if clampTo (s.axis i).trimLimit value = value then s.setAxis i { s.axis i with t := clampTo (s.axis i).trimLimit value }
      else (s.setAxis i { s.axis i with t := clampTo (s.axis i).trimLimit value }).post
        (.trimLimit i (clampTo (s.axis i).trimLimit value) (s.axis i).trimLimit writer) := by
  simp only [State.writeTrim, State.postTrimLimit, setAxis_axis, ite_not, ne_eq]

/-! ## SET_AXIS (R25) -/

theorem axisFieldsOk_iff (f : AxisFields) :
    axisFieldsOk f = true ↔
      f.axis < 16 ∧ (∀ b, f.binding = some b → b.1 < 4 ∧ b.2 < 4) ∧ 1 ≤ f.slew ∧ f.slew ≤ 65535 ∧ f.trimLimit ≤ 1048575
        ∧ 1 ≤ f.catchLimit ∧ f.catchLimit ≤ 8388607 ∧ f.followLimit ≤ 8388607 := by
  simp only [axisFieldsOk, Bool.and_eq_true, decide_eq_true_eq, Option.all_eq_true]
  tauto

theorem workSetAxis_of_not_ok {f : AxisFields} {s : State} (h : ¬axisFieldsOk f = true) : workSetAxis f s = refuse s .range := by
  rw [workSetAxis, if_neg h]

theorem bindingOf_map (b : Option (Fin 4 × Fin 4)) : bindingOf (b.map fun x => (x.1.val, x.2.val)) = b := by
  cases b with
  | none => rfl
  | some x => simp [bindingOf]

/-- Settles O14, by the range check and then the two checks on the binding. -/
theorem setAxisChecksThenStores : Obligations.SetAxisChecksThenStores := by
  intro s f hw
  rw [exec_of_working (c := .setAxis f) rfl hw]
  change (_ → endRow (workSetAxis f s) = _) ∧ ∀ _ _, _ → _ → _ → _ → _ → _ → _ → _ → endRow (workSetAxis f s) = _
  refine ⟨fun hbad => ?range, fun i binding hi hb hs1 hs2 ht hc1 hc2 hf => ?stored⟩
  case range => rw [workSetAxis_of_not_ok (mt (axisFieldsOk_iff f).mp hbad), endRow_refuse]
  case stored =>
    have hbounds : ∀ b, f.binding = some b → b.1 < 4 ∧ b.2 < 4 := by
      rw [hb]
      cases binding with
      | none => simp
      | some x => simp [x.1.isLt, x.2.isLt]
    have hok : axisFieldsOk f = true := (axisFieldsOk_iff f).mpr ⟨hi ▸ i.isLt, hbounds, hs1, hs2, ht, hc1, hc2, hf⟩
    have hbinding : bindingOf f.binding = binding := hb ▸ bindingOf_map binding
    have hindex : Fin.ofNat 16 f.axis = i := hi ▸ finOfNat_val i
    have hconflict : (binding.isSome = true ∧ axisNumbers.any (fun j => decide (j ≠ i ∧ (s.axis j).binding = binding)) = true)
        ↔ (binding ≠ none ∧ ∃ j, j ≠ i ∧ (s.axis j).binding = binding) := by
      rw [axisNumbers_any_iff fun j => j ≠ i ∧ (s.axis j).binding = binding, Option.isSome_iff_ne_none]
    rw [workSetAxis, if_pos hok]
    simp only [hbinding, hindex, hconflict, writeTrim_eq, setAxis_axis, setAxis_setAxis, clampTo_eq_ite, ite_not, ne_eq]
    split_ifs <;> rfl

/-! ## GEAR_CHANGE, SET_PHASE and SET_TRIM (R35 to R38) -/

theorem gearFieldsOk_iff (f : GearFields) : gearFieldsOk f = true ↔ f.axis < 16 ∧ f.d ≠ 0 := decide_eq_true_iff

/-- Settles O15. -/
theorem gearChangeStagesOrJumps : Obligations.GearChangeStagesOrJumps := by
  intro s f
  refine ⟨fun hw => ?smooth, fun hw => ?jump⟩
  case smooth =>
    rw [exec_of_working (c := .gearChangeSmooth f) rfl hw]
    change endRow (workGearChangeSmooth f s) = _
    simp only [workGearChangeSmooth, gearFieldsOk_iff]
    by_cases h : f.axis < 16
    · rw [dif_pos h, finOfNat_of_lt h]
      by_cases hd : f.d = 0
      · rw [if_neg (fun hall => hall.2 hd), if_pos hd, endRow_refuse]
      · rw [if_pos ⟨h, hd⟩, if_neg hd, endRow_taken]
    · rw [if_neg (fun hall => h hall.1), dif_neg h, endRow_refuse]
  case jump =>
    rw [exec_of_working (c := .gearChangeJump f) rfl hw]
    change endRow (workGearChangeJump f s) = _
    simp only [workGearChangeJump, gearFieldsOk_iff]
    by_cases h : f.axis < 16
    · rw [dif_pos h, finOfNat_of_lt h]
      by_cases hd : f.d = 0
      · rw [if_neg (fun hall => hall.2 hd), if_pos hd, endRow_refuse]
      · rw [if_pos ⟨h, hd⟩, if_neg hd, ite_not]
        split_ifs <;> rfl
    · rw [if_neg (fun hall => h hall.1), dif_neg h, endRow_refuse]

theorem workAxis_of_free {s : State} {i : Fin 16} (delta : Int) (engaged : Bool) (h : (s.axis i).state = .free) :
    s.workAxis i delta engaged = s := if_pos h

theorem correction_of_inhibited {a : Axis} (h : a.state = .inhibited) : a.correction = a.c := by
  simp [Axis.correction, Axis.engaged, h]

/-- Settles O16, by the range check of SET_PHASE and the clamp of SET_TRIM. -/
theorem phaseAndTrimTargets : Obligations.PhaseAndTrimTargets := by
  refine ⟨⟨fun s f hw => ?phase, fun _ => rfl, fun _ => correction_of_inhibited, fun _ _ delta engaged => workAxis_of_free delta engaged⟩,
    fun s f hw => ?trim⟩
  case phase =>
    rw [exec_of_working (c := .setPhase f) rfl hw]
    change endRow (workSetPhase f s) = _
    rw [workSetPhase]
    by_cases h : f.axis < 16
    · by_cases hrange : f.value < -8388607 ∨ 8388607 < f.value
      · rw [if_neg (by omega), dif_pos h, if_pos hrange, endRow_refuse]
      · rw [if_pos ⟨h, by omega⟩, dif_pos h, if_neg hrange, finOfNat_of_lt h, endRow_taken]
    · rw [if_neg (fun hall => h hall.1), dif_neg h, endRow_refuse]
  case trim =>
    rw [exec_of_working (c := .setTrim f) rfl hw]
    change endRow (workSetTrim f s) = _
    rw [workSetTrim]
    by_cases h : f.axis < 16
    · rw [if_pos h, dif_pos h, finOfNat_of_lt h, endRow_taken, writeTrim_eq]
      simp only [clampTo_eq_ite]
      split_ifs <;> first | rfl | omega
    · rw [if_neg h, dif_neg h, endRow_refuse]

/-! ## COUPLE and RELEASE (R42, R43) -/

theorem readyToCouple_iff (s : State) (i : Fin 16) :
    s.readyToCouple i = true ↔
      (∃ b, (s.axis i).binding = some b ∧ (s.port b.1).state = .up) ∧ (s.axis i).fresh = true ∧ s.angle.state = .tracking := by
  unfold State.readyToCouple
  cases (s.axis i).binding with
  | none => simp
  | some b => simp [and_assoc]

/-- Settles O17, check by check. -/
theorem coupleChecksThenCatches : Obligations.CoupleChecksThenCatches := by
  intro s axis hw
  rw [exec_of_working (c := .couple axis) rfl hw]
  change endRow (workCouple axis s) = _
  rw [workCouple]
  by_cases h : axis < 16
  · have hlimit (m : Nat) (x : Int) : m < x.natAbs ↔ (m : Int) < x ∨ x < -(m : Int) := by omega
    rw [if_pos h, dif_pos h, finOfNat_of_lt h]
    simp only [Axis.engaged_iff, ← Bool.not_eq_true, readyToCouple_iff, sdiff, hlimit, State.postAxisState, setAxis_axis]
    split_ifs <;> rfl
  · rw [if_neg h, dif_neg h, endRow_refuse]

/-- Settles O18. -/
theorem releaseFreesTheAxis : Obligations.ReleaseFreesTheAxis := by
  refine ⟨fun s axis hw => ?release, fun a sub h => ?entry, fun _ _ delta engaged => workAxis_of_free delta engaged⟩
  case release =>
    rw [exec_of_working (c := .release axis) rfl hw]
    change endRow (workRelease axis s) = _
    rw [workRelease]
    by_cases h : axis < 16
    · rw [if_pos h, dif_pos h, finOfNat_of_lt h]
      simp only [State.postAxisState, setAxis_axis]
      split_ifs <;> rfl
    · rw [if_neg h, dif_neg h, endRow_refuse]
  case entry => simp [Axis.entry, Axis.engaged, h]

end Sys2Proof.Machine
end

section
/-! Proofs. The gearing arithmetic (chapter 2): R27 to R33, and trim steps reaching an axis (R39, R40). -/

namespace Sys2Proof.Machine

/-! ## The geared increment (R29) -/

/-- q is the greatest integer not above x / D. -/
theorem gearedIncrement_bounds {a : Axis} (hd : 0 < a.d) (delta : Int) :
    a.gearedIncrement delta * a.d ≤ a.gearInput delta ∧ a.gearInput delta < (a.gearedIncrement delta + 1) * a.d := by
  have hd' : (0 : Int) < a.d := by exact_mod_cast hd
  exact ⟨Int.ediv_mul_le _ hd'.ne', Int.lt_ediv_add_one_mul_self _ hd'⟩

/-- The new remainder is exactly what the quotient leaves. -/
theorem gear_r_eq {a : Axis} (hd : 0 < a.d) (delta : Int) :
    ((a.gear delta).r : Int) = a.gearInput delta - a.gearedIncrement delta * a.d :=
  Int.toNat_of_nonneg (sub_nonneg.mpr (gearedIncrement_bounds hd delta).1)

/-- No increment gears to none: the remainder alone is below D. -/
theorem gearedIncrement_zero {a : Axis} (h : a.r < a.d) : a.gearedIncrement 0 = 0 := by
  have hx : a.gearInput 0 = a.r := by simp [Axis.gearInput]
  rw [Axis.gearedIncrement, hx]
  exact Int.ediv_eq_zero_of_lt (Int.natCast_nonneg _) (by exact_mod_cast h)

theorem gear_zero {a : Axis} (h : a.r < a.d) : a.gear 0 = a := by
  simp [Axis.gear, gearedIncrement_zero h, Axis.gearInput, Angle.plus]

/-- For the increments an update can carry x stays inside 40 bits. -/
theorem gearInput_bounds {a : Axis} {delta : Int} (hr : a.r < a.d) (hl : -8388608 ≤ delta) (hu : delta ≤ 8388608)
    (hnl : -32768 ≤ a.n) (hnu : a.n ≤ 32768) (hd : a.d ≤ 65536) :
    -(2 ^ 38 + 2 ^ 16) < a.gearInput delta ∧ a.gearInput delta < 2 ^ 38 + 2 ^ 16 := by
  have hprod : |delta * a.n| ≤ 2 ^ 38 := calc
    |delta * a.n| = |delta| * |a.n| := abs_mul _ _
    _ ≤ 8388608 * 32768 := mul_le_mul (abs_le.mpr ⟨hl, hu⟩) (abs_le.mpr ⟨hnl, hnu⟩) (abs_nonneg _) (by norm_num)
    _ = 2 ^ 38 := by norm_num
  obtain ⟨hlow, hhigh⟩ := abs_le.mp hprod
  unfold Axis.gearInput
  omega

/-- One update under a ratio: what q adds, less what the remainder gives up, is N times the increment. -/
theorem gear_balance {a : Axis} (hd : 0 < a.d) (delta : Int) :
    (a.d : Int) * a.gearedIncrement delta + ((a.gear delta).r - a.r) = a.n * delta := by
  rw [gear_r_eq hd, Axis.gearInput]
  ring

/-- A run of updates under one ratio, with the sum of its increments. -/
def gearRun (start : Axis × Int) (deltas : List Int) : Axis × Int :=
  deltas.foldl (fun y delta => (y.1.gear delta, y.2 + y.1.gearedIncrement delta)) start

theorem gearRun_cons (start : Axis × Int) (delta : Int) (deltas : List Int) :
    gearRun start (delta :: deltas) = gearRun (start.1.gear delta, start.2 + start.1.gearedIncrement delta) deltas := rfl

/-- The balance of a run, from any sum. -/
theorem gearRun_balance {a : Axis} (h : a.r < a.d) (sum : Int) (deltas : List Int) :
    (a.d : Int) * ((gearRun (a, sum) deltas).2 - sum) + ((gearRun (a, sum) deltas).1.r - a.r) = a.n * deltas.sum
      ∧ (gearRun (a, sum) deltas).1.r < a.d := by
  induction deltas generalizing a sum with
  | nil => exact ⟨by simp [gearRun], h⟩
  | cons delta deltas ih =>
    have hd : 0 < a.d := Nat.zero_lt_of_lt h
    have hstep := gear_balance hd delta
    obtain ⟨hrest, hlt⟩ := ih (a := a.gear delta) (Axis.gear_r a delta hd).2 (sum + a.gearedIncrement delta)
    rw [gearRun_cons]
    refine ⟨?_, hlt⟩
    rw [List.sum_cons, mul_add, ← hstep]
    have hrest' : (a.d : Int) * ((gearRun (a.gear delta, sum + a.gearedIncrement delta) deltas).2 - (sum + a.gearedIncrement delta))
        + ((gearRun (a.gear delta, sum + a.gearedIncrement delta) deltas).1.r - (a.gear delta).r) = a.n * deltas.sum := hrest
    rw [← hrest']
    ring

/-- Settles O19, by the balance of one update and its induction over the run. -/
theorem gearingIsExact : Obligations.GearingIsExact := by
  intro a h
  have hd : 0 < a.d := Nat.zero_lt_of_lt h
  refine ⟨fun delta => ⟨gearedIncrement_bounds hd delta, gear_r_eq hd delta, (Axis.gear_r a delta hd).2, rfl, rfl, rfl,
    fun _ => ⟨gearedIncrement_zero h, gear_zero h⟩, gearInput_bounds h⟩, fun deltas => ?_⟩
  have hrun := gearRun_balance h 0 deltas
  rw [Int.sub_zero] at hrun
  exact hrun

/-! ## The correction (R30) -/

theorem slewToward_near {c goal : Int} {slew : Nat} (h : (goal - c).natAbs ≤ slew) : slewToward c goal slew = goal := if_pos h

theorem slewToward_up {c goal : Int} {slew : Nat} (h : slew < (goal - c).natAbs) (hup : c < goal) :
    slewToward c goal slew = c + slew := by
  rw [slewToward, if_neg (Nat.not_le.mpr h), if_pos hup]

theorem slewToward_down {c goal : Int} {slew : Nat} (h : slew < (goal - c).natAbs) (hdown : goal < c) :
    slewToward c goal slew = c - slew := by
  rw [slewToward, if_neg (Nat.not_le.mpr h), if_neg (Int.not_lt.mpr hdown.le)]

theorem slewToward_step_le (c goal : Int) (slew : Nat) : (slewToward c goal slew - c).natAbs ≤ slew := by
  unfold slewToward
  split_ifs <;> omega

theorem correction_of_engaged {a : Axis} (h : a.state = .catching ∨ a.state = .coupled) :
    a.correction = slewToward a.c a.goal a.slew := if_pos ((Axis.engaged_iff a).mpr h)

/-- Settles O20, by the three cases of the slew. -/
theorem correctionSlewsTowardItsGoal : Obligations.CorrectionSlewsTowardItsGoal := by
  intro a k
  refine ⟨fun h => ?_, correction_of_inhibited⟩
  rw [correction_of_engaged h]
  exact ⟨slewToward_near, slewToward_up, slewToward_down, slewToward_step_le a.c a.goal a.slew⟩

/-! ## The work of one update (R27, R28, R31 to R33) -/

theorem takeStaged_eq (a : Axis) :
    a.takeStaged = match a.staged with
      | none => a
      | some x => { a with r := a.r * x.2 / a.d, n := x.1, d := x.2, staged := none } := by
  unfold Axis.takeStaged
  cases a.staged <;> rfl

/-- Taking a staged ratio leaves the fields the check of R33 and the slew of R30 read. -/
theorem takeStaged_fields (a : Axis) :
    a.takeStaged.followLimit = a.followLimit ∧ a.takeStaged.fresh = a.fresh ∧ a.takeStaged.s = a.s ∧ a.takeStaged.f = a.f
      ∧ a.takeStaged.followCount = a.followCount ∧ a.takeStaged.c = a.c := by
  unfold Axis.takeStaged
  cases a.staged <;> exact ⟨rfl, rfl, rfl, rfl, rfl, rfl⟩

theorem followed_eq (a : Axis) (engaged : Bool) :
    a.followed engaged =
      if engaged = true ∧ a.followLimit ≠ 0 ∧ a.fresh = true then
        if a.followLimit < ((a.s - a.f).toInt).natAbs then min (a.followCount + 1) 3 else 0
      else a.followCount := by
  unfold Axis.followed sdiff
  simp only [Bool.and_eq_true, decide_eq_true_eq, and_assoc]

theorem followed_congr {a b : Axis} (engaged : Bool)
    (h : a.followLimit = b.followLimit ∧ a.fresh = b.fresh ∧ a.s = b.s ∧ a.f = b.f ∧ a.followCount = b.followCount) :
    a.followed engaged = b.followed engaged := by
  obtain ⟨hlimit, hfresh, hs, hf, hcount⟩ := h
  rw [followed_eq, followed_eq, hlimit, hfresh, hs, hf, hcount]

/-- Settles O21: the record after the work, field by field, then the notice of a finished catch. -/
theorem axisWorkAtOneUpdate : Obligations.AxisWorkAtOneUpdate := by
  intro s i delta engaged hfree a b q c count state t
  have hb : a.takeStaged = b := takeStaged_eq a
  obtain ⟨hstate, hbinding⟩ := Axis.takeStaged_state a
  obtain ⟨hlimit, hfresh, hs, hf, hcount, hc⟩ := takeStaged_fields a
  rw [hb] at hstate hbinding hlimit hfresh hs hf hcount hc
  have hfollowed : (b.gear delta).followed engaged = count :=
    (followed_congr engaged ⟨hlimit, hfresh, hs, hf, hcount⟩).trans (followed_eq a engaged)
  have hgearState : (b.gear delta).state = a.state := hstate
  have hgearC : (b.gear delta).c = a.c := hc
  have hgoal : (b.gear delta).goal = b.goal := rfl
  have hworked : a.worked delta engaged =
      { b.gear delta with
        c := c, followCount := count, s := (b.gear delta).g + BitVec.ofInt 24 c, v := max (-8388607) (min 8388607 (q + (c - a.c)))
        state := state } := by
    unfold Axis.worked
    rw [hb]
    simp only [hfollowed, hgearState, hgearC, hgoal]
    rfl
  rw [State.workAxis, if_neg hfree]
  change (if a.state = .catching ∧ (a.worked delta engaged).state = .coupled then
    (s.setAxis i (a.worked delta engaged)).postAxisState i .catchDone else s.setAxis i (a.worked delta engaged)) = _
  rw [hworked]
  change (if a.state = .catching ∧ state = .coupled then t.postAxisState i .catchDone else t) = _
  by_cases hcaught : a.state = .catching ∧ state = .coupled
  · rw [if_pos hcaught, if_pos hcaught, State.postAxisState, setAxis_axis]
    change t.post (.axisState i state .catchDone b.binding) = _
    rw [hcaught.2, hbinding]
  · rw [if_neg hcaught, if_neg hcaught]

/-! ## Trim steps reach their axis (R39, R40) -/

theorem localSteps_axis (s : State) (l : List (Fin 16 × Int)) (i : Fin 16) :
    ({ s with localSteps := l } : State).axis i = s.axis i := rfl

theorem localStepArrives_eq (s : State) (i : Fin 16) (step : Int) :
    s.localStepArrives i step =
      if (i, step) ∈ s.localSteps then
        ({ s with localSteps := s.localSteps.erase (i, step) } : State).takeTrimStep i step .localStep
      else s := by
  simp only [State.localStepArrives, List.contains_iff_mem]

theorem deliverTrimStep_stray {s : State} {payload : List Byte} (h : 15 < (byteAt payload 0).toNat) :
    s.deliverTrimStep payload = { s with straySteps := min (s.straySteps + 1) 65535 } :=
  dif_neg (by omega)

theorem deliverTrimStep_of_axis {s : State} {payload : List Byte} {i : Fin 16} (h : (byteAt payload 0).toNat = i.val) :
    s.deliverTrimStep payload =
      if (s.axis i).accept = true then s.takeTrimStep i (signed24At payload 1) .remoteStep
      else s.setAxis i { s.axis i with refused := bump (s.axis i).refused } := by
  have hi : (⟨(byteAt payload 0).toNat, h ▸ i.isLt⟩ : Fin 16) = i := Fin.ext h
  rw [State.deliverTrimStep, dif_pos (h ▸ i.isLt), hi]

/-- Settles O22, by the one lemma on a trim step for either writer. -/
theorem localTrimStepReachesItsAxis : Obligations.LocalTrimStepReachesItsAxis := by
  refine ⟨fun s i step => ?own, fun s payload => ⟨deliverTrimStep_stray, fun i h => ?remote⟩⟩
  case own =>
    rw [exec_localTrimStep, localStepArrives_eq]
    by_cases hmem : (i, step) ∈ s.localSteps
    · rw [if_pos hmem, if_pos hmem, takeTrimStep_eq]
      simp only [localSteps_axis]
      rw [← apply_ite Host.Outcome.next]
      rfl
    · rw [if_neg hmem, if_neg hmem]
  case remote =>
    rw [deliverTrimStep_of_axis h, takeTrimStep_eq]
    cases haccept : (s.axis i).accept with
    | false =>
      rw [if_neg Bool.false_ne_true]
      exact (if_pos haccept).symm
    | true =>
      rw [if_pos rfl]
      exact (if_neg (Bool.eq_false_iff.not_left.mpr haccept)).symm

end Sys2Proof.Machine
end

section
/-! Proofs. Drive ports (chapter 3): the requests of a port (R51 to R53, R61, R64), telegrams in and out (R50, R54, R55, R64), and the
drain of an update (R56 to R59, R65). -/

namespace Sys2Proof.Machine

/-! ## SET_PORT (R51 to R53) -/

theorem portFieldsOk_iff (f : PortFields) :
    portFieldsOk f = true ↔ f.port < 4 ∧ f.divider ≤ 255 ∧ 1 ≤ f.missLimit ∧ f.missLimit ≤ 15 := by
  simp [portFieldsOk, and_assoc]

theorem isMaster_iff (s : State) : s.isMaster = true ↔ s.angle.role = .master := decide_eq_true_iff

theorem feasible_iff (n tu : Nat) : feasible n tu = true ↔ 560 * 40 * (n + 1) + 4000 ≤ tu := decide_eq_true_iff

theorem dividerFits_iff (s : State) (n : Nat) :
    s.dividerFits n = true ↔
      560 * 40 * (n + 1) + 4000 ≤ s.angle.period.ns / s.angle.k
        ∧ (s.angle.role = .master → ∀ p, s.master.pendingPeriod = some p →
          560 * 40 * (n + 1) + 4000 ≤ p.ns / s.angle.k) := by
  simp only [State.dividerFits, Bool.and_eq_true, Bool.or_eq_true, Bool.not_eq_true', Option.all_eq_true, feasible_iff,
    ← isMaster_iff, updateInterval]
  cases s.isMaster <;> simp only [reduceCtorEq, false_implies, true_implies, true_or, false_or]

theorem setPort_setPort (s : State) (i : Fin 4) (a b : DrivePort) : (s.setPort i a).setPort i b = s.setPort i b := by
  simp [State.setPort]

@[simp] theorem post_port (s : State) (n : Notice) (p : Fin 4) : (s.post n).port p = s.port p := rfl

theorem workSetPortEnable_of_not_ok {f : PortFields} {s : State} (h : ¬portFieldsOk f = true) :
    workSetPortEnable f s = refuse s .range := if_neg h

theorem workSetPortDisable_of_not_ok {f : PortFields} {s : State} (h : ¬portFieldsOk f = true) :
    workSetPortDisable f s = refuse s .range := if_neg h

/-- Settles O23: the checks of R51 and R53 in order, and R52 by the state the port leaves. -/
theorem setPortEnablesAndDisables : Obligations.SetPortEnablesAndDisables := by
  intro s f
  refine ⟨fun hw => ?enable, fun hw => ?disable⟩
  case enable =>
    rw [exec_of_working (c := .setPortEnable f) rfl hw]
    change endRow (workSetPortEnable f s) = _
    by_cases hok : portFieldsOk f = true
    · obtain ⟨h, hfields⟩ := (portFieldsOk_iff f).mp hok
      rw [workSetPortEnable, if_pos hok, dif_pos h, finOfNat_of_lt h]
      simp only [← Bool.not_eq_true, dividerFits_iff, State.postPortState, setPort_port, not_not_intro hfields, if_false]
      by_cases hoff : (s.port ⟨f.port, h⟩).state = .off
      · simp only [hoff, ne_eq, not_true_eq_false, false_and, if_false]
        split_ifs <;> rfl
      · simp only [hoff, ne_eq, not_false_eq_true, true_and, if_true]
        split_ifs <;> rfl
    · rw [workSetPortEnable_of_not_ok hok, endRow_refuse]
      rw [portFieldsOk_iff] at hok
      by_cases h : f.port < 4
      · rw [dif_pos h]
        exact (if_pos fun hfields => hok ⟨h, hfields⟩).symm
      · rw [dif_neg h]
  case disable =>
    rw [exec_of_working (c := .setPortDisable f) rfl hw]
    change endRow (workSetPortDisable f s) = _
    by_cases hok : portFieldsOk f = true
    · obtain ⟨h, hfields⟩ := (portFieldsOk_iff f).mp hok
      rw [workSetPortDisable, if_pos hok, dif_pos h, finOfNat_of_lt h]
      simp only [not_not_intro hfields, if_false, endRow_taken, State.portOff, State.postPortState, State.postServiceReply,
        setPort_port, setPort_setPort]
      by_cases hslot : (s.port ⟨f.port, h⟩).slot = .empty
      · cases hstate : (s.port ⟨f.port, h⟩).state <;> simp only [hslot, if_true, reduceCtorEq, if_false, setPort_port] <;> rfl
      · cases hstate : (s.port ⟨f.port, h⟩).state <;> simp only [hslot, if_true, reduceCtorEq, if_false, post_port, setPort_port] <;> rfl
    · rw [workSetPortDisable_of_not_ok hok, endRow_refuse]
      rw [portFieldsOk_iff] at hok
      by_cases h : f.port < 4
      · rw [dif_pos h]
        exact (if_pos fun hfields => hok ⟨h, hfields⟩).symm
      · rw [dif_neg h]

/-! ## RESET_PORT and PORT_SERVICE (R61, R64) -/

theorem workResetPort_of_lt {port : Nat} {s : State} (h : port < 4) :
    workResetPort port s =
      if (s.port ⟨port, h⟩).state ≠ .fault then refuse s .state
      else
        taken (((s.setPort ⟨port, h⟩
            { s.port ⟨port, h⟩ with
              state := .linking, reason := .none, place := none, missCount := 0, linkCount := 0, queue := [], stopped := false }).post
          (.portState ⟨port, h⟩ .linking .none none 0)).setCondition (portSource ⟨port, h⟩) false) := by
  rw [workResetPort, if_pos h, finOfNat_of_lt h, ite_not]
  simp only [State.postPortState, setPort_port]

theorem workPortService_of_lt {f : ServiceFields} {s : State} (hp : f.port < 4) (hsub : f.sub < 4) :
    workPortService f s =
      if f.payload = [] ∨ 32 < f.payload.length then refuse s .range
      else if (s.port ⟨f.port, hp⟩).state = .off then refuse s .state
      else if (s.port ⟨f.port, hp⟩).slot ≠ .empty then refuse s .busy
      else
        taken (s.setPort ⟨f.port, hp⟩
          { s.port ⟨f.port, hp⟩ with slot := .waiting, service := some (⟨f.sub, hsub⟩, f.payload), serviceWait := 0 }) := by
  rw [workPortService, finOfNat_of_lt hp, finOfNat_of_lt hsub]
  by_cases hlength : f.payload = [] ∨ 32 < f.payload.length
  · rw [if_pos hlength, if_neg]
    rintro ⟨-, -, hleast, hmost⟩
    exact hlength.elim (fun hnil => by simp [hnil] at hleast) (Nat.not_lt.mpr hmost)
  · obtain ⟨hne, hmost⟩ := not_or.mp hlength
    rw [if_neg hlength, if_pos ⟨hp, hsub, List.length_pos_iff.mpr hne, Nat.not_lt.mp hmost⟩]

/-- Settles O24. -/
theorem resetPortAndPortService : Obligations.ResetPortAndPortService := by
  refine ⟨fun s port hw => ?reset, fun s f hw => ?service⟩
  case reset =>
    rw [exec_of_working (c := .resetPort port) rfl hw]
    change endRow (workResetPort port s) = _
    by_cases h : port < 4
    · rw [workResetPort_of_lt h, dif_pos h, endRow_ite, endRow_refuse, endRow_taken]
    · rw [workResetPort, if_neg h, dif_neg h, endRow_refuse]
  case service =>
    rw [exec_of_working (c := .portService f) rfl hw]
    change endRow (workPortService f s) = _
    by_cases h : f.port < 4 ∧ f.sub < 4
    · rw [workPortService_of_lt h.1 h.2, dif_pos h]
      simp only [endRow_ite, endRow_refuse, endRow_taken]
    · rw [workPortService, if_neg (fun hall => h ⟨hall.1, hall.2.1⟩), dif_neg h, endRow_refuse]

/-! ## Received telegrams (R50, R55) -/

theorem receive_of_ignored {r : DrivePort} {chars : List DriveChar} (h : r.state = .off ∨ closeTelegram chars = none) :
    r.receive chars = r := by
  unfold DrivePort.receive
  by_cases hoff : r.state = .off
  · rw [if_pos hoff]
  · rw [if_neg hoff, h.resolve_left hoff]

theorem receive_of_closed {r : DrivePort} {chars : List DriveChar} {x : RxTelegram} (hoff : r.state ≠ .off)
    (h : closeTelegram chars = some x) : r.receive chars = r.takeTelegram x := by
  rw [DrivePort.receive, if_neg hoff, h]

theorem closeTelegram_of_other {first : DriveChar} (rest : List DriveChar) (h2 : first.byte ≠ 0xA2) (h4 : first.byte ≠ 0xA4) :
    closeTelegram (first :: rest) = none := by
  simp only [closeTelegram, rxKindOf, if_neg h2, if_neg h4, Option.map_none]

theorem any_not_stopOk_iff (l : List DriveChar) : l.any (fun c => !c.stopOk) = true ↔ ∃ c ∈ l, c.stopOk = false := by
  simp

theorem closeTelegram_of_kind {first : DriveChar} {kind : RxKind} (rest : List DriveChar) (h : rxKindOf first.byte = some kind) :
    closeTelegram (first :: rest) =
      some
        { kind := kind, bytes := ((first :: rest).take 36).map (·.byte)
          mark :=
            if ∃ c ∈ (first :: rest).take 36, c.stopOk = false then .framing
            else if telegramLengthBad kind (((first :: rest).take 36).map (·.byte)) (first :: rest).length then .length
            else if crc16Good (((first :: rest).take 36).map (·.byte)) then .good
            else .crc } := by
  simp only [closeTelegram, h, Option.map_some, any_not_stopOk_iff]

/-! ## Sent telegrams (R34, R54, R64) -/

theorem mem_boundAxes_iff (s : State) (p sub : Fin 4) (i : Fin 16) : (sub, i) ∈ s.boundAxes p ↔ s.boundAxis p sub = some i := by
  simp [State.boundAxes, mem_portNumbers]

theorem boundAxes_subs_sorted (s : State) (p : Fin 4) : ((s.boundAxes p).map (·.1)).Pairwise (· < ·) := by
  have hsorted : portNumbers.Pairwise (· < ·) := by decide
  refine List.pairwise_map.mpr (List.Pairwise.filterMap _ (fun sub sub' hlt x hx y hy => ?_) hsorted)
  obtain ⟨i, -, rfl⟩ := Option.map_eq_some_iff.mp hx
  obtain ⟨j, -, rfl⟩ := Option.map_eq_some_iff.mp hy
  exact hlt

theorem transmitterEnd_eq (r : DrivePort) :
    r.transmitterEnd =
      match r.transmitter, r.waitingSetpoint with
      | [_], some es =>
        { r with
          transmitter := [encodeSetpoint es], sentList := es.map (·.sub), waitingSetpoint := none
          counters := { r.counters with sent := min (r.counters.sent + 1) 65535 } }
      | sending, _ => { r with transmitter := sending.tail } := by
  unfold DrivePort.transmitterEnd
  rcases htx : r.transmitter with _ | ⟨x, _ | ⟨y, rest⟩⟩ <;> rcases hwait : r.waitingSetpoint with _ | es <;> rfl

theorem setpoint_entries (s : State) (p : Fin 4) :
    (s.port p).setpoint ((s.boundAxes p).map fun x => (s.axis x.2).entry x.1) =
      (s.boundAxes p).map fun x =>
        let a := s.axis x.2
        if a.state = .catching ∨ a.state = .coupled then
          { sub := x.1, enable := decide ((s.port p).state = .up), setpoint := a.s, feedforward := a.v }
        else { sub := x.1, enable := false, setpoint := a.f, feedforward := 0 } := by
  unfold DrivePort.setpoint disabled
  by_cases hup : (s.port p).state = .up
  · simp only [hup, if_true, decide_true, Axis.entry, Axis.engaged_iff]
  · simp only [hup, if_false, decide_false, List.map_map]
    refine List.map_congr_left fun x _ => ?_
    simp only [Function.comp_apply, Axis.entry, Axis.engaged_iff]
    split_ifs <;> rfl

/-- The port record after its SETPOINT is sent, or made to wait for the transmitter (R54). -/
def DrivePort.setpointStep (r : DrivePort) (es : List SetpointEntry) : DrivePort :=
  if r.transmitter = [] then
    { r with
      transmitter := [encodeSetpoint es], sentList := es.map (·.sub), waitingSetpoint := none
      counters := { r.counters with sent := min (r.counters.sent + 1) 65535 } }
  else
    { r with
      waitingSetpoint := some es
      counters :=
        { r.counters with
          lateSends := min (r.counters.lateSends + 1) 65535
          setpointsDropped :=
            if r.waitingSetpoint = none then r.counters.setpointsDropped else min (r.counters.setpointsDropped + 1) 65535 } }

theorem sendPort_eq {s : State} {p : Fin 4} (tu : Nat) {es : List SetpointEntry} (hon : (s.port p).state ≠ .off)
    (hes : (s.port p).setpoint ((s.boundAxes p).map fun x => (s.axis x.2).entry x.1) = es) :
    s.sendPort p tu =
      let x := ((s.port p).setpointStep es).serviceStep (s.port p).transmitter.isEmpty es.length tu
      if x.2 then (s.setPort p x.1).postServiceReply p .noRoom none else s.setPort p x.1 := by
  have hstep : (if (s.port p).transmitter.isEmpty then (s.port p).sendSetpoint es else (s.port p).holdSetpoint es)
      = (s.port p).setpointStep es := by
    unfold DrivePort.setpointStep DrivePort.sendSetpoint DrivePort.holdSetpoint
    simp only [List.isEmpty_iff]
    by_cases hidle : (s.port p).transmitter = []
    · rw [if_pos hidle, if_pos hidle, hidle]
      rfl
    · rw [if_neg hidle, if_neg hidle]
      cases (s.port p).waitingSetpoint <;> rfl
  rw [State.sendPort, if_neg hon]
  simp only [hes, hstep]

theorem setpointStep_service (r : DrivePort) (es : List SetpointEntry) :
    (r.setpointStep es).slot = r.slot ∧ (r.setpointStep es).service = r.service ∧ (r.setpointStep es).serviceWait = r.serviceWait
      ∧ (r.setpointStep es).divider = r.divider := by
  unfold DrivePort.setpointStep
  split_ifs <;> exact ⟨rfl, rfl, rfl, rfl⟩

theorem serviceStep_of_idle {r : DrivePort} (atOnce : Bool) (n tu : Nat) (h : r.slot ≠ .waiting ∨ r.service = none) :
    r.serviceStep atOnce n tu = (r, false) := by
  unfold DrivePort.serviceStep
  split
  case h_1 x hslot hservice => exact (h.elim (absurd hslot) fun hnone => by simp [hnone] at hservice)
  case h_2 => rfl

theorem serviceStep_of_waiting {r : DrivePort} {sub : Fin 4} {payload : List Byte} (atOnce : Bool) (n tu : Nat) (hslot : r.slot = .waiting)
    (hservice : r.service = some (sub, payload)) :
    r.serviceStep atOnce n tu =
      if atOnce = true ∧ serviceFits r.divider n payload.length tu = true then
        ({ r with
            transmitter := r.transmitter ++ [encodeService sub payload], slot := .sent, serviceAge := 0
            counters := { r.counters with sent := min (r.counters.sent + 1) 65535 } }, false)
      else if 8 ≤ r.serviceWait + 1 then ({ r with slot := .empty, service := none, serviceWait := 8 }, true)
      else ({ r with serviceWait := r.serviceWait + 1 }, false) := by
  rw [DrivePort.serviceStep, hslot, hservice]
  simp only [Bool.and_eq_true]
  rfl

theorem serviceFits_iff (divider entries payload tu : Nat) :
    serviceFits divider entries payload tu = true ↔
      400 * (divider + 1) * ((4 + 7 * entries) + (4 + payload) + (4 + 5 * entries) + 36) + 4000 ≤ tu := by
  have hparts : 2 + 7 * entries + 2 + (4 + payload) + (2 + 5 * entries + 2) + 36
      = 4 + 7 * entries + (4 + payload) + (4 + 5 * entries) + 36 := by omega
  rw [serviceFits, decide_eq_true_iff, characterTime, hparts]

/-- Settles O26. -/
theorem telegramsInAndOut : Obligations.TelegramsInAndOut := by
  refine ⟨fun s p chars => ?received, ?closed, fun s p => ?freed, fun s p tu => ?sent⟩
  case received =>
    rw [exec_telegramClosed]
    refine ⟨fun h => by rw [receive_of_ignored h], fun x hoff h => ?_⟩
    rw [receive_of_closed hoff h]
    rfl
  case closed =>
    refine ⟨rfl, fun first rest => ⟨closeTelegram_of_other rest, fun h2 => ?feedback, fun h4 => ?reply⟩⟩
    case feedback =>
      rw [closeTelegram_of_kind (kind := .feedback) rest (if_pos h2)]
      simp only [telegramLengthBad, Bool.decide_or, Bool.or_assoc]
    case reply =>
      rw [closeTelegram_of_kind (kind := .serviceReply) rest (by rw [rxKindOf, if_neg (by rw [h4]; decide), if_pos h4])]
      simp only [telegramLengthBad, Bool.decide_or, Bool.or_assoc]
  case freed =>
    rw [exec_transmitterFrees, transmitterEnd_eq] <;> rfl
  case sent =>
    intro r entries sent q
    have hes : r.setpoint ((s.boundAxes p).map fun x => (s.axis x.2).entry x.1) = entries := setpoint_entries s p
    have hq : r.setpointStep entries = q := rfl
    obtain ⟨hslot, hservice, hwait, hdivider⟩ := setpointStep_service r entries
    rw [hq] at hslot hservice hwait hdivider
    refine ⟨⟨boundAxes_subs_sorted s p, fun sub i => mem_boundAxes_iff s p sub i⟩, fun hoff => if_pos hoff, fun hon hidle => ?_,
      fun sub payload hon hwaiting hpayload => ?_⟩
    · rw [sendPort_eq tu hon hes, hq, serviceStep_of_idle _ _ _ (by rw [hslot, hservice]; exact hidle)]
      rfl
    · have hfits : serviceFits q.divider entries.length payload.length tu = true ↔
          400 * (r.divider + 1) * ((4 + 7 * entries.length) + (4 + payload.length) + (4 + 5 * entries.length) + 36) + 4000 ≤ tu := by
        rw [hdivider]
        exact serviceFits_iff r.divider entries.length payload.length tu
      rw [sendPort_eq tu hon hes, hq, serviceStep_of_waiting _ _ _ (hslot.trans hwaiting) (hservice.trans hpayload), hwait]
      simp only [hfits, List.isEmpty_iff]
      by_cases hroom : r.transmitter = [] ∧
          400 * (r.divider + 1) * ((4 + 7 * entries.length) + (4 + payload.length) + (4 + 5 * entries.length) + 36) + 4000 ≤ tu
      · have hcount : min (min (r.counters.sent + 1) 65535 + 1) 65535 = min (r.counters.sent + 2) 65535 := by omega
        have hq' : q = { r with transmitter := [encodeSetpoint entries], sentList := entries.map (·.sub), waitingSetpoint := none, counters := sent 1 } :=
          if_pos hroom.1
        have hsent : sent 2 = { sent 1 with sent := min ((sent 1).sent + 1) 65535 } :=
          congrArg (fun n => { r.counters with sent := n }) hcount.symm
        rw [if_pos hroom, if_pos hroom, hq', hsent]
        rfl
      · rw [if_neg hroom, if_neg hroom]
        by_cases hlong : 8 ≤ r.serviceWait + 1
        · rw [if_pos hlong, if_pos hlong]
          rfl
        · rw [if_neg hlong, if_neg hlong]
          rfl

/-! ## The drain of a port (R56 to R59, R65) -/

theorem usable_eq (r : DrivePort) (x : RxTelegram) :
    r.usable x =
      if x.mark = .good ∧ x.kind = .feedback ∧ (decodeFeedback x.bytes).map (·.sub) = r.sentList then some (decodeFeedback x.bytes)
      else none := rfl

theorem dealWith_of_marked {r : DrivePort} {x : RxTelegram} (h : x.mark ≠ .good) :
    r.dealWith x = ({ r with counters := r.counters.countMark x.mark }, none) := by
  unfold DrivePort.dealWith
  cases hmark : x.mark <;> first | exact absurd hmark h | rfl

theorem dealWith_of_feedback {r : DrivePort} {x : RxTelegram} (hmark : x.mark = .good) (hkind : x.kind = .feedback) :
    r.dealWith x =
      if (r.usable x).isSome then (r, none)
      else ({ r with counters := { r.counters with mismatched := min (r.counters.mismatched + 1) 65535 } }, none) := by
  rw [DrivePort.dealWith, hmark, hkind]
  rfl

theorem dealWith_of_reply {r : DrivePort} {x : RxTelegram} (hmark : x.mark = .good) (hkind : x.kind = .serviceReply) :
    r.dealWith x =
      if r.slot = .sent ∧ r.service.map (·.1) = some (decodeServiceReply x.bytes).1 then
        ({ r with slot := .empty, service := none }, some (decodeServiceReply x.bytes))
      else ({ r with counters := { r.counters with strayReplies := min (r.counters.strayReplies + 1) 65535 } }, none) := by
  rw [DrivePort.dealWith, hmark, hkind]
  rfl

theorem newestUsable_eq (r : DrivePort) : r.newestUsable = r.queue.reverse.findSome? r.usable :=
  foldl_or_eq_findSome r.usable r.queue

/-- The record of a port after its drain's counting, before its service slot ages. -/
def DrivePort.counted (r : DrivePort) : DrivePort :=
  ({ (r.dealWithAll r.queue).1 with queue := [], stopped := false } : DrivePort).countDrain r.newestUsable

/-- The state in which a drain hands its feedback on: the port counted, the service slot ended or aged, and its reply posted. -/
def State.serviced (s : State) (p : Fin 4) : State :=
  let r := s.port p
  let reply := (r.dealWithAll r.queue).2
  if r.slot = .sent ∧ reply = none then
    if 2 ≤ r.serviceAge + 1 then
      (s.setPort p { r.counted with slot := .empty, service := none, serviceAge := 2 }).post (.serviceReply p .timeout none)
    else s.setPort p { r.counted with serviceAge := r.serviceAge + 1 }
  else
    match reply with
    | some x => (s.setPort p r.counted).post (.serviceReply p .ok (some x))
    | none => s.setPort p r.counted

theorem countDrain_serviceAge (r : DrivePort) (found : Option (List FeedbackEntry)) :
    (r.countDrain found).serviceAge = r.serviceAge := by cases found <;> rfl

theorem counted_serviceAge (r : DrivePort) : r.counted.serviceAge = r.serviceAge :=
  (countDrain_serviceAge _ _).trans (dealWithAll_keeps r r.queue).1

theorem ageService_of_quiet {r : DrivePort} {sentBefore replied : Bool} (h : (sentBefore && !replied) = false) :
    r.ageService sentBefore replied = (r, false) := by
  rw [DrivePort.ageService, h, if_neg Bool.false_ne_true]

/-- A drain: the port is counted and serviced, the axes receive the feedback, the port state follows. -/
theorem drain_of_on {s : State} {p : Fin 4} (hon : (s.port p).state ≠ .off) :
    s.drain p =
      ((s.serviced p).deliverFeedback p ((s.port p).newestUsable.getD [])).afterDrain p (s.port p).newestUsable := by
  have hage := counted_serviceAge (s.port p)
  rw [State.drain, if_neg hon]
  change State.afterDrain (State.deliverFeedback
    (let aged := (s.port p).counted.ageService (decide ((s.port p).slot = .sent)) ((s.port p).dealWithAll (s.port p).queue).2.isSome
      let s1 := s.setPort p aged.1
      let s2 := match ((s.port p).dealWithAll (s.port p).queue).2 with
        | some reply => s1.postServiceReply p .ok (some reply)
        | none => s1
      if aged.2 then s2.postServiceReply p .timeout none else s2) p _) p _ = _
  congr 2
  unfold State.serviced
  by_cases hunanswered : (s.port p).slot = .sent ∧ ((s.port p).dealWithAll (s.port p).queue).2 = none
  · obtain ⟨hsent, hreply⟩ := hunanswered
    have haged : (s.port p).counted.ageService true false =
        if 2 ≤ (s.port p).serviceAge + 1 then ({ (s.port p).counted with slot := .empty, service := none, serviceAge := 2 }, true)
        else ({ (s.port p).counted with serviceAge := (s.port p).serviceAge + 1 }, false) := by
      rw [← hage]
      rfl
    simp only [hsent, hreply, decide_true, Option.isSome_none, haged, and_self, if_true]
    by_cases hold : 2 ≤ (s.port p).serviceAge + 1
    · rw [if_pos hold, if_pos hold]
      rfl
    · rw [if_neg hold, if_neg hold]
      rfl
  · have hquiet : (decide ((s.port p).slot = .sent) && !((s.port p).dealWithAll (s.port p).queue).2.isSome) = false := by
      simpa [← Option.isSome_iff_ne_none] using hunanswered
    simp only [ageService_of_quiet hquiet, if_neg hunanswered, if_neg Bool.false_ne_true]
    rfl

theorem counted_fields (r : DrivePort) :
    r.counted.state = r.state ∧ r.counted.linkCount = r.linkCount ∧ r.counted.reason = r.reason ∧ r.counted.place = r.place
      ∧ r.counted.missLimit = r.missLimit
      ∧ r.counted.missCount = if r.newestUsable = none then min (r.missCount + 1) 255 else 0 := by
  obtain ⟨-, hstate, hlink, hreason, hplace, hlimit, hcount, -, -⟩ := dealWithAll_keeps r r.queue
  unfold DrivePort.counted
  cases r.newestUsable with
  | none => exact ⟨hstate, hlink, hreason, hplace, hlimit, by rw [if_pos rfl, ← hcount]; rfl⟩
  | some es => exact ⟨hstate, hlink, hreason, hplace, hlimit, rfl⟩

/-- Serving the service slot leaves what decides the port state, and the axes. -/
theorem serviced_fields (s : State) (p : Fin 4) :
    ((s.serviced p).port p).state = (s.port p).counted.state ∧ ((s.serviced p).port p).linkCount = (s.port p).counted.linkCount
      ∧ ((s.serviced p).port p).reason = (s.port p).counted.reason ∧ ((s.serviced p).port p).place = (s.port p).counted.place
      ∧ ((s.serviced p).port p).missLimit = (s.port p).counted.missLimit
      ∧ ((s.serviced p).port p).missCount = (s.port p).counted.missCount ∧ (s.serviced p).axes = s.axes := by
  unfold State.serviced
  dsimp only
  split
  · split
    · simp
    · simp
  · split
    · simp
    · simp

theorem faultedSub_getD (found : Option (List FeedbackEntry)) :
    found.bind faultedSub = ((found.getD []).find? (·.fault)).map (·.sub) := by
  cases found <;> rfl

theorem portFaults_eq (t : State) (p : Fin 4) (reason : FaultReason) (place : Option (Fin 4 × Option (Fin 16))) :
    t.portFaults p reason place =
      ((((t.setPort p { t.port p with state := .fault, reason := reason, place := place, linkCount := 0 }).post
        (.portState p .fault reason place (t.port p).missCount)).inhibitPort p).setCondition (portSource p) true) := by
  rw [State.portFaults, State.postPortState, setPort_port]

theorem boundAxis_congr {s t : State} (h : ∀ i, (s.axis i).binding = (t.axis i).binding) (p sub : Fin 4) :
    s.boundAxis p sub = t.boundAxis p sub := by
  simp only [State.boundAxis, h]

theorem afterDrain_of_linking {t : State} {p : Fin 4} (found : Option (List FeedbackEntry)) (h : (t.port p).state = .linking) :
    t.afterDrain p found =
      if found ≠ none ∧ (found.getD []).find? (·.fault) = none then
        if 3 ≤ (t.port p).linkCount + 1 then
          (t.setPort p { t.port p with state := .up, linkCount := 3 }).post
            (.portState p .up (t.port p).reason (t.port p).place (t.port p).missCount)
        else t.setPort p { t.port p with linkCount := (t.port p).linkCount + 1 }
      else t.setPort p { t.port p with linkCount := 0 } := by
  simp only [State.afterDrain, h, faultedSub_getD, Option.map_eq_none_iff, Option.isSome_iff_ne_none, State.postPortState,
    setPort_port]

theorem afterDrain_of_up {t : State} {p : Fin 4} (found : Option (List FeedbackEntry)) (h : (t.port p).state = .up) :
    t.afterDrain p found =
      match (found.getD []).find? (·.fault) with
      | some e => t.portFaults p .drive (some (e.sub, t.boundAxis p e.sub))
      | none => if found = none ∧ (t.port p).missLimit ≤ (t.port p).missCount then t.portFaults p .miss none else t := by
  simp only [State.afterDrain, h, faultedSub_getD]
  cases (found.getD []).find? (·.fault) <;> rfl

/-- Settles O25: how one telegram is dealt with; then a drain is the port counted and serviced, its axes fed, and the port state decided. -/
theorem drainDecidesThePortState : Obligations.DrainDecidesThePortState := by
  refine ⟨fun r x rest => ?telegram, fun s p hunique => ?drain⟩
  case telegram =>
    intro usable reply c
    refine ⟨fun h => ⟨if_pos h, ?_⟩, fun h => if_neg h, fun h => ?_, fun h => ?_, fun h => ?_, fun hmark hkind h => ?_,
      fun hmark hkind => dealWith_of_reply hmark hkind, rfl, rfl, rfl, newestUsable_eq r⟩
    · rw [dealWith_of_feedback h.1 h.2.1, usable_eq, if_pos h]
      rfl
    · rw [dealWith_of_marked (by rw [h]; decide), h]
      rfl
    · rw [dealWith_of_marked (by rw [h]; decide), h]
      rfl
    · rw [dealWith_of_marked (by rw [h]; decide), h]
      rfl
    · rw [dealWith_of_feedback hmark hkind, usable_eq, if_neg h]
      rfl
  case drain =>
    intro r found entries fed x miss counted u t a faults
    have hcounted : r.counted = counted := by
      obtain ⟨-, -, -, -, -, -, hmiss, hreports, -⟩ := dealWithAll_keeps r r.queue
      change ({ x.1 with queue := [], stopped := false } : DrivePort).countDrain found = counted
      cases hfound : found with
      | none => simp only [counted, miss, entries, hfound, DrivePort.countDrain, hmiss, hreports, x]; rfl
      | some es => simp only [counted, miss, entries, hfound, DrivePort.countDrain, hreports, x]; rfl
    have hu : s.serviced p = u := by
      rw [State.serviced, hcounted] <;> rfl
    obtain ⟨hstate, hlink, hreason, hplace, hlimit, hmiss⟩ := counted_fields r
    obtain ⟨hstate', hlink', hreason', hplace', hlimit', hmiss', haxes⟩ := serviced_fields s p
    have hfed : (s.serviced p).deliverFeedback p entries = t := by
      have hunique' : UniqueBindings (s.serviced p) := by
        simpa only [UniqueBindings, State.axis, haxes] using hunique
      rw [deliverFeedback_eq_map _ hunique', hu]
      rfl
    have hdrain (hon : r.state ≠ .off) : s.drain p = t.afterDrain p found := by
      rw [drain_of_on hon]
      exact congrArg (fun y => State.afterDrain y p found) hfed
    have hport : t.port p = (s.serviced p).port p := by rw [hu]; rfl
    rw [← hport] at hstate' hlink' hreason' hplace' hlimit' hmiss'
    have hbound (sub : Fin 4) : t.boundAxis p sub = s.boundAxis p sub := by
      refine boundAxis_congr (fun i => ?_) p sub
      rw [← hfed, ← deliverFeedback_only (s.serviced p) p entries .bindings (by decide) i, State.axis, haxes]
      rfl
    have hfaults (reason : FaultReason) (place : Option (Fin 4 × Option (Fin 16))) : t.portFaults p reason place = faults reason place := by
      rw [portFaults_eq, hmiss'.trans hmiss]
    refine ⟨fun hoff => ?off, fun hfault => ?fault, fun hlinking => ?linking, fun hup => ?up⟩
    case off =>
      rw [State.drain, if_pos hoff, deliverFeedback_eq_map s hunique]
      rfl
    case fault =>
      rw [hdrain (by rw [hfault]; decide), State.afterDrain, (hstate'.trans hstate).trans hfault]
    case linking =>
      rw [hdrain (by rw [hlinking]; decide), afterDrain_of_linking _ ((hstate'.trans hstate).trans hlinking)]
      dsimp only
      rw [hlink'.trans hlink, hreason'.trans hreason, hplace'.trans hplace, hmiss'.trans hmiss]
    case up =>
      rw [hdrain (by rw [hup]; decide), afterDrain_of_up _ ((hstate'.trans hstate).trans hup), hmiss'.trans hmiss, hlimit'.trans hlimit]
      simp only [hbound, hfaults]
      rfl

end Sys2Proof.Machine
end

section
/-! Proofs. Trips (chapter 5): conditions and the local trip list (R96 to R102), pins (R94), and the keepalive window (R113, R114). -/

namespace Sys2Proof.Machine

/-! ## A change of a condition (R98 to R100) -/

theorem setCondition_of_same {s : State} {i : Fin 24} {present : Bool} (h : (s.source i).condition = present) :
    s.setCondition i present = s := if_pos h

/-- The state in which a changed condition is acted on. -/
def State.noteCondition (s : State) (i : Fin 24) (present : Bool) : State := s.setSource i { s.source i with condition := present }

theorem setCondition_of_appearing {s : State} {i : Fin 24} (h : (s.source i).condition = false) :
    s.setCondition i true = (s.noteCondition i true).appears i := by
  rw [State.setCondition, if_neg (by rw [h]; decide)]
  rfl

theorem setCondition_of_dropping {s : State} {i : Fin 24} (h : (s.source i).condition = true) :
    s.setCondition i false = (s.noteCondition i false).drops i := by
  rw [State.setCondition, if_neg (by rw [h]; decide)]
  rfl

theorem noteCondition_entryOf (s : State) (i : Fin 24) (present : Bool) (j : Fin 24) :
    (s.noteCondition i present).entryOf j = s.entryOf j := rfl

theorem noteCondition_enable (s : State) (i : Fin 24) (present : Bool) :
    ((s.noteCondition i present).source i).enable = (s.source i).enable := by
  rw [State.noteCondition, setSource_source]

theorem appears_of_none {s : State} {i : Fin 24} (h : s.entryOf i = none) :
    s.appears i = if (s.source i).enable then s.latch i .active else s := by
  rw [State.appears, h]

theorem appears_of_some {s : State} {i : Fin 24} {e : LocalEntry} (h : s.entryOf i = some e) :
    s.appears i = if e.state = .inactive then s.repeatEntry e .active else s := by
  rw [State.appears, h]

theorem drops_of_none {s : State} {i : Fin 24} (h : s.entryOf i = none) : s.drops i = s := by
  rw [State.drops, h]

theorem drops_of_some {s : State} {i : Fin 24} {e : LocalEntry} (h : s.entryOf i = some e) :
    s.drops i = match e.state with
      | .active => (s.setEntry { e with state := .inactive }).postTrip { e with state := .inactive } .inactive
      | .acked => s.removeEntry e
      | .inactive => s := by
  rw [State.drops, h] <;> rfl

/-! ## Latches, removals and their frames (R78, R80, R85, R98, R102, R104) -/

theorem latch_eq {s : State} {i : Fin 24} {st : EntryState} (h : st ≠ .acked) :
    s.latch i st =
      (((({ s with trips := { s.trips with localList := s.trips.localList ++
          [{ source := i, cls := (s.source i).cls, priority := (s.source i).priority, latchCycle := s.angle.cycleNumber
             latchAngle := s.angle.previousAngle, repeats := 0, state := st }] } } : State).sendTripFrame .trip
        (u8 i.val ++ u8 (s.source i).cls.code ++ u8 (s.source i).priority)).postTrip
          { source := i, cls := (s.source i).cls, priority := (s.source i).priority, latchCycle := s.angle.cycleNumber
            latchAngle := s.angle.previousAngle, repeats := 0, state := st }
          (if st = .active then .active else .inactive)).reform).reportHeadTrip := by
  cases st with
  | acked => exact absurd rfl h
  | active => rfl
  | inactive => rfl

theorem sendTripFrame_eq (s : State) (kind : FrameKind) (payload : List Byte) :
    let f : Frame :=
      { kind := kind, restart := s.ring.restartFlag, reverse := 0, origin := s.angle.nodeId, dest := 0, hop := 0
        seq := s.ring.tripSequence.setWidth 16, payload := payload }
    let t : State := { s with ring := { s.ring with tripSequence := s.ring.tripSequence + 1 } }
    s.sendTripFrame kind payload =
      match s.ring.mode with
      | .closed => t.joinByClass .b .trip (.own f)
      | .wrapA => t.joinByClass .b .trip (.own f)
      | .wrapB => t.joinByClass .a .trip (.own f)
      | .isolated => { t with ring := { t.ring with urgentDrops := min (t.ring.urgentDrops + 1) 65535 } } := by
  simp only [State.sendTripFrame]
  cases s.ring.mode <;> rfl

/-- Settles O27: the two directions of a change, each by the entry the source has. -/
theorem conditionsLatchRepeatAndDrop : Obligations.ConditionsLatchRepeatAndDrop := by
  refine ⟨fun s i => ?condition, fun _ _ _ h => latch_eq h, fun _ _ => rfl, sendTripFrame_eq⟩
  intro r noted
  refine ⟨setCondition_of_same rfl, fun hc hn => ?latch, fun hc hn => ?unlatched, fun e hc he => ?repeated, fun e hc he => ?drop⟩
  case latch =>
    rw [setCondition_of_appearing hc, appears_of_none ((noteCondition_entryOf s i true i).trans hn), noteCondition_enable]
    rfl
  case unlatched =>
    rw [setCondition_of_dropping hc, drops_of_none ((noteCondition_entryOf s i false i).trans hn)]
    rfl
  case repeated =>
    rw [setCondition_of_appearing hc, appears_of_some ((noteCondition_entryOf s i true i).trans he)]
    rfl
  case drop =>
    rw [setCondition_of_dropping hc, drops_of_some ((noteCondition_entryOf s i false i).trans he)]
    rfl

/-! ## SET_TRIP_SOURCE (R94, R96) -/

/-- What SET_TRIP_SOURCE stores of a source. -/
def TripSource.settings (r : TripSource) : Bool × TripClass × Nat × Conditioning × Nat :=
  (r.enable, r.cls, r.priority, r.conditioning, r.filter)

theorem setCondition_settings (s : State) (i j : Fin 24) (present : Bool) :
    ((s.setCondition i present).source j).settings = (s.source j).settings := by
  rw [setCondition_source]
  split <;> rfl

theorem source_congr {s t : State} (h : s.trips.sources = t.trips.sources) (i : Fin 24) : s.source i = t.source i := by
  rw [State.source, State.source, h]

theorem setSource_settings (s : State) (i j : Fin 24) {r : TripSource} (h : r.settings = (s.source i).settings) :
    ((s.setSource i r).source j).settings = (s.source j).settings := by
  by_cases hij : i = j
  · rw [← hij, setSource_source, h]
  · rw [setSource_source_ne _ _ _ _ hij]

theorem latch_source (s : State) (i j : Fin 24) (st : EntryState) : (s.latch i st).source j = s.source j :=
  source_congr (latch_only s i st .sources (by decide)).symm j

theorem edgeOccurs_source (s : State) (i j : Fin 24) : (s.edgeOccurs i).source j = s.source j :=
  source_congr (edgeOccurs_only s i .sources (by decide)).symm j

theorem setFiltered_settings (s : State) (pin : Fin 12) (level : Bool) (j : Fin 24) :
    ((s.setFiltered pin level).source j).settings = (s.source j).settings := by
  have hmoved (r : TripSource) (h : r.settings = (s.source (pinSource pin)).settings) (c : Bool) :
      (((s.setSource (pinSource pin) r).setCondition (pinSource pin) c).source j).settings = (s.source j).settings := by
    rw [setCondition_settings, setSource_settings s _ _ h]
  unfold State.setFiltered
  dsimp only
  split
  · exact setSource_settings s _ _ rfl
  · split
    · rw [edgeOccurs_source]
      refine hmoved _ ?_ _
      rfl
    · refine hmoved _ ?_ _
      rfl

theorem sourceFieldsOk_iff (f : SourceFields) :
    sourceFieldsOk f = true ↔ f.source < 24 ∧ f.cls ≠ .none ∧ f.priority ≤ 3 ∧ f.filter ≤ 255 := by
  simp [sourceFieldsOk, and_assoc]

theorem levelSource_internal {i : Fin 24} (c : Conditioning) (h : 12 ≤ i.val) : levelSource i c = true ↔ i.val ≠ 16 := by
  simp [levelSource, angleLostSource, h, Fin.ext_iff]

theorem levelSource_pin {i : Fin 24} (c : Conditioning) (h : i.val < 12) :
    levelSource i c = true ↔ c = .levelLow ∨ c = .levelHigh := by
  have hinternal : ¬12 ≤ i.val := Nat.not_le.mpr h
  have hlost : i.val ≠ 16 := by omega
  simp [levelSource, angleLostSource, hinternal, Fin.ext_iff, hlost]

/-- The source with the five values a SET_TRIP_SOURCE stores. -/
def State.storeSource (s : State) (i : Fin 24) (f : SourceFields) : State :=
  s.setSource i
    { s.source i with enable := f.enable, cls := f.cls, priority := f.priority, conditioning := f.conditioning, filter := f.filter }

/-- What a taken SET_TRIP_SOURCE does at a pin before the enable may latch (R94, log 38). -/
def State.formPin (s : State) (i : Fin 24) (f : SourceFields) : State :=
  if h : i.val < 12 then
    let t := (s.storeSource i f).setCondition i (levelCondition f.conditioning (s.source i).filtered)
    if s.runEnds i f.filter then t.setFiltered ⟨i.val, h⟩ (!(s.source i).filtered) else t
  else s.storeSource i f

/-- A taken SET_TRIP_SOURCE: the enable latches a disabled source whose condition is present and that has no entry (R96). -/
theorem applySource_eq (s : State) (i : Fin 24) (f : SourceFields) :
    s.applySource i f =
      if f.enable = true ∧ (s.source i).enable = false ∧ levelSource i f.conditioning = true
          ∧ ((s.formPin i f).source i).condition = true ∧ (s.formPin i f).entryOf i = none then (s.formPin i f).latch i .active
      else s.formPin i f := by
  change (if (f.enable && !(s.source i).enable && levelSource i f.conditioning && ((s.formPin i f).source i).condition
    && ((s.formPin i f).entryOf i).isNone) = true then (s.formPin i f).latch i .active else s.formPin i f) = _
  simp only [Bool.and_eq_true, Bool.not_eq_true', Option.isNone_iff_eq_none, and_assoc]

theorem formPin_internal {s : State} {i : Fin 24} (f : SourceFields) (h : 12 ≤ i.val) : s.formPin i f = s.storeSource i f :=
  dif_neg (Nat.not_lt.mpr h)

theorem formPin_of_no_run {s : State} {i : Fin 24} (f : SourceFields) (h : i.val < 12) (hrun : (s.source i).run = none) :
    s.formPin i f = (s.storeSource i f).setCondition i (levelCondition f.conditioning (s.source i).filtered) := by
  have hends : s.runEnds i f.filter = false := by rw [State.runEnds, hrun]
  rw [State.formPin, dif_pos h, hends, if_neg Bool.false_ne_true]

theorem formPin_of_run {s : State} {i : Fin 24} {pin : Fin 12} {t0 : Nat} (f : SourceFields) (h : pin.val = i.val)
    (hrun : (s.source i).run = some t0) :
    s.formPin i f =
      let t := (s.storeSource i f).setCondition i (levelCondition f.conditioning (s.source i).filtered)
      if t0 + f.filter * 10000 ≤ s.now then t.setFiltered pin (!(s.source i).filtered) else t := by
  have hpin : (⟨i.val, h ▸ pin.isLt⟩ : Fin 12) = pin := Fin.ext h.symm
  have hends : s.runEnds i f.filter = true ↔ t0 + f.filter * 10000 ≤ s.now := by
    rw [State.runEnds, hrun]
    exact decide_eq_true_iff
  rw [State.formPin, dif_pos (h ▸ pin.isLt), hpin]
  simp only [hends]

theorem storeSource_settings (s : State) (i : Fin 24) (f : SourceFields) :
    ((s.storeSource i f).source i).settings = (f.enable, f.cls, f.priority, f.conditioning, f.filter) := by
  rw [State.storeSource, setSource_source]
  rfl

theorem formPin_settings (s : State) (i : Fin 24) (f : SourceFields) :
    ((s.formPin i f).source i).settings = (f.enable, f.cls, f.priority, f.conditioning, f.filter) := by
  unfold State.formPin
  dsimp only
  split_ifs
  · rw [setFiltered_settings, setCondition_settings, storeSource_settings]
  · rw [setCondition_settings, storeSource_settings]
  · rw [storeSource_settings]

theorem applySource_settings (s : State) (i : Fin 24) (f : SourceFields) :
    ((s.applySource i f).source i).settings = (f.enable, f.cls, f.priority, f.conditioning, f.filter) := by
  rw [applySource_eq]
  split
  · rw [latch_source, formPin_settings]
  · rw [formPin_settings]

theorem workSetTripSource_of_taken {s : State} {i : Fin 24} {f : SourceFields} (hi : f.source = i.val) (hcls : f.cls ≠ .none)
    (hpriority : f.priority ≤ 3) (hfilter : f.filter ≤ 255) (h : f.enable = true ∨ s.entryOf i = none) :
    workSetTripSource f s = taken (s.applySource i f) := by
  have hfree : ¬(f.enable = false ∧ (s.entryOf i).isSome = true) := by
    rintro ⟨hdisable, hentry⟩
    rcases h with h | h
    · rw [hdisable] at h; cases h
    · rw [h] at hentry; cases hentry
  rw [workSetTripSource, if_pos ((sourceFieldsOk_iff f).mpr ⟨hi ▸ i.isLt, hcls, hpriority, hfilter⟩), hi, finOfNat_val]
  exact if_neg hfree

/-- Settles O28: the checks, then the kinds of source: internal, pin without a run, pin with one. -/
theorem setTripSourceChecksThenStores : Obligations.SetTripSourceChecksThenStores := by
  intro s at_ f hw
  rw [exec_of_working (c := .setTripSource at_ f) rfl hw]
  change (_ → endRow (workSetTripSource f (s.tick at_)) = _) ∧ _
  refine ⟨fun hbad => ?range, fun i hi hcls hpriority hfilter => ?fields⟩
  case range => rw [workSetTripSource, if_neg (mt (sourceFieldsOk_iff f).mp hbad), endRow_refuse]
  case fields =>
    intro r stored t
    have htaken (h : f.enable = true ∨ s.entryOf i = none) :
        workSetTripSource f (s.tick at_) = taken ((s.tick at_).applySource i f) :=
      workSetTripSource_of_taken hi hcls hpriority hfilter h
    have hr : (s.tick at_).source i = r := rfl
    refine ⟨fun hdisable hentry => ?held, fun hfree hinternal => ?internal, fun hfree hpin hrun => ?still,
      fun pin t0 hfree hpin hrun => ?running, fun hfree hpin => ?stored⟩
    case held =>
      change endRow (workSetTripSource f (s.tick at_)) = _
      have hheld : f.enable = false ∧ ((s.tick at_).entryOf i).isSome = true := ⟨hdisable, Option.isSome_iff_ne_none.mpr hentry⟩
      rw [workSetTripSource, if_pos ((sourceFieldsOk_iff f).mpr ⟨hi ▸ i.isLt, hcls, hpriority, hfilter⟩), hi, finOfNat_val]
      exact congrArg endRow (if_pos hheld)
    case internal =>
      change endRow (workSetTripSource f (s.tick at_)) = _
      rw [htaken hfree, endRow_taken, applySource_eq, formPin_internal f hinternal]
      have hcondition : (((s.tick at_).storeSource i f).source i).condition = r.condition := by
        rw [State.storeSource, setSource_source]
        rfl
      have hentry : ((s.tick at_).storeSource i f).entryOf i = s.entryOf i := rfl
      simp only [levelSource_internal f.conditioning hinternal, hcondition, hentry, hr]
      rfl
    case still =>
      intro level u
      have hu : (s.tick at_).formPin i f = u := formPin_of_no_run f hpin hrun
      have hcondition : (u.source i).condition = level := by
        rw [setCondition_source, if_pos rfl]
      change endRow (workSetTripSource f (s.tick at_)) = _
      rw [htaken hfree, endRow_taken, applySource_eq, hu]
      simp only [levelSource_pin f.conditioning hpin, hcondition, hr]
    case running =>
      intro u w
      have hw' : (s.tick at_).formPin i f = w := formPin_of_run f hpin hrun
      change endRow (workSetTripSource f (s.tick at_)) = _
      rw [htaken hfree, endRow_taken, applySource_eq, hw']
      simp only [levelSource_pin f.conditioning (hpin ▸ pin.isLt), hr]
    case stored =>
      have hsettings := applySource_settings (s.tick at_) i f
      simp only [TripSource.settings, Prod.mk.injEq] at hsettings
      refine ⟨(s.tick at_).applySource i f, ?_, hsettings⟩
      change endRow (workSetTripSource f (s.tick at_)) = _
      rw [htaken hfree, endRow_taken]

/-! ## ACK_TRIP and RAISE_TRIP (R97, R101) -/

theorem workAckTrip_of_named {s : State} {named : List (Fin 24)} (hne : named ≠ []) (hlength : named.length ≤ 24) :
    workAckTrip (some (named.map (·.val))) s = taken (named.foldl State.ackSource s) := by
  have hok : ¬((named.map (·.val)).isEmpty = true ∨ 24 < (named.map (·.val)).length
      ∨ (named.map (·.val)).any (fun n => decide (23 < n)) = true) := by
    simp only [List.isEmpty_iff, List.map_eq_nil_iff, hne, List.length_map, Nat.not_lt.mpr hlength, List.any_eq_true, List.mem_map,
      decide_eq_true_eq, false_or]
    rintro ⟨-, ⟨i, -, rfl⟩, hi⟩
    omega
  have hback : (named.map (·.val)).map (Fin.ofNat 24) = named := by
    rw [List.map_map]
    exact (List.map_congr_left fun i _ => finOfNat_val i).trans (List.map_id named)
  simp only [workAckTrip, if_neg hok, hback]

theorem ackSource_of_none {s : State} {i : Fin 24} (h : s.entryOf i = none) : s.ackSource i = s := by
  rw [State.ackSource, h]

theorem ackSource_of_some {s : State} {i : Fin 24} {e : LocalEntry} (h : s.entryOf i = some e) :
    s.ackSource i = match e.state with
      | .inactive => s.removeEntry e
      | .active => (s.setEntry { e with state := .acked }).postTrip { e with state := .acked } .acked
      | .acked => s := by
  rw [State.ackSource, h] <;> rfl

/-- Settles O29. -/
theorem ackTripAcknowledges : Obligations.AckTripAcknowledges := by
  refine ⟨fun s sources hw => ⟨fun hbad => ?range, fun named hnamed hne hlength => ?named⟩, fun s hw => ?all,
    fun s i => ⟨ackSource_of_none, fun e => ackSource_of_some⟩⟩
  case range =>
    rw [exec_of_working (c := .ackTrip (some sources)) rfl hw]
    change endRow (workAckTrip (some sources) s) = _
    have hbad' : sources.isEmpty = true ∨ 24 < sources.length ∨ sources.any (fun n => decide (23 < n)) = true := by
      simpa using hbad
    simp only [workAckTrip, if_pos hbad', endRow_refuse]
  case named =>
    rw [exec_of_working (c := .ackTrip (some sources)) rfl hw, hnamed]
    exact congrArg endRow (workAckTrip_of_named hne hlength)
  case all =>
    rw [exec_of_working (c := .ackTrip none) rfl hw]
    rfl

theorem parseRaiseTrip_of_state {body : List Byte} (h : 1 < natAt body 1) : parseRaiseTrip body = none := by
  rw [parseRaiseTrip, firstAt, if_neg (by omega), if_neg (by omega), sized]
  split <;> rfl

/-- Settles O30: the set of a condition that is absent appears, the clear of one that is present drops. -/
theorem raiseTripSetsASoftwareCondition : Obligations.RaiseTripSetsASoftwareCondition := by
  refine ⟨fun body h => parseRaiseTrip_of_state h, fun s number set hw => ?_⟩
  rw [exec_of_working (c := .raiseTrip number set) rfl hw]
  change (_ → endRow (workRaiseTrip number set s) = _) ∧ _
  refine ⟨fun h => by rw [workRaiseTrip, if_neg (Nat.not_le.mpr h), endRow_refuse], fun i hi h => ?_⟩
  intro r t
  change endRow (workRaiseTrip number set s) = _
  rw [workRaiseTrip, if_pos h, ← hi, finOfNat_val, endRow_taken, State.setCondition]
  congr 1
  by_cases hsame : r.condition = set
  · rw [if_pos hsame, if_pos hsame]
  · rw [if_neg hsame, if_neg hsame]
    cases set with
    | false => rfl
    | true =>
      simp only [if_true]
      cases hentry : s.entryOf i with
      | none =>
        change t.appears i = _
        rw [appears_of_none (s := t) hentry]
        have henable : (t.source i).enable = r.enable := noteCondition_enable s i true
        rw [henable]
      | some e => rfl

/-! ## The keepalive window (R113, R114) -/

theorem workKeepalive_of_off {s : State} (h : s.trips.window = .off) : workKeepalive s = taken s := by
  rw [workKeepalive, h]

theorem workKeepalive_of_expired {s : State} (h : s.trips.window = .expired) :
    workKeepalive s = taken (s.openWindow.setCondition keepaliveSource false) := by
  rw [workKeepalive, h]

theorem workKeepalive_of_opened {s : State} {t0 : Nat} (h : s.trips.window = .opened) (ho : s.trips.openedAt = some t0) :
    workKeepalive s =
      if s.now - t0 < s.trips.minimum * 1000000 then taken s.openWindow.keepaliveFault
      else taken (s.openWindow.setCondition keepaliveSource false) := by
  have hage : s.windowAge = s.now - t0 := by rw [State.windowAge, ho, Option.getD_some]
  rw [workKeepalive, h]
  simp only [hage]

theorem windowEnds_of_opened {s : State} {t0 : Nat} (h : s.trips.window = .opened) (ho : s.trips.openedAt = some t0) :
    s.windowEnds = (s.tick (t0 + s.trips.maximum * 1000000)).windowExpires := by
  rw [State.windowEnds, h, ho]

theorem windowEnds_of_not_opened {s : State} (h : s.trips.window ≠ .opened) : s.windowEnds = s := by
  unfold State.windowEnds
  split
  case h_1 hopen _ => exact absurd hopen h
  case h_2 => rfl

/-- Settles O31, by the state of the window. -/
theorem keepaliveAndItsWindow : Obligations.KeepaliveAndItsWindow := by
  intro s at_ s1 opened fault
  refine ⟨fun hw => ?keepalive, fun f hw => ?limits, fun t0 h ho => ?expiry, fun h => ?closed⟩
  case keepalive =>
    rw [exec_of_working (c := .keepalive at_) rfl hw]
    change (_ → endRow (workKeepalive s1) = _) ∧ (∀ _, _ → _ → _ → endRow (workKeepalive s1) = _)
      ∧ (∀ _, _ → _ → _ → endRow (workKeepalive s1) = _) ∧ (_ → endRow (workKeepalive s1) = _)
    refine ⟨fun h => ?_, fun t0 h ho hearly => ?_, fun t0 h ho hdue => ?_, fun h => ?_⟩
    · rw [workKeepalive_of_off (s := s1) h, endRow_taken]
    · rw [workKeepalive_of_opened (s := s1) h ho]
      exact congrArg endRow (if_pos hearly)
    · rw [workKeepalive_of_opened (s := s1) h ho]
      exact congrArg endRow (if_neg (Nat.not_lt.mpr hdue))
    · rw [workKeepalive_of_expired (s := s1) h]
      rfl
  case limits =>
    rw [exec_of_working (c := .setKeepalive at_ f) rfl hw]
    change endRow (workSetKeepalive f s1) = _
    rw [workSetKeepalive, endRow_ite, endRow_ite]
    rfl
  case expiry =>
    rw [exec_keepaliveWindowExpiry, windowEnds_of_opened h ho]
    rfl
  case closed => rw [exec_keepaliveWindowExpiry, windowEnds_of_not_opened h]

/-! ## Pins (R94) -/

theorem pinChanges_of_same {s : State} {pin : Fin 12} {level : Bool} (h : s.trips.pins.getLsbD pin.val = level) :
    s.pinChanges pin level = s := if_pos h

/-- The pins after one of them moves to a level. -/
def movedPins (pins : BitVec 12) (pin : Fin 12) (level : Bool) : BitVec 12 :=
  if level then pins ||| BitVec.twoPow 12 pin.val else pins &&& ~~~ BitVec.twoPow 12 pin.val

/-- The state in which a moved pin is filtered. -/
def State.movePin (s : State) (pin : Fin 12) (level : Bool) : State :=
  { s with trips := { s.trips with pins := movedPins s.trips.pins pin level } }

theorem pinChanges_of_moved {s : State} {pin : Fin 12} {level : Bool} (h : s.trips.pins.getLsbD pin.val ≠ level) :
    s.pinChanges pin level =
      let r := s.source (pinSource pin)
      let moved := s.movePin pin level
      if r.filter = 0 then moved.setFiltered pin level
      else if r.filtered = level then moved.setSource (pinSource pin) { r with run := none }
      else moved.setSource (pinSource pin) { r with run := some s.now } :=
  if_neg h

theorem filterEnds_of_run {s : State} {pin : Fin 12} {t0 : Nat} (h : (s.source (pinSource pin)).run = some t0) :
    s.filterEnds pin =
      (s.tick (t0 + (s.source (pinSource pin)).filter * 10000)).setFiltered pin (!(s.source (pinSource pin)).filtered) := by
  simp only [State.filterEnds, h]
  rfl

theorem filterEnds_of_idle {s : State} {pin : Fin 12} (h : (s.source (pinSource pin)).run = none) : s.filterEnds pin = s := by
  simp only [State.filterEnds, h]

theorem setFiltered_of_same {s : State} {pin : Fin 12} {level : Bool} (h : (s.source (pinSource pin)).filtered = level) :
    s.setFiltered pin level = s.setSource (pinSource pin) { s.source (pinSource pin) with run := none } := if_pos h

/-- A new filtered level is a condition, or absent with an edge, by the conditioning of its source. -/
theorem setFiltered_of_new {s : State} {pin : Fin 12} {level : Bool} (h : (s.source (pinSource pin)).filtered ≠ level) :
    let t := s.setSource (pinSource pin) { s.source (pinSource pin) with filtered := level, run := none }
    s.setFiltered pin level = match (s.source (pinSource pin)).conditioning with
      | .levelLow => t.setCondition (pinSource pin) (!level)
      | .levelHigh => t.setCondition (pinSource pin) level
      | .edgeFall =>
        if level then t.setCondition (pinSource pin) false else (t.setCondition (pinSource pin) false).edgeOccurs (pinSource pin)
      | .edgeRise =>
        if level then (t.setCondition (pinSource pin) false).edgeOccurs (pinSource pin) else t.setCondition (pinSource pin) false := by
  intro t
  rw [State.setFiltered, if_neg h]
  change (if edgeHit (s.source (pinSource pin)).conditioning level = true then
    (t.setCondition (pinSource pin) (levelCondition (s.source (pinSource pin)).conditioning level)).edgeOccurs (pinSource pin)
    else t.setCondition (pinSource pin) (levelCondition (s.source (pinSource pin)).conditioning level)) = _
  clear_value t
  cases (s.source (pinSource pin)).conditioning <;> cases level <;> rfl

theorem edgeOccurs_of_none {s : State} {i : Fin 24} (h : s.entryOf i = none) :
    s.edgeOccurs i = if (s.source i).enable then s.latch i .inactive else s := by
  rw [State.edgeOccurs, h]

theorem edgeOccurs_of_some {s : State} {i : Fin 24} {e : LocalEntry} (h : s.entryOf i = some e) :
    s.edgeOccurs i = s.repeatEntry e e.state := by
  rw [State.edgeOccurs, h]

/-- Settles O32. -/
theorem pinsAreFilteredIntoConditions : Obligations.PinsAreFilteredIntoConditions := by
  intro s pin level at_ i pins s1 moved r
  have hmoved (h : s.trips.pins.getLsbD pin.val ≠ level) :=
    pinChanges_of_moved (s := s1) (pin := pin) (level := level) h
  refine ⟨fun h => ?same, fun h hf hl => ?held, fun h hf hl => ?run, fun h hf => ?unfiltered, fun t0 h => ?runEnds, fun h => ?idle,
    setFiltered_of_same, setFiltered_of_new, edgeOccurs_of_none, fun e he => ?edge, fun t h => ?frame⟩
  case same => rw [exec_trpPinChange, pinChanges_of_same (s := s1) h]
  case held =>
    rw [exec_trpPinChange, hmoved h]
    exact congrArg _ ((if_neg hf).trans (if_pos hl))
  case run =>
    rw [exec_trpPinChange, hmoved h]
    exact congrArg _ ((if_neg hf).trans (if_neg hl))
  case unfiltered =>
    rw [exec_trpPinChange, hmoved h]
    exact congrArg _ (if_pos hf)
  case runEnds =>
    rw [exec_filterRunEnd, filterEnds_of_run h]
    rfl
  case idle => rw [exec_filterRunEnd, filterEnds_of_idle h]
  case edge =>
    rw [edgeOccurs_of_some he] <;> rfl
  case frame =>
    rcases h with h | h
    · cases h
      exact (tick_only s at_).up.trans ((pinChanges_only _ pin level).up)
    · cases h
      exact filterEnds_only s pin

end Sys2Proof.Machine
end

section
/-! Proofs. The effective class (chapter 5): the remote trip table (R105 to R108), the class and its reactions (R109 to R111, R20, R21), inhibits
(R44), and the head trip (R112). -/

namespace Sys2Proof.Machine

/-! ## The remote trip table (R105 to R107) -/

theorem isFor_iff (origin source : Nat) (e : RemoteEntry) : e.isFor origin source = true ↔ e.origin = origin ∧ e.source = source :=
  decide_eq_true_iff

theorem any_isFor_iff (l : List RemoteEntry) (origin source : Nat) :
    l.any (RemoteEntry.isFor origin source) = true ↔ ∃ e ∈ l, e.origin = origin ∧ e.source = source := by
  simp only [List.any_eq_true, isFor_iff]

theorem record_of_held {t : TripUnit} {origin source : Nat} (cls : TripClass) (priority : Nat) (cycle : Num16)
    (h : ∃ e ∈ t.remote, e.origin = origin ∧ e.source = source) :
    t.record origin source cls priority cycle =
      { t with remote := t.remote.map fun e =>
        if e.origin = origin ∧ e.source = source then { e with cls := cls, priority := priority, lowCount := 0 } else e } := by
  have hrenew : RemoteEntry.renew origin source cls priority = fun e =>
      if e.origin = origin ∧ e.source = source then { e with cls := cls, priority := priority, lowCount := 0 } else e := by
    funext e
    simp only [RemoteEntry.renew, isFor_iff]
  rw [TripUnit.record, if_pos ((any_isFor_iff _ _ _).mpr h), hrenew]

theorem record_of_room {t : TripUnit} {origin source : Nat} (cls : TripClass) (priority : Nat) (cycle : Num16)
    (h : ¬∃ e ∈ t.remote, e.origin = origin ∧ e.source = source) (hroom : t.remote.length < 32) :
    t.record origin source cls priority cycle =
      { t with remote := t.remote ++
        [{ origin := origin, source := source, cls := cls, priority := priority, cycle := cycle, lowCount := 0 }] } := by
  rw [TripUnit.record, if_neg (mt (any_isFor_iff _ _ _).mp h)]
  exact if_pos hroom

theorem record_of_full {t : TripUnit} {origin source : Nat} (cls : TripClass) (priority : Nat) (cycle : Num16)
    (h : ¬∃ e ∈ t.remote, e.origin = origin ∧ e.source = source) (hfull : 32 ≤ t.remote.length) :
    t.record origin source cls priority cycle =
      { t with
        overflow := true, overflowClass := if t.overflowClass.code < cls.code then cls else t.overflowClass
        remoteOverflows := min (t.remoteOverflows + 1) 65535 } := by
  rw [TripUnit.record, if_neg (mt (any_isFor_iff _ _ _).mp h)]
  exact if_neg (Nat.not_lt.mpr hfull)

theorem settleOverflow_eq (u : State) :
    u.settleOverflow =
      if u.trips.remote = [] ∧ u.trips.overflow = true then
        ({ u with trips := { u.trips with overflow := false, overflowClass := .none } } : State).postRemoteTrips.reform.reportHeadTrip
      else u := by
  simp only [State.settleOverflow, Bool.and_eq_true, List.isEmpty_iff]
  rfl

theorem deliverTripClear_of_held {s : State} {origin : Nat} {payload : List Byte}
    (h : ∃ e ∈ s.trips.remote, e.origin = origin ∧ e.source = (byteAt payload 0).toNat) :
    s.deliverTripClear origin payload =
      (({ s with trips := { s.trips with
          remote := s.trips.remote.filter fun e => ¬(e.origin = origin ∧ e.source = (byteAt payload 0).toNat) } } : State)
        ).postRemoteTrips.listsChanged.settleOverflow := by
  have hfilter : (s.trips.remote.filter fun e => !e.isFor origin (byteAt payload 0).toNat)
      = s.trips.remote.filter fun e => ¬(e.origin = origin ∧ e.source = (byteAt payload 0).toNat) := by
    refine List.filter_congr fun e _ => ?_
    rw [RemoteEntry.isFor, decide_not]
  rw [State.deliverTripClear]
  dsimp only
  rw [if_pos ((any_isFor_iff _ _ _).mpr h), hfilter]

theorem deliverTripClear_of_unmatched {s : State} {origin : Nat} {payload : List Byte}
    (h : ¬∃ e ∈ s.trips.remote, e.origin = origin ∧ e.source = (byteAt payload 0).toNat) :
    s.deliverTripClear origin payload =
      { s with trips := { s.trips with unmatchedClears := min (s.trips.unmatchedClears + 1) 65535 } } :=
  if_neg (mt (any_isFor_iff _ _ _).mp h)

/-! ## Status vectors (R108) -/

theorem slotOf_low_iff (v : Vector StatusSlot 32) (id : Nat) (cls : TripClass) :
    ((slotOf v id).present && decide ((slotOf v id).worst.code < cls.code))
      = (v.toList[id - 1]?).any fun x => x.present && decide (x.worst.code < cls.code) := by
  unfold slotOf
  by_cases h : id - 1 < 32
  · rw [dif_pos h, List.getElem?_eq_getElem (by simpa using h)]
    simp
  · rw [dif_neg h, List.getElem?_eq_none (by simpa using h)]
    rfl

theorem keptEntries_eq (remote : List RemoteEntry) (v : Vector StatusSlot 32) :
    keptEntries remote v =
      (remote.map fun e =>
        { e with lowCount :=
          if (v.toList[e.origin - 1]?).any (fun x => x.present && decide (x.worst.code < e.cls.code)) then e.lowCount + 1
          else 0 }).filter fun e => e.lowCount < 2 := by
  simp only [keptEntries, RemoteEntry.judged, slotOf_low_iff]

theorem reform_pruned (s : State) : s.reform.trips.pruned = s.trips.pruned := by
  rw [reform_trips]
  split <;> rfl

theorem keepRemote_eq (u : State) (kept : List RemoteEntry) :
    u.keepRemote kept =
      if kept.length = u.trips.remote.length then { u with trips := { u.trips with remote := kept } }
      else
        (({ u with trips := { u.trips with
            remote := kept, pruned := min (u.trips.pruned + (u.trips.remote.length - kept.length)) 65535 } } : State)
          ).postRemoteTrips.listsChanged.settleOverflow := rfl

theorem holdVector_trips (s : State) (v : Vector StatusSlot 32) :
    (s.holdVector v).trips.remote = s.trips.remote ∧ (s.holdVector v).trips.pruned = s.trips.pruned := by
  dsimp only [State.holdVector]
  exact ⟨rfl, rfl⟩

/-- The table after a status vector, with the room and the counter as they were before the class was formed again. -/
theorem takeVector_eq {s u : State} {v : Vector StatusSlot 32} (hu : (s.holdVector v).reform = u) :
    s.takeVector v =
      if (keptEntries s.trips.remote v).length = s.trips.remote.length then
        { u with trips := { u.trips with remote := keptEntries s.trips.remote v } }
      else
        (({ u with trips := { u.trips with
            remote := keptEntries s.trips.remote v
            pruned := min (s.trips.pruned + (s.trips.remote.length - (keptEntries s.trips.remote v).length)) 65535 } } : State)
          ).postRemoteTrips.listsChanged.settleOverflow := by
  obtain ⟨hheldRemote, hheldPruned⟩ := holdVector_trips s v
  obtain ⟨-, -, hformedRemote, -⟩ := reform_formed (s.holdVector v)
  have hpruned := reform_pruned (s.holdVector v)
  rw [hu, hheldPruned] at hpruned
  rw [hu, hheldRemote] at hformedRemote
  rw [State.takeVector, hu, keepRemote_eq, hformedRemote, hpruned]

/-! ## The effective class (R109) -/

theorem highestRemote_spec (t : TripUnit) :
    (∀ e ∈ t.remote, e.cls.code ≤ t.highestRemote.code) ∧ (t.highestRemote = .none ∨ ∃ e ∈ t.remote, e.cls = t.highestRemote) :=
  (foldl_maxClass RemoteEntry.cls t.remote .none).2

theorem highestHeld_spec (t : TripUnit) :
    (∀ (i : Fin 32) (c : TripClass), t.held[i] = some c → c.code ≤ t.highestHeld.code)
      ∧ (t.highestHeld = .none ∨ ∃ i : Fin 32, t.held[i] = some t.highestHeld) := by
  obtain ⟨hbound, hwitness⟩ := (foldl_maxClass (fun x : Option TripClass => x.getD .none) t.held.toList .none).2
  refine ⟨fun i c hc => ?_, ?_⟩
  · have hmem : some c ∈ t.held.toList := by
      rw [← hc]
      simp
    exact hbound _ hmem
  · by_cases hnone : t.highestHeld = .none
    · exact Or.inl hnone
    · obtain ⟨x, hx, hcls⟩ := hwitness.resolve_left hnone
      obtain ⟨i, hi, rfl⟩ := List.mem_iff_getElem.mp hx
      refine Or.inr ⟨⟨i, by simpa using hi⟩, ?_⟩
      change t.held.toList[i].getD .none = t.highestHeld at hcls
      cases hget : t.held.toList[i] with
      | none => rw [hget] at hcls; exact absurd hcls.symm hnone
      | some c =>
        rw [hget] at hcls
        rw [← hcls]
        simpa using hget

theorem code_none_le (c : TripClass) : TripClass.none.code ≤ c.code := Nat.zero_le _

/-- The effective class is no lower than any class it is formed from, and is one of them. -/
theorem formed_spec (t : TripUnit) :
    t.worst.code ≤ t.formed.code ∧ t.highestRemote.code ≤ t.formed.code
      ∧ (if t.overflow then t.overflowClass else TripClass.none).code ≤ t.formed.code ∧ t.highestHeld.code ≤ t.formed.code
      ∧ (t.formed = t.worst ∨ t.formed = t.highestRemote ∨ t.formed = (if t.overflow then t.overflowClass else TripClass.none)
        ∨ t.formed = t.highestHeld) := by
  obtain ⟨hw, hr, hlists⟩ := maxClass_bounds t.worst t.highestRemote
  obtain ⟨ho, hh, hothers⟩ := maxClass_bounds (if t.overflow then t.overflowClass else .none) t.highestHeld
  obtain ⟨hl, hr', htop⟩ := maxClass_bounds (maxClass t.worst t.highestRemote)
    (maxClass (if t.overflow then t.overflowClass else .none) t.highestHeld)
  refine ⟨hw.trans hl, hr.trans hl, ho.trans hr', hh.trans hr', ?_⟩
  change t.formed = _ ∨ t.formed = _ at htop
  rcases htop with htop | htop <;> rw [htop]
  · exact hlists.imp id Or.inl
  · exact Or.inr (Or.inr hothers)

theorem formed_isHighest (t : TripUnit) :
    (∀ e ∈ t.localList, e.cls.code ≤ t.formed.code) ∧ (∀ e ∈ t.remote, e.cls.code ≤ t.formed.code)
      ∧ (t.overflow = true → t.overflowClass.code ≤ t.formed.code)
      ∧ (∀ (i : Fin 32) (c : TripClass), t.held[i] = some c → c.code ≤ t.formed.code)
      ∧ (t.formed = .none ∨ (∃ e ∈ t.localList, e.cls = t.formed) ∨ (∃ e ∈ t.remote, e.cls = t.formed)
        ∨ (t.overflow = true ∧ t.overflowClass = t.formed) ∨ ∃ i : Fin 32, t.held[i] = some t.formed) := by
  obtain ⟨hworst, hremote, hoverflow, hheld, hone⟩ := formed_spec t
  obtain ⟨hlocals, hlocal⟩ := worst_spec t
  obtain ⟨hremotes, hremote'⟩ := highestRemote_spec t
  obtain ⟨hhelds, hheld'⟩ := highestHeld_spec t
  refine ⟨fun e he => (hlocals e he).trans hworst, fun e he => (hremotes e he).trans hremote, fun h => ?_,
    fun i c hc => (hhelds i c hc).trans hheld, ?_⟩
  · rwa [if_pos h] at hoverflow
  · rcases hone with h | h | h | h
    · rw [h]
      exact hlocal.imp id Or.inl
    · rw [h]
      exact hremote'.imp id fun hr => Or.inr (Or.inl hr)
    · by_cases ho : t.overflow = true
      · rw [if_pos ho] at h
        exact Or.inr (Or.inr (Or.inr (Or.inl ⟨ho, h.symm⟩)))
      · rw [if_neg ho] at h
        exact Or.inl h
    · rw [h]
      exact hheld'.imp id fun hr => Or.inr (Or.inr (Or.inr hr))

/-! ## What follows a change of the class (R110, R111, R20, R21) -/

theorem reform_of_same {s : State} (h : s.trips.formed = s.trips.effective) : s.reform = s := if_pos h

/-- The state in which the line master reacts: the class taken and told, and at STOP_FAST every axis inhibited. -/
def State.classTaken (s : State) : State :=
  let cls := s.trips.formed
  let t := ({ s with trips := { s.trips with effective := cls, impressionOff := decide (2 ≤ cls.code) } } : State).postRemoteTrips
  if cls = .stopFast then t.inhibitAll .trip else t

theorem classTaken_only (s : State) : Only [.axes, .trips, .ctl, .notices] s s.classTaken := by
  have htold : Only [.axes, .trips, .ctl, .notices] s
      ({ s with trips := { s.trips with effective := s.trips.formed, impressionOff := decide (2 ≤ s.trips.formed.code) } } : State).postRemoteTrips :=
    Only.after (postRemoteTrips_only _) (Only.up (trips_only_lists s _ rfl))
  exact Only.ite (fun _ => Only.after (inhibitAll_only _ _) htold) fun _ => htold

theorem classTaken_effective (s : State) : s.classTaken.trips.effective = s.trips.formed := by
  unfold State.classTaken
  dsimp only
  split
  · exact congrArg TripUnit.effective (inhibitAll_only _ AxisCause.trip .trips (by decide)).symm
  · rfl

theorem reform_of_changed {s : State} (h : s.trips.formed ≠ s.trips.effective) :
    s.reform = if s.classTaken.isMaster then s.classTaken.lineReaction else s.classTaken := if_neg h

/-- The line after a change of the class to `cls` (R20). -/
theorem lineAfterTrip_eq (l : LineState) (cls : TripClass) :
    lineAfterTrip l cls =
      if cls = .stopFast then .stopped else if cls = .stopRamp ∧ (l = .running ∨ l = .stopping) then .tripStop else l := by
  simp only [lineAfterTrip, LineState.moving, decide_eq_true_eq]

/-- The line's reaction, with the line state it leads to and the first-out record it leaves. -/
theorem lineReaction_eq {u : State} {cls : TripClass} {line : LineState} (hcls : u.trips.effective = cls)
    (hline : lineAfterTrip u.angle.lineState cls = line) (firstOut : Option FirstOut)
    (hfirst : (if line ≠ u.angle.lineState ∧ LineState.moving u.angle.lineState = true then some u.firstOutNow else u.master.firstOut) = firstOut) :
    u.lineReaction =
      let t : State := { u with
        angle := { u.angle with lineState := line }
        master := { u.master with nextV := if cls = .stopFast then 0 else u.master.nextV, firstOut := firstOut } }
      if line ≠ u.angle.lineState then t.post (.lineState line u.angle.cycleNumber) else t := by
  subst hcls hline hfirst
  rfl

/-! ## The first-out record (R21) -/

/-- One slot of a vector taken into the search for the highest. -/
def takeSlot (best : Option (Nat × TripClass)) (x : StatusSlot × Nat) : Option (Nat × TripClass) :=
  if x.1.present then
    match best with
    | none => some (x.2 + 1, x.1.worst)
    | some b => if b.2.code < x.1.worst.code then some (x.2 + 1, x.1.worst) else some b
  else best

theorem highestSlot_eq (v : Vector StatusSlot 32) : highestSlot v = v.toList.zipIdx.foldl takeSlot none := rfl

/-- Slots that are absent or below a class leave the best below it. -/
theorem foldl_takeSlot_below {cls : TripClass} (l : List (StatusSlot × Nat))
    (hl : ∀ x ∈ l, x.1.present = true → x.1.worst.code < cls.code) (best : Option (Nat × TripClass))
    (hbest : ∀ b, best = some b → b.2.code < cls.code) : ∀ b, l.foldl takeSlot best = some b → b.2.code < cls.code := by
  induction l generalizing best with
  | nil => exact hbest
  | cons x l ih =>
    refine ih (fun y hy => hl y (List.mem_cons_of_mem x hy)) (takeSlot best x) fun b hb => ?_
    unfold takeSlot at hb
    split at hb
    case isTrue hpresent =>
      have hx := hl x List.mem_cons_self hpresent
      split at hb
      · cases hb; exact hx
      · split at hb
        · cases hb; exact hx
        · cases hb; exact hbest _ rfl
    case isFalse => exact hbest b hb

/-- Slots that are absent or not above the best leave it. -/
theorem foldl_takeSlot_keeps (l : List (StatusSlot × Nat)) (b : Nat × TripClass)
    (hl : ∀ x ∈ l, x.1.present = true → x.1.worst.code ≤ b.2.code) : l.foldl takeSlot (some b) = some b := by
  induction l with
  | nil => rfl
  | cons x l ih =>
    have hx : takeSlot (some b) x = some b := by
      unfold takeSlot
      split
      case isTrue hpresent => exact if_neg (Nat.not_lt.mpr (hl x List.mem_cons_self hpresent))
      case isFalse => rfl
    rw [List.foldl_cons, hx, ih fun y hy => hl y (List.mem_cons_of_mem x hy)]

/-- The highest present slot, the lowest node id among equals. -/
theorem highestSlot_of_highest {v : Vector StatusSlot 32} {i : Fin 32} (hi : v[i].present = true)
    (hall : ∀ j : Fin 32, v[j].present = true → v[j].worst.code ≤ v[i].worst.code)
    (hbefore : ∀ j : Fin 32, j < i → v[j].present = true → v[j].worst.code < v[i].worst.code) :
    highestSlot v = some (i.val + 1, v[i].worst) := by
  have hlength : v.toList.zipIdx.length = 32 := by simp
  have hget (j : Nat) (hj : j < v.toList.zipIdx.length) : v.toList.zipIdx[j] = (v[j]'(by simpa using hj), j) := by simp
  have hsplit : v.toList.zipIdx =
      v.toList.zipIdx.take i.val ++ (v[i], i.val) :: v.toList.zipIdx.drop (i.val + 1) := by
    have hi' : i.val < v.toList.zipIdx.length := by rw [hlength]; exact i.isLt
    conv_lhs => rw [← List.take_append_drop i.val v.toList.zipIdx, List.drop_eq_getElem_cons hi', hget]
    rfl
  rw [highestSlot_eq, hsplit, List.foldl_append, List.foldl_cons]
  have hbelow := foldl_takeSlot_below (cls := v[i].worst) (v.toList.zipIdx.take i.val) (fun x hx hpresent => by
    obtain ⟨j, hj, rfl⟩ := List.mem_take_iff_getElem.mp hx
    have hj' : j < 32 := by omega
    rw [hget] at hpresent ⊢
    exact hbefore ⟨j, hj'⟩ (by show j < i.val; omega) hpresent) none (fun b hb => by cases hb)
  have htake : takeSlot ((v.toList.zipIdx.take i.val).foldl takeSlot none) (v[i], i.val) = some (i.val + 1, v[i].worst) := by
    unfold takeSlot
    rw [if_pos hi]
    split
    · rfl
    case h_2 b hb => exact if_pos (hbelow b hb)
  rw [htake]
  refine foldl_takeSlot_keeps _ _ fun x hx hpresent => ?_
  obtain ⟨j, hj, rfl⟩ := List.mem_iff_getElem.mp (List.mem_of_mem_drop hx)
  rw [hget] at hpresent ⊢
  exact hall ⟨j, by simpa using hj⟩ hpresent

theorem firstOutNow_of_head {s : State} {h : HeadTrip} (hh : s.headTrip = some h) (hcls : h.cls = s.trips.effective) :
    s.firstOutNow = { origin := some h.origin, source := some h.source, cls := h.cls, cycle := s.angle.cycleNumber } := by
  rw [State.firstOutNow, hh]
  exact if_pos hcls

/-- The record without a head trip of the effective class. -/
theorem firstOutNow_of_no_head {s : State} (hno : ∀ h, s.headTrip = some h → h.cls ≠ s.trips.effective) :
    s.firstOutNow =
      if s.angle.vector.toList.any (fun x => x.present && decide (x.worst = s.trips.effective)) then
        match highestSlot s.angle.vector with
        | some b => { origin := some b.1, source := none, cls := b.2, cycle := s.angle.cycleNumber }
        | none => { origin := none, source := none, cls := s.trips.overflowClass, cycle := s.angle.cycleNumber }
      else { origin := none, source := none, cls := s.trips.overflowClass, cycle := s.angle.cycleNumber } := by
  unfold State.firstOutNow
  cases hh : s.headTrip with
  | none => rfl
  | some h => exact if_neg (hno h hh)

theorem any_slot_iff (v : Vector StatusSlot 32) (cls : TripClass) :
    v.toList.any (fun x => x.present && decide (x.worst = cls)) = true ↔ ∃ j : Fin 32, v[j].present = true ∧ v[j].worst = cls := by
  simp only [List.any_eq_true, Bool.and_eq_true, decide_eq_true_eq]
  constructor
  · rintro ⟨x, hx, hslot⟩
    obtain ⟨j, hj, rfl⟩ := List.mem_iff_getElem.mp hx
    exact ⟨⟨j, by simpa using hj⟩, by simpa using hslot⟩
  · rintro ⟨j, hslot⟩
    exact ⟨v[j], by simp, hslot⟩

/-! ## Inhibits (R44) -/

theorem inhibit_eq (s : State) (i : Fin 16) (cause : AxisCause) :
    s.inhibit i cause =
      if (s.axis i).engaged then
        (s.setAxis i { s.axis i with state := .inhibited }).post (.axisState i .inhibited cause (s.axis i).binding)
      else s := by
  simp only [State.inhibit, State.postAxisState, setAxis_axis]

theorem axisNumbers_nodup : axisNumbers.Nodup := by decide

/-- The axes that `reached` chooses become INHIBITED, and their notices are posted in rising number. -/
theorem inhibit_axes (reached : Axis → Bool) (why : AxisCause) (s : State) :
    axisNumbers.foldl (fun s i =>
        if reached (s.axis i) then (s.setAxis i { s.axis i with state := .inhibited }).post (.axisState i .inhibited why (s.axis i).binding)
        else s) s
      = ((axisNumbers.filter fun i => reached (s.axis i)).map fun i => Notice.axisState i .inhibited why (s.axis i).binding).foldl
        State.post { s with axes := s.axes.map fun a => if reached a then { a with state := .inhibited } else a } := by
  rw [inhibit_foldl reached why axisNumbers s axisNumbers_nodup, ofFn_inhibited]

theorem inhibitAll_eq (s : State) (cause : AxisCause) :
    s.inhibitAll cause =
      ((axisNumbers.filter fun i => (s.axis i).engaged).map fun i => Notice.axisState i .inhibited cause (s.axis i).binding).foldl
        State.post { s with axes := s.axes.map fun a => if a.engaged then { a with state := .inhibited } else a } := by
  rw [← inhibit_axes Axis.engaged cause s]
  simp only [State.inhibitAll, inhibit_eq]

theorem inhibitPort_eq (s : State) (p : Fin 4) :
    s.inhibitPort p =
      ((axisNumbers.filter fun i => (s.axis i).engaged && decide ((s.axis i).binding.map (·.1) = some p)).map fun i =>
          Notice.axisState i .inhibited .port (s.axis i).binding).foldl
        State.post { s with axes := s.axes.map fun a =>
          if a.engaged && decide (a.binding.map (·.1) = some p) then { a with state := .inhibited } else a } := by
  rw [← inhibit_axes (fun a => a.engaged && decide (a.binding.map (·.1) = some p)) .port s]
  unfold State.inhibitPort
  refine congrArg (fun f => axisNumbers.foldl f s) ?_
  funext s i
  simp only [inhibit_eq, Bool.and_eq_true, decide_eq_true_eq]
  by_cases hport : (s.axis i).binding.map (·.1) = some p
  · simp only [hport, if_true, and_true]
  · simp only [hport, if_false, and_false]

/-! ## The head trip (R112) -/

/-- The better of the best so far and the next candidate. -/
def takeCandidate (a b : HeadTrip × Nat) : HeadTrip × Nat := if headBetter a b then b else a

theorem headBetter_iff (a b : HeadTrip × Nat) :
    headBetter a b = true ↔ a.1.cls.code < b.1.cls.code ∨ (a.1.cls.code = b.1.cls.code ∧ a.2 < b.2) := by
  simp only [headBetter, Bool.or_eq_true, Bool.and_eq_true, decide_eq_true_eq]

theorem foldl_takeCandidate_mem (l : List (HeadTrip × Nat)) (a : HeadTrip × Nat) : l.foldl takeCandidate a ∈ a :: l := by
  induction l generalizing a with
  | nil => exact List.mem_cons_self
  | cons x l ih =>
    rcases List.mem_cons.mp (ih (takeCandidate a x)) with h | h
    · rw [List.foldl_cons, h, takeCandidate]
      split
      · exact List.mem_cons_of_mem a List.mem_cons_self
      · exact List.mem_cons_self
    · exact List.mem_cons_of_mem a (List.mem_cons_of_mem x h)

theorem foldl_takeCandidate_keeps (l : List (HeadTrip × Nat)) (a : HeadTrip × Nat) (h : ∀ x ∈ l, ¬headBetter a x = true) :
    l.foldl takeCandidate a = a := by
  induction l with
  | nil => rfl
  | cons x l ih =>
    have hx : takeCandidate a x = a := if_neg (h x List.mem_cons_self)
    rw [List.foldl_cons, hx, ih fun y hy => h y (List.mem_cons_of_mem x hy)]

/-- The candidate that beats all before it, and that none after it beats, is the head. -/
theorem headOf_eq {l before after : List (HeadTrip × Nat)} {x : HeadTrip × Nat} (hl : l = before ++ x :: after)
    (hbefore : ∀ y ∈ before, headBetter y x = true) (hafter : ∀ y ∈ after, ¬headBetter x y = true) : headOf l = some x := by
  subst hl
  cases before with
  | nil => exact congrArg some (foldl_takeCandidate_keeps after x hafter)
  | cons b before =>
    have hx : takeCandidate (before.foldl takeCandidate b) x = x := if_pos (hbefore _ (foldl_takeCandidate_mem before b))
    change some ((before ++ x :: after).foldl takeCandidate b) = some x
    rw [List.foldl_append, List.foldl_cons, hx, foldl_takeCandidate_keeps after x hafter]

theorem headTrip_of_split {s : State} {before after : List (HeadTrip × Nat)} {x : HeadTrip × Nat}
    (hl : s.trips.candidates s.angle.nodeId = before ++ x :: after) (hbefore : ∀ y ∈ before, headBetter y x = true)
    (hafter : ∀ y ∈ after, ¬headBetter x y = true) : s.headTrip = some x.1 := by
  rw [State.headTrip, headOf_eq hl hbefore hafter]
  rfl

theorem headTrip_of_none {s : State} (hl : s.trips.localList = []) (hr : s.trips.remote = []) : s.headTrip = none := by
  simp [State.headTrip, TripUnit.candidates, hl, hr, headOf]

theorem headTrip_of_local {s : State} {before after : List LocalEntry} {e : LocalEntry} (hl : s.trips.localList = before ++ e :: after)
    (hbefore : ∀ x ∈ before, x.cls.code < e.cls.code ∨ (x.cls.code = e.cls.code ∧ x.priority < e.priority))
    (hafter : ∀ x ∈ after, x.cls.code < e.cls.code ∨ (x.cls.code = e.cls.code ∧ x.priority ≤ e.priority))
    (hremote : ∀ x ∈ s.trips.remote, x.cls.code < e.cls.code ∨ (x.cls.code = e.cls.code ∧ x.priority ≤ e.priority)) :
    s.headTrip = some { origin := s.angle.nodeId, source := e.source.val, cls := e.cls } := by
  refine headTrip_of_split (x := ({ origin := s.angle.nodeId, source := e.source.val, cls := e.cls }, e.priority))
    (by rw [TripUnit.candidates, hl, List.map_append, List.map_cons, List.append_assoc, List.cons_append]) ?_ ?_
  · simp only [List.mem_map, headBetter_iff]
    rintro _ ⟨x, hx, rfl⟩
    exact hbefore x hx
  · simp only [List.mem_append, List.mem_map, headBetter_iff]
    rintro _ (⟨x, hx, rfl⟩ | ⟨x, hx, rfl⟩)
    · have := hafter x hx
      dsimp only
      omega
    · have := hremote x hx
      dsimp only
      omega

theorem headTrip_of_remote {s : State} {before after : List RemoteEntry} {e : RemoteEntry} (hr : s.trips.remote = before ++ e :: after)
    (hlocal : ∀ x ∈ s.trips.localList, x.cls.code < e.cls.code ∨ (x.cls.code = e.cls.code ∧ x.priority < e.priority))
    (hbefore : ∀ x ∈ before, x.cls.code < e.cls.code ∨ (x.cls.code = e.cls.code ∧ x.priority < e.priority))
    (hafter : ∀ x ∈ after, x.cls.code < e.cls.code ∨ (x.cls.code = e.cls.code ∧ x.priority ≤ e.priority)) :
    s.headTrip = some { origin := e.origin, source := e.source, cls := e.cls } := by
  refine headTrip_of_split (x := ({ origin := e.origin, source := e.source, cls := e.cls }, e.priority))
    (by rw [TripUnit.candidates, hr, List.map_append, List.map_cons, ← List.append_assoc]) ?_ ?_
  · simp only [List.mem_append, List.mem_map, headBetter_iff]
    rintro _ (⟨x, hx, rfl⟩ | ⟨x, hx, rfl⟩)
    · exact hlocal x hx
    · exact hbefore x hx
  · simp only [List.mem_map, headBetter_iff]
    rintro _ ⟨x, hx, rfl⟩
    have := hafter x hx
    dsimp only
    omega

theorem reportHeadTrip_eq (s : State) :
    s.reportHeadTrip =
      if (s.headTrip.map (·.cls)).getD .none = s.screen.headClass then s
      else
        ({ s with screen := match s.screen.banner with
          | some b => ({ s.screen with headClass := (s.headTrip.map (·.cls)).getD .none } : Screen).markRect b.rect
          | none => { s.screen with headClass := (s.headTrip.map (·.cls)).getD .none } } : State).runSender := by
  unfold State.reportHeadTrip State.reportHead Screen.markBanner
  rfl

/-- Settles O33: the remote table by the three cases of a frame and the judging of a vector; the class by `formed_isHighest`; its reactions by
the role and the line; inhibits and the head trip by their lemmas. -/
theorem effectiveClassChangesReact : Obligations.EffectiveClassChangesReact := by
  refine ⟨fun s origin payload => ?table, formed_isHighest, fun s => ⟨reform_of_same, fun h => ?reacts, ?firstOut⟩,
    fun s cause p => ?inhibits, fun s => ?head⟩
  case table =>
    intro source cls priority t told settled held
    have hsettled (u : State) : u.settleOverflow = settled u := settleOverflow_eq u
    refine ⟨fun h => ?_, fun h hroom => ?_, fun h hfull => ?_, fun h => ?_, fun h => deliverTripClear_of_unmatched h, fun v => ?_⟩
    · rw [State.deliverTrip, record_of_held _ _ _ h]
      rfl
    · rw [State.deliverTrip, record_of_room _ _ _ h hroom]
      rfl
    · rw [State.deliverTrip, record_of_full _ _ _ h hfull]
      rfl
    · rw [deliverTripClear_of_held h, hsettled]
      rfl
    · intro kept classes u
      have hkept : keptEntries s.trips.remote v = kept := keptEntries_eq s.trips.remote v
      have hu : (s.holdVector v).reform = u := rfl
      have hlists (x : State) : x.listsChanged = x.reform.reportHeadTrip := rfl
      clear_value u kept settled
      rw [takeVector_eq hu, hkept, hsettled, hlists]
  case reacts =>
    intro cls t u moving line stopped
    have hu : s.classTaken = u := rfl
    have hchanged : s.reform = if u.isMaster then u.lineReaction else u := reform_of_changed h
    have hangle : u.angle = s.angle := (classTaken_only s .angle (by decide)).symm
    have hmaster : u.master = s.master := (classTaken_only s .master (by decide)).symm
    have heffective : u.trips.effective = cls := classTaken_effective s
    have hline : lineAfterTrip u.angle.lineState cls = line := by
      rw [hangle]
      exact lineAfterTrip_eq _ _
    have hmoving : LineState.moving s.angle.lineState = true ↔ moving := decide_eq_true_iff
    have hreaction (firstOut : Option FirstOut)
        (hfirst : (if line ≠ s.angle.lineState ∧ moving then some u.firstOutNow else s.master.firstOut) = firstOut) :
        u.lineReaction =
          if line ≠ s.angle.lineState then (stopped firstOut).post (.lineState line s.angle.cycleNumber) else stopped firstOut := by
      rw [lineReaction_eq heffective hline firstOut (by rw [hangle, hmaster]; simp only [hmoving]; exact hfirst)]
      dsimp only [stopped]
      rw [hangle, hmaster]
    have hisMaster : u.isMaster = true ↔ s.angle.role = .master := by rw [isMaster_iff, hangle]
    refine ⟨fun hm => ?_, fun hm hl => ?_, fun hm hl hstill => ?_, fun hm hl hmoves => ?_⟩
    · rw [hchanged, if_neg (by rw [hisMaster, hm]; decide)]
    · rw [hchanged, if_pos (hisMaster.mpr hm), hreaction _ (if_neg (not_and_of_not_left _ (not_not_intro hl))), if_neg (not_not_intro hl)]
    · rw [hchanged, if_pos (hisMaster.mpr hm), hreaction _ (if_neg (not_and_of_not_right _ hstill)), if_pos hl]
    · rw [hchanged, if_pos (hisMaster.mpr hm), hreaction _ (if_pos ⟨hl, hmoves⟩), if_pos hl]
  case firstOut =>
    intro eff named v
    refine ⟨fun h => firstOutNow_of_head, fun hno hslots => ?_, fun i hno hsome hi hall hbefore => ?_⟩
    · rw [firstOutNow_of_no_head hno, if_neg]
      rw [any_slot_iff]
      rintro ⟨j, hpresent, hworst⟩
      exact hslots j hpresent hworst
    · rw [firstOutNow_of_no_head hno, if_pos ((any_slot_iff _ _).mpr hsome), highestSlot_of_highest hi hall hbefore]
  case inhibits =>
    exact ⟨inhibitAll_eq s cause, inhibitPort_eq s p⟩
  case head =>
    exact ⟨headTrip_of_none, fun _ _ _ => headTrip_of_local, fun _ _ _ => headTrip_of_remote, reportHeadTrip_eq s⟩

end Sys2Proof.Machine
end

section
/-! Proofs. The control port (chapter 9): request transactions and their judging (R164 to R166), replies held or discarded, read
transactions (R164, R171), notices and FETCH_NOTICE (R168 to R170). -/

namespace Sys2Proof.Machine

/-! ## A request transaction (R164 to R166) -/

theorem take_of_free {s : State} (x : Item) (h : s.ctl.inProgress = none) :
    s.take x = { s with ctl :=
      { s.ctl with
        inProgress := some x, reply := none, restartPending := false
        lostMark := s.ctl.lostMark || s.ctl.reply.isSome || s.ctl.restartPending } } := by
  simp only [State.take, h, Option.isNone_none, if_true]

theorem take_of_busy {s : State} (x : Item) (h : s.ctl.inProgress ≠ none) :
    s.take x = { s with ctl := { s.ctl with waiting := some x, lostMark := s.ctl.lostMark || s.ctl.waiting.isSome } } :=
  if_neg fun hnone => h (Option.isNone_iff_eq_none.mp hnone)

/-- The CRC-16 of a record whose length field counts `n` bytes stands in the two bytes after them. -/
theorem crc16Good_take_iff {bs : List Byte} {n : Nat} (h : n + 2 ≤ bs.length) :
    crc16Good (bs.take (n + 2)) = true ↔ u16 (crc16 (bs.take n)).toNat = (bs.drop n).take 2 := by
  have hlength : (bs.take (n + 2)).length = n + 2 := by rw [List.length_take, Nat.min_eq_left h]
  have hlast : (bs.take (n + 2)).drop n = (bs.drop n).take 2 := by rw [List.drop_take, Nat.add_sub_cancel_left]
  have hfirst : (bs.take (n + 2)).take n = bs.take n := by rw [List.take_take, Nat.min_eq_left (Nat.le_add_right n 2)]
  rw [crc16Good, hlength, Nat.add_sub_cancel, hlast, hfirst, Bool.and_eq_true, decide_eq_true_eq, decide_eq_true_eq]
  exact ⟨fun hgood => hgood.2.symm, fun hcrc => ⟨Nat.le_add_left 2 n, hcrc.symm⟩⟩

theorem malformed_iff (bs : List Byte) :
    malformed bs = true ↔ bs.length + 1 < 7 ∨ 1040 < fieldAt bs 0 2 ∨ bs.length < fieldAt bs 0 2 + 6
      ∨ u16 (crc16 (bs.take (fieldAt bs 0 2 + 4))).toNat ≠ (bs.drop (fieldAt bs 0 2 + 4)).take 2 := by
  by_cases hshort : bs.length < fieldAt bs 0 2 + 6
  · simp [malformed, hshort]
  · have hcrc := crc16Good_take_iff (Nat.not_lt.mp hshort : fieldAt bs 0 2 + 4 + 2 ≤ bs.length)
    have hbad : (!crc16Good (bs.take (fieldAt bs 0 2 + 6))) = true
        ↔ u16 (crc16 (bs.take (fieldAt bs 0 2 + 4))).toNat ≠ (bs.drop (fieldAt bs 0 2 + 4)).take 2 := by
      rw [Bool.not_eq_true', ← Bool.not_eq_true]
      exact not_congr hcrc
    simp only [malformed, Bool.or_eq_true, decide_eq_true_eq, hbad, or_assoc]
    exact or_congr_left (by omega)

theorem judge_of_wellFramed {bs : List Byte} (hframe : malformed bs = false) (hkind : byteAt bs 2 ∈ requestKinds) :
    judge bs =
      match parseRequest (byteAt bs 2) ((bs.drop 4).take (fieldAt bs 0 2)) with
      | some r => .wellFormed r
      | none => .range := by
  have hknown : requestKinds.contains (byteAt bs 2) = true := List.contains_iff_mem.mpr hkind
  rw [judge, hframe, hknown]
  rfl

theorem judge_of_malformed {bs : List Byte} (hframe : malformed bs = true) : judge bs = .badFrame := by
  rw [judge, if_pos hframe]

theorem judge_of_unknown {bs : List Byte} (hframe : malformed bs = false) (hkind : byteAt bs 2 ∉ requestKinds) :
    judge bs = .unknown := by
  have hunknown : requestKinds.contains (byteAt bs 2) = false := by simpa using hkind
  rw [judge, hframe, if_neg Bool.false_ne_true, if_pos hunknown]

theorem itemOf_kind (s : State) (bs : List Byte) : (s.itemOf bs).kind = byteAt bs 2 ∧ (s.itemOf bs).tag = byteAt bs 3 := by
  unfold State.itemOf
  cases judge bs <;> exact ⟨rfl, rfl⟩

/-- What becomes of a record, case by case of its judging. -/
theorem itemOf_work (s : State) (bs : List Byte) :
    (s.itemOf bs).work =
      match judge bs with
      | .badFrame => .answered { status := .badFrame }
      | .unknown => .answered { status := .unknown }
      | .range => .answered { status := .range, body := if byteAt bs 2 ∈ screenKinds then s.screenSummary else [] }
      | .wellFormed r => .todo r := by
  unfold State.itemOf
  cases judge bs <;> simp only [List.contains_iff_mem]

/-- Settles O5: a transaction by the port's state, a record by the cases of its judging. -/
theorem requestRecordIsTakenAndJudged : Obligations.RequestRecordIsTakenAndJudged := by
  refine ⟨fun s bytes => ?transaction, fun s bs => ⟨(itemOf_kind s bs).1, (itemOf_kind s bs).2, ?judged⟩⟩
  case transaction =>
    change Host.Outcome.next (s.requestEnds bytes) = _
    cases hignoring : s.ctl.ignoring with
    | true => rw [State.requestEnds, hignoring]; rfl
    | false =>
      rw [State.requestEnds, hignoring, if_neg Bool.false_ne_true, if_neg Bool.false_ne_true]
      by_cases hfree : s.ctl.inProgress = none
      · rw [take_of_free _ (by exact hfree)]
        dsimp only
        rw [if_pos hfree]
      · rw [take_of_busy _ (by exact hfree)]
        dsimp only
        rw [if_neg hfree]
  case judged =>
    have hbyte : bs.getD 2 0 = byteAt bs 2 := rfl
    rw [itemOf_work, hbyte]
    cases hframe : malformed bs with
    | true => rw [judge_of_malformed hframe, if_pos ((malformed_iff bs).mp hframe)]
    | false =>
      rw [if_neg (mt (malformed_iff bs).mpr (by simp [hframe]))]
      by_cases hkind : byteAt bs 2 ∈ requestKinds
      · rw [judge_of_wellFramed hframe hkind, if_neg (not_not_intro hkind)]
        cases parseRequest (byteAt bs 2) ((bs.drop 4).take (fieldAt bs 0 2)) <;> rfl
      · rw [judge_of_unknown hframe hkind, if_pos hkind]

/-! ## Replies (R165, R166, R171) -/

theorem flagsOf_eq (s : State) (a : Answer) :
    s.flagsOf a =
      (if s.ctl.notices.isEmpty then 0 else 1) + (if s.ctl.overflow || a.overflowBefore then 2 else 0)
        + (if s.ctl.lostMark then 4 else 0) := by
  unfold State.flagsOf replyFlags
  cases s.ctl.notices.isEmpty <;> rfl

theorem holdReply_eq (s : State) (bytes : List Byte) :
    s.holdReply bytes =
      { s with
        fresh := s.fresh + 1
        ctl :=
          if s.ctl.waiting.isSome then
            { s.ctl with inProgress := s.ctl.waiting.map s.takenUp, waiting := none, lostMark := true, restartPending := false }
          else { s.ctl with inProgress := none, reply := some bytes, lostMark := false } } := by
  unfold State.holdReply
  cases s.ctl.waiting <;> rfl

/-- Settles O6. -/
theorem replyIsHeldOrDiscarded : Obligations.ReplyIsHeldOrDiscarded := by
  refine fun s at_ => ⟨fun hnone => congrArg Host.Outcome.next (formReply_of_none hnone), fun x t a hx hwork => ?_⟩
  intro flags body record
  have hrecord : t.replyOf x a = record := by
    rw [State.replyOf, flagsOf_eq]
    rfl
  have hforms : (s.tick at_).formReply = t.holdReply record := by
    rw [formReply_of_some (s := s.tick at_) hx, hwork, hrecord]
  change Host.Outcome.next (s.tick at_).formReply = _
  rw [hforms, holdReply_eq]
  rfl

/-! ## Read transactions (R164, R171) -/

theorem misoBytes_of_none (clocked : Nat) : misoBytes none clocked = List.replicate clocked 0 := by
  simp [misoBytes]

theorem misoBytes_of_short {record : List Byte} {clocked : Nat} (h : clocked < record.length) :
    misoBytes (some record) clocked = record.take clocked := by
  rw [misoBytes, Option.getD_some, List.take_append_of_le_length h.le]

theorem misoBytes_of_whole {record : List Byte} {clocked : Nat} (h : record.length ≤ clocked) :
    misoBytes (some record) clocked = record ++ List.replicate (clocked - record.length) 0 := by
  rw [misoBytes, Option.getD_some, List.take_append, List.take_of_length_le h, List.take_replicate,
    Nat.min_eq_left (Nat.sub_le clocked record.length)]

theorem readEnds_of_ignoring {s : State} (clocked : Nat) (straps : Straps) (h : s.ctl.ignoring = true) :
    s.readEnds clocked straps = { s with ctl := { s.ctl with ignoring := false } } :=
  if_pos h

theorem readEnds_of_none {s : State} (clocked : Nat) (straps : Straps) (hi : s.ctl.ignoring = false) (hr : s.ctl.reply = none) :
    s.readEnds clocked straps = { s with ctl := { s.ctl with miso := List.replicate clocked 0 } } := by
  rw [State.readEnds, hi, hr, misoBytes_of_none]
  rfl

theorem readEnds_of_short {s : State} {record : List Byte} {clocked : Nat} (straps : Straps) (hi : s.ctl.ignoring = false)
    (hr : s.ctl.reply = some record) (hshort : clocked < record.length) :
    s.readEnds clocked straps = { s with ctl := { s.ctl with miso := record.take clocked } } := by
  have hwhole : ¬(Option.any (fun r : List Byte => decide (r.length ≤ clocked)) (some record)) = true := by
    simpa using hshort
  rw [State.readEnds, hi, hr, misoBytes_of_short hshort, if_neg Bool.false_ne_true, if_neg hwhole]

theorem readEnds_of_whole {s : State} {record : List Byte} {clocked : Nat} (straps : Straps) (hi : s.ctl.ignoring = false)
    (hr : s.ctl.reply = some record) (hwhole : record.length ≤ clocked) :
    s.readEnds clocked straps =
      if s.ctl.restartPending then s.restartPart straps (record ++ List.replicate (clocked - record.length) 0)
      else { s with ctl :=
        { s.ctl with reply := none, miso := record ++ List.replicate (clocked - record.length) 0 } } := by
  have hclocked : (Option.any (fun r : List Byte => decide (r.length ≤ clocked)) (some record)) = true := by
    simpa using hwhole
  rw [State.readEnds, hi, hr, misoBytes_of_whole hwhole, if_neg Bool.false_ne_true, if_pos hclocked]

/-- Settles O7. -/
theorem readTransactionClocksTheReply : Obligations.ReadTransactionClocksTheReply := by
  refine fun s at_ clocked straps => ⟨fun hi => congrArg Host.Outcome.next (readEnds_of_ignoring clocked straps hi),
    fun hi hr => congrArg Host.Outcome.next (readEnds_of_none clocked straps hi hr), fun record hi hr => ?_⟩
  change Host.Outcome.next ((s.tick at_).readEnds clocked straps) = _
  by_cases hshort : clocked < record.length
  · rw [if_pos hshort, readEnds_of_short (s := s.tick at_) straps hi hr hshort]
    rfl
  · rw [if_neg hshort, readEnds_of_whole (s := s.tick at_) straps hi hr (Nat.not_lt.mp hshort)]
    change Host.Outcome.next (if s.ctl.restartPending then _ else _) = _
    cases s.ctl.restartPending <;> rfl

/-! ## Notices (R168 to R170) -/

theorem any_key_iff (n : Notice) (l : List Notice) :
    (n.key.isSome && l.any fun m => decide (m.key = n.key)) = true ↔ n.key ≠ none ∧ n.key ∈ l.map Notice.key := by
  simp only [Bool.and_eq_true, Option.isSome_iff_ne_none, List.any_eq_true, decide_eq_true_eq, List.mem_map]

/-- Where a posting finds its place, and whether it is admitted. -/
theorem placeNotice_eq (n : Notice) (l : List Notice) :
    placeNotice n l =
      (if n.key ≠ none ∧ n.key ∈ l.map Notice.key then l.map fun m => if m.key = n.key then n else m
        else if l.length < 32 then l ++ [n] else l,
        decide (n.key ≠ none ∧ n.key ∈ l.map Notice.key) || decide (l.length < 32)) := by
  unfold placeNotice
  by_cases hkey : n.key ≠ none ∧ n.key ∈ l.map Notice.key
  · rw [if_pos ((any_key_iff n l).mpr hkey), if_pos hkey, decide_eq_true hkey]
    rfl
  · rw [if_neg (mt (any_key_iff n l).mp hkey), if_neg hkey, decide_eq_false hkey]
    by_cases hroom : l.length < 32
    · rw [if_pos hroom, decide_eq_true hroom]
      exact if_pos hroom
    · rw [if_neg hroom, decide_eq_false hroom]
      exact if_neg hroom

theorem post_eq (s : State) (n : Notice) :
    s.post n = { s with ctl := { s.ctl with
      notices :=
        if n.key ≠ none ∧ n.key ∈ s.ctl.notices.map Notice.key then s.ctl.notices.map fun m => if m.key = n.key then n else m
        else if s.ctl.notices.length < 32 then s.ctl.notices ++ [n]
        else s.ctl.notices
      overflow :=
        s.ctl.overflow || !(decide (n.key ≠ none ∧ n.key ∈ s.ctl.notices.map Notice.key) || decide (s.ctl.notices.length < 32)) } } := by
  rw [State.post, placeNotice_eq]

/-- The notices that a fetch takes are within its limits, and one more is not. -/
theorem fetchCount_spec (n room : Nat) (l : List Notice) :
    fetchCount n room l ≤ n ∧ fetchCount n room l ≤ l.length
      ∧ ((l.take (fetchCount n room l)).flatMap Notice.record).length ≤ room
      ∧ (fetchCount n room l < n → fetchCount n room l < l.length →
        room < ((l.take (fetchCount n room l + 1)).flatMap Notice.record).length) := by
  induction l generalizing n room with
  | nil => cases n <;> simp [fetchCount]
  | cons x l ih =>
    cases n with
    | zero => simp [fetchCount]
    | succ n =>
      by_cases hfits : x.record.length ≤ room
      · obtain ⟨hlimit, hlength, hroom, hnext⟩ := ih n (room - x.record.length)
        have hcount : fetchCount (n + 1) room (x :: l) = fetchCount n (room - x.record.length) l + 1 := if_pos hfits
        rw [hcount]
        simp only [List.take_succ_cons, List.flatMap_cons, List.length_append, List.length_cons]
        refine ⟨by omega, by omega, by omega, fun hn hl => ?_⟩
        have := hnext (by omega) (by omega)
        omega
      · have hcount : fetchCount (n + 1) room (x :: l) = 0 := if_neg hfits
        rw [hcount]
        refine ⟨by omega, by omega, by simp, fun _ _ => ?_⟩
        simpa using hfits

/-- Settles O10: a posting by `post_eq`, a fetch with the count that `fetchCount_spec` describes. -/
theorem noticesAreAdmittedAndFetched : Obligations.NoticesAreAdmittedAndFetched := by
  refine ⟨post_eq, ⟨fun s hw => ⟨fetchCount fetchLimit fetchRoom s.ctl.notices, ?fetch⟩, fun s hw => ?restart⟩, fun s => ?attn⟩
  case fetch =>
    intro left out
    obtain ⟨hlimit, hlength, hroom, hnext⟩ := fetchCount_spec fetchLimit fetchRoom s.ctl.notices
    have hbytes (a b : Nat) (l : List Byte) : (u8 a ++ u8 b ++ l).length = l.length + 2 := by
      simp [u8]
    have hempty : (if left = [] then false else s.ctl.overflow) = if left.isEmpty then false else s.ctl.overflow := by
      simp only [List.isEmpty_iff]
    refine ⟨?_, hlimit, hlength, ?_, fun h8 hmore => ?_⟩
    · rw [exec_of_working (c := .fetchNotice) rfl hw, hempty, List.append_assoc]
      rfl
    · rw [hbytes]
      exact Nat.add_le_add_right hroom 2
    · rw [hbytes]
      exact Nat.add_lt_add_right (hnext h8 hmore) 2
  case restart =>
    rw [exec_of_working (c := .restart) rfl hw]
    rfl
  case attn =>
    simp [State.attnLow]

end Sys2Proof.Machine
end

section
/-! Proofs. The requests that only read (R22, R46, R66, R91, R116, R132, R149, R167): their records; and a slot read of the image store
between its two looks (R131). -/

namespace Sys2Proof.Machine

/-! ## The codings of R174 -/

theorem uFlag_eq (b : Bool) : uFlag b = [if b then 0 else 1] := by
  cases b <;> rfl

theorem uOpt_none {α : Type} (enc : α → List Byte) : uOpt enc none = [0] := rfl

theorem uOpt_some {α : Type} (enc : α → List Byte) (x : α) : uOpt enc (some x) = 1 :: enc x := rfl

theorem uList_eq {α : Type} (enc : α → List Byte) (l : List α) : uList enc l = BitVec.ofNat 8 l.length :: l.flatMap enc := rfl

/-! ## Records whose fields the model gathers or computes -/

theorem portNumbers_flatMap (f : Fin 4 → List Byte) : portNumbers.flatMap f = f 0 ++ f 1 ++ f 2 ++ f 3 := by
  simp only [portNumbers, List.flatMap_cons, List.flatMap_nil, List.append_nil, List.append_assoc]

theorem workStatus_eq (s : State) :
    workStatus s = answered s
      (u8 (AngleState.code s.angle.state) ++ u8 (LineState.code s.angle.lineState) ++ u8 s.trips.effective.code
        ++ u8 s.trips.localList.length ++ u8 s.trips.remote.length ++ uFlag s.trips.impressionOff ++ u8 (RingMode.code s.ring.mode)
        ++ u8 (PortState.code (s.port 0).state) ++ u8 (PortState.code (s.port 1).state) ++ u8 (PortState.code (s.port 2).state)
        ++ u8 (PortState.code (s.port 3).state) ++ u8 (s.axesIn .free) ++ u8 (s.axesIn .catching) ++ u8 (s.axesIn .coupled)
        ++ u8 (s.axesIn .inhibited) ++ u8 (ScreenState.code s.screen.state) ++ u8 s.ctl.notices.length ++ uFlag s.ctl.overflow
        ++ u8 (WindowState.code s.trips.window)) := by
  rw [workStatus, portNumbers_flatMap]
  simp only [List.append_assoc]

theorem windowAgeMs_of_off {s : State} (h : s.trips.window = .off) : s.windowAgeMs = 0 := if_pos h

theorem windowAgeMs_of_open {s : State} (h : s.trips.window ≠ .off) :
    s.windowAgeMs = min ((s.now - s.trips.openedAt.getD s.now) / 1000000) 65535 := if_neg h

/-- What READ_LINE returns of the master's fields, by the role. -/
theorem workReadLine_eq (s : State) :
    workReadLine s = answered s
      (encodeAngleRecord s.angle ++ (if s.angle.role = .master then encodeMaster s.master else List.replicate 20 0)) := by
  simp only [workReadLine, isMaster_iff, memberMaster]

theorem workReadRing_eq (s : State) :
    workReadRing s = answered s
      (encodeFibre s.ring.a ++ encodeFibre s.ring.b ++ u8 (RingMode.code s.ring.mode) ++ u8 s.ring.localQueue.length
        ++ u8 s.ring.tripSequence.toNat ++ uFlag s.ring.restartFlag ++ u16 s.ring.bulkSequence.toNat ++ u16 s.ring.a.crcErrors
        ++ u16 s.ring.b.crcErrors ++ u16 s.ring.forwardDrops ++ u16 s.ring.strays ++ u16 s.ring.urgentDrops ++ u16 s.ring.duplicates
        ++ u16 s.angle.foreignMaster ++ u16 s.angle.alignLate
        ++ uList (fun x : Nat × Nat => u8 x.1 ++ u8 x.2) (if s.angle.role = .master then s.ring.roster else [])
        ++ uList u8 (if s.angle.role = .master then s.ring.lost else [])) := by
  simp only [workReadRing, isMaster_iff]

/-! ## The reads of one object, by its number -/

theorem endRow_workReadAxis (n : Nat) (s : State) :
    endRow (workReadAxis n s) =
      if h : n < 16 then s.replies .ok (encodeAxis (s.axis ⟨n, h⟩) s.straySteps) else s.replies .range := by
  unfold workReadAxis
  by_cases h : n < 16
  · rw [dif_pos h, if_pos h, finOfNat_of_lt h, endRow_answered]
  · rw [dif_neg h, if_neg h, endRow_refuse]

theorem endRow_workReadPort (n : Nat) (s : State) :
    endRow (workReadPort n s) = if h : n < 4 then s.replies .ok (s.encodePort ⟨n, h⟩) else s.replies .range := by
  unfold workReadPort
  by_cases h : n < 4
  · rw [dif_pos h, if_pos h, finOfNat_of_lt h, endRow_answered]
  · rw [dif_neg h, if_neg h, endRow_refuse]

theorem endRow_workReadStoreSummary (n : Nat) (s : State) :
    endRow (workReadStoreSummary n s) =
      if h : n < 4 then
        s.replies .ok (encodeMap (s.map ⟨n, h⟩)
          ++ if n = 0 then
              u8 s.store.decimation ++ u8 s.store.hStep ++ u16 s.store.stored ++ u8 s.store.streamDest ++ u16 s.store.unboundLines
                ++ u16 s.store.streamSkips ++ encodeCamera s.camera
            else [])
      else s.replies .range := by
  unfold workReadStoreSummary
  by_cases h : n < 4
  · rw [dif_pos h, if_pos h, finOfNat_of_lt h, endRow_answered]
  · rw [dif_neg h, if_neg h, endRow_refuse]

/-- The reads answered at a port that works them. -/
theorem reads_answer (s : State) (at_ n : Nat) :
    (s.working .identify = true →
        exec .identify s = s.replies .ok
          (u16 Config.identityCode.toNat ++ u8 Config.siliconRevision.toNat ++ u8 s.angle.nodeId ++ u8 (Role.code s.angle.role)
            ++ u8 (ResetCause.code s.ctl.cause)))
      ∧ (s.working .status = true → exec .status s = endRow (workStatus s))
      ∧ (s.working .readLine = true → exec .readLine s = endRow (workReadLine s))
      ∧ (s.working (.readAxis n) = true → exec (.readAxis n) s = endRow (workReadAxis n s))
      ∧ (s.working (.readPort n) = true → exec (.readPort n) s = endRow (workReadPort n s))
      ∧ (s.working .readTrips = true → exec (.readTrips at_) s = (s.tick at_).replies .ok (s.tick at_).encodeTrips)
      ∧ (s.working .readRing = true → exec .readRing s = endRow (workReadRing s))
      ∧ (s.working (.readStoreSummary n) = true → exec (.readStoreSummary n) s = endRow (workReadStoreSummary n s))
      ∧ (s.working .readMarks = true → exec .readMarks s = endRow (workReadMarks s)) :=
  ⟨exec_of_working (c := .identify) rfl, exec_of_working (c := .status) rfl, exec_of_working (c := .readLine) rfl,
    exec_of_working (c := .readAxis n) rfl, exec_of_working (c := .readPort n) rfl, exec_of_working (c := .readTrips at_) rfl,
    exec_of_working (c := .readRing) rfl, exec_of_working (c := .readStoreSummary n) rfl, exec_of_working (c := .readMarks) rfl⟩

/-- Settles O8: the answers of the rows, then each record field by field. -/
theorem readRequestsAnswerAndChangeNothing : Obligations.ReadRequestsAnswerAndChangeNothing := by
  refine ⟨fun s at_ n => ?answers, fun b f x l => ⟨uFlag_eq b, uOpt_none f, uOpt_some f x, uList_eq f l⟩, fun a m => ⟨rfl, rfl⟩,
    fun a straySteps => rfl, fun s p => rfl, fun p => rfl, fun s => ?trips, fun m c => ⟨rfl, rfl⟩, fun c => rfl⟩
  case answers =>
    obtain ⟨hidentify, hstatus, hline, haxis, hport, htrips, hring, hstore, hmarks⟩ := reads_answer s at_ n
    refine ⟨hidentify, fun hw => ?_, fun hw => ?_, fun hw => ?_, fun hw => ?_, htrips, fun hw => ?_, fun hw => ?_, fun hw => ?_⟩
    · rw [hstatus hw, workStatus_eq, endRow_answered]
    · rw [hline hw, workReadLine_eq, endRow_answered]
    · rw [haxis hw, endRow_workReadAxis]
    · rw [hport hw, endRow_workReadPort]
    · rw [hring hw, workReadRing_eq, endRow_answered]
    · rw [hstore hw, endRow_workReadStoreSummary]
    · rw [hmarks hw, workReadMarks, endRow_answered, linesPerRevolution]
  case trips =>
    intro t age
    have hage : s.windowAgeMs = age := by
      dsimp only [age, t]
      cases hwindow : s.trips.window with
      | off => exact windowAgeMs_of_off hwindow
      | opened => exact windowAgeMs_of_open (by simp [hwindow])
      | expired => exact windowAgeMs_of_open (by simp [hwindow])
    clear_value age
    refine ⟨?_, worst_spec t⟩
    subst hage
    rfl

/-! ## A slot read of the image store (R131) -/

theorem pageByte_of_settled {s : State} {a : Nat} (nonce : Nat) (h : s.writeAt a = none) :
    s.pageByte nonce a = Memory.read s.store.pages a := by
  rw [State.pageByte, h]

theorem torn_iff (s : State) (c : StoreCopy) :
    s.torn c = true ↔ c.writing = true ∨ ((s.map c.map).slot c.slot).writing = true
      ∨ ((s.map c.map).slot c.slot).writeNumber ≠ c.writeNumber := by
  simp only [State.torn, Bool.or_eq_true, decide_eq_true_eq, or_assoc]

theorem copyBody_of_whole {s : State} {c : StoreCopy} (h : s.torn c = false) :
    s.copyBody c = [1] ++ uFlag c.present ++ u16 c.stamp.toNat ++ c.bytes ++ [0] := by
  rw [State.copyBody, h]
  rfl

theorem copyBody_of_torn {s : State} {c : StoreCopy} (h : s.torn c = true) :
    ∃ bytes : List Byte, bytes.length = c.bytes.length
      ∧ s.copyBody c = [1] ++ uFlag c.present ++ u16 c.stamp.toNat ++ bytes ++ [1] := by
  rw [State.copyBody, h]
  refine ⟨_, ?_, rfl⟩
  rw [if_pos rfl, List.length_map, List.length_range]

theorem endRow_workReadStoreSlot {map : Nat} (h : map < 4) (slot : Nat) (s : State) :
    endRow (workReadStoreSlot map slot s) =
      if (s.map ⟨map, h⟩).slotCount ≤ slot then s.replies .range
      else if ((s.map ⟨map, h⟩).entry ((s.map ⟨map, h⟩).pageOf slot)).valid = false then s.replies .ok [0]
      else .next (({ s with fresh := s.fresh + 1 } : State).note { status := .ok, copy := some (s.beginCopy ⟨map, h⟩ slot) }) := by
  rw [workReadStoreSlot, if_pos h, finOfNat_of_lt h]
  simp only [endRow_ite, endRow_refuse, endRow_answered]
  rfl

/-- The copy begun at the first look, its bytes from the slot's place in its physical page. -/
theorem beginCopy_eq (s : State) (i : Fin 4) (slot : Nat) :
    s.beginCopy i slot =
      { map := i, slot := slot, present := ((s.map i).slot slot).present, stamp := ((s.map i).slot slot).stamp
        writeNumber := ((s.map i).slot slot).writeNumber, writing := ((s.map i).slot slot).writing
        bytes := (List.range (s.map i).stride).map fun k =>
          s.pageByte s.fresh (((s.map i).entry (slot * (s.map i).stride / 2048)).page * 2048 + slot * (s.map i).stride % 2048 + k) } :=
  rfl

/-- Settles O9. -/
theorem slotReadCopiesBetweenTwoLooks : Obligations.SlotReadCopiesBetweenTwoLooks := by
  refine ⟨fun s map slot hw => ?looks, fun s nonce a => pageByte_of_settled nonce,
    fun s c => ⟨torn_iff s c, copyBody_of_whole, copyBody_of_torn⟩⟩
  rw [exec_of_working (c := .readStoreSlot map slot) rfl hw]
  change endRow (workReadStoreSlot map slot s) = _
  by_cases h : map < 4
  · rw [dif_pos h, endRow_workReadStoreSlot h, beginCopy_eq]
    rfl
  · rw [dif_neg h, workReadStoreSlot, if_neg h, endRow_refuse]

end Sys2Proof.Machine
end

section
/-! Proofs. A power-on reset (R2, R3, R48, R67, R93, R117, R123, R134, R150, R172): the values of the blocks, and the pages it keeps. -/

namespace Sys2Proof.Machine

/-! ## The pages a reset keeps (R123) -/

theorem Sparse.get_set_of_ne {α : Type} [DecidableEq α] (d : α) (l : List (Nat × α)) {a b : Nat} (v : α) (h : b ≠ a) :
    Sparse.get d (Sparse.set d l a v) b = Sparse.get d l b := by
  induction l with
  | nil =>
    unfold Sparse.set
    split
    · rfl
    · exact if_neg h
  | cons x l ih =>
    obtain ⟨k, w⟩ := x
    unfold Sparse.set
    split
    · split
      · rfl
      · exact if_neg h
    · split
      case isTrue hkey =>
        subst hkey
        split
        · exact (if_neg h).symm
        · exact (if_neg h).trans (if_neg h).symm
      case isFalse =>
        change (if b = k then w else Sparse.get d (Sparse.set d l a v) b) = if b = k then w else Sparse.get d l b
        rw [ih]

theorem tearWrite_read {w : LineWrite} {a : Nat} (nonce : Nat) (pages : List Host.Cell)
    (h : ¬(w.address ≤ a ∧ a < w.address + w.bytes.length)) : Memory.read (tearWrite nonce pages w) a = Memory.read pages a := by
  unfold tearWrite
  have hbelow : ∀ k ∈ List.range w.bytes.length, k < w.bytes.length := fun k hk => List.mem_range.mp hk
  generalize List.range w.bytes.length = l at hbelow
  induction l generalizing pages with
  | nil => rfl
  | cons k l ih =>
    have hother : a ≠ w.address + k := fun ha => h (by have := hbelow k List.mem_cons_self; omega)
    rw [List.foldl_cons, ih _ fun j hj => hbelow j (List.mem_cons_of_mem k hj)]
    split
    · exact Sparse.get_set_of_ne _ _ _ hother
    · rfl

theorem foldl_tearWrite_read {l : List LineWrite} {a : Nat} (nonce : Nat) (pages : List Host.Cell)
    (h : ∀ w ∈ l, ¬(w.address ≤ a ∧ a < w.address + w.bytes.length)) :
    Memory.read (l.foldl (tearWrite nonce) pages) a = Memory.read pages a := by
  induction l generalizing pages with
  | nil => rfl
  | cons w l ih =>
    rw [List.foldl_cons, ih _ fun x hx => h x (List.mem_cons_of_mem w hx), tearWrite_read nonce pages (h w List.mem_cons_self)]

/-- An address that no write in progress covers. -/
theorem writeAt_eq_none_iff (s : State) (a : Nat) :
    s.writeAt a = none ↔ ∀ i ∈ portNumbers, ∀ w, (s.map i).write = some w → ¬(w.address ≤ a ∧ a < w.address + w.bytes.length) := by
  simp only [State.writeAt, List.findSome?_eq_none_iff, Option.filter_eq_none_iff, decide_eq_true_eq]

theorem keptPages_read {s : State} {a : Nat} (h : s.writeAt a = none) :
    Memory.read s.keptPages a = Memory.read s.store.pages a := by
  refine foldl_tearWrite_read _ _ fun w hw => ?_
  obtain ⟨i, hi, hwrite⟩ := List.mem_filterMap.mp hw
  exact (writeAt_eq_none_iff s a).mp h i hi w hwrite

/-! ## The records a reset makes alike -/

theorem resetSources_get (pins : BitVec 12) (i : Fin 24) :
    (resetSources pins)[i] =
      { filtered := decide (i.val < 12) && pins.getLsbD i.val
        condition := (decide (i.val < 12) && !pins.getLsbD i.val) || decide (i.val = 19) } := by
  have hget : (resetSources pins)[i] =
      if i.val < 12 then { filtered := pinLevel pins i.val, condition := !pinLevel pins i.val }
      else { condition := i.val == 19 } := by
    simp [resetSources]
  rw [hget]
  by_cases hpin : i.val < 12
  · have hother : i.val ≠ 19 := by omega
    simp [hpin, hother, pinLevel]
  · rw [if_neg hpin, decide_eq_false hpin]
    rfl

theorem replicate_get {α : Type} {n : Nat} (x : α) (i : Fin n) : (Vector.replicate n x)[i] = x :=
  Vector.getElem_replicate i.isLt

/-- Settles O4: the state a reset makes is written out in `resetState`; its vectors of like records by `replicate_get` and
`resetSources_get`, its pages by `keptPages_read`. -/
theorem powerOnResetGivesTheBlocksTheirTableValues : Obligations.PowerOnResetGivesTheBlocksTheirTableValues := by
  intro s at_ straps trp csLow
  refine ⟨(s.tick at_).powerOn straps trp csLow, rfl, rfl, rfl, rfl, rfl, rfl, fun p => replicate_get ({} : DrivePort) p,
    fun side => ?fibres, rfl, rfl, rfl, rfl, rfl, rfl, rfl, rfl, rfl, rfl, rfl, rfl, fun i => resetSources_get trp i,
    rfl, rfl, rfl, rfl, rfl, rfl, rfl, rfl, rfl, rfl, rfl, rfl, rfl, rfl, rfl, rfl, rfl, rfl, rfl, rfl, fun i => replicate_get ({} : ImageMap) i,
    rfl, rfl, rfl, rfl, rfl, rfl, fun a ha => keptPages_read (s := s.tick at_) ha, fun i => replicate_get ({} : Channel) i,
    rfl, rfl, rfl, rfl, rfl, rfl, rfl⟩
  case fibres => cases side <;> rfl

end Sys2Proof.Machine
end

section
/-! Proofs. The requests of the angle unit and the line master (R4, R17, R18), and the next frame by the line state (R16). -/

namespace Sys2Proof.Machine

/-! ## SET_CYCLE (R4) -/

theorem cycleFieldsOk_iff (f : CycleFieldsReq) :
    cycleFieldsOk f = true ↔ (f.k = 1 ∨ f.k = 2 ∨ f.k = 4 ∨ f.k = 8) ∧ 1000 ≤ f.lAlign ∧ f.lAlign ≤ 500000 ∧ 1 ≤ f.coastLimit
      ∧ f.coastLimit ≤ 8 ∧ 1 ≤ f.stepTolerance ∧ f.stepTolerance ≤ 1048575 := by
  simp only [cycleFieldsOk, Bool.and_eq_true, decide_eq_true_eq, and_assoc]

/-- The dividers of the ports in use are feasible for an update interval. -/
theorem portsFit_iff (s : State) (tu : Nat) :
    s.portsFit tu = true ↔ ∀ i : Fin 4, (s.port i).state ≠ .off → 560 * 40 * ((s.port i).divider + 1) + 4000 ≤ tu := by
  simp only [State.portsFit, List.all_eq_true, Bool.or_eq_true, decide_eq_true_eq, feasible_iff, mem_portNumbers, forall_const,
    or_iff_not_imp_left, ne_eq]

theorem cycleFits_iff (s : State) (f : CycleFieldsReq) :
    s.cycleFits f = true ↔ s.portsFit ((f.period.getD s.angle.period).ns / f.k) = true
      ∧ (f.period = none → ∀ p, s.master.pendingPeriod = some p → s.portsFit (p.ns / f.k) = true) := by
  rw [State.cycleFits, Bool.and_eq_true, Bool.or_eq_true, Option.all_eq_true]
  cases f.period <;> simp [updateInterval]

theorem endRow_workSetCycle_of_bad {f : CycleFieldsReq} {s : State} (h : ¬cycleFieldsOk f = true) :
    endRow (workSetCycle f s) = s.replies .range := by
  rw [workSetCycle, if_pos (Bool.not_eq_true _ ▸ h), endRow_refuse]

/-- SET_CYCLE with its first check passed. -/
theorem endRow_workSetCycle_of_ok {f : CycleFieldsReq} {s : State} (h : cycleFieldsOk f = true) :
    endRow (workSetCycle f s) =
      if f.period.isSome = true ∧ s.angle.role = .member then s.replies .notMaster
      else if f.period.isSome = true ∧ s.angle.lineState ≠ .stopped then s.replies .state
      else if (f.period.getD s.angle.period).ns < f.lAlign then s.replies .range
      else if s.cycleFits f = false then s.replies .range
      else (s.applyCycle f).replies .ok := by
  rw [workSetCycle, h, if_neg (by decide : ¬true = false)]
  simp only [isMaster_eq_false_iff, endRow_ite, endRow_refuse, endRow_taken]

/-- Settles O11: SET_CYCLE's refusals in their order. -/
theorem setCycleChecksThenStores : Obligations.SetCycleChecksThenStores := by
  intro s f hw
  have hexec : exec (.setCycle f) s = endRow (workSetCycle f s) := exec_of_working (c := .setCycle f) rfl hw
  intro inForce fits
  rw [hexec]
  have hfits : s.cycleFits f = true ↔
      fits inForce ∧ (f.period = none → ∀ p, s.master.pendingPeriod = some p → fits p) := by
    rw [cycleFits_iff]
    simp only [portsFit_iff]
    rfl
  refine ⟨fun hbad => endRow_workSetCycle_of_bad (mt (cycleFieldsOk_iff f).mp hbad), fun hk hl1 hl2 hc1 hc2 hs1 hs2 => ?_⟩
  have hok := (cycleFieldsOk_iff f).mpr ⟨hk, hl1, hl2, hc1, hc2, hs1, hs2⟩
  have hrow := endRow_workSetCycle_of_ok (s := s) hok
  refine ⟨fun hp hm => ?notMaster, fun hp hm hl => ?notStopped, fun hallowed => ?allowed⟩
  case notMaster =>
    rw [hrow, if_pos ⟨Option.isSome_iff_ne_none.mpr hp, hm⟩]
  case notStopped =>
    rw [hrow, if_neg (by simp [hm]), if_pos ⟨Option.isSome_iff_ne_none.mpr hp, hl⟩]
  case allowed =>
    have hrole : ¬(f.period.isSome = true ∧ s.angle.role = .member) := by
      rcases hallowed with hnone | ⟨hm, -⟩
      · simp [hnone]
      · simp [hm]
    have hline : ¬(f.period.isSome = true ∧ s.angle.lineState ≠ .stopped) := by
      rcases hallowed with hnone | ⟨-, hstopped⟩
      · simp [hnone]
      · simp [hstopped]
    rw [if_neg hrole, if_neg hline] at hrow
    refine ⟨fun hlate => ?_, fun hearly hunfit => ?_, fun hearly hnow hpending => ?_⟩
    · exact hrow.trans (if_pos hlate)
    · exact hrow.trans ((if_neg (Nat.not_lt.mpr hearly)).trans (if_pos (Bool.not_eq_true _ ▸ mt hfits.mp hunfit)))
    · have hfit : ¬s.cycleFits f = false := by rw [hfits.mpr ⟨hnow, hpending⟩]; decide
      refine hrow.trans ((if_neg (Nat.not_lt.mpr hearly)).trans ((if_neg hfit).trans ?_))
      rw [State.applyCycle]
      cases f.period <;> rfl

/-! ## SET_SPEED, SET_RAMP and START (R17, R18) -/

theorem rampFieldsOk_iff (f : RampFields) :
    rampFieldsOk f = true ↔ 1 ≤ f.vMax ∧ f.vMax ≤ 4194303 ∧ 1 ≤ f.aUp ∧ f.aUp ≤ 65535 ∧ 1 ≤ f.aDown ∧ f.aDown ≤ 65535
      ∧ 1 ≤ f.aTrip ∧ f.aTrip ≤ 65535 := by
  simp only [rampFieldsOk, Bool.and_eq_true, decide_eq_true_eq, and_assoc]

theorem min_eq_ite_lt (a b : Nat) : min a b = if b < a then b else a := by
  split <;> omega

theorem endRow_workSetSpeed (target : Nat) (s : State) :
    endRow (workSetSpeed target s) =
      if s.angle.role = .member then s.replies .notMaster
      else
        ({ s with master :=
          { s.master with speedTarget := if s.master.vMax < target then s.master.vMax else target } } : State).replies .ok := by
  rw [workSetSpeed, min_eq_ite_lt]
  by_cases hm : s.angle.role = .member
  · rw [if_pos hm, if_neg (by rw [(isMaster_eq_false_iff s).mpr hm]; exact Bool.false_ne_true), endRow_refuse]
  · rw [if_neg hm, if_pos (Bool.not_eq_false _ ▸ mt (isMaster_eq_false_iff s).mp hm), endRow_taken]

theorem endRow_workSetRamp (f : RampFields) (s : State) :
    endRow (workSetRamp f s) =
      if s.angle.role = .member then s.replies .notMaster
      else if ¬(1 ≤ f.vMax ∧ f.vMax ≤ 4194303 ∧ 1 ≤ f.aUp ∧ f.aUp ≤ 65535 ∧ 1 ≤ f.aDown ∧ f.aDown ≤ 65535 ∧ 1 ≤ f.aTrip
          ∧ f.aTrip ≤ 65535) then s.replies .range
      else
        ({ s with master :=
          { s.master with
            vMax := f.vMax, aUp := f.aUp, aDown := f.aDown, aTrip := f.aTrip
            speedTarget := if f.vMax < s.master.speedTarget then f.vMax else s.master.speedTarget } } : State).replies .ok := by
  rw [workSetRamp, min_eq_ite_lt]
  simp only [isMaster_eq_false_iff, ← Bool.not_eq_true (rampFieldsOk f), rampFieldsOk_iff, endRow_ite, endRow_refuse, endRow_taken]

theorem stop_code_iff (c : TripClass) : 3 ≤ c.code ↔ c = .stopRamp ∨ c = .stopFast := by
  cases c <;> decide

theorem endRow_workStart (s : State) :
    endRow (workStart s) =
      if s.angle.role = .member then s.replies .notMaster
      else if s.angle.lineState = .tripStop ∨ s.trips.effective = .stopRamp ∨ s.trips.effective = .stopFast then s.replies .tripped
      else if s.angle.lineState = .running then s.replies .state
      else
        (({ s with
          angle := { s.angle with lineState := .running }
          master := { s.master with firstOut := none } } : State).post (.lineState .running s.angle.cycleNumber)).replies .ok := by
  rw [workStart]
  simp only [isMaster_eq_false_iff, stop_code_iff, endRow_ite, endRow_refuse, endRow_taken]
  rfl

/-! ## The next frame (R16) -/

/-- Next V and the line state after a ramp step, by the line state in force. -/
theorem rampStep_eq (m : MasterRecord) (line : LineState) (v : Nat) :
    rampStep m line v =
      match line with
      | .running => (if v < m.speedTarget then min (v + m.aUp) m.speedTarget else if m.speedTarget < v then max (v - m.aDown) m.speedTarget else v,
          .running)
      | .stopping => (v - m.aDown, if v ≤ m.aDown then .stopped else .stopping)
      | .tripStop => (v - m.aTrip, if v ≤ m.aTrip then .stopped else .tripStop)
      | .stopped => (0, .stopped) := by
  have hslows (down : Nat) (line : LineState) :
      (if v - down = 0 then (0, .stopped) else (v - down, line)) = (v - down, if v ≤ down then .stopped else line) := by
    by_cases h : v ≤ down
    · rw [if_pos h, if_pos (Nat.sub_eq_zero_of_le h), Nat.sub_eq_zero_of_le h]
    · rw [if_neg h, if_neg (by omega)]
  cases line with
  | stopped => rfl
  | running =>
    dsimp only [rampStep]
    split_ifs <;> rfl
  | stopping => exact hslows m.aDown .stopping
  | tripStop => exact hslows m.aTrip .tripStop

/-- Settles O12. -/
theorem speedRampStartAndTheNextFrame : Obligations.SpeedRampStartAndTheNextFrame := by
  refine ⟨⟨fun s target hw => ?speed, fun s f hw => ?ramp⟩, fun s hw => ?start, fun s => ?next⟩
  case speed =>
    rw [exec_of_working (c := .setSpeed target) rfl hw]
    exact endRow_workSetSpeed target s
  case ramp =>
    rw [exec_of_working (c := .setRamp f) rfl hw]
    exact endRow_workSetRamp f s
  case start =>
    rw [exec_of_working (c := .start) rfl hw]
    exact endRow_workStart s
  case next =>
    intro v m next t
    have hstep : rampStep s.master s.angle.lineState s.angle.v = next := rampStep_eq m s.angle.lineState v
    rw [State.computeNext, hstep]
    rfl

end Sys2Proof.Machine
end

section
/-! Proofs. The roster (R88, R89) and SEND_MESSAGE (R90). -/

namespace Sys2Proof.Machine

/-! ## The roster (R88, R89) -/

/-- The ring with a new roster and lost set. -/
def State.withRoster (s : State) (roster : List (Nat × Nat)) (lost : List Nat) : State :=
  { s with ring := { s.ring with roster := roster, lost := lost } }

theorem setLost_of_roster (s : State) (roster : List (Nat × Nat)) (lost : List Nat) :
    ({ s with ring := { s.ring with roster := roster } } : State).setLost lost =
      if lost = s.ring.lost then s.withRoster roster lost
      else (s.withRoster roster lost).postRingState.setCondition 20 (decide (lost ≠ [])) := by
  have hnonempty : (!lost.isEmpty) = decide (lost ≠ []) := by cases lost <;> rfl
  rw [State.setLost, hnonempty]
  rfl

theorem badIds_iff (ids : List Nat) :
    (32 < ids.length ∨ ids.any (fun i => decide (i = 0 ∨ 32 < i)) = true) ↔ 32 < ids.length ∨ ∃ i ∈ ids, i = 0 ∨ 32 < i := by
  simp only [List.any_eq_true, decide_eq_true_eq]

theorem allIds_filter_contains (ids : List Nat) :
    (allIds.filter fun i => ids.contains i) = ((List.range 32).map (· + 1)).filter fun i => i ∈ ids := by
  rw [allIds]
  exact List.filter_congr fun i _ => List.contains_eq_mem i ids

theorem endRow_workSetRoster (ids : List Nat) (s : State) :
    endRow (workSetRoster ids s) =
      if s.angle.role = .member then s.replies .notMaster
      else if 32 < ids.length ∨ ∃ i ∈ ids, i = 0 ∨ 32 < i then s.replies .range
      else
        (({ s with ring := { s.ring with
          roster := (((List.range 32).map (· + 1)).filter fun i => i ∈ ids).map fun i => (i, absenceOf s.ring.roster i) } } : State).setLost
            (s.ring.lost.filter fun i => i ∈ ids)).replies .ok := by
  have hstay : (s.ring.lost.filter fun i => ids.contains i) = s.ring.lost.filter fun i => i ∈ ids :=
    List.filter_congr fun i _ => List.contains_eq_mem i ids
  rw [workSetRoster, allIds_filter_contains, hstay]
  simp only [isMaster_eq_false_iff, badIds_iff, endRow_ite, endRow_refuse, endRow_taken]

theorem slotOf_present (v : Vector StatusSlot 32) (id : Nat) : (slotOf v id).present = (v.toList[id - 1]?).any (·.present) := by
  unfold slotOf
  by_cases h : id - 1 < 32
  · rw [dif_pos h, List.getElem?_eq_getElem (by simpa using h)]
    simp
  · rw [dif_neg h, List.getElem?_eq_none (by simpa using h)]
    rfl

theorem judgeAbsence_eq (v : Vector StatusSlot 32) (own : Nat) :
    judgeAbsence v own = fun x =>
      (x.1, if x.1 == own || (v.toList[x.1 - 1]?).any (·.present) then 0 else min (x.2 + 1) 3) := by
  funext x
  simp only [judgeAbsence, slotOf_present, bumpTo, Bool.or_eq_true, beq_iff_eq]

/-- The ids a judged roster holds lost. -/
theorem lostIds_eq (roster : List (Nat × Nat)) (lost : List Nat) :
    (allIds.filter fun i => roster.any fun r =>
        decide (r.1 = i) && (decide (r.2 = 3) || (lost.contains i && decide (r.2 ≠ 0))))
      = ((List.range 32).map (· + 1)).filter fun i => ∃ x ∈ roster, x.1 = i ∧ (x.2 = 3 ∨ (i ∈ lost ∧ x.2 ≠ 0)) := by
  rw [allIds]
  refine List.filter_congr fun i _ => ?_
  rw [Bool.eq_iff_iff]
  simp only [List.any_eq_true, Bool.and_eq_true, Bool.or_eq_true, decide_eq_true_eq, List.contains_iff_mem]

/-! ## SEND_MESSAGE (R90) -/

theorem endRow_workSendMessage (dest : Nat) (bytes : List Byte) (s : State) :
    endRow (workSendMessage dest bytes s) =
      if dest = 0 ∨ 32 < dest ∨ dest = s.angle.nodeId ∨ bytes.length = 0 ∨ 256 < bytes.length then s.replies .range
      else if 16 ≤ s.ring.localQueue.length then s.replies .full
      else (s.joinLocal .peerMessage dest bytes).serveLocal.replies .ok := by
  rw [workSendMessage]
  simp only [List.length_eq_zero_iff, endRow_ite, endRow_refuse, endRow_taken]
  by_cases hfull : 16 ≤ s.ring.localQueue.length
  · simp only [originate_full s .peerMessage dest bytes (Nat.not_lt.mpr hfull), if_pos hfull, Bool.false_eq_true, if_false]
  · simp only [originate_room s .peerMessage dest bytes (Nat.not_le.mp hfull), if_neg hfull, if_true]

/-- Settles O34. -/
theorem rosterAndMessages : Obligations.RosterAndMessages := by
  refine ⟨fun s ids hw => ?roster, fun s v => ?check, fun s dest bytes hw => ?message⟩
  case roster =>
    have hexec : exec (.setRoster ids) s = endRow (workSetRoster ids s) := exec_of_working (c := .setRoster ids) rfl hw
    rw [hexec, endRow_workSetRoster]
    refine ⟨fun hm => if_pos hm, fun hm hbad => ?_, fun hm hlength hids => ?_⟩
    · rw [if_neg (by rw [hm]; decide), if_pos hbad]
    · have hgood : ¬(32 < ids.length ∨ ∃ i ∈ ids, i = 0 ∨ 32 < i) := by
        rintro (hlong | ⟨i, hi, hbad⟩)
        · exact Nat.not_lt.mpr hlength hlong
        · have := hids i hi
          omega
      intro roster lost t
      rw [if_neg (by rw [hm]; decide), if_neg hgood, setLost_of_roster]
      rfl
  case check =>
    rw [State.checkRoster, judgeAbsence_eq, lostIds_eq, setLost_of_roster]
    rfl
  case message =>
    rw [exec_of_working (c := .sendMessage dest bytes) rfl hw]
    exact endRow_workSendMessage dest bytes s

end Sys2Proof.Machine
end

section
/-! Proofs. SET_CAMERA (R118), SET_CAPTURE and SET_STREAM (R126, R129). -/

namespace Sys2Proof.Machine

/-! ## The writes of a map (R127, log 18) -/

theorem endWrite_of_idle {s : State} {i : Fin 4} (h : (s.map i).write = none) : s.endWrite i = s := by
  rw [State.endWrite, h]

theorem drainWrites_of_idle {s : State} {i : Fin 4} (hwrite : (s.map i).write = none) (hwaiting : (s.map i).waiting = []) :
    s.drainWrites i = s := by
  rw [State.drainWrites, hwaiting]
  exact endWrite_of_idle hwrite

/-- The state in which a request that changes a map under some condition takes effect. -/
theorem drained_only (s : State) (i : Fin 4) (changed : Bool) :
    Only [.store, .pages, .ring, .ctl, .notices, .angle, .master, .screen] s (if changed then s.drainWrites i else s) := by
  cases changed
  · exact Only.refl _ s
  · exact (drainWrites_only s i).up

theorem drained_settings (s : State) (i : Fin 4) (changed : Bool) :
    (if changed then s.drainWrites i else s).store.settings = s.store.settings := by
  cases changed
  · rfl
  · exact drainWrites_settings s i

/-! ## SET_CAMERA (R118) -/

theorem cameraFieldsOk_iff (f : CameraFields) :
    cameraFieldsOk f = true ↔ 64 ≤ f.width ∧ f.width ≤ 2048 ∧ f.width % 64 = 0
      ∧ (f.pitch = 1024 ∨ f.pitch = 2048 ∨ f.pitch = 4096 ∨ f.pitch = 8192 ∨ f.pitch = 16384 ∨ f.pitch = 32768 ∨ f.pitch = 65536) := by
  simp only [cameraFieldsOk, Bool.and_eq_true, decide_eq_true_eq, and_assoc]

theorem turn_of_turned_on {c : Camera} {on : Bool} (previous : Angle) (h : on = true ∧ c.on = false) :
    c.turn on previous =
      { c with on := true, lastSeen := previous, pointer := some ((previous.toNat / c.pitch + 1) * c.pitch % 16777216) } := by
  obtain ⟨rfl, hc⟩ := h
  simp only [Camera.turn, hc, Bool.false_eq_true, if_true, if_false, firstAfter]

theorem turn_of_turned_off {c : Camera} {on : Bool} (previous : Angle) (h : on = false ∧ c.on = true) :
    c.turn on previous = { c with on := false, triggers := [], outstanding := [], pointer := none } := by
  obtain ⟨rfl, hc⟩ := h
  simp only [Camera.turn, hc, Bool.false_eq_true, if_true, if_false]

theorem turn_of_kept {c : Camera} {on : Bool} (previous : Angle) (hon : ¬(on = true ∧ c.on = false))
    (hoff : ¬(on = false ∧ c.on = true)) : c.turn on previous = c := by
  rcases c with ⟨con⟩
  cases on <;> cases con
  · rfl
  · exact absurd ⟨rfl, rfl⟩ hoff
  · exact absurd ⟨rfl, rfl⟩ hon
  · rfl

/-- The camera record a taken SET_CAMERA leaves. -/
theorem turn_stored (c : Camera) (f : CameraFields) (previous : Angle) :
    ({ c with width := f.width, pitch := f.pitch } : Camera).turn f.on previous =
      if f.on = true ∧ c.on = false then
        { c with
          width := f.width, pitch := f.pitch, on := true, lastSeen := previous
          pointer := some ((previous.toNat / f.pitch + 1) * f.pitch % 16777216) }
      else if f.on = false ∧ c.on = true then
        { c with width := f.width, pitch := f.pitch, on := false, triggers := [], outstanding := [], pointer := none }
      else { c with width := f.width, pitch := f.pitch } := by
  split_ifs with hon hoff
  · exact turn_of_turned_on previous hon
  · exact turn_of_turned_off previous hoff
  · exact turn_of_kept previous hon hoff

theorem cameraBack_channels (m : MarkUnit) :
    (Vector.ofFn fun i => m.channels[i].cameraBack) = m.channels.map fun c =>
      if c.state = .off then c else { c with previous := none, phase := .fragment, armed := none, edgeTaken := none } := by
  ext i hi
  simp [Channel.cameraBack]

theorem marksCameraOn_eq (s : State) :
    s.marksCameraOn = { s with marks :=
      { s.marks with
        lastLine := none
        channels := s.marks.channels.map fun c =>
          if c.state = .off then c else { c with previous := none, phase := .fragment, armed := none, edgeTaken := none } } } := by
  rw [State.marksCameraOn, cameraBack_channels]

theorem endRow_workSetCamera_of_bad {f : CameraFields} {s : State} (h : ¬cameraFieldsOk f = true) :
    endRow (workSetCamera f s) = s.replies .range := by
  rw [workSetCamera, if_pos (Bool.not_eq_true _ ▸ h), endRow_refuse]

/-- SET_CAMERA with its first check passed. -/
theorem endRow_workSetCamera_of_ok {f : CameraFields} {s : State} (h : cameraFieldsOk f = true) :
    endRow (workSetCamera f s) =
      if f.on = true ∧ s.camera.on = true ∧ (f.width ≠ s.camera.width ∨ f.pitch ≠ s.camera.pitch) then s.replies .state
      else if captureFits f.width f.pitch s.store.decimation s.store.hStep (s.map 0).stride s.store.streamDest = false then
        s.replies .range
      else (if f.on = true ∧ s.camera.on = false then (s.applyCamera f).marksCameraOn else s.applyCamera f).replies .ok := by
  rw [workSetCamera, h, if_neg (by decide : ¬true = false)]
  simp only [endRow_ite, endRow_refuse, endRow_taken]

/-- Settles O35: the checks in order, then the state stored, in which the writes drained first changed neither the camera, the marks nor the
settings of the store. -/
theorem setCameraChecksThenStores : Obligations.SetCameraChecksThenStores := by
  intro s f hw
  have hexec : exec (.setCamera f) s = endRow (workSetCamera f s) := exec_of_working (c := .setCamera f) rfl hw
  intro fieldsOk fits changed d previous camera marks m
  rw [hexec]
  have hchanged : changed = true ↔ f.width ≠ s.camera.width ∨ f.pitch ≠ s.camera.pitch := decide_eq_true_iff
  have hok : cameraFieldsOk f = true ↔ fieldsOk := cameraFieldsOk_iff f
  refine ⟨fun hbad => ?bad, fun hf hon hcam hch => ?onAlready, fun hf hstill hunfit => ?unfit, fun hf hstill hfit => ?taken,
    fun hwrite hwaiting => ?idle, fun hnodup slot => slot_hide (d.map 0) (fun _ => changed) slot hnodup, drained_only s 0 changed⟩
  case bad => exact endRow_workSetCamera_of_bad (mt hok.mp hbad)
  case onAlready =>
    rw [endRow_workSetCamera_of_ok (hok.mpr hf), if_pos ⟨hon, hcam, hchanged.mp hch⟩]
  case unfit =>
    rw [hchanged] at hstill
    rw [endRow_workSetCamera_of_ok (hok.mpr hf), if_neg hstill, if_pos (Bool.not_eq_true _ ▸ hunfit)]
  case idle =>
    dsimp only [d]
    rw [drainWrites_of_idle hwrite hwaiting, ite_self]
  case taken =>
    have hfits : ¬captureFits f.width f.pitch s.store.decimation s.store.hStep (s.map 0).stride s.store.streamDest = false := by
      rw [show captureFits f.width f.pitch s.store.decimation s.store.hStep (s.map 0).stride s.store.streamDest = true from hfit]
      decide
    have honly : Only [.store, .pages, .ring, .ctl, .notices, .angle, .master, .screen] s d := drained_only s 0 changed
    have hcamera : d.camera = s.camera := (honly .camera (by decide)).symm
    have hmarks : d.marks = s.marks := (honly .marks (by decide)).symm
    have hsettings : d.store.settings = s.store.settings := drained_settings s 0 changed
    obtain ⟨hdecimation, hhStep, -, -⟩ : d.store.decimation = s.store.decimation ∧ d.store.hStep = s.store.hStep
        ∧ d.store.stored = s.store.stored ∧ d.store.streamDest = s.store.streamDest := by
      simpa only [Store.settings, Prod.mk.injEq] using hsettings
    have happly : s.applyCamera f = { d with
        camera := ({ d.camera with width := f.width, pitch := f.pitch } : Camera).turn f.on previous
        store :=
          { d.store with
            maps := d.store.maps.set 0
              { d.map 0 with
                slotCount := (16777216 / f.pitch + d.store.decimation - 1) / d.store.decimation
                directory := ((d.map 0).hide fun _ => changed).directory }
            stored := f.width / d.store.hStep } } := rfl
    rw [hcamera, hdecimation, hhStep, turn_stored] at happly
    rw [hchanged] at hstill
    rw [endRow_workSetCamera_of_ok (hok.mpr hf), if_neg hstill, if_neg hfits]
    refine congrArg (fun u : State => u.replies .ok) ?_
    by_cases hturned : f.on = true ∧ s.camera.on = false
    · dsimp only [marks]
      rw [if_pos hturned, if_pos hturned, marksCameraOn_eq, happly]
      dsimp only
      rw [hmarks]
    · dsimp only [marks]
      rw [if_neg hturned, if_neg hturned, happly, ← hmarks]

/-! ## SET_CAPTURE and SET_STREAM (R126, R129) -/

theorem captureFits_iff (width pitch d h stride dest : Nat) :
    captureFits width pitch d h stride dest = true ↔
      width / h ≤ 512 ∧ width / h ≤ stride ∧ (16777216 / pitch + d - 1) / d ≤ 2048
        ∧ ((16777216 / pitch + d - 1) / d * stride + 2047) / 2048 ≤ 64 ∧ (dest ≠ 0 → width / h ≤ 504) := by
  simp only [captureFits, Bool.and_eq_true, Bool.or_eq_true, decide_eq_true_eq, and_assoc, or_iff_not_imp_left, ne_eq]
  rfl

theorem captureFieldsOk_iff (f : CaptureFields) :
    captureFieldsOk f = true ↔ 1 ≤ f.decimation ∧ f.decimation ≤ 16 ∧ (f.hStep = 1 ∨ f.hStep = 2 ∨ f.hStep = 4 ∨ f.hStep = 8)
      ∧ (f.stride = 64 ∨ f.stride = 128 ∨ f.stride = 256 ∨ f.stride = 512) := by
  simp only [captureFieldsOk, strideOk, Bool.and_eq_true, decide_eq_true_eq, and_assoc]

theorem endRow_workSetCapture (f : CaptureFields) (s : State) :
    endRow (workSetCapture f s) =
      if ¬captureFieldsOk f = true then s.replies .range
      else if (s.map 0).state ≠ .off then s.replies .state
      else if captureFits s.camera.width s.camera.pitch f.decimation f.hStep f.stride s.store.streamDest = false then s.replies .range
      else
        ({ s with store :=
          { s.store with
            maps := s.store.maps.set 0
              { s.map 0 with
                stride := f.stride, slotCount := captureSlots s.camera.pitch f.decimation
                directory := ((s.map 0).hide fun _ => true).directory }
            decimation := f.decimation, hStep := f.hStep, stored := s.camera.width / f.hStep } } : State).replies .ok := by
  rw [workSetCapture]
  simp only [Bool.not_eq_true, endRow_ite, endRow_refuse, endRow_taken]
  rfl

theorem endRow_workSetStream (dest : Nat) (s : State) :
    endRow (workSetStream dest s) =
      if dest ≠ 0 ∧ (32 < dest ∨ dest = s.angle.nodeId ∨ 504 < s.store.stored) then s.replies .range
      else ({ s with store := { s.store with streamDest := dest } } : State).replies .ok := by
  rw [workSetStream]
  by_cases hbad : dest ≠ 0 ∧ (32 < dest ∨ dest = s.angle.nodeId ∨ 504 < s.store.stored)
  · rw [if_pos hbad, if_neg (by omega), endRow_refuse]
  · rw [if_neg hbad, if_pos (by omega), endRow_taken]

/-- Settles O36. -/
theorem captureAndStream : Obligations.CaptureAndStream := by
  refine ⟨captureFits_iff, fun s f hw => ?capture, fun s dest hw => ?stream⟩
  case capture =>
    rw [exec_of_working (c := .setCapture f) rfl hw]
    change endRow (workSetCapture f s) = _
    rw [endRow_workSetCapture]
    simp only [captureFieldsOk_iff]
    rfl
  case stream =>
    rw [exec_of_working (c := .setStream dest) rfl hw]
    exact endRow_workSetStream dest s

end Sys2Proof.Machine
end

section
/-! Proofs. SET_MAP and ENABLE_MAP (R124, R125): the entries and the directory a list of writes leaves, and the two requests. -/

namespace Sys2Proof.Machine

/-! ## Entry writes (R124) -/

/-- The entry a write stores. -/
def writtenEntry (w : EntryWrite) : PageEntry := { valid := w.valid, writeProtect := w.writeProtect, page := w.physical }

theorem applyWrites_cons (entries : Vector PageEntry 64) (w : EntryWrite) (ws : List EntryWrite) :
    applyWrites entries (w :: ws) = applyWrites (applyWrites entries [w]) ws := rfl

theorem applyWrites_one_get (entries : Vector PageEntry 64) (w : EntryWrite) (page : Nat) (h : page < 64) :
    (applyWrites entries [w])[page] = if w.page = page then writtenEntry w else entries[page] := by
  unfold applyWrites
  rw [List.foldl_cons, List.foldl_nil]
  by_cases hw : w.page < 64
  · rw [dif_pos hw, Vector.getElem_set]
    rfl
  · rw [dif_neg hw, if_neg (by omega)]

/-- The last write of a page holds. -/
theorem applyWrites_get (entries : Vector PageEntry 64) (ws : List EntryWrite) (page : Nat) (h : page < 64) :
    (applyWrites entries ws)[page] =
      match ws.reverse.find? (fun w => w.page = page) with
      | some w => writtenEntry w
      | none => entries[page] := by
  induction ws generalizing entries with
  | nil => rfl
  | cons w ws ih =>
    rw [applyWrites_cons, ih, List.reverse_cons, List.find?_append]
    cases ws.reverse.find? (fun w => w.page = page) with
    | some x => rfl
    | none =>
      rw [Option.none_or]
      change (applyWrites entries [w])[page] = _
      rw [applyWrites_one_get]
      by_cases hw : w.page = page
      · rw [if_pos hw, List.find?_cons_of_pos (by simpa using hw)]
      · rw [if_neg hw, List.find?_cons_of_neg (by simpa using hw)]
        rfl

/-- A page that a list writes keeps nothing of what it held before. -/
theorem applyWrites_get_of_written {ws : List EntryWrite} {page : Nat} (a b : Vector PageEntry 64) (h : page < 64)
    (hmem : ∃ w ∈ ws, w.page = page) : (applyWrites a ws)[page] = (applyWrites b ws)[page] := by
  rw [applyWrites_get, applyWrites_get]
  cases hfind : ws.reverse.find? (fun w => w.page = page) with
  | some w => rfl
  | none =>
    obtain ⟨w, hw, hpage⟩ := hmem
    exact absurd (decide_eq_true hpage) (List.find?_eq_none.mp hfind w (List.mem_reverse.mpr hw))

theorem applyWrites_get_of_unwritten {ws : List EntryWrite} {page : Nat} (a : Vector PageEntry 64) (h : page < 64)
    (hmem : ¬∃ w ∈ ws, w.page = page) : (applyWrites a ws)[page] = a[page] := by
  have hfind : ws.reverse.find? (fun w => w.page = page) = none :=
    List.find?_eq_none.mpr fun w hw hpage => hmem ⟨w, List.mem_reverse.mp hw, of_decide_eq_true hpage⟩
  rw [applyWrites_get, hfind]

theorem applyWrites_get_congr {ws : List EntryWrite} {page : Nat} {a b : Vector PageEntry 64} (h : page < 64)
    (hsame : a[page] = b[page]) : (applyWrites a ws)[page] = (applyWrites b ws)[page] := by
  by_cases hmem : ∃ w ∈ ws, w.page = page
  · exact applyWrites_get_of_written a b h hmem
  · rw [applyWrites_get_of_unwritten a h hmem, applyWrites_get_of_unwritten b h hmem, hsame]

/-! ## The pages given another target (R124) -/

theorem retargeted_iff (old new : PageEntry) :
    retargeted old new = true ↔ new.valid = true ∧ (old.valid = false ∨ old.page ≠ new.page) := by
  simp only [retargeted, Bool.and_eq_true, Bool.or_eq_true, Bool.not_eq_true', decide_eq_true_eq]

theorem not_retargeted_self (e : PageEntry) : ¬retargeted e e = true := by
  rw [retargeted_iff]
  rintro ⟨hvalid, hinvalid | hpage⟩
  · rw [hvalid] at hinvalid
    cases hinvalid
  · exact hpage rfl

theorem lastWrites_cons (w : EntryWrite) (ws : List EntryWrite) :
    lastWrites (w :: ws) = if ∃ x ∈ ws, x.page = w.page then lastWrites ws else w :: lastWrites ws := by
  rw [lastWrites]
  simp only [List.any_eq_true, decide_eq_true_eq]

theorem mem_retargetedPages_cons (entries : Vector PageEntry 64) (w : EntryWrite) (ws : List EntryWrite) (page : Nat) (h : page < 64) :
    page ∈ retargetedPages entries (w :: ws) ↔
      (w.page = page ∧ retargeted entries[page] (writtenEntry w) = true) ∨ page ∈ retargetedPages (applyWrites entries [w]) ws := by
  rw [retargetedPages]
  by_cases hw : w.page < 64
  · rw [dif_pos hw]
    change page ∈ (if retargeted entries[w.page] (writtenEntry w) then _ else _) ↔ _
    by_cases hpage : w.page = page
    · subst hpage
      split
      case isTrue hret => simp [hret]
      case isFalse hret => simp [hret]
    · have hother : ∀ l, page ∈ w.page :: l ↔ page ∈ l := fun l => by
        rw [List.mem_cons, or_iff_right (Ne.symm hpage)]
      split
      · rw [hother, or_iff_right (fun hp => hpage hp.1)]
      · rw [or_iff_right (fun hp => hpage hp.1)]
  · have hpage : w.page ≠ page := fun hpage => hw (hpage ▸ h)
    rw [dif_neg hw, or_iff_right fun hp => hpage hp.1]

/-- A page is given another target just if its entry before and after all the writes say so. -/
theorem mem_retargetedPages_iff (entries : Vector PageEntry 64) (ws : List EntryWrite) (page : Nat) (h : page < 64) :
    page ∈ retargetedPages entries (lastWrites ws) ↔ retargeted entries[page] (applyWrites entries ws)[page] = true := by
  induction ws generalizing entries with
  | nil => exact iff_of_false List.not_mem_nil (not_retargeted_self entries[page])
  | cons w ws ih =>
    rw [applyWrites_cons, lastWrites_cons]
    by_cases hagain : ∃ x ∈ ws, x.page = w.page
    · rw [if_pos hagain, ih]
      have hsame : (applyWrites (applyWrites entries [w]) ws)[page] = (applyWrites entries ws)[page] := by
        by_cases hpage : w.page = page
        · exact applyWrites_get_of_written _ _ h (hpage ▸ hagain)
        · exact applyWrites_get_congr h ((applyWrites_one_get entries w page h).trans (if_neg hpage))
      rw [hsame]
    · rw [if_neg hagain, mem_retargetedPages_cons _ _ _ _ h, ih, applyWrites_one_get]
      by_cases hpage : w.page = page
      · have hlast : (applyWrites (applyWrites entries [w]) ws)[page] = writtenEntry w := by
          rw [applyWrites_get_of_unwritten _ h (hpage ▸ hagain), applyWrites_one_get, if_pos hpage]
        rw [hlast, if_pos hpage, or_iff_left (not_retargeted_self (writtenEntry w)), and_iff_right hpage]
      · rw [if_neg hpage, or_iff_right (fun hp => hpage hp.1)]

/-! ## A map configured (R124) -/

theorem configure_of_new {f : MapFields} {g : Geometry} (m : ImageMap) (h : f.geometry = some g) :
    m.configure f =
      { m with
        origin := g.origin, stride := g.stride, slotCount := g.slotCount, entries := applyWrites m.entries f.writes
        directory := [] } := by
  rw [ImageMap.configure, h]
  rfl

theorem configure_of_keep {f : MapFields} (m : ImageMap) (h : f.geometry = none) :
    m.configure f =
      { m with entries := applyWrites m.entries f.writes }.hide fun slot =>
        (retargetedPages m.entries (lastWrites f.writes)).contains (m.pageOf slot) := by
  rw [ImageMap.configure, h]

theorem configure_kept (m : ImageMap) (f : MapFields) :
    (m.configure f).state = m.state ∧ (m.configure f).fault = m.fault ∧ (m.configure f).written = m.written
      ∧ (m.configure f).frozen = m.frozen ∧ (m.configure f).dropped = m.dropped := by
  cases h : f.geometry with
  | some g =>
    rw [configure_of_new m h]
    exact ⟨rfl, rfl, rfl, rfl, rfl⟩
  | none =>
    rw [configure_of_keep m h]
    exact ⟨rfl, rfl, rfl, rfl, rfl⟩

theorem configure_slot_of_keep {f : MapFields} {m : ImageMap} (h : f.geometry = none) (hn : (m.directory.map (·.1)).Nodup)
    (slot : Nat) (hpage : slot * m.stride / 2048 < 64) :
    (m.configure f).slot slot =
      if (m.configure f).entries[slot * m.stride / 2048].valid = true
          ∧ (m.entries[slot * m.stride / 2048].valid = false
            ∨ m.entries[slot * m.stride / 2048].page ≠ (m.configure f).entries[slot * m.stride / 2048].page)
      then { m.slot slot with present := false } else m.slot slot := by
  simp only [configure_entries, ← retargeted_iff, ← mem_retargetedPages_iff m.entries f.writes _ hpage]
  rw [configure_of_keep m h, slot_hide _ _ _ (by exact hn)]
  simp only [List.contains_iff_mem]
  rfl

/-! ## SET_MAP (R124) -/

theorem mapFieldsOk_iff (own : Nat) (f : MapFields) :
    mapFieldsOk own f = true ↔
      f.map < 4 ∧ f.writes.length ≤ 64 ∧ (∀ w ∈ f.writes, w.page < 64 ∧ w.physical < 128)
        ∧ ∀ g, f.geometry = some g →
          (g.stride = 64 ∨ g.stride = 128 ∨ g.stride = 256 ∨ g.stride = 512) ∧ 1 ≤ g.slotCount ∧ g.slotCount ≤ 2048
            ∧ g.slotCount * g.stride ≤ 131072 ∧ f.map ≠ 0 ∧ g.origin ≤ 32 ∧ g.origin ≠ own := by
  simp only [mapFieldsOk, strideOk, Bool.and_eq_true, decide_eq_true_eq, List.all_eq_true, Option.all_eq_true, and_assoc]

theorem originTaken_iff (s : State) (i : Fin 4) (origin : Nat) :
    s.originTaken i origin = true ↔ origin ≠ 0 ∧ ∃ j : Fin 4, j ≠ 0 ∧ j ≠ i ∧ (s.map j).origin = origin := by
  have hmaps : ∀ j : Fin 4, j ∈ ([1, 2, 3] : List (Fin 4)) ↔ j ≠ 0 := by decide
  simp only [State.originTaken, Bool.and_eq_true, decide_eq_true_eq, List.any_eq_true, hmaps]

theorem geometryTaken_iff (s : State) (i : Fin 4) (f : MapFields) :
    (f.geometry.any fun g => s.originTaken i g.origin) = true ↔
      ∃ g, f.geometry = some g ∧ g.origin ≠ 0 ∧ ∃ j : Fin 4, j ≠ 0 ∧ j ≠ i ∧ (s.map j).origin = g.origin := by
  simp only [Option.any_eq_true, originTaken_iff]

theorem endRow_workSetMap_of_bad {f : MapFields} {s : State} (h : ¬mapFieldsOk s.angle.nodeId f = true) :
    endRow (workSetMap f s) = s.replies .range := by
  rw [workSetMap, if_pos (Bool.not_eq_true _ ▸ h), endRow_refuse]

/-- SET_MAP with its first check passed. -/
theorem endRow_workSetMap_of_ok {f : MapFields} {s : State} {i : Fin 4} (h : mapFieldsOk s.angle.nodeId f = true) (hi : f.map = i.val) :
    endRow (workSetMap f s) =
      if f.geometry ≠ none ∧ (s.map i).state ≠ .off then s.replies .state
      else if (f.geometry.any fun g => s.originTaken i g.origin) = true then s.replies .conflict
      else if s.targetsDistinct i (applyWrites (s.map i).entries f.writes) = false then s.replies .conflict
      else ((s.drainWrites i).setMap i (((s.drainWrites i).map i).configure f)).replies .ok := by
  rw [workSetMap, h, if_neg (by decide : ¬true = false), hi, finOfNat_val]
  simp only [Option.isSome_iff_ne_none, endRow_ite, endRow_refuse, endRow_taken]

/-- Settles O37: the checks in order; the map configured, entry by entry and slot by slot. -/
theorem setMapChecksThenConfigures : Obligations.SetMapChecksThenConfigures := by
  refine ⟨fun s f hw => ?request, fun m f => ?configured⟩
  case request =>
    have hexec : exec (.setMap f) s = endRow (workSetMap f s) := exec_of_working (c := .setMap f) rfl hw
    intro fieldsOk
    have hok : mapFieldsOk s.angle.nodeId f = true ↔ fieldsOk := mapFieldsOk_iff s.angle.nodeId f
    rw [hexec]
    refine ⟨fun hbad => endRow_workSetMap_of_bad (mt hok.mp hbad), fun i hi hf => ?_⟩
    intro m entries held distinct
    have hrow := endRow_workSetMap_of_ok (s := s) (hok.mpr hf) hi
    have hheld : (f.geometry.any fun g => s.originTaken i g.origin) = true ↔ held := geometryTaken_iff s i f
    have hdistinct : s.targetsDistinct i (applyWrites (s.map i).entries f.writes) = true ↔ distinct := decide_eq_true_iff
    refine ⟨fun hnew hstate => hrow.trans (if_pos ⟨hnew, hstate⟩), fun hfree hconflict => ?_, fun hfree hunheld hdist => ?_⟩
    all_goals
      have hoff : ¬(f.geometry ≠ none ∧ (s.map i).state ≠ .off) := by
        rintro ⟨hnew, hstate⟩
        exact hfree.elim hnew hstate
      rw [if_neg hoff] at hrow
    · by_cases hh : held
      · exact hrow.trans (if_pos (hheld.mpr hh))
      · have hdouble := Bool.not_eq_true _ ▸ mt hdistinct.mp (hconflict.resolve_left hh)
        exact hrow.trans ((if_neg (mt hheld.mp hh)).trans (if_pos hdouble))
    · have hdiff : ¬s.targetsDistinct i (applyWrites (s.map i).entries f.writes) = false := by
        rw [hdistinct.mpr hdist]
        decide
      rw [if_neg (mt hheld.mp hunheld), if_neg hdiff] at hrow
      refine ⟨fun hwrite hwaiting => ?_, _, hrow, ?_, ?_⟩
      · rw [hrow, drainWrites_of_idle hwrite hwaiting]
      · rw [setMap_map, configure_entries, drainWrites_entries]
      · exact Only.after (setMap_only _ _ _) (Only.up (drainWrites_only s i))
  case configured =>
    intro t
    refine ⟨fun page h => ?entries, fun g hg => ?new, fun hkeep => ?keep,
      fun hkeep hn slot hpage => configure_slot_of_keep hkeep hn slot hpage, configure_kept m f⟩
    case entries =>
      have hentries : t.entries = applyWrites m.entries f.writes := configure_entries m f
      simp only [hentries]
      exact applyWrites_get m.entries f.writes page h
    case new =>
      have hnew : t = _ := configure_of_new m hg
      rw [hnew]
      exact ⟨rfl, rfl, rfl, fun slot => rfl⟩
    case keep =>
      have hkept : t = _ := configure_of_keep m hkeep
      rw [hkept]
      exact ⟨rfl, rfl, rfl⟩

/-! ## ENABLE_MAP (R125) -/

theorem postMapState_setMap (s : State) (i : Fin 4) (m : ImageMap) :
    (s.setMap i m).postMapState i = (s.setMap i m).post (.mapState i m.state m.fault) := by
  rw [State.postMapState, setMap_map]

theorem endRow_workEnableMap (i : Fin 4) (active : Bool) (s : State) :
    endRow (workEnableMap i.val active s) =
      if active then
        if (s.map i).state = .active then s.replies .ok
        else
          ((s.setMap i { s.map i with
            state := .active, fault := none, directory := ((s.map i).hide fun _ => true).directory }).post
              (.mapState i .active none)).replies .ok
      else if (s.map i).state = .off then s.replies .ok
      else
        (((s.drainWrites i).setMap i { (s.drainWrites i).map i with state := .off }).post
          (.mapState i .off ((s.drainWrites i).map i).fault)).replies .ok := by
  rw [workEnableMap, if_pos i.isLt, finOfNat_val]
  simp only [postMapState_setMap, endRow_ite, endRow_taken]
  rfl

/-- Settles O38. -/
theorem enableMapTurnsAMapOnOrOff : Obligations.EnableMapTurnsAMapOnOrOff := by
  refine ⟨fun s map active hw hmap => ?none, fun s i active hw => ?map⟩
  case none =>
    rw [exec_of_working (c := .enableMap map active) rfl hw]
    change endRow (workEnableMap map active s) = _
    rw [workEnableMap, if_neg (Nat.not_lt.mpr hmap), endRow_refuse]
  case map =>
    have hexec : exec (.enableMap i.val active) s = endRow (workEnableMap i.val active s) :=
      exec_of_working (c := .enableMap i.val active) rfl hw
    intro m
    rw [hexec, endRow_workEnableMap]
    refine ⟨fun hon hstate => ?_, fun hon hstate => ?_, fun hoff hstate => ?_, fun hoff hstate hwrite hwaiting => ?_,
      fun hoff hstate => ?_⟩
    · rw [if_pos hon, if_pos hstate]
    · rw [if_pos hon, if_neg hstate]
    · rw [if_neg (by simp [hoff]), if_pos hstate]
    · rw [if_neg (by simp [hoff]), if_neg hstate, drainWrites_of_idle hwrite hwaiting]
    · refine ⟨_, (if_neg (by simp [hoff])).trans (if_neg hstate), ?_, ?_⟩
      · exact congrArg ImageMap.state (setMap_map (s.drainWrites i) i _)
      · exact Only.after (post_only _ _) (Only.after (setMap_only _ _ _) (Only.up (drainWrites_only s i)))

end Sys2Proof.Machine
end

section
/-! Proofs. The mark unit (chapter 7): SET_MARK in its channel form (R135), the judging of repeats (R144, R147, R148), register errors and
the trim steps they give (R145, R146). -/

namespace Sys2Proof.Machine

/-! ## SET_MARK in its channel form (R135) -/

theorem mem_followerNumbers (j : Fin 8) : j ∈ followerNumbers ↔ j ≠ 0 := by
  revert j
  decide

theorem markFieldsOk_iff (width : Nat) (f : MarkFields) :
    markFieldsOk width f = true ↔
      f.channel < 8 ∧ f.c0 < f.c1 ∧ f.c1 ≤ width ∧ f.threshold ≤ 255 ∧ 1 ≤ f.width ∧ f.width ≤ 255 ∧ f.width ≤ f.c1 - f.c0
        ∧ f.g0 ≤ 16777215 ∧ f.g1 ≤ 16777215 ∧ f.g0 ≠ f.g1 ∧ -8388607 ≤ f.spacing ∧ f.spacing ≤ 8388607 ∧ 1 ≤ f.span
        ∧ f.span ≤ 1048575 ∧ f.gain ≤ 256 ∧ f.deadband ≤ 65535 ∧ 1 ≤ f.stepClamp ∧ f.stepClamp ≤ 65535 ∧ f.node ≤ 32 ∧ f.axis < 16
        ∧ 1 ≤ f.lostLimit ∧ f.lostLimit ≤ 15 ∧ (f.channel = 0 ∨ f.span < f.spacing.natAbs) := by
  simp only [markFieldsOk, Bool.and_eq_true, decide_eq_true_eq, and_assoc]

theorem ofNat24_eq_iff {n : Nat} (h : n ≤ 16777215) (a : Angle) : BitVec.ofNat 24 n = a ↔ n = a.toNat := by
  rw [← BitVec.toNat_inj, BitVec.toNat_ofNat, Nat.mod_eq_of_lt (by omega)]

theorem sameSettings_iff (c : Channel) {f : MarkFields} (h0 : f.g0 ≤ 16777215) (h1 : f.g1 ≤ 16777215) :
    c.sameSettings f = true ↔ f.c0 = c.c0 ∧ f.c1 = c.c1 ∧ f.threshold = c.threshold ∧ f.width = c.width ∧ f.g0 = c.g0.toNat
      ∧ f.g1 = c.g1.toNat ∧ f.spacing = c.spacing ∧ f.span = c.span := by
  simp only [Channel.sameSettings, decide_eq_true_eq, ofNat24_eq_iff h0, ofNat24_eq_iff h1]

/-- The three cases in which a SET_MARK whose fields are in range is answered STATE. -/
theorem markStateRefused_iff (s : State) (i : Fin 8) (f : MarkFields) :
    s.markStateRefused i f = true ↔
      (f.on = true ∧ (s.channel i).state ≠ .off ∧ ¬(s.channel i).sameSettings f = true)
        ∨ (f.on = true ∧ i ≠ 0 ∧ (s.channel 0).state = .off)
        ∨ (f.on = false ∧ i = 0 ∧ ∃ j : Fin 8, j ≠ 0 ∧ (s.channel j).state ≠ .off) := by
  simp only [State.markStateRefused, Bool.or_eq_true, Bool.and_eq_true, Bool.not_eq_true', Bool.not_eq_true, decide_eq_true_eq,
    List.any_eq_true, mem_followerNumbers, and_assoc, or_assoc]

theorem endRow_workSetMarkChannel_of_bad {f : MarkFields} {s : State} (h : ¬markFieldsOk s.camera.width f = true) :
    endRow (workSetMarkChannel f s) = s.replies .range := by
  rw [workSetMarkChannel, if_pos (Bool.not_eq_true _ ▸ h), endRow_refuse]

/-- SET_MARK in its channel form with its first check passed. -/
theorem endRow_workSetMarkChannel_of_ok {f : MarkFields} {s : State} {i : Fin 8} (h : markFieldsOk s.camera.width f = true)
    (hi : f.channel = i.val) :
    endRow (workSetMarkChannel f s) =
      if s.markStateRefused i f = true then s.replies .state
      else
        (if (((s.channel i).store f).turn f.on).state = (s.channel i).state then
            (s.setChannel i (((s.channel i).store f).turn f.on)).reportMarks
          else ((s.setChannel i (((s.channel i).store f).turn f.on)).postMarkState i).reportMarks).replies .ok := by
  rw [workSetMarkChannel, h, if_neg (by decide : ¬true = false), hi, finOfNat_val]
  simp only [endRow_ite, endRow_refuse, endRow_taken]

/-- The record of a channel that starts over in a state. -/
def Channel.startOver (c : Channel) (st : ChannelState) : Channel :=
  { c with state := st, foundRun := 0, missRun := 0, previous := none, phase := .fragment, armed := none, edgeTaken := none }

theorem channelTurn_eq (c : Channel) (on : Bool) :
    c.turn on =
      if on = true ∧ c.state = .off then c.startOver .searching
      else if on = false ∧ c.state ≠ .off then c.startOver .off
      else c := by
  unfold Channel.turn
  cases on <;> by_cases h : c.state = .off
  all_goals simp [h, Channel.startOver]

/-- Settles O39: the checks in order, then the stored record and its change of state. -/
theorem setMarkChannelChecksThenStores : Obligations.SetMarkChannelChecksThenStores := by
  intro s f hw
  have hexec : exec (.setMarkChannel f) s = endRow (workSetMarkChannel f s) := exec_of_working (c := .setMarkChannel f) rfl hw
  intro fieldsOk
  have hok : markFieldsOk s.camera.width f = true ↔ fieldsOk := markFieldsOk_iff s.camera.width f
  rw [hexec]
  refine ⟨fun hbad => endRow_workSetMarkChannel_of_bad (mt hok.mp hbad), fun i axis hi haxis hf => ?_⟩
  intro c same refused stored restarted
  obtain ⟨-, -, -, -, -, -, -, hg0, hg1, -⟩ := id hf
  have hrefused : s.markStateRefused i f = true ↔ refused := by
    rw [markStateRefused_iff, sameSettings_iff _ hg0 hg1]
  have hstore : (s.channel i).store f = stored := by
    dsimp only [Channel.store, stored]
    rw [haxis, finOfNat_val]
  have hturn := channelTurn_eq stored f.on
  rw [endRow_workSetMarkChannel_of_ok (hok.mpr hf) hi, hstore]
  refine ⟨fun hr => if_pos (hrefused.mpr hr), fun hr => ?_⟩
  rw [if_neg (mt hrefused.mp hr)]
  refine congrArg (fun u : State => u.replies .ok) ?_
  by_cases hon : f.on = true ∧ c.state = .off
  · have hsearching : ¬ChannelState.searching = (s.channel i).state := by rw [show (s.channel i).state = .off from hon.2]; decide
    rw [if_pos (by exact hon)] at hturn
    rw [hturn, if_pos hon]
    exact if_neg hsearching
  · rw [if_neg (by exact hon)] at hturn
    rw [if_neg hon]
    by_cases hoff : f.on = false ∧ c.state ≠ .off
    · rw [if_pos (by exact hoff)] at hturn
      rw [hturn, if_pos hoff]
      exact if_neg (Ne.symm hoff.2)
    · rw [if_neg (by exact hoff)] at hturn
      rw [hturn, if_neg hoff]
      exact if_pos rfl

/-! ## Channels written and reported (R144, R147) -/

theorem setChannel_setChannel (s : State) (i : Fin 8) (a b : Channel) : (s.setChannel i a).setChannel i b = s.setChannel i b := by
  simp [State.setChannel]

theorem setChannel_channel_eq (s : State) (i j : Fin 8) (c : Channel) :
    (s.setChannel i c).channel j = if i = j then c else s.channel j := by
  by_cases h : i = j
  · subst h
    rw [if_pos rfl, setChannel_channel]
  · rw [if_neg h, setChannel_channel_ne _ _ _ _ h]

theorem channel_of_marks {s t : State} (h : s.marks = t.marks) (j : Fin 8) : s.channel j = t.channel j :=
  congrArg (fun m : MarkUnit => m.channels[j]) h

theorem lostFlagged_eq (m : MarkUnit) :
    m.lostFlagged = decide (∃ x ∈ m.channels.toList, x.state = .lost ∧ x.tripFlag = true) := by
  rw [Bool.eq_iff_iff]
  simp only [MarkUnit.lostFlagged, List.any_eq_true, Bool.and_eq_true, decide_eq_true_eq]

theorem allLocked_eq (m : MarkUnit) :
    m.allLocked = decide (∀ x ∈ m.channels.toList, x.state = .off ∨ x.state = .locked) := by
  rw [Bool.eq_iff_iff]
  simp only [MarkUnit.allLocked, List.all_eq_true, decide_eq_true_eq]

theorem reportMarks_channel (s : State) (j : Fin 8) : s.reportMarks.channel j = s.channel j := by
  unfold State.reportMarks
  dsimp only
  split
  · rfl
  · exact channel_of_marks (setCondition_only _ _ _ .marks (by decide)).symm j

theorem putChannel_channel (s : State) (i j : Fin 8) (c : Channel) :
    (s.putChannel i c).channel j = if i = j then c else s.channel j := by
  unfold State.putChannel
  dsimp only
  split
  · exact setChannel_channel_eq s i j c
  · rw [reportMarks_channel]
    exact setChannel_channel_eq s i j c

theorem putChannel_eq (s : State) (i : Fin 8) (c : Channel) :
    s.putChannel i c =
      if c.state = (s.channel i).state then s.setChannel i c
      else
        ((s.setChannel i c).post
          (.markState i c.state c.foundRun c.missRun c.lastEdge c.lastError c.lastStep c.outcome)).reportMarks := by
  rw [State.putChannel, State.postMarkState, setChannel_channel]

/-! ## Repeats judged (R144) -/

theorem judgedFound_eq (c : Channel) (e : Angle) :
    c.judgedFound e =
      { c with
        found := min (c.found + 1) 65535, foundRun := min (c.foundRun + 1) 255, missRun := 0, lastEdge := some e, edgeTaken := none
        state := if c.state = .lost ∨ (c.state = .searching ∧ min (c.foundRun + 1) 255 < 3) then .searching
          else if c.state = .searching then .locked
          else c.state } := by
  have hrun : bumpTo 255 c.foundRun = min (c.foundRun + 1) 255 := rfl
  unfold Channel.judgedFound
  rw [hrun]
  cases hstate : c.state with
  | searching =>
    by_cases hlocks : 3 ≤ min (c.foundRun + 1) 255
    · simp [hlocks, Nat.not_lt.mpr hlocks, bump]
    · simp [hlocks, Nat.not_le.mp hlocks, bump]
  | off => rfl
  | locked => rfl
  | lost => rfl

theorem judgedMiss_eq (c : Channel) :
    c.judgedMiss =
      { c with
        missed := min (c.missed + 1) 65535, missRun := min (c.missRun + 1) 15, foundRun := 0
        state := if (c.state = .searching ∨ c.state = .locked) ∧ c.lostLimit ≤ min (c.missRun + 1) 15 then .lost else c.state } := by
  have hrun : bumpTo 15 c.missRun = min (c.missRun + 1) 15 := rfl
  unfold Channel.judgedMiss
  rw [hrun]
  cases hstate : c.state with
  | off => rfl
  | lost => rfl
  | searching => simp [bump]
  | locked => simp [bump]

theorem missWaiting_channel_ne (s : State) {i j : Fin 8} (h : i ≠ j) : (s.missWaiting i).channel j = s.channel j := by
  unfold State.missWaiting
  dsimp only
  split
  · exact (putChannel_channel s i j _).trans (if_neg h)
  · rfl

theorem leavePartial_channel_ne (s : State) {i j : Fin 8} (h : i ≠ j) : (s.leavePartial i).channel j = s.channel j := by
  unfold State.leavePartial
  dsimp only
  split
  · exact setChannel_channel_ne s i j _ h
  · rfl

/-- Work on the followers leaves the reference channel. -/
theorem foldl_followers_channel {f : State → Fin 8 → State} (hf : ∀ s i, i ≠ 0 → (f s i).channel 0 = s.channel 0) (s : State) :
    (followerNumbers.foldl f s).channel 0 = s.channel 0 := by
  have hall : ∀ i ∈ followerNumbers, i ≠ 0 := fun i hi => (mem_followerNumbers i).mp hi
  generalize followerNumbers = l at hall
  induction l generalizing s with
  | nil => rfl
  | cons i l ih =>
    rw [List.foldl_cons, ih _ fun j hj => hall j (List.mem_cons_of_mem i hj), hf s i (hall i List.mem_cons_self)]

/-- The close of the reference forms neither error nor step (R145). -/
theorem closeReference_last (s : State) :
    (s.closeReference.channel 0).lastError = (s.channel 0).lastError ∧ (s.closeReference.channel 0).lastStep = (s.channel 0).lastStep := by
  unfold State.closeReference
  rw [foldl_followers_channel fun s i hi => leavePartial_channel_ne s hi]
  split
  · split
    · rw [putChannel_channel, if_pos rfl]
      exact ⟨rfl, rfl⟩
    · rw [foldl_followers_channel fun s i hi => missWaiting_channel_ne s hi, putChannel_channel, if_pos rfl]
      exact ⟨rfl, rfl⟩
  · rw [setChannel_channel]
    exact ⟨rfl, rfl⟩

theorem closeSpan_of_taken {s : State} {i : Fin 8} {taken armed : Angle} (ht : (s.channel i).edgeTaken = some taken)
    (ha : (s.channel i).armed = some armed) :
    s.closeSpan i = (s.putChannel i
      ({ s.channel i with phase := .waiting, armed := none, edgeTaken := none }.judgedFound taken)).formStep i taken armed := by
  unfold State.closeSpan
  dsimp only
  rw [ht, ha]

/-! ## Error and step (R145, R146) -/

theorem stepOf_eq (c : Channel) (e : Int) :
    c.stepOf e =
      if e.natAbs ≤ c.deadband then 0
      else (if 0 < e then (1 : Int) else -1) * ((min c.stepClamp ((e.natAbs * c.gain + 128) / 256) : Nat) : Int) := by
  unfold Channel.stepOf
  dsimp only
  by_cases hpos : 0 < e
  · rw [if_pos hpos, if_pos hpos, one_mul]
  · rw [if_neg hpos, if_neg hpos, neg_one_mul]

theorem natAbs_toInt_le (a : Angle) : a.toInt.natAbs ≤ 2 ^ 23 := by
  have hlow := BitVec.le_toInt a
  have hhigh := BitVec.toInt_lt (x := a)
  norm_num at hlow hhigh ⊢
  omega

theorem error_mul_gain_lt (c : Channel) (a b : Angle) (h : c.gain ≤ 256) : ((a - b).toInt).natAbs * c.gain < 2 ^ 32 :=
  calc ((a - b).toInt).natAbs * c.gain ≤ 2 ^ 23 * 256 := Nat.mul_le_mul (natAbs_toInt_le (a - b)) h
    _ < 2 ^ 32 := by norm_num

/-- The channel with the error and the step of a found repeat noted (R145). -/
def Channel.noted (c : Channel) (e step : Int) : Channel := { c with lastError := e, lastStep := step }

/-- A step is withheld by checks that do not look at the error and step noted. -/
theorem formStep_eq {s : State} {i : Fin 8} {taken armed : Angle} {e step : Int}
    (he : (taken - (armed + BitVec.ofInt 24 (s.channel i).spacing)).toInt = e) (hstep : (s.channel i).stepOf e = step) :
    s.formStep i taken armed =
      match s.withheld (s.channel i) step with
      | some o => s.setChannel i (((s.channel i).noted e step).withhold o)
      | none => (s.setChannel i ((s.channel i).noted e step)).sendStep i step := by
  subst he hstep
  rfl

theorem sendStep_of_local {s : State} {i : Fin 8} {c : Channel} (step : Int) (h : c.node = s.angle.nodeId) :
    (s.setChannel i c).sendStep i step =
      { s.setChannel i { c with outcome := .toLocal, stepsSent := min (c.stepsSent + 1) 65535 } with
        localSteps := s.localSteps ++ [(c.axis, step)] } := by
  unfold State.sendStep
  rw [setChannel_channel]
  dsimp only
  rw [setChannel_angle, if_pos h, setChannel_setChannel]
  rfl

theorem sendStep_of_remote {s : State} {i : Fin 8} {c : Channel} (step : Int) (h : c.node ≠ s.angle.nodeId)
    (hroom : s.ring.localQueue.length < 16) :
    (s.setChannel i c).sendStep i step =
      ((s.setChannel i c).originate .trimStep c.node (u8 c.axis.val ++ u24 (BitVec.ofInt 24 step).toNat)).1.setChannel i
        { c with outcome := .toRemote, stepsSent := min (c.stepsSent + 1) 65535 } := by
  unfold State.sendStep
  rw [setChannel_channel]
  dsimp only
  rw [setChannel_angle, if_neg h, originate_room _ _ _ _ (by exact hroom), if_pos rfl, originate_room _ _ _ _ (by exact hroom)]
  rfl

theorem sendStep_of_full {s : State} {i : Fin 8} {c : Channel} (step : Int) (h : c.node ≠ s.angle.nodeId)
    (hfull : ¬s.ring.localQueue.length < 16) :
    (s.setChannel i c).sendStep i step =
      ((s.setChannel i c).originate .trimStep c.node (u8 c.axis.val ++ u24 (BitVec.ofInt 24 step).toNat)).1.setChannel i
        { c with outcome := .queueFull, stepsLost := min (c.stepsLost + 1) 65535 } := by
  unfold State.sendStep
  rw [setChannel_channel]
  dsimp only
  rw [setChannel_angle, if_neg h, originate_full _ _ _ _ (by exact hfull), if_neg Bool.false_ne_true, originate_full _ _ _ _ (by exact hfull)]
  rfl

theorem withhold_deadband (c : Channel) : c.withhold .deadband = { c with outcome := .deadband } := rfl

theorem withhold_counted (c : Channel) {o : StepOutcome} (h : o ≠ .deadband) :
    c.withhold o = { c with outcome := o, stepsWithheld := min (c.stepsWithheld + 1) 65535 } := by
  rw [Channel.withhold, if_neg h]
  rfl

/-- The checks of R146 in their order, with what a step that fails each or passes all of them leaves. -/
theorem formStep_cases {s : State} {i : Fin 8} {taken armed : Angle} {e step : Int}
    (he : (taken - (armed + BitVec.ofInt 24 (s.channel i).spacing)).toInt = e) (hstep : (s.channel i).stepOf e = step) :
    s.formStep i taken armed =
      if step = 0 then s.setChannel i (((s.channel i).noted e step).withhold .deadband)
      else if (s.channel i).state ≠ .locked then s.setChannel i (((s.channel i).noted e step).withhold .notLocked)
      else if s.angle.lineState ≠ .running then s.setChannel i (((s.channel i).noted e step).withhold .lineNotRunning)
      else if s.angle.v < s.marks.vReg then s.setChannel i (((s.channel i).noted e step).withhold .slow)
      else if (s.channel i).node = 0 then s.setChannel i (((s.channel i).noted e step).withhold .unbound)
      else if (s.channel i).node = s.angle.nodeId ∧ (s.axis (s.channel i).axis).state ≠ .coupled then
        s.setChannel i (((s.channel i).noted e step).withhold .axisNotCoupled)
      else (s.setChannel i ((s.channel i).noted e step)).sendStep i step := by
  rw [formStep_eq he hstep, State.withheld]
  split_ifs <;> rfl

theorem localSteps_channel (s : State) (i : Fin 8) (c : Channel) (steps : List (Fin 16 × Int)) :
    ({ s.setChannel i c with localSteps := steps } : State).channel i = c :=
  setChannel_channel s i c

/-- The outcome and the local steps a delivery leaves. -/
theorem sendStep_outcome {s : State} {i : Fin 8} {c : Channel} (step : Int) :
    (((s.setChannel i c).sendStep i step).channel i).lastError = c.lastError
      ∧ (((s.setChannel i c).sendStep i step).channel i).lastStep = c.lastStep
      ∧ (((s.setChannel i c).sendStep i step).channel i).outcome =
        (if c.node = s.angle.nodeId then .toLocal else if s.ring.localQueue.length < 16 then .toRemote else .queueFull)
      ∧ ((s.setChannel i c).sendStep i step).localSteps =
        if c.node = s.angle.nodeId then s.localSteps ++ [(c.axis, step)] else s.localSteps := by
  by_cases hown : c.node = s.angle.nodeId
  · rw [sendStep_of_local step hown, if_pos hown, if_pos hown, localSteps_channel]
    exact ⟨rfl, rfl, rfl, rfl⟩
  · have hlocal (k : FrameKind) (d : Nat) (p : List Byte) : ((s.setChannel i c).originate k d p).1.localSteps = s.localSteps :=
      (originate_only (s.setChannel i c) k d p .localSteps (by decide)).symm
    rw [if_neg hown, if_neg hown]
    by_cases hroom : s.ring.localQueue.length < 16
    · rw [sendStep_of_remote step hown hroom, setChannel_channel, if_pos hroom]
      exact ⟨rfl, rfl, rfl, hlocal _ _ _⟩
    · rw [sendStep_of_full step hown hroom, setChannel_channel, if_neg hroom]
      exact ⟨rfl, rfl, rfl, hlocal _ _ _⟩

/-- Settles O41: the step by its formula, what becomes of it by `formStep_cases`, the judgements and reports by their equations. -/
theorem registerErrorGivesTheTrimStep : Obligations.RegisterErrorGivesTheTrimStep := by
  refine ⟨stepOf_eq, error_mul_gain_lt, fun s i taken armed => closeSpan_of_taken, closeReference_last,
    fun s i taken armed => ?outcome, fun s i taken armed => ?delivery, fun c e => ⟨judgedFound_eq c e, judgedMiss_eq c⟩,
    fun s i c => ?reports⟩
  case outcome =>
    intro c e after
    have hform := formStep_eq (s := s) (i := i) (taken := taken) (armed := armed) (e := e) rfl rfl
    dsimp only [after]
    cases hwithheld : s.withheld c (c.stepOf e) with
    | some o =>
      rw [show s.withheld (s.channel i) _ = some o from hwithheld] at hform
      rw [hform]
      refine ⟨?_, ?_, ?_, ?_⟩
      · exact congrArg Channel.lastError (setChannel_channel s i _)
      · exact congrArg Channel.lastStep (setChannel_channel s i _)
      · exact congrArg Channel.outcome (setChannel_channel s i _)
      · rw [if_neg (by simp)]
        rfl
    | none =>
      rw [show s.withheld (s.channel i) _ = none from hwithheld] at hform
      rw [hform]
      obtain ⟨herror, hstep, houtcome, hlocal⟩ := sendStep_outcome (s := s) (i := i) (c := c.noted e (c.stepOf e)) (c.stepOf e)
      refine ⟨herror, hstep, houtcome, ?_⟩
      simp only [true_and]
      exact hlocal
  case delivery =>
    intro c e step ends sends noted x frame
    have hform := formStep_cases (s := s) (i := i) (taken := taken) (armed := armed) (e := e) (step := step) rfl rfl
    refine ⟨hform.trans ?_, fun hfull => ?_, fun hroom => ?_⟩
    · refine ite_congr rfl (fun _ => rfl) fun _ => ite_congr rfl (fun _ => rfl) fun _ => ite_congr rfl (fun _ => rfl) fun _ =>
        ite_congr rfl (fun _ => rfl) fun _ => ite_congr rfl (fun _ => rfl) fun _ => ?_
      by_cases hown : (s.channel i).node = s.angle.nodeId
      · by_cases hcoupled : (s.axis (s.channel i).axis).state = .coupled
        · rw [if_neg (fun h => h.2 hcoupled), sendStep_of_local (c := (s.channel i).noted e step) step hown,
            if_pos (by exact hown), if_pos (by exact hcoupled)]
          rfl
        · rw [if_pos ⟨hown, hcoupled⟩, if_pos (by exact hown), if_neg (by exact hcoupled)]
          rfl
      · rw [if_neg (fun h => hown h.1), if_neg (by exact hown)]
        by_cases hroom : s.ring.localQueue.length < 16
        · rw [if_pos hroom, sendStep_of_remote (c := (s.channel i).noted e step) step hown hroom]
          rfl
        · rw [if_neg hroom, sendStep_of_full (c := (s.channel i).noted e step) step hown hroom]
          rfl
    · exact congrArg Prod.fst (originate_full noted _ _ _ (Nat.not_lt.mpr hfull))
    · exact congrArg Prod.fst (originate_room noted .trimStep c.node _ hroom)
  case reports =>
    intro set lost locked told
    refine ⟨putChannel_eq s i c, ?_⟩
    have hlost : s.marks.lostFlagged = lost := lostFlagged_eq s.marks
    have hlocked : s.marks.allLocked = locked := allLocked_eq s.marks
    rw [State.reportMarks, hlost, hlocked]
    rfl

end Sys2Proof.Machine
end

section
/-! Proofs. The screen controller's requests on the port, the windows, the grants and the banner (R151, R154 to R156, R158, R163), and the
panel's messages and timers (R152, R160 to R162). -/

namespace Sys2Proof.Machine

/-! ## How a screen request ends (R163) -/

theorem endRow_shown (s : State) : endRow (shown s) = s.runSender.replies .ok s.runSender.screenSummary := rfl

theorem endRow_screenRefuse (s : State) (st : Status) : endRow (screenRefuse s st) = s.replies st s.screenSummary := rfl

theorem bannerShown_eq (sc : Screen) : sc.bannerShown = decide (sc.banner ≠ none ∧ sc.headClass ≠ .none) := by
  rw [Bool.eq_iff_iff, Screen.bannerShown, Bool.and_eq_true, decide_eq_true_eq, decide_eq_true_eq, Option.isSome_iff_ne_none]

theorem runSender_of_not_up {s : State} (h : s.screen.state ≠ .up) : s.runSender = s := if_neg fun hup => h hup.1

/-! ## SET_SCREEN (R151) -/

theorem screenFieldsOk_iff (f : ScreenFields) :
    screenFieldsOk f = true ↔ 1 ≤ f.cols ∧ f.cols ≤ 80 ∧ 1 ≤ f.rows ∧ f.rows ≤ 48 ∧ f.background ≤ 255 := by
  simp only [screenFieldsOk, Bool.and_eq_true, decide_eq_true_eq, and_assoc]

theorem fits_iff (q : Rect) (cols rows : Nat) :
    Rect.fits q cols rows = true ↔ 1 ≤ q.w ∧ 1 ≤ q.h ∧ q.x + q.w ≤ cols ∧ q.y + q.h ≤ rows := decide_eq_true_iff

theorem layersFit_iff (sc : Screen) (cols rows : Nat) :
    sc.layersFit cols rows = true ↔
      (∀ w ∈ sc.windows, 1 ≤ w.rect.w ∧ 1 ≤ w.rect.h ∧ w.rect.x + w.rect.w ≤ cols ∧ w.rect.y + w.rect.h ≤ rows)
        ∧ ∀ b, sc.banner = some b → 1 ≤ b.rect.w ∧ 1 ≤ b.rect.h ∧ b.rect.x + b.rect.w ≤ cols ∧ b.rect.y + b.rect.h ≤ rows := by
  simp only [Screen.layersFit, Bool.and_eq_true, List.all_eq_true, Option.all_eq_true, fits_iff]

theorem endRow_workSetScreen (f : ScreenFields) (s : State) :
    endRow (workSetScreen f s) =
      if ¬screenFieldsOk f = true then s.replies .range s.screenSummary
      else if ¬s.screen.layersFit f.cols f.rows = true then s.replies .state s.screenSummary
      else endRow (shown (({ s with screen := s.screen.resize f } : State).switchScreen f.enable)) := by
  rw [workSetScreen]
  simp only [Bool.not_eq_true, endRow_ite, endRow_screenRefuse]

/-- The port switched, and the sender run after it: a switch leaves the port not UP. -/
theorem switchScreen_runSender (s : State) (enable : Bool) :
    (s.switchScreen enable).runSender =
      if enable = true ∧ s.screen.state = .off then
        ({ s with screen := { s.screen with state := .noPanel, panelTimer := s.now } } : State).postScreenState
      else if enable = false ∧ s.screen.state ≠ .off then
        ({ s with screen := { s.screen with state := .off, inSend := none } } : State).postScreenState
      else s.runSender := by
  unfold State.switchScreen
  by_cases hoff : s.screen.state = .off
  · cases enable with
    | true =>
      simp only [hoff, if_true, and_self]
      exact runSender_of_not_up (fun hup => ScreenState.noConfusion hup)
    | false => simp [hoff]
  · cases enable with
    | true => simp [hoff]
    | false =>
      simp only [hoff, if_false, Bool.false_eq_true, ne_eq, not_false_eq_true, and_self, if_true]
      exact runSender_of_not_up (fun hup => ScreenState.noConfusion hup)

/-- Settles O42. -/
theorem setScreenChecksThenStores : Obligations.SetScreenChecksThenStores := by
  refine ⟨fun s => ?summary, fun s at_ f hw => ?request⟩
  case summary =>
    intro sc
    rw [State.screenSummary, bannerShown_eq]
  case request =>
    have hexec : exec (.setScreen at_ f) s = endRow (workSetScreen f (s.tick at_)) := exec_of_working (c := .setScreen at_ f) rfl hw
    intro s1 sized inside fits screen
    have hsized : screenFieldsOk f = true ↔ sized := screenFieldsOk_iff f
    have hfits : s1.screen.layersFit f.cols f.rows = true ↔ fits := layersFit_iff s.screen f.cols f.rows
    rw [hexec, endRow_workSetScreen]
    refine ⟨fun hbad => if_pos (mt hsized.mp hbad), fun hf hbad => ?_, fun hf hfit => ?_⟩
    · rw [if_neg (not_not_intro (hsized.mpr hf)), if_pos (mt hfits.mp hbad)]
    · rw [if_neg (not_not_intro (hsized.mpr hf)), if_neg (not_not_intro (hfits.mpr hfit)), endRow_shown, switchScreen_runSender]
      rfl

/-! ## Windows (R155, R156) -/

theorem touchModeOk_iff (own : Nat) (t : TouchMode) :
    touchModeOk own t = true ↔ ∀ n, t = .toNode n → 1 ≤ n ∧ n ≤ 32 ∧ n ≠ own := by
  cases t with
  | toHost => exact iff_of_true rfl fun n hn => TouchMode.noConfusion hn
  | toNode node =>
    rw [touchModeOk, decide_eq_true_eq]
    exact ⟨fun hnode n hn => TouchMode.toNode.inj hn ▸ hnode, fun hall => hall node rfl⟩
  | ignore => exact iff_of_true rfl fun n hn => TouchMode.noConfusion hn

theorem windowKindOk_iff (w : Window) :
    windowKindOk w = true ↔
      match w.kind with
      | .tiles => w.tileBase + w.rect.w * w.rect.h ≤ 512
      | .webview =>
        w.map ≤ 3 ∧ w.line0 ≤ 2047 ∧ w.col0 ≤ 511 ∧ 1 ≤ w.vStep ∧ w.vStep ≤ 16 ∧ 1 ≤ w.hStep ∧ w.hStep ≤ 16 ∧ w.greyBase ≤ 224
          ∧ w.staleIndex ≤ 255 := by
  rw [windowKindOk]
  cases w.kind <;> simp only [Bool.and_eq_true, decide_eq_true_eq, and_assoc]

theorem windowOk_iff (s : State) (w : Window) :
    s.windowOk w = true ↔ w.id ≤ 7 ∧ 1 ≤ w.rect.w ∧ 1 ≤ w.rect.h ∧ w.rect.x + w.rect.w ≤ s.screen.cols
      ∧ w.rect.y + w.rect.h ≤ s.screen.rows ∧ windowKindOk w = true ∧ ∀ n, w.touch = .toNode n → 1 ≤ n ∧ n ≤ 32 ∧ n ≠ s.angle.nodeId := by
  simp only [State.windowOk, Bool.and_eq_true, decide_eq_true_eq, fits_iff, touchModeOk_iff, and_assoc]

theorem window_eq_none_iff (sc : Screen) (id : Nat) : sc.window id = none ↔ ∀ x ∈ sc.windows, x.id ≠ id := by
  simp only [Screen.window, List.find?_eq_none, decide_eq_true_eq, ne_eq]

theorem endRow_workSetWindow_of_bad {w : Window} {s : State} (h : ¬s.windowOk w = true) :
    endRow (workSetWindow w s) = s.replies .range s.screenSummary := by
  rw [workSetWindow, if_pos (Bool.not_eq_true _ ▸ h), endRow_screenRefuse]

/-- SET_WINDOW of an id that is not in the list. -/
theorem endRow_workSetWindow_of_new {w : Window} {s : State} (h : s.windowOk w = true) (hnew : s.screen.window w.id = none) :
    endRow (workSetWindow w s) =
      if 8 ≤ s.screen.windows.length then s.replies .full s.screenSummary
      else endRow (shown { s with screen := ({ s.screen with windows := s.screen.windows ++ [w] } : Screen).markRect w.rect }) := by
  rw [workSetWindow, h, if_neg (by decide : ¬true = false)]
  dsimp only
  rw [hnew]
  exact endRow_ite _ _ _

/-- SET_WINDOW of an id that is in the list. -/
theorem endRow_workSetWindow_of_old {w old : Window} {s : State} (h : s.windowOk w = true) (hold : s.screen.window w.id = some old) :
    endRow (workSetWindow w s) =
      endRow (shown { s with
        screen := (({ s.screen with windows := replaceWindow s.screen.windows w } : Screen).markRect old.rect).markRect w.rect }) := by
  rw [workSetWindow, h, if_neg (by decide : ¬true = false)]
  dsimp only
  rw [hold]

theorem endRow_workRaiseWindow_of_bad {id : Nat} (s : State) (h : 7 < id) :
    endRow (workRaiseWindow id s) = s.replies .range s.screenSummary := by
  rw [workRaiseWindow, if_neg (Nat.not_le.mpr h), endRow_screenRefuse]

theorem endRow_workRaiseWindow_of_none {id : Nat} {s : State} (h : id ≤ 7) (hnone : s.screen.window id = none) :
    endRow (workRaiseWindow id s) = s.replies .state s.screenSummary := by
  rw [workRaiseWindow, if_pos h]
  dsimp only
  rw [hnone]
  rfl

theorem endRow_workRaiseWindow_of_some {id : Nat} {w : Window} {s : State} (h : id ≤ 7) (hw : s.screen.window id = some w) :
    endRow (workRaiseWindow id s) =
      if s.screen.windows.getLast? = some w then endRow (shown s)
      else endRow (shown { s with
        screen := ({ s.screen with windows := withoutWindow s.screen.windows id ++ [w] } : Screen).markRect w.rect }) := by
  rw [workRaiseWindow, if_pos h]
  dsimp only
  rw [hw]
  exact endRow_ite _ _ _

theorem endRow_workRemoveWindow_of_bad {id : Nat} (s : State) (h : 7 < id) :
    endRow (workRemoveWindow id s) = s.replies .range s.screenSummary := by
  rw [workRemoveWindow, if_neg (Nat.not_le.mpr h), endRow_screenRefuse]

theorem endRow_workRemoveWindow_of_none {id : Nat} {s : State} (h : id ≤ 7) (hnone : s.screen.window id = none) :
    endRow (workRemoveWindow id s) = s.replies .state s.screenSummary := by
  rw [workRemoveWindow, if_pos h]
  dsimp only
  rw [hnone]
  rfl

theorem endRow_workRemoveWindow_of_some {id : Nat} {w : Window} {s : State} (h : id ≤ 7) (hw : s.screen.window id = some w) :
    endRow (workRemoveWindow id s) =
      endRow (shown { s with
        screen := ({ s.screen with windows := withoutWindow s.screen.windows id } : Screen).markRect w.rect }) := by
  rw [workRemoveWindow, if_pos h]
  dsimp only
  rw [hw]

/-- Settles O43. -/
theorem windowRequestsMoveTheWindowList : Obligations.WindowRequestsMoveTheWindowList := by
  intro s list
  refine ⟨fun w hw => ?set, fun id hw => ?raise, fun id hw => ?remove⟩
  case set =>
    have hexec : exec (.setWindow w) s = endRow (workSetWindow w s) := exec_of_working (c := .setWindow w) rfl hw
    intro kindOk ok
    have hok : s.windowOk w = true ↔ ok := by
      rw [windowOk_iff, windowKindOk_iff] <;> rfl
    rw [hexec]
    refine ⟨fun hbad => endRow_workSetWindow_of_bad (mt hok.mp hbad), fun h hnew hfull => ?_, fun h hnew hroom => ?_, fun old h hold => ?_⟩
    · rw [endRow_workSetWindow_of_new (hok.mpr h) ((window_eq_none_iff _ _).mpr hnew), if_pos hfull]
    · rw [endRow_workSetWindow_of_new (hok.mpr h) ((window_eq_none_iff _ _).mpr hnew), if_neg (Nat.not_le.mpr hroom), endRow_shown]
    · exact endRow_workSetWindow_of_old (hok.mpr h) hold
  case raise =>
    have hexec : exec (.raiseWindow id) s = endRow (workRaiseWindow id s) := exec_of_working (c := .raiseWindow id) rfl hw
    rw [hexec]
    refine ⟨endRow_workRaiseWindow_of_bad s, fun hid hnone => ?_, fun w hid hfind => ?_⟩
    · exact endRow_workRaiseWindow_of_none hid ((window_eq_none_iff _ _).mpr hnone)
    · intro windows t
      have ht : t = if s.screen.windows.getLast? = some w then s.runSender
        else ({ s with screen := ({ s.screen with windows := windows } : Screen).markRect w.rect } : State).runSender := rfl
      rw [endRow_workRaiseWindow_of_some hid hfind, ht]
      by_cases hlast : s.screen.windows.getLast? = some w
      · rw [if_pos hlast, if_pos hlast, endRow_shown]
      · rw [if_neg hlast, if_neg hlast, endRow_shown]
        rfl
  case remove =>
    have hexec : exec (.removeWindow id) s = endRow (workRemoveWindow id s) := exec_of_working (c := .removeWindow id) rfl hw
    rw [hexec]
    refine ⟨endRow_workRemoveWindow_of_bad s, fun hid hnone => ?_, fun w hid hfind => ?_⟩
    · exact endRow_workRemoveWindow_of_none hid ((window_eq_none_iff _ _).mpr hnone)
    · exact endRow_workRemoveWindow_of_some hid hfind

/-! ## Grants and the banner (R154, R158) -/

theorem grantOk_iff (own : Nat) (f : GrantFields) :
    grantOk own f = true ↔ f.grant < 4 ∧ f.origin ≤ 32 ∧ f.origin ≠ own ∧ f.first ≤ 511 ∧ 1 ≤ f.count ∧ f.count ≤ 512
      ∧ f.first + f.count ≤ 512 := by
  simp only [grantOk, Bool.and_eq_true, decide_eq_true_eq, and_assoc]

theorem bannerOk_iff (sc : Screen) (b : Banner) :
    bannerOk sc b = true ↔ 1 ≤ b.rect.w ∧ 1 ≤ b.rect.h ∧ b.rect.x + b.rect.w ≤ sc.cols ∧ b.rect.y + b.rect.h ≤ sc.rows
      ∧ ∀ base ∈ [b.warn, b.impressionOff, b.stopRamp, b.stopFast], base + b.rect.w * b.rect.h ≤ 512 := by
  simp only [bannerOk, Bool.and_eq_true, fits_iff, List.all_eq_true, decide_eq_true_eq, and_assoc]

/-- What a stored banner marks: with a head class, the rectangles of the old and the new. -/
theorem setBanner_eq (sc : Screen) (banner : Option Banner) :
    sc.setBanner banner =
      if sc.headClass = .none then { sc with banner := banner }
      else
        match sc.banner, banner with
        | some old, some new => (({ sc with banner := banner } : Screen).markRect old.rect).markRect new.rect
        | some old, none => ({ sc with banner := banner } : Screen).markRect old.rect
        | none, some new => ({ sc with banner := banner } : Screen).markRect new.rect
        | none, none => { sc with banner := banner } := by
  unfold Screen.setBanner Screen.bannerShown
  by_cases hclass : sc.headClass = .none
  · simp [hclass]
  · cases hbanner : sc.banner with
    | none =>
      cases banner with
      | none => simp [hclass]
      | some new =>
        simp only [hclass, ne_eq, not_false_eq_true, decide_true, Option.isSome_some, Option.isSome_none, Bool.and_true, Bool.or_true,
          if_true, if_false]
        rfl
    | some old =>
      cases banner with
      | none =>
        simp only [hclass, ne_eq, not_false_eq_true, decide_true, Option.isSome_some, Option.isSome_none, Bool.and_true, Bool.true_or,
          if_true, if_false]
        rfl
      | some new =>
        simp only [hclass, ne_eq, not_false_eq_true, decide_true, Option.isSome_some, Bool.and_true, Bool.true_or, if_true, if_false]
        rfl

/-- Settles O45. -/
theorem grantsAndBanner : Obligations.GrantsAndBanner := by
  refine ⟨fun s f hw => ?grant, fun s banner hw => ?banner⟩
  case grant =>
    rw [exec_of_working (c := .setGrant f) rfl hw]
    change endRow (workSetGrant f s) = _
    rw [workSetGrant]
    by_cases h : f.grant < 4
    · rw [dif_pos h]
      simp only [finOfNat_of_lt h]
      by_cases hbad : ¬(f.origin ≤ 32 ∧ f.origin ≠ s.angle.nodeId ∧ f.first ≤ 511 ∧ 1 ≤ f.count ∧ f.count ≤ 512 ∧ f.first + f.count ≤ 512)
      · rw [if_pos hbad, if_neg (fun hok => hbad ((grantOk_iff _ f).mp hok).2), endRow_screenRefuse]
      · rw [if_neg hbad, if_pos ((grantOk_iff _ f).mpr ⟨h, not_not.mp hbad⟩)]
        rfl
    · rw [dif_neg h, if_neg (fun hok => h ((grantOk_iff _ f).mp hok).1), endRow_screenRefuse]
  case banner =>
    have hexec : exec (.setBanner banner) s = endRow (workSetBanner banner s) := exec_of_working (c := .setBanner banner) rfl hw
    intro ok
    have hok : banner.all (bannerOk s.screen) = true ↔ ok := by
      simp only [Option.all_eq_true, bannerOk_iff]
      rfl
    rw [hexec, workSetBanner]
    refine ⟨fun hbad => ?_, fun h => ?_⟩
    · rw [if_neg (mt hok.mp hbad), endRow_screenRefuse]
    · rw [if_pos (hok.mpr h), setBanner_eq, endRow_shown]
      by_cases hclass : s.screen.headClass = .none
      · simp only [if_pos hclass]
      · simp only [if_neg hclass]
        cases s.screen.banner <;> cases banner <;> rfl

/-! ## Panel messages and timers (R152, R160 to R162) -/

theorem panelMessage_of_off {s : State} (bs : List Byte) (h : s.screen.state = .off) : s.panelMessage bs = s := if_pos h

theorem panelMessage_of_status {s : State} {bs : List Byte} (h : s.screen.state ≠ .off)
    (hstatus : crc16Good bs = true ∧ byteAt bs 0 = 1 ∧ bs.length = 3) : s.panelMessage bs = s.panelStatus := by
  rw [State.panelMessage, if_neg h, if_neg (by simp [hstatus.1]), if_pos hstatus.2]

theorem panelMessage_of_touch {s : State} {bs : List Byte} (h : s.screen.state ≠ .off)
    (htouch : crc16Good bs = true ∧ byteAt bs 0 = 2 ∧ bs.length = 8) :
    s.panelMessage bs = s.routeTouch (byteAt bs 1) (fieldAt bs 2 2) (fieldAt bs 4 2) := by
  have hnot : ¬(byteAt bs 0 = 1 ∧ bs.length = 3) := by
    rw [htouch.2.1]
    rintro ⟨h12, -⟩
    exact absurd h12 (by decide)
  rw [State.panelMessage, if_neg h, if_neg (by simp [htouch.1]), if_neg hnot, if_pos htouch.2]

theorem panelMessage_of_bad {s : State} {bs : List Byte} (h : s.screen.state ≠ .off)
    (hstatus : ¬(crc16Good bs = true ∧ byteAt bs 0 = 1 ∧ bs.length = 3))
    (htouch : ¬(crc16Good bs = true ∧ byteAt bs 0 = 2 ∧ bs.length = 8)) : s.panelMessage bs = s.badPanelMessage := by
  rw [State.panelMessage, if_neg h]
  by_cases hcrc : crc16Good bs = true
  · rw [if_neg (by simp [hcrc]), if_neg (fun hs => hstatus ⟨hcrc, hs⟩), if_neg (fun ht => htouch ⟨hcrc, ht⟩)]
  · rw [if_pos (Bool.not_eq_true _ ▸ hcrc)]

theorem holdTouch_eq (s : State) (h : HoldFrame) :
    s.holdTouch h =
      if 8 ≤ s.screen.hold.length then
        { s with screen := { s.screen with touchesDropped := min (s.screen.touchesDropped + 1) 65535 } }
      else s.hold h := by
  unfold State.holdTouch
  by_cases hroom : s.screen.hold.length < 8
  · rw [if_neg (Nat.not_le.mpr hroom)]
    exact if_pos hroom
  · rw [if_pos (Nat.not_lt.mp hroom)]
    exact if_neg hroom

theorem touchWindow_eq (s : State) (w : Window) (kind : Byte) (x y : Nat) :
    s.touchWindow w kind x y =
      match w.touch with
      | .toHost => s.post (.touch kind (some w.id) (x - 16 * w.rect.x) (y - 16 * w.rect.y) none)
      | .ignore => { s with screen := { s.screen with touchesDropped := min (s.screen.touchesDropped + 1) 65535 } }
      | .toNode node =>
        if 8 ≤ s.screen.hold.length then
          { s with screen := { s.screen with touchesDropped := min (s.screen.touchesDropped + 1) 65535 } }
        else
          s.hold { kind := .touch, dest := node, payload := [kind] ++ u8 w.id ++ u16 (x - 16 * w.rect.x) ++ u16 (y - 16 * w.rect.y) } := by
  rw [State.touchWindow]
  cases w.touch with
  | toHost => rfl
  | ignore => rfl
  | toNode node => exact holdTouch_eq s _

theorem routeTouch_eq (s : State) (kind : Byte) (x y : Nat) :
    s.routeTouch kind x y =
      if 16 * s.screen.cols ≤ x ∨ 16 * s.screen.rows ≤ y then
        { s with screen := { s.screen with badPanel := min (s.screen.badPanel + 1) 65535 } }
      else
        match s.screen.topLayer (x / 16) (y / 16) with
        | .banner b => s.post (.bannerTouch kind (x - 16 * b.rect.x) (y - 16 * b.rect.y) s.screen.headClass)
        | .background => s.post (.touch kind none x y none)
        | .window w =>
          match w.touch with
          | .toHost => s.post (.touch kind (some w.id) (x - 16 * w.rect.x) (y - 16 * w.rect.y) none)
          | .ignore => { s with screen := { s.screen with touchesDropped := min (s.screen.touchesDropped + 1) 65535 } }
          | .toNode node =>
            if 8 ≤ s.screen.hold.length then
              { s with screen := { s.screen with touchesDropped := min (s.screen.touchesDropped + 1) 65535 } }
            else
              s.hold { kind := .touch, dest := node
                       payload := [kind] ++ u8 w.id ++ u16 (x - 16 * w.rect.x) ++ u16 (y - 16 * w.rect.y) } := by
  rw [State.routeTouch]
  refine ite_congr rfl (fun _ => rfl) fun _ => ?_
  cases s.screen.topLayer (x / 16) (y / 16) with
  | banner b => rfl
  | background => rfl
  | window w => exact touchWindow_eq s w kind x y

theorem panelExpires_of_up {s : State} (h : s.screen.state = .up) :
    s.panelExpires =
      (({ s.tick (s.screen.panelTimer + 500000000) with screen :=
        { s.screen with state := .noPanel, panelLosses := min (s.screen.panelLosses + 1) 65535 } } : State).post
        (.screenState .noPanel s.screen.cols s.screen.rows (min (s.screen.panelLosses + 1) 65535))) :=
  if_pos h

/-- Settles O47. -/
theorem panelMessagesAndTimers : Obligations.PanelMessagesAndTimers := by
  refine ⟨fun s at_ bs => ?panel, fun s origin payload => rfl⟩
  intro s1 bad status touch
  have hexec : exec (.panelMessage at_ bs) s = .next (s1.panelMessage bs) := rfl
  have hstate : s1.screen.state = s.screen.state := rfl
  rw [hexec]
  refine ⟨fun hoff => ?_, fun hon hs ht => ?_, fun hup hs => ?_, fun hno hs => ?_, fun hon ht => ?_, fun hdown => ?_, fun hup => ?_,
    fun hnone => ?_, fun hsome => ?_⟩
  · rw [panelMessage_of_off (s := s1) bs hoff]
  · rw [panelMessage_of_bad (s := s1) hon hs ht]
    rfl
  · rw [panelMessage_of_status (by rw [hstate, hup]; decide) hs, State.panelStatus]
    dsimp only
    rw [if_neg (by rw [hstate, hup]; decide)]
  · rw [panelMessage_of_status (by rw [hstate, hno]; decide) hs, State.panelStatus]
    dsimp only
    rw [if_pos (by rw [hstate, hno])]
    rfl
  · rw [panelMessage_of_touch (s := s1) hon ht]
    exact congrArg Host.Outcome.next (routeTouch_eq s1 _ _ _)
  · exact congrArg Host.Outcome.next (if_neg hdown)
  · exact congrArg Host.Outcome.next (panelExpires_of_up hup)
  · exact congrArg Host.Outcome.next (if_neg (by simp [hnone]))
  · exact congrArg Host.Outcome.next (if_pos (Option.isSome_iff_ne_none.mpr hsome))

end Sys2Proof.Machine
end

section
/-! Proofs. The tile store and the picture (chapter 8): PUT_TILES and peer tiles (R153, R154), layers and composition (R157), the dirty set
(R159) and the sender (R160). -/

namespace Sys2Proof.Machine

/-! ## The tile store (8.3) -/

/-- A byte of the store after a tile of 256 indices is written whole. -/
theorem writeTile_read {sc : Screen} {pixels : List Byte} (hwf : Memory.wf sc.tiles) (hlength : pixels.length = 256) (tile k : Nat)
    {i : Nat} (hi : i < 256) :
    Memory.read (sc.writeTile tile pixels).tiles (256 * k + i) =
      if k = tile then byteAt pixels i else Memory.read sc.tiles (256 * k + i) := by
  change Memory.read (Memory.writeBytes sc.tiles (tile * 256) pixels) (256 * k + i) = _
  rw [Memory.read_writeBytes _ _ _ _ hwf, hlength]
  by_cases htile : k = tile
  · subst htile
    rw [if_pos (by omega), if_pos rfl, Nat.mul_comm k 256, Nat.add_sub_cancel_left]
  · rw [if_neg (by omega), if_neg htile]

/-- Of several tiles written in turn, the last write of a tile is read. -/
theorem writeTiles_read {sc : Screen} (tiles : List TileWrite) (hwf : Memory.wf sc.tiles) (hlength : ∀ x ∈ tiles, x.pixels.length = 256)
    (k : Nat) {i : Nat} (hi : i < 256) :
    Memory.read (tiles.foldl (fun sc x => sc.writeTile x.tile x.pixels) sc).tiles (256 * k + i) =
      match tiles.reverse.find? (fun x => x.tile = k) with
      | some x => byteAt x.pixels i
      | none => Memory.read sc.tiles (256 * k + i) := by
  induction tiles generalizing sc with
  | nil => rfl
  | cons x tiles ih =>
    obtain ⟨-, -, -, hwf'⟩ := writeTile_same sc x.tile x.pixels
    rw [List.foldl_cons, ih (hwf' hwf) fun y hy => hlength y (List.mem_cons_of_mem x hy), List.reverse_cons, List.find?_append]
    cases tiles.reverse.find? (fun x => x.tile = k) with
    | some y => rfl
    | none =>
      rw [Option.none_or]
      change Memory.read (sc.writeTile x.tile x.pixels).tiles (256 * k + i) = _
      rw [writeTile_read hwf (hlength x List.mem_cons_self) x.tile k hi]
      by_cases htile : k = x.tile
      · rw [if_pos htile, List.find?_cons_of_pos (by simp [htile])]
      · rw [if_neg htile, List.find?_cons_of_neg (by simpa using Ne.symm htile)]
        rfl

/-! ## The hold queue leaves the tile store (R153) -/

theorem runSender_tiles (s : State) : s.runSender.screen.tiles = s.screen.tiles := by
  unfold State.runSender
  split
  · split <;> rfl
  · rfl

theorem passHeld_tiles (s : State) : s.passHeld.screen.tiles = s.screen.tiles := by
  unfold State.passHeld
  split
  · rfl
  · split <;> rfl

theorem transmit_screen (s : State) (o : FibreSide) (f : Frame) : (s.transmit o f).screen = s.screen := setFibre_screen s o _

theorem arbitrate_tiles (s : State) (o : FibreSide) : (s.arbitrate o).screen.tiles = s.screen.tiles := by
  unfold State.arbitrate
  dsimp only
  split
  · split
    · rw [transmit_screen, setFibre_screen]
    · rw [left_screen, transmit_screen, setFibre_screen]
    · rw [transmit_screen, setFibre_screen]
    · rw [passHeld_tiles, transmit_screen]
      exact congrArg Screen.tiles (setFibre_screen s o _)
    · rfl
  · rfl

theorem serveLocal_tiles (s : State) : s.serveLocal.screen.tiles = s.screen.tiles := by
  unfold State.serveLocal
  split
  · exact arbitrate_tiles s _
  · rfl

theorem hold_tiles (s : State) (h : HoldFrame) : (s.hold h).screen.tiles = s.screen.tiles := by
  unfold State.hold
  split
  · exact serveLocal_tiles _
  · rfl

theorem holdAll_tiles (dest : Nat) (tiles : List TileWrite) (s : State) :
    (tiles.foldl (fun s x => s.hold (tileFrame dest x)) s).screen.tiles = s.screen.tiles := by
  induction tiles generalizing s with
  | nil => rfl
  | cons x tiles ih => rw [List.foldl_cons, ih, hold_tiles]

theorem holdAll_only (dest : Nat) (tiles : List TileWrite) (s : State) :
    Only [.angle, .master, .ring, .screen, .ctl, .notices] s (tiles.foldl (fun s x => s.hold (tileFrame dest x)) s) :=
  Only.foldl (fun s x => hold_only s (tileFrame dest x)) tiles s

/-! ## PUT_TILES and SCREEN_TILES (R153, R154) -/

theorem tilesOk_iff (own dest : Nat) (tiles : List TileWrite) :
    tilesOk own dest tiles = true ↔
      1 ≤ tiles.length ∧ tiles.length ≤ 4 ∧ (∀ t ∈ tiles, t.tile ≤ 511) ∧ dest ≤ 32 ∧ dest ≠ own := by
  simp only [tilesOk, Bool.and_eq_true, decide_eq_true_eq, List.all_eq_true, and_assoc]

theorem endRow_workPutTiles (dest : Nat) (tiles : List TileWrite) (s : State) :
    endRow (workPutTiles dest tiles s) =
      if ¬tilesOk s.angle.nodeId dest tiles = true then s.replies .range s.screenSummary
      else if dest = 0 then
        endRow (shown { s with screen := tiles.foldl (fun sc t => sc.writeTile t.tile t.pixels) s.screen })
      else if 8 < s.screen.hold.length + tiles.length then s.replies .busy s.screenSummary
      else endRow (shown (tiles.foldl (fun s t => s.hold (tileFrame dest t)) s)) := by
  rw [workPutTiles]
  simp only [Bool.not_eq_true, endRow_ite, endRow_screenRefuse]
  rfl

theorem deliverTiles_granted_iff (s : State) (origin tile : Nat) :
    s.screen.grants.toList.any (fun g => g.covers origin tile) = true ↔
      ∃ g ∈ s.screen.grants.toList, g.origin = origin ∧ g.first ≤ tile ∧ tile < g.first + g.count := by
  simp only [List.any_eq_true, Grant.covers, decide_eq_true_eq]

/-- Settles O44. -/
theorem putTilesWritesOrQueues : Obligations.PutTilesWritesOrQueues := by
  refine ⟨fun s dest tiles hw => ?request, fun s h => ?held, fun s origin payload => ?delivered⟩
  case request =>
    have hexec : exec (.putTiles dest tiles) s = endRow (workPutTiles dest tiles s) := exec_of_working (c := .putTiles dest tiles) rfl hw
    intro ok
    have hok : tilesOk s.angle.nodeId dest tiles = true ↔ ok := tilesOk_iff _ dest tiles
    rw [hexec, endRow_workPutTiles]
    refine ⟨fun hbad => if_pos (mt hok.mp hbad), fun h hdest hfull => ?_, fun h hdest hroom => ?_, fun h hdest hwf hlength => ?_⟩
    all_goals rw [if_neg (not_not_intro (hok.mpr h))]
    · rw [if_neg hdest, if_pos hfull]
    · rw [if_neg hdest, if_neg (Nat.not_lt.mpr hroom), endRow_shown]
      exact ⟨rfl, (runSender_tiles _).trans (holdAll_tiles dest tiles s),
        Only.after (runSender_only _) (Only.up (holdAll_only dest tiles s))⟩
    · rw [if_pos hdest, endRow_shown]
      refine ⟨_, rfl, Only.after (runSender_only _) (Only.up (screen_only s _)), rfl, fun k i hi => ?_⟩
      rw [runSender_tiles]
      exact writeTiles_read tiles hwf hlength k hi
  case held =>
    intro f t
    by_cases hpasses : s.screen.hold = [] ∧ s.ring.localQueue.length < 16
    · rw [hold_passes s h hpasses.1 hpasses.2, if_pos hpasses]
      rfl
    · rw [hold_waits s h hpasses, if_neg hpasses]
  case delivered =>
    intro tile granted after
    have hgranted : (payload.length = 258 ∧ tile ≤ 511 ∧ s.screen.grants.toList.any (fun g => g.covers origin tile) = true) ↔ granted := by
      rw [deliverTiles_granted_iff]
    have hdeliver (h : granted) : after = ({ s with screen := s.screen.writeTile tile (payload.drop 2) } : State).runSender :=
      if_pos (hgranted.mpr h)
    refine ⟨fun h => if_neg (mt hgranted.mp h), hdeliver, fun h hwf k i hi => ?_⟩
    obtain ⟨hlength, -⟩ := id h
    rw [hdeliver h, runSender_tiles]
    refine (writeTile_read hwf (by rw [List.length_drop, hlength]) tile k hi).trans ?_
    rw [byteAt, List.getD_eq_getElem?_getD, List.getElem?_drop, byteAt, List.getD_eq_getElem?_getD]

/-! ## Layers and composition (R157) -/

theorem readBytes_eq (m : List Host.Cell) (a n : Nat) : Memory.readBytes m a n = (List.range n).map fun i => Memory.read m (a + i) := by
  induction n generalizing a with
  | zero => rfl
  | succ n ih =>
    rw [Memory.readBytes, ih, List.range_succ_eq_map, List.map_cons, List.map_map]
    refine congrArg₂ List.cons rfl (List.map_congr_left fun i _ => ?_)
    exact congrArg (Memory.read m) (by simp only [Nat.succ_eq_add_one]; omega)

theorem storeTile_eq (sc : Screen) (t : Nat) :
    sc.storeTile t = (List.range 256).map fun i => Memory.read sc.tiles (256 * t + i) := by
  rw [Screen.storeTile, readBytes_eq, Nat.mul_comm]

theorem base_eq (b : Banner) (c : TripClass) :
    Banner.base b c =
      match c with
      | .none => b.warn
      | .warn => b.warn
      | .impressionOff => b.impressionOff
      | .stopRamp => b.stopRamp
      | .stopFast => b.stopFast := by
  cases c <;> rfl

/-- The bytes of a store tile that a rectangle drawn from `base` puts at (c, r). -/
theorem storeTile_tileIn (sc : Screen) (base : Nat) (q : Rect) (c r : Nat) :
    sc.storeTile (tileIn base q c r) =
      (List.range 256).map fun i => Memory.read sc.tiles (256 * (base + (r - q.y) * q.w + (c - q.x)) + i) := storeTile_eq _ _

theorem compose_of_banner {s : State} {c r : Nat} {b : Banner} (nonce : Nat) (h : s.screen.topLayer c r = .banner b) :
    s.compose nonce c r = s.screen.storeTile (tileIn (Banner.base b s.screen.headClass) b.rect c r) := by
  rw [State.compose, h]

theorem compose_of_tiles {s : State} {c r : Nat} {w : Window} (nonce : Nat) (h : s.screen.topLayer c r = .window w)
    (hkind : w.kind = .tiles) : s.compose nonce c r = s.screen.storeTile (tileIn w.tileBase w.rect c r) := by
  rw [State.compose, h]
  dsimp only
  rw [hkind]

theorem compose_of_webview {s : State} {c r : Nat} {w : Window} (nonce : Nat) (h : s.screen.topLayer c r = .window w)
    (hkind : w.kind = .webview) :
    s.compose nonce c r =
      (List.range 256).map fun i => s.webPixel nonce w (16 * (c - w.rect.x) + i % 16) (16 * (r - w.rect.y) + i / 16) := by
  rw [State.compose, h]
  dsimp only
  rw [hkind]

theorem compose_of_background {s : State} {c r : Nat} (nonce : Nat) (h : s.screen.topLayer c r = .background) :
    s.compose nonce c r = List.replicate 256 s.screen.background := by
  rw [State.compose, h]

theorem not_covers_iff (q : Rect) (c r : Nat) :
    Rect.covers q c r = false ↔ ¬(q.x ≤ c ∧ c < q.x + q.w ∧ q.y ≤ r ∧ r < q.y + q.h) := by
  rw [← Bool.not_eq_true, covers_iff]

theorem webPixel_eq {s : State} {w : Window} {i : Fin 4} (nonce x y : Nat) (h : w.map = i.val) :
    s.webPixel nonce w x y =
      if (s.map i).state ≠ .active ∨ (s.map i).slotCount ≤ w.line0 + y * w.vStep ∨ (s.map i).stride ≤ w.col0 + x * w.hStep
          ∨ ((s.map i).entry ((w.line0 + y * w.vStep) * (s.map i).stride / 2048)).valid = false
          ∨ ((s.map i).slot (w.line0 + y * w.vStep)).present = false
          ∨ (w.freeze = false ∧ 2 ≤ (s.angle.updateRevolution - ((s.map i).slot (w.line0 + y * w.vStep)).stamp).toNat
            ∧ (s.angle.updateRevolution - ((s.map i).slot (w.line0 + y * w.vStep)).stamp).toNat ≤ 32767) then BitVec.ofNat 8 w.staleIndex
      else
        BitVec.ofNat 8 (w.greyBase
          + (s.pageByte nonce
              (((s.map i).entry ((w.line0 + y * w.vStep) * (s.map i).stride / 2048)).page * 2048
                + (w.line0 + y * w.vStep) * (s.map i).stride % 2048 + (w.col0 + x * w.hStep))).toNat / 8) := by
  have hmap : w.map < 4 := h ▸ i.isLt
  have hi : (⟨w.map, hmap⟩ : Fin 4) = i := Fin.ext h
  rw [State.webPixel, dif_pos hmap, hi]
  simp only [staleStamp, decide_eq_true_eq]
  rfl

/-! ## The next dirty tile (R160) -/

/-- In a rising list the first element that passes is the least that passes. -/
theorem find_of_least {l : List Nat} {p : Nat → Bool} {t : Nat} (hl : l.Pairwise (· < ·)) (ht : t ∈ l) (hp : p t = true)
    (hleast : ∀ u ∈ l, p u = true → t ≤ u) : l.find? p = some t := by
  induction l with
  | nil => exact absurd ht List.not_mem_nil
  | cons x l ih =>
    obtain ⟨hx, hl'⟩ := List.pairwise_cons.mp hl
    rcases List.mem_cons.mp ht with rfl | ht'
    · exact List.find?_cons_of_pos hp
    · have hfails : ¬p x = true := fun hpx => absurd (hx t ht') (Nat.not_lt.mpr (hleast x List.mem_cons_self hpx))
      rw [List.find?_cons_of_neg hfails]
      exact ih hl' ht' fun u hu => hleast u (List.mem_cons_of_mem x hu)

theorem head_of_least {l : List Nat} {t : Nat} (ht : t ∈ l) (hleast : ∀ u ∈ l, t ≤ u) (hl : l.Pairwise (· < ·)) : l.head? = some t := by
  have hfind : l.find? (fun _ => true) = some t := find_of_least hl ht rfl fun u hu _ => hleast u hu
  cases l with
  | nil => exact hfind
  | cons x l => exact hfind

theorem nextDirty_eq {sc : Screen} {t : Nat} (ht : t ∈ sc.dirty) (hsorted : sc.dirty.Pairwise (· < ·))
    (hnext : (sc.cursor ≤ t ∧ ∀ u ∈ sc.dirty, sc.cursor ≤ u → t ≤ u) ∨ ∀ u ∈ sc.dirty, u < sc.cursor ∧ t ≤ u) :
    sc.nextDirty = some t := by
  unfold Screen.nextDirty
  rcases hnext with ⟨hcursor, hleast⟩ | hall
  · rw [find_of_least hsorted ht (decide_eq_true hcursor) fun u hu hpu => hleast u hu (of_decide_eq_true hpu)]
  · have hnone : sc.dirty.find? (fun t => decide (sc.cursor ≤ t)) = none :=
      List.find?_eq_none.mpr fun u hu hpu => absurd (of_decide_eq_true hpu) (Nat.not_le.mpr (hall u hu).1)
    rw [hnone]
    exact head_of_least ht (fun u hu => (hall u hu).2) hsorted

theorem runSender_of_idle {s : State} (h : s.screen.state ≠ .up ∨ s.screen.inSend ≠ none ∨ s.screen.dirty = []) : s.runSender = s := by
  unfold State.runSender
  split
  case isFalse => rfl
  case isTrue hready =>
    have hempty : s.screen.dirty = [] := by
      rcases h with hdown | hbusy | hempty
      · exact absurd hready.1 hdown
      · exact absurd hready.2 hbusy
      · exact hempty
    rw [Screen.nextDirty, hempty]
    rfl

theorem runSender_of_ready {s : State} {t : Nat} (hup : s.screen.state = .up) (hfree : s.screen.inSend = none)
    (hnext : s.screen.nextDirty = some t) : s.runSender = s.takeTile t := by
  rw [State.runSender, if_pos ⟨hup, hfree⟩, hnext]

/-! ## The dirty set (R159) -/

theorem mark_dirty (sc : Screen) (p : Nat → Bool) (q : Nat → Prop) [DecidablePred q] (h : ∀ t, p t = true ↔ q t) :
    (sc.mark p).dirty = (List.range (sc.cols * sc.rows)).filter fun t => t ∈ sc.dirty ∨ q t := by
  refine List.filter_congr fun t _ => ?_
  rw [Bool.eq_iff_iff]
  simp only [Bool.or_eq_true, List.contains_iff_mem, h, decide_eq_true_eq]

/-- Settles O46: marks by `mark_dirty`, pictures and drawn tiles by the top layer, the sender by the next dirty tile. -/
theorem dirtySetAndSender : Obligations.DirtySetAndSender := by
  refine ⟨fun sc q => ⟨?rect, rfl, fun k pixels => ?write⟩, fun s nonce c r => ?pictures, fun s => ⟨runSender_of_idle, ?sends⟩⟩
  case rect => exact mark_dirty sc _ _ fun t => covers_iff q (t % sc.cols) (t / sc.cols)
  case write => exact mark_dirty sc _ _ fun t => decide_eq_true_iff
  case sends =>
    intro t hup hfree ht hsorted hnext
    exact runSender_of_ready hup hfree (nextDirty_eq ht hsorted hnext)
  case pictures =>
    intro sc covers bare placed
    have hbare (h : bare) : ∀ b, sc.banner = some b → sc.headClass = .none ∨ Rect.covers b.rect c r = false :=
      fun b hb => (h b hb).imp id (not_covers_iff _ _ _).mpr
    have hplaced (base : Nat) (q : Rect) : sc.storeTile (tileIn base q c r) = placed base q := storeTile_tileIn sc base q c r
    have hbanner (b : Banner) (hb : sc.banner = some b) (hclass : sc.headClass ≠ .none) (hcovers : covers b.rect) :
        sc.topLayer c r = .banner b := topLayer_banner sc c r b hb hclass ((covers_iff _ _ _).mpr hcovers)
    have hwindow (below : List Window) (w : Window) (above : List Window) (h : bare) (hlist : sc.windows = below ++ w :: above)
        (hvisible : w.visible = true) (hcovers : covers w.rect) (habove : ∀ x ∈ above, x.visible = true → ¬covers x.rect) :
        sc.topLayer c r = .window w :=
      topLayer_window sc c r below above w (hbare h) hlist hvisible ((covers_iff _ _ _).mpr hcovers)
        fun x hx hv => (not_covers_iff _ _ _).mpr (habove x hx hv)
    have hground (h : bare) (hnone : ∀ x ∈ sc.windows, x.visible = true → ¬covers x.rect) : sc.topLayer c r = .background :=
      topLayer_background sc c r (hbare h) fun x hx hv => (not_covers_iff _ _ _).mpr (hnone x hx hv)
    refine ⟨fun b hb hclass hcovers => ?_, fun b hb hclass hcovers => ?_, fun below w above h hlist hv hcovers habove => ?_,
      fun h hnone => ?_, fun below w above h hlist hv hcovers habove => ⟨fun hkind => ?_, fun hkind => ?_⟩, fun h hnone => ?_,
      fun w i x y hmap => webPixel_eq nonce x y hmap⟩
    · rw [compose_of_banner nonce (hbanner b hb hclass hcovers), hplaced, base_eq] <;> rfl
    · rw [drawn_eq, hbanner b hb hclass hcovers]
      dsimp only
      rw [base_eq] <;> rfl
    · rw [drawn_eq, hwindow below w above h hlist hv hcovers habove] <;> rfl
    · rw [drawn_eq, hground h hnone]
    · rw [compose_of_tiles nonce (hwindow below w above h hlist hv hcovers habove) hkind, hplaced]
    · exact compose_of_webview nonce (hwindow below w above h hlist hv hcovers habove) hkind
    · exact compose_of_background nonce (hground h hnone)

end Sys2Proof.Machine
end

section
/-! Proofs. The bases' schedules (R11), the update events and what the blocks do at one (R10, R13, R26 to R34, R47, R60, R159). -/

namespace Sys2Proof.Machine

/-! ## The schedule of a base (R11) -/

theorem mem_late_iff (b : Base) (tb j at_ : Nat) :
    (j, at_) ∈ (if b.late tb then [(0, tb)] else []) ↔ j = 0 ∧ b.nominal 0 ≤ tb ∧ at_ = tb := by
  by_cases h : b.nominal 0 ≤ tb <;> simp [Base.late, h]

/-- The later updates of a base formed at `tb`: those whose nominal instant is later than `tb`. -/
def Base.laterUpdate (b : Base) (tb j : Nat) : Option (Nat × Nat) :=
  if (tb : Int) < b.nominal j then some (j, (b.nominal j).toNat) else none

theorem laterUpdate_eq_some_iff (b : Base) (tb i j at_ : Nat) :
    b.laterUpdate tb i = some (j, at_) ↔ i = j ∧ (tb : Int) < b.nominal j ∧ (at_ : Int) = b.nominal j := by
  rw [Base.laterUpdate]
  split
  · rename_i hlater
    rw [Option.some.injEq, Prod.mk.injEq]
    constructor
    · rintro ⟨rfl, hat⟩
      exact ⟨rfl, hlater, by omega⟩
    · rintro ⟨rfl, -, hat⟩
      exact ⟨rfl, by omega⟩
  · rename_i hpast
    exact iff_of_false (fun h => nomatch h) fun ⟨hij, hlater, _⟩ => hpast (hij ▸ hlater)

theorem schedule_eq (b : Base) (tb : Nat) :
    b.schedule tb = (if b.late tb then [(0, tb)] else []) ++ (List.range b.k).filterMap (b.laterUpdate tb) := rfl

theorem mem_schedule_iff (b : Base) (tb j at_ : Nat) :
    (j, at_) ∈ b.schedule tb ↔
      (j = 0 ∧ b.nominal 0 ≤ tb ∧ at_ = tb) ∨ (j < b.k ∧ (tb : Int) < b.nominal j ∧ (at_ : Int) = b.nominal j) := by
  rw [schedule_eq, List.mem_append, mem_late_iff, List.mem_filterMap]
  refine or_congr Iff.rfl ⟨fun ⟨i, hi, hsome⟩ => ?_, fun ⟨hj, hlater⟩ => ?_⟩
  · obtain ⟨rfl, hlater⟩ := (laterUpdate_eq_some_iff b tb i j at_).mp hsome
    exact ⟨List.mem_range.mp hi, hlater⟩
  · exact ⟨j, List.mem_range.mpr hj, (laterUpdate_eq_some_iff b tb j j at_).mpr ⟨rfl, hlater⟩⟩

/-! ## The blocks at an update -/

theorem nextUpdate_of_pending {s : State} {b : Base} {j at_ : Nat} {rest : List (Nat × Nat)} (hu : s.angle.updates = (j, at_) :: rest)
    (hb : s.angle.base = some b) :
    s.nextUpdate =
      let s1 := ({ s with angle := { s.angle with updates := rest } } : State).tick at_
      s1.takeUpdate (s1.baseEvent b j at_) := by
  rw [State.nextUpdate, hu, hb]

theorem nextUpdate_of_none {s : State} (h : s.angle.updates = [] ∨ s.angle.base = none) : s.nextUpdate = s := by
  unfold State.nextUpdate
  split
  · rename_i hu hb
    rw [hu, hb] at h
    simp at h
  · rfl

theorem ownUpdate_of_running {s : State} {at_ : Nat} (h : s.angle.ownTimer = some at_) :
    s.ownUpdate =
      let s1 := ({ s with angle := { s.angle with ownTimer := some (at_ + s.angle.ownInterval) } } : State).tick at_
      s1.takeUpdate (s1.ownEvent at_) := by
  rw [State.ownUpdate, h]

theorem ownUpdate_of_none {s : State} (h : s.angle.ownTimer = none) : s.ownUpdate = s := by
  rw [State.ownUpdate, h]

/-- The tiles that a change of revolution marks: those of the visible web views that are not frozen. -/
theorem webView_tile_iff (sc : Screen) (t : Nat) :
    (sc.windows.any fun w => w.visible && decide (w.kind = .webview) && !w.freeze && sc.inRect w.rect t) = true ↔
      ∃ w ∈ sc.windows, w.visible = true ∧ w.kind = .webview ∧ w.freeze = false
        ∧ (w.rect.x ≤ t % sc.cols ∧ t % sc.cols < w.rect.x + w.rect.w
          ∧ w.rect.y ≤ t / sc.cols ∧ t / sc.cols < w.rect.y + w.rect.h) := by
  have hin (q : Rect) : sc.inRect q t = true ↔
      q.x ≤ t % sc.cols ∧ t % sc.cols < q.x + q.w ∧ q.y ≤ t / sc.cols ∧ t / sc.cols < q.y + q.h := covers_iff q _ _
  simp only [List.any_eq_true, Bool.and_eq_true, decide_eq_true_eq, Bool.not_eq_true', hin, and_assoc]

theorem markWebViews_dirty (sc : Screen) :
    sc.markWebViews.dirty = (List.range (sc.cols * sc.rows)).filter fun t =>
      t ∈ sc.dirty ∨ ∃ w ∈ sc.windows, w.visible = true ∧ w.kind = .webview ∧ w.freeze = false
        ∧ (w.rect.x ≤ t % sc.cols ∧ t % sc.cols < w.rect.x + w.rect.w
          ∧ w.rect.y ≤ t / sc.cols ∧ t / sc.cols < w.rect.y + w.rect.h) :=
  mark_dirty sc _ _ (webView_tile_iff sc)

theorem markWebViews_eq (sc : Screen) : sc.markWebViews = { sc with dirty := sc.markWebViews.dirty } := rfl

theorem engagedAxes_contains (s : State) (i : Fin 16) :
    s.engagedAxes.contains i = decide ((s.axis i).state = .catching ∨ (s.axis i).state = .coupled) := by
  rw [Bool.eq_iff_iff, List.contains_iff_mem, State.engagedAxes, List.mem_filter, and_iff_right (mem_axisNumbers i)]
  exact Iff.rfl

theorem workAxes_eq (s t : State) (e : UpdateEvent) :
    t.workAxes e s.engagedAxes = axisNumbers.foldl
      (fun t i => t.workAxis i e.delta (decide ((s.axis i).state = .catching ∨ (s.axis i).state = .coupled))) t := by
  simp only [State.workAxes, engagedAxes_contains]

theorem handed_eq (a : Axis) :
    a.handed = if a.state = .catching ∨ a.state = .coupled ∨ a.binding = none then a else { a with s := a.f, v := 0 } := by
  rw [Axis.handed, Axis.engaged]
  cases hb : a.binding <;> by_cases he : a.state = .catching ∨ a.state = .coupled <;> simp [he]

theorem ofFn_handed (s : State) : (Vector.ofFn fun i : Fin 16 => s.axes[i].handed) = s.axes.map Axis.handed := by
  ext i hi
  simp

theorem followReports_eq (before t : State) (p : Fin 4) :
    t.followReports before p = (before.boundAxes p).foldl
      (fun u x => if (before.axis x.2).followCount < 3 ∧ (t.axis x.2).followCount = 3 then u.follow p x.1 x.2 else u) t := by
  simp only [State.followReports, followReached, decide_eq_true_eq]

theorem foldl_portNumbers (f : State → Fin 4 → State) (s : State) : portNumbers.foldl f s = f (f (f (f s 0) 1) 2) 3 := rfl

theorem telegrams_eq (s : State) (tu : Nat) :
    s.telegrams tu =
      let handed : State := { s with axes := s.axes.map fun a =>
        if a.state = .catching ∨ a.state = .coupled ∨ a.binding = none then a else { a with s := a.f, v := 0 } }
      (((handed.sendPort 0 tu).sendPort 1 tu).sendPort 2 tu).sendPort 3 tu := by
  rw [State.telegrams, ofFn_handed, funext handed_eq, foldl_portNumbers]

theorem driveUpdate_eq (s : State) (e : UpdateEvent) :
    s.driveUpdate e =
      ((portNumbers.foldl (fun t p => t.followReports s.drainAll p) (s.drainAll.workAxes e s.engagedAxes)).telegrams e.tu).reportCoupled :=
  rfl

theorem allCoupled_eq (s : State) :
    s.allCoupled = decide (∀ i : Fin 16, (s.axis i).binding = none ∨ (s.axis i).state = .coupled) := by
  rw [Bool.eq_iff_iff, State.allCoupled, List.all_eq_true, decide_eq_true_eq]
  simp only [decide_eq_true_eq, mem_axisNumbers, true_imp_iff]

theorem reportCoupled_eq (s : State) :
    s.reportCoupled = { s with trips :=
      { s.trips with axesCoupled := decide (∀ i : Fin 16, (s.axis i).binding = none ∨ (s.axis i).state = .coupled) } } := by
  rw [State.reportCoupled, allCoupled_eq]

/-- Settles O49. -/
theorem basesScheduleUpdatesAndBlocksTakeThem : Obligations.BasesScheduleUpdatesAndBlocksTakeThem := by
  refine ⟨fun s b tb => ⟨rfl, mem_schedule_iff b tb, schedule_sorted b tb⟩, fun s => ⟨?base, ?idle, ?own, ?stopped, ?only⟩, fun s e => ?web,
    fun s e => ?drives⟩
  case base =>
    intro b j at_ rest hu hb
    exact ⟨congrArg Host.Outcome.next (nextUpdate_of_pending hu hb), rfl, rfl, rfl, rfl, rfl⟩
  case idle => exact fun h => congrArg Host.Outcome.next (nextUpdate_of_none h)
  case own => exact fun at_ h => congrArg Host.Outcome.next (ownUpdate_of_running h)
  case stopped => exact fun h => congrArg Host.Outcome.next (ownUpdate_of_none h)
  case only =>
    rintro t (h | h)
    · obtain rfl : s.nextUpdate = t := Host.Outcome.next.inj h
      exact (nextUpdate_only s).up
    · obtain rfl : s.ownUpdate = t := Host.Outcome.next.inj h
      exact (ownUpdate_only s).up
  case web =>
    intro sc covers
    rw [State.screenUpdate, markWebViews_eq, markWebViews_dirty]
  case drives =>
    intro engaged drained worked reports told handed sent
    refine ⟨?_, fun t p sub i => ?_⟩
    · have hdrained : s.drainAll = drained := foldl_portNumbers State.drain s
      rw [driveUpdate_eq, hdrained]
      clear_value drained
      have hworked : drained.workAxes e s.engagedAxes = worked := workAxes_eq s drained e
      rw [hworked]
      clear_value worked
      have htold : portNumbers.foldl (fun t p => t.followReports drained p) worked = told := by
        simp only [followReports_eq, foldl_portNumbers]
        rfl
      rw [htold]
      clear_value told
      have hsent : told.telegrams e.tu = sent := telegrams_eq told e.tu
      rw [hsent, reportCoupled_eq]
    · rw [State.follow, portFaults_eq]

end Sys2Proof.Machine
end

section
/-! Proofs. Cycle frames at a member: the deadline, what is accepted and what is dropped, and the effects of an accepted frame (R5 to R9). -/

namespace Sys2Proof.Machine

/-! ## The deadline (R7, R8) -/

theorem deadlineComes_of_idle {s : State} (h : s.angle.expectedArrival = none ∨ s.angle.role = .master) : s.deadlineComes = s := by
  unfold State.deadlineComes
  cases hdue : s.angle.expectedArrival with
  | none => rfl
  | some due =>
    have hmaster : s.isMaster = true := (isMaster_iff s).mpr (h.resolve_left (by simp [hdue]))
    exact if_pos hmaster

theorem deadlineComes_of_expected {s : State} {due : Nat} (hdue : s.angle.expectedArrival = some due) (hm : s.angle.role = .member) :
    s.deadlineComes = (s.tick (due + s.angle.period.ns / 4)).missFrame due := by
  have hmember : ¬s.isMaster = true := by simp [(isMaster_eq_false_iff s).mpr hm]
  rw [State.deadlineComes, hdue]
  exact if_neg hmember

theorem missFrame_of_coast {s : State} {due : Nat} (h : min (s.angle.coastCount + 1) 8 < s.angle.coastLimit) (hm : s.angle.role = .member) :
    let a := s.angle
    let base : Base :=
      { aM := a.aM + BitVec.ofNat 24 a.v, v := a.v, period := a.period
        revolution := if 2 ^ 24 ≤ a.aM.toNat + a.v then a.frameRevolution + 1 else a.frameRevolution
        t0 := match a.base with
          | some b => b.t0 + a.period.ns
          | none => s.now
        lag := min a.lAlign a.period.ns, tu := a.period.ns / a.k, k := a.k }
    s.missFrame due =
      (({ s with angle :=
        { a with
          state := .coasting, coastCount := min (a.coastCount + 1) 8, coasts := min (a.coasts + 1) 65535, aM := base.aM
          frameRevolution := base.revolution, expectedArrival := some (due + a.period.ns), base := some base
          updates := base.schedule s.now } } : State).post (.angleState .coasting (min (a.coastCount + 1) 8) a.masterOrigin none)) := by
  intro a base
  have hpost (t : State) (ht : t.angle.role = .member) :
      t.postAngleState = t.post (.angleState t.angle.state t.angle.coastCount t.angle.masterOrigin none) := by
    rw [State.postAngleState, (isMaster_eq_false_iff t).mpr ht]
    rfl
  refine (if_pos h).trans (.trans (hpost _ ?_) rfl)
  exact hm

theorem missFrame_of_lost {s : State} {due : Nat} (h : s.angle.coastLimit ≤ min (s.angle.coastCount + 1) 8) :
    s.missFrame due =
      ({ s with angle := { s.angle with
          coastCount := min (s.angle.coastCount + 1) 8, coasts := min (s.angle.coasts + 1) 65535 } } : State).enterLost :=
  if_neg (Nat.not_lt.mpr h)

/-! ## What a member accepts (R5, R9) -/

theorem newer_iff (number last : Num16) : newer number last = true ↔ 1 ≤ (number - last).toNat ∧ (number - last).toNat ≤ 32767 :=
  decide_eq_true_iff

theorem deliverCycle_of_master {s : State} (x : CycleArrival) (h : s.angle.role = .master) : s.deliverCycle x = s.dropForeign :=
  if_pos ((isMaster_iff s).mpr h)

/-- A member hands a cycle frame to its state. -/
theorem deliverCycle_of_member {s : State} (x : CycleArrival) (h : s.angle.role = .member) :
    s.deliverCycle x =
      match s.angle.state with
      | .none => s.acceptCycle x
      | .lost => s.acceptCycle x
      | .tracking =>
        if s.angle.masterOrigin ≠ some x.origin then s.dropForeign
        else if newer x.number s.angle.cycleNumber then s.acceptCycle x
        else s
      | .coasting =>
        if s.angle.masterOrigin ≠ some x.origin then s.dropForeign
        else if newer x.number s.angle.cycleNumber then
          if s.angle.stepOk x then s.acceptCycle x else s.enterLost.acceptCycle x
        else s := by
  rw [State.deliverCycle, (isMaster_eq_false_iff s).mpr h]
  rfl

/-- A member that follows a master drops the frames of others and the frames that are not newer, and steps only so far in COASTING. -/
theorem deliverCycle_of_following {s : State} (x : CycleArrival) (h : s.angle.role = .member)
    (hstate : s.angle.state = .tracking ∨ s.angle.state = .coasting) :
    s.deliverCycle x =
      if s.angle.masterOrigin ≠ some x.origin then s.dropForeign
      else if newer x.number s.angle.cycleNumber then
        if s.angle.state = .tracking ∨ s.angle.stepOk x = true then s.acceptCycle x else s.enterLost.acceptCycle x
      else s := by
  rw [deliverCycle_of_member x h]
  rcases hstate with hs | hs <;> simp [hs]

/-! ## An accepted frame (R6) -/

theorem late_iff (b : Base) (tb : Nat) : b.late tb = true ↔ b.t0 + b.lag ≤ tb := by
  rw [Base.late, decide_eq_true_iff, Base.nominal, Nat.cast_zero, zero_mul, add_zero]

theorem alignLate_eq (b : Base) (tb n : Nat) :
    (if b.late tb = true then bump n else n) = if b.t0 + b.lag ≤ tb then min (n + 1) 65535 else n :=
  if_congr (late_iff b tb) rfl rfl

theorem acceptCycle_eq (s : State) (x : CycleArrival) :
    s.acceptCycle x =
      let u := (({ s with angle := s.angle.accept x } : State).frameBase x).takeVector x.fields.vector
      let w := (if x.fields.lineState = s.angle.lineState then u else u.postLineState).setCondition 16 false
      if s.angle.state = .tracking then w else w.postAngleState := by
  rw [State.acceptCycle, ite_not]
  rfl

/-- Settles O50. -/
theorem memberFollowsOrLosesTheCycle : Obligations.MemberFollowsOrLosesTheCycle := by
  refine ⟨fun s => ⟨fun h => ?idle, fun due hdue hm => ?deadline⟩, fun s x => ?delivers, fun s x => ?accepts⟩
  case idle => exact congrArg Host.Outcome.next (deadlineComes_of_idle h)
  case deadline =>
    intro a t count coasts
    have hexec : exec .deadline s = .next (t.missFrame due) := congrArg Host.Outcome.next (deadlineComes_of_expected hdue hm)
    rw [hexec]
    exact ⟨fun h => congrArg Host.Outcome.next (missFrame_of_coast (s := t) h hm),
      fun h => congrArg Host.Outcome.next (missFrame_of_lost (s := t) h)⟩
  case delivers =>
    intro a foreign isNewer predicted small
    have hnewer : newer x.number a.cycleNumber = true ↔ isNewer := newer_iff _ _
    have hsmall : a.stepOk x = true ↔ small := decide_eq_true_iff
    refine ⟨deliverCycle_of_master x, fun hm hs => ?_, fun hm hs => ?_⟩
    · rw [deliverCycle_of_member x hm]
      rcases hs with hs | hs <;> rw [show s.angle.state = _ from hs]
    · rw [deliverCycle_of_following x hm hs]
      refine ⟨fun ho => if_pos ho, fun ho hold => ?_, fun ho hnew hok => ?_, fun ho hnew hc hbig => ?_⟩
      · rw [if_neg (not_not_intro ho), if_neg (mt hnewer.mp hold)]
      · rw [if_neg (not_not_intro ho), if_pos (hnewer.mpr hnew), if_pos (hok.imp id hsmall.mpr)]
      · have hno : ¬(s.angle.state = .tracking ∨ s.angle.stepOk x = true) :=
          not_or.mpr ⟨fun h => AngleState.noConfusion (hc.symm.trans h), mt hsmall.mp hbig⟩
        rw [if_neg (not_not_intro ho), if_pos (hnewer.mpr hnew), if_neg hno]
  case accepts =>
    intro a c b t u w
    have ht : ({ s with angle := s.angle.accept x } : State).frameBase x = t := by
      rw [State.frameBase, alignLate_eq]
      rfl
    rw [acceptCycle_eq, ht]
    rfl

end Sys2Proof.Machine
end

section
/-! Proofs. The master's cycle timer: the return judged, the frame given up, the next frame handed over, and the emission of a frame
(R11, R14 to R16, R73, R84, R85). -/

namespace Sys2Proof.Machine

/-! ## The return misses and the return loss are changed by the judgement alone (R15) -/

/-- The return misses and the return loss of the master's record are those of the earlier state. -/
def ReturnKept (s t : State) : Prop :=
  t.master.returnMisses = s.master.returnMisses ∧ t.master.returnLoss = s.master.returnLoss

theorem ReturnKept.trans {s t u : State} (h : ReturnKept s t) (k : ReturnKept t u) : ReturnKept s u :=
  ⟨k.1.trans h.1, k.2.trans h.2⟩

/-- `trans`, the later step first. -/
theorem ReturnKept.after {s t u : State} (k : ReturnKept t u) (h : ReturnKept s t) : ReturnKept s u := h.trans k

theorem returnKept_of_master_eq {s t : State} (h : t.master = s.master) : ReturnKept s t := by
  unfold ReturnKept
  exact h ▸ ⟨rfl, rfl⟩

theorem returnKept_of_only {l : List Part} {s t : State} (h : Only l s t) (hl : .master ∉ l := by decide) : ReturnKept s t :=
  returnKept_of_master_eq (h .master hl).symm

theorem returnKept_ite {c : Prop} [Decidable c] {s t u : State} (ht : ReturnKept s t) (hu : ReturnKept s u) :
    ReturnKept s (if c then t else u) := by
  split
  · exact ht
  · exact hu

theorem post_returnKept (s : State) (n : Notice) : ReturnKept s (s.post n) := returnKept_of_only (post_only s n)

theorem computeNext_returnKept (s : State) : ReturnKept s s.computeNext := by
  unfold State.computeNext
  dsimp only
  refine returnKept_ite (.trans (t := { s with angle := _, master := _ }) ⟨rfl, rfl⟩ (post_returnKept _ _)) ⟨rfl, rfl⟩

theorem left_returnKept (s : State) (q : Queued) : ReturnKept s (s.left q) := by
  cases q
  case ownCycle number c => exact .after (computeNext_returnKept _) (returnKept_of_master_eq rfl)
  all_goals exact ⟨rfl, rfl⟩

theorem passHeld_master (s : State) : s.passHeld.master = s.master := (passHeld_only s .master (by decide)).symm

theorem transmit_master (s : State) (o : FibreSide) (f : Frame) : (s.transmit o f).master = s.master := setFibre_master s o _

theorem arbitrate_returnKept (s : State) (o : FibreSide) : ReturnKept s (s.arbitrate o) := by
  have hsend (p : FibrePort) (f : Frame) : ((s.setFibre o p).transmit o f).master = s.master := by
    rw [transmit_master, setFibre_master]
  unfold State.arbitrate
  dsimp only
  split
  · split
    · exact returnKept_of_master_eq (hsend _ _)
    · exact (returnKept_of_master_eq (hsend _ _)).trans (left_returnKept _ _)
    · exact returnKept_of_master_eq (hsend _ _)
    · refine returnKept_of_master_eq ?_
      rw [passHeld_master, transmit_master]
      exact setFibre_master s o _
    · exact ⟨rfl, rfl⟩
  · exact ⟨rfl, rfl⟩

theorem joinUrgent_returnKept (s : State) (o : FibreSide) (q : Queued) : ReturnKept s (s.joinUrgent o q) := by
  unfold State.joinUrgent
  dsimp only
  refine returnKept_ite ?_ ⟨rfl, rfl⟩
  exact (returnKept_of_master_eq (setFibre_master s o _)).trans (arbitrate_returnKept _ o)

theorem sendTripFrame_returnKept (s : State) (kind : FrameKind) (payload : List Byte) : ReturnKept s (s.sendTripFrame kind payload) := by
  unfold State.sendTripFrame
  dsimp only
  split
  · exact .after (joinUrgent_returnKept _ _ _) (returnKept_of_master_eq rfl)
  · exact ⟨rfl, rfl⟩

theorem lineReaction_returnKept (s : State) : ReturnKept s s.lineReaction := by
  unfold State.lineReaction
  dsimp only
  exact returnKept_ite (.trans (t := { s with angle := _, master := _ }) ⟨rfl, rfl⟩ (post_returnKept _ _)) ⟨rfl, rfl⟩

theorem listsChanged_returnKept (s : State) : ReturnKept s s.listsChanged := by
  refine .trans (t := s.reform) ?_ (returnKept_of_only (reportHeadTrip_only _))
  unfold State.reform
  dsimp only
  refine returnKept_ite ⟨rfl, rfl⟩ ?_
  generalize ht : State.postRemoteTrips _ = t
  have hposted : ReturnKept s t := ht ▸ returnKept_of_master_eq (post_master _ _)
  have hinhibited : ReturnKept s (if s.trips.formed = .stopFast then t.inhibitAll .trip else t) :=
    returnKept_ite (hposted.trans (returnKept_of_only (inhibitAll_only _ _))) hposted
  exact returnKept_ite (hinhibited.trans (lineReaction_returnKept _)) hinhibited

/-- A latch and a removal alike: the list changes, the frame is sent, the notice is posted, and what follows a change of the lists. -/
theorem listChange_returnKept (s : State) (trips : TripUnit) (kind : FrameKind) (payload : List Byte) (e : LocalEntry) (n : TripNoticeState) :
    ReturnKept s ((({ s with trips := trips } : State).sendTripFrame kind payload).postTrip e n).listsChanged :=
  .after (listsChanged_returnKept _) (.after (post_returnKept _ _) (.after (sendTripFrame_returnKept _ _ _)
    (returnKept_of_master_eq rfl)))

theorem appears_returnKept (s : State) (i : Fin 24) : ReturnKept s (s.appears i) := by
  unfold State.appears
  split
  · exact returnKept_ite (listChange_returnKept _ _ _ _ _ _) ⟨rfl, rfl⟩
  · exact returnKept_ite (returnKept_of_only (repeatEntry_only _ _ _)) ⟨rfl, rfl⟩

theorem drops_returnKept (s : State) (i : Fin 24) : ReturnKept s (s.drops i) := by
  unfold State.drops
  split
  · exact ⟨rfl, rfl⟩
  · split
    · exact .after (post_returnKept _ _) (returnKept_of_master_eq rfl)
    · exact listChange_returnKept _ _ _ _ _ _
    · exact ⟨rfl, rfl⟩

theorem setCondition_returnKept (s : State) (i : Fin 24) (present : Bool) : ReturnKept s (s.setCondition i present) := by
  unfold State.setCondition
  dsimp only
  refine returnKept_ite ⟨rfl, rfl⟩ ?_
  exact returnKept_ite (.after (appears_returnKept _ i) (returnKept_of_master_eq rfl))
    (.after (drops_returnKept _ i) (returnKept_of_master_eq rfl))

/-- The condition of source 16 and the notice that tells of it change neither field. -/
theorem reported_returnKept (s : State) (present : Bool) : ReturnKept s ((s.setCondition 16 present).postAngleState) :=
  (setCondition_returnKept s 16 present).trans (post_returnKept _ _)

/-! ## The judgement of the frame last handed over (R15) -/

theorem judgeReturn_of_none {s : State} (h : s.master.lastHanded = none) : s.judgeReturn = s := if_pos h

/-- The state with the return misses and the return loss given. -/
def State.returnRecord (s : State) (misses : Nat) (loss : Bool) : State :=
  { s with master := { s.master with returnMisses := misses, returnLoss := loss } }

theorem judgeReturn_of_handed {s : State} (h : s.master.lastHanded ≠ none) :
    s.judgeReturn =
      if s.master.returned = true then
        if s.master.returnLoss = true then ((s.returnRecord 0 false).setCondition 16 false).postAngleState else s.returnRecord 0 false
      else if s.master.returnLoss = false ∧ s.angle.coastLimit ≤ min (s.master.returnMisses + 1) 8 then
        ((s.returnRecord (min (s.master.returnMisses + 1) 8) true).setCondition 16 true).postAngleState
      else s.returnRecord (min (s.master.returnMisses + 1) 8) s.master.returnLoss :=
  if_neg h

theorem judgeReturn_of_returned {s : State} (h : s.master.lastHanded ≠ none) (hr : s.master.returned = true) :
    s.judgeReturn.master.returnMisses = 0 ∧ s.judgeReturn.master.returnLoss = false := by
  rw [judgeReturn_of_handed h, if_pos hr]
  exact returnKept_ite (reported_returnKept _ _) (t := ((s.returnRecord 0 false).setCondition 16 false).postAngleState)
    (s := s.returnRecord 0 false) ⟨rfl, rfl⟩

theorem judgeReturn_of_missed {s : State} (h : s.master.lastHanded ≠ none) (hr : s.master.returned = false) :
    s.judgeReturn.master.returnMisses = min (s.master.returnMisses + 1) 8
      ∧ s.judgeReturn.master.returnLoss
        = (s.master.returnLoss || decide (s.angle.coastLimit ≤ min (s.master.returnMisses + 1) 8)) := by
  rw [judgeReturn_of_handed h, hr, if_neg Bool.false_ne_true]
  by_cases hlost : s.master.returnLoss = false ∧ s.angle.coastLimit ≤ min (s.master.returnMisses + 1) 8
  · obtain ⟨hmisses, hloss⟩ := reported_returnKept (s.returnRecord (min (s.master.returnMisses + 1) 8) true) true
    rw [if_pos hlost, hmisses, hloss, hlost.1, decide_eq_true hlost.2]
    exact ⟨rfl, rfl⟩
  · rw [if_neg hlost]
    refine ⟨rfl, ?_⟩
    show s.master.returnLoss = _
    cases hl : s.master.returnLoss with
    | true => rfl
    | false =>
      have hbelow : ¬s.angle.coastLimit ≤ min (s.master.returnMisses + 1) 8 := fun hle => hlost ⟨hl, hle⟩
      rw [decide_eq_false hbelow]
      rfl

/-! ## The frame given up, and the frame handed over (R14, R73, R84, R85) -/

theorem discardOwnCycle_eq (s : State) (o : FibreSide) :
    let p := s.fibre o
    let freed := s.setFibre o { p with cycle := none }
    s.discardOwnCycle o =
      match p.cycle with
      | some (.ownCycle number c) =>
        ({ freed with ring := { freed.ring with forwardDrops := min (s.ring.forwardDrops + 1) 65535 } } : State).emitted number c
      | _ => s := by
  intro p freed
  have hdrops : freed.ring.forwardDrops = s.ring.forwardDrops := by cases o <;> rfl
  rw [← hdrops]
  rfl

theorem cycleExpires_of_due {s : State} {due : Nat} (h : s.master.cycleTimer = some due) :
    s.cycleExpires =
      let m := (s.tick due).judgeReturn.discardReplaced
      (m.handOver due).sendCycle m.master.nextCycle m.nextCycle := by
  rw [State.cycleExpires, h]

/-- Settles O51. -/
theorem cycleTimerHandsOverTheNextFrame : Obligations.CycleTimerHandsOverTheNextFrame := by
  refine fun s => ⟨fun h => ?idle, fun due hdue => ?expiry⟩
  case idle =>
    rw [exec_cycleTimerExpiry, State.cycleExpires, h]
  case expiry =>
    intro judged m period fields t
    refine ⟨?_, discardReplaced_fibre judged, fun h => judgeReturn_of_none h, fun h hr => judgeReturn_of_returned h hr,
      fun h hr => judgeReturn_of_missed h hr, fun h => judgeReturn_of_handed h, ?_, discardOwnCycle_eq s, fun number c => rfl⟩
    · rw [exec_cycleTimerExpiry, cycleExpires_of_due hdue]
      rfl
    · rw [State.postAngleState]
      simp only [isMaster_iff]

end Sys2Proof.Machine
end

section
/-! Proofs. A ring frame that arrives: the receiver's check, the path by the role of its input, its delivery, and the return of an own
frame (R69, R74 to R77, R80, R81, R83, R173). -/

namespace Sys2Proof.Machine

/-! ## The receiver (R69, R74) -/

theorem frameBad_iff (bs : List Byte) :
    frameBad bs = true ↔
      bs.length < 16 ∨ crc32Good bs = false ∨ 512 < fieldAt bs 7 2 ∨ fieldAt bs 7 2 ≠ bs.length - 16 := by
  simp only [frameBad, Bool.or_eq_true, decide_eq_true_eq, Bool.not_eq_true', or_assoc]

theorem frameArrives_of_dark {s : State} {side : FibreSide} (arrival : Nat) (bs : List Byte) (h : (s.fibre side).state = .dark) :
    s.frameArrives side arrival bs = s := by
  rw [State.frameArrives, h]

theorem frameArrives_of_training {s : State} {side : FibreSide} (arrival : Nat) (bs : List Byte)
    (h : (s.fibre side).state = .training) :
    s.frameArrives side arrival bs = s.setFibre side { s.fibre side with idleRun := 0, samples := [] } := by
  rw [State.frameArrives, h]
  exact congrArg (s.setFibre side) (if_pos h)

theorem frameArrives_of_bad {s : State} {side : FibreSide} (arrival : Nat) {bs : List Byte} (h : (s.fibre side).state = .up)
    (hbad : frameBad bs = true) :
    s.frameArrives side arrival bs = s.setFibre side { s.fibre side with crcErrors := min ((s.fibre side).crcErrors + 1) 65535 } := by
  rw [State.frameArrives, h]
  refine (if_pos hbad).trans ?_
  rw [← h]
  rfl

theorem frameArrives_of_good {s : State} {side : FibreSide} (arrival : Nat) {bs : List Byte} (h : (s.fibre side).state = .up)
    (hgood : ¬frameBad bs = true) : s.frameArrives side arrival bs = s.takeFrame side arrival bs := by
  rw [State.frameArrives, h]
  exact if_neg hgood

/-! ## The roles of an input (R72) -/

theorem processingInput_iff (mode : RingMode) (side : FibreSide) :
    RingMode.processingInput mode = some side ↔
      (side = .a ∧ (mode = .closed ∨ mode = .wrapB)) ∨ (side = .b ∧ mode = .wrapA) := by
  cases mode <;> cases side <;> simp [RingMode.processingInput]

theorem passInput_iff (mode : RingMode) (side : FibreSide) :
    RingMode.passInput mode = some side ↔ side = .b ∧ mode = .closed := by
  cases mode <;> cases side <;> simp [RingMode.passInput]

/-- An input has one role at most. -/
theorem not_processingInput_of_passInput {mode : RingMode} {side : FibreSide} (h : RingMode.passInput mode = some side) :
    RingMode.processingInput mode ≠ some side := by
  obtain ⟨rfl, rfl⟩ := (passInput_iff mode side).mp h
  decide

theorem takeFrame_of_no_role {s : State} {side : FibreSide} (arrival : Nat) (bs : List Byte)
    (hproc : RingMode.processingInput s.ring.mode ≠ some side) (hpass : RingMode.passInput s.ring.mode ≠ some side) :
    s.takeFrame side arrival bs = s.dropForward := by
  simp [State.takeFrame, hproc, hpass]

/-- A good frame of no kind there is, on an input with a role. -/
theorem takeFrame_of_unknown {s : State} {side : FibreSide} (arrival : Nat) {bs : List Byte}
    (h : RingMode.processingInput s.ring.mode = some side ∨ RingMode.passInput s.ring.mode = some side) (hnone : decodeFrame bs = none) :
    s.takeFrame side arrival bs = s.countStray := by
  have hrole : (decide (RingMode.processingInput s.ring.mode = some side) || decide (RingMode.passInput s.ring.mode = some side)) = true := by
    rwa [Bool.or_eq_true, decide_eq_true_eq, decide_eq_true_eq]
  rw [State.takeFrame, hnone]
  exact if_pos hrole

theorem takeFrame_of_processing {s : State} {side : FibreSide} (arrival : Nat) {bs : List Byte} {f : Frame}
    (h : RingMode.processingInput s.ring.mode = some side) (hf : decodeFrame bs = some f) :
    s.takeFrame side arrival bs = s.processFrame { frame := f, arrival := arrival, linkDelay := (s.fibre side).linkDelay } := by
  simp [State.takeFrame, h, hf]

theorem takeFrame_of_passing {s : State} {side : FibreSide} (arrival : Nat) {bs : List Byte} {f : Frame}
    (h : RingMode.passInput s.ring.mode = some side) (hf : decodeFrame bs = some f) :
    s.takeFrame side arrival bs = s.passFrame { frame := f, arrival := arrival, linkDelay := (s.fibre side).linkDelay } := by
  simp [State.takeFrame, h, hf, not_processingInput_of_passInput h]

/-! ## The primary path (R75, R173) -/

theorem payloadLengthOk_iff (kind : FrameKind) (n : Nat) :
    payloadLengthOk kind n = true ↔ match kind with
      | .cycle => n = 76
      | .trip => n = 3
      | .tripClear => n = 2
      | .trimStep => n = 4
      | .imageLine => 8 ≤ n ∧ n ≤ 512
      | .screenTiles => n = 258
      | .touch => n = 6
      | .peerMessage => 1 ≤ n ∧ n ≤ 256 := by
  cases kind <;> simp [payloadLengthOk]

theorem frameStray_iff (f : Frame) :
    frameStray f = true ↔ ¬payloadLengthOk f.kind f.payload.length = true ∨ f.origin = 0 ∨ 32 < f.origin ∨ 32 < f.dest
      ∨ ((f.kind = .trip ∨ f.kind = .tripClear)
        ∧ (23 < (byteAt f.payload 0).toNat ∨ (byteAt f.payload 1).toNat = 0 ∨ 4 < (byteAt f.payload 1).toNat))
      ∨ (f.kind = .trip ∧ 3 < (byteAt f.payload 2).toNat) := by
  simp only [frameStray, Bool.or_eq_true, Bool.and_eq_true, decide_eq_true_eq, Bool.not_eq_true', Bool.not_eq_true, or_assoc]

theorem delivered_iff (own : Nat) (f : Frame) :
    delivered own f = true ↔ f.dest = own ∨ ((f.kind = .cycle ∨ f.kind = .trip ∨ f.kind = .tripClear) ∧ f.dest = 0) := by
  simp only [delivered, FrameKind.broadcast, Bool.or_eq_true, Bool.and_eq_true, decide_eq_true_eq]

theorem processFrame_of_layout {s : State} {x : Arrived} (h : frameStray x.frame = false) :
    s.processFrame x =
      if x.frame.origin = s.angle.nodeId then s.ownReturned x
      else if 32 ≤ x.frame.hop then s.countStray
      else
        let s1 := if delivered s.angle.nodeId x.frame then s.deliver x else s
        if x.frame.dest = s.angle.nodeId then s1 else s1.forwardFrame x := by
  rw [State.processFrame, h]
  rfl

theorem passFrame_of_closed {s : State} {x : Arrived} (hr : x.frame.reverse ≠ 31) (h : s.ring.mode = .closed) :
    s.passFrame x = s.joinByClass .a x.frame.kind (.reverse x.frame x.arrival x.linkDelay) := by
  rw [State.passFrame, if_neg hr, h]
  rfl

theorem forwardFrame_of_output {s : State} (x : Arrived) {o : FibreSide} (h : RingMode.processingOutput s.ring.mode = some o) :
    s.forwardFrame x = s.joinByClass o x.frame.kind (.primary { x.frame with hop := x.frame.hop + 1 } x.arrival x.linkDelay) := by
  rw [State.forwardFrame, h]

theorem forwardFrame_of_isolated {s : State} (x : Arrived) (h : s.ring.mode = .isolated) : s.forwardFrame x = s.dropForward := by
  rw [State.forwardFrame, h]
  rfl

/-! ## Trip frames against the sequence memory (R81) -/

theorem sequenceAccepted_iff (memory : Option (BitVec 8)) (restart : Bool) (q : BitVec 8) :
    sequenceAccepted memory restart q = true ↔
      ∀ l, memory = some l → (restart = true → q ≠ l) ∧ (restart = false → 1 ≤ (q - l).toNat ∧ (q - l).toNat ≤ 127) := by
  cases memory with
  | none => simp [sequenceAccepted]
  | some l => cases restart <;> simp [sequenceAccepted]

theorem memoryOf_eq (r : Ring) (i : Fin 32) : r.memoryOf (i.val + 1) = r.memory[i] := by
  simp [Ring.memoryOf]

theorem remember_eq (r : Ring) (i : Fin 32) (q : BitVec 8) :
    r.remember (i.val + 1) q = { r with memory := r.memory.set i (some q) } := by
  simp [Ring.remember]

theorem deliverTripFrame_of_origin {s : State} {f : Frame} {i : Fin 32} (h : f.origin = i.val + 1) :
    s.deliverTripFrame f =
      let q : BitVec 8 := f.seq.setWidth 8
      if sequenceAccepted s.ring.memory[i] f.restart q = true then
        let t : State := { s with ring := { s.ring with memory := s.ring.memory.set i (some q) } }
        if f.kind = .trip then t.deliverTrip f.origin f.payload else t.deliverTripClear f.origin f.payload
      else { s with ring := { s.ring with duplicates := min (s.ring.duplicates + 1) 65535 } } := by
  rw [State.deliverTripFrame, h, memoryOf_eq, remember_eq]
  rfl

/-! ## The return of an own frame (R15, R75, R80, R83) -/

theorem ownReturned_of_cycle {s : State} {x : Arrived} (h : x.frame.kind = .cycle) :
    s.ownReturned x = s.returnCycle x.frame.seq (decodeCycle x.frame.payload) x.delay := by
  rw [State.ownReturned, h]

theorem ownReturned_of_trip {s : State} {x : Arrived} (h : x.frame.kind = .trip ∨ x.frame.kind = .tripClear) :
    s.ownReturned x = { s with ring := { s.ring with restartFlag := false } } := by
  rw [State.ownReturned]
  rcases h with h | h <;> rw [h]

theorem ownReturned_of_other {s : State} {x : Arrived} (hc : x.frame.kind ≠ .cycle) (ht : x.frame.kind ≠ .trip)
    (hl : x.frame.kind ≠ .tripClear) : s.ownReturned x = s := by
  unfold State.ownReturned
  split
  · exact absurd ‹_› hc
  · exact absurd ‹_› ht
  · exact absurd ‹_› hl
  · rfl

theorem returnCycle_of_mine {s : State} (number : Num16) (c : CycleFields) (delay : Nat)
    (h : s.angle.role = .master ∧ s.master.lastHanded = some number) :
    s.returnCycle number c delay = s.cycleReturned (clearStale c.vector s.angle.nodeId number) delay :=
  if_pos ⟨(isMaster_iff s).mpr h.1, h.2⟩

theorem returnCycle_of_other {s : State} (number : Num16) (c : CycleFields) (delay : Nat)
    (h : ¬(s.angle.role = .master ∧ s.master.lastHanded = some number)) : s.returnCycle number c delay = s :=
  if_neg fun hm => h ⟨(isMaster_iff s).mp hm.1, hm.2⟩

/-- Settles O52. -/
theorem ringFrameArrivesAndGoesItsWay : Obligations.RingFrameArrivesAndGoesItsWay := by
  refine ⟨fun s side arrival at_ bs => ?receiver, fun s x => ?paths, fun s x => ?delivery⟩
  case receiver =>
    intro s1 p bad processing passing run
    have hbad : frameBad bs = true ↔ bad := frameBad_iff bs
    have hproc : RingMode.processingInput s1.ring.mode = some side ↔ processing := processingInput_iff s.ring.mode side
    have hpass : RingMode.passInput s1.ring.mode = some side ↔ passing := passInput_iff s.ring.mode side
    have hrun : run = .next (s1.frameArrives side arrival bs) := exec_ringFrameArrival side arrival at_ bs s
    have hfibre : s1.fibre side = p := rfl
    rw [hrun]
    refine ⟨fun h => ?_, fun h => ?_, fun h hb => ?_, fun h hg hnp hnq => ?_, fun h hg hrole hn => ?_, fun f h hg hp hf => ?_,
      fun f h hg hp hf => ?_, fun t ht => ?_⟩
    · rw [frameArrives_of_dark arrival bs (hfibre ▸ h)]
    · exact congrArg Host.Outcome.next (frameArrives_of_training (s := s1) arrival bs h)
    · exact congrArg Host.Outcome.next (frameArrives_of_bad (s := s1) arrival h (hbad.mpr hb))
    · rw [frameArrives_of_good arrival (hfibre ▸ h) (mt hbad.mp hg), takeFrame_of_no_role arrival bs (mt hproc.mp hnp) (mt hpass.mp hnq)]
      rfl
    · rw [frameArrives_of_good arrival (hfibre ▸ h) (mt hbad.mp hg), takeFrame_of_unknown arrival (hrole.imp hproc.mpr hpass.mpr) hn]
      rfl
    · rw [frameArrives_of_good arrival (hfibre ▸ h) (mt hbad.mp hg), takeFrame_of_processing arrival (hproc.mpr hp) hf]
      rfl
    · rw [frameArrives_of_good arrival (hfibre ▸ h) (mt hbad.mp hg), takeFrame_of_passing arrival (hpass.mpr hp) hf]
      rfl
    · obtain rfl : s1.frameArrives side arrival bs = t := Host.Outcome.next.inj ht
      have honly : Only arrivalParts s1 (s1.frameArrives side arrival bs) := frameArrives_only s1 side arrival bs
      exact ⟨(honly .pages (by decide)).symm, (honly .camera (by decide)).symm, (honly .marks (by decide)).symm,
        (honly .ports (by decide)).symm, (honly .pending (by decide)).symm⟩
  case paths =>
    intro f own stray mine forMe n allowed
    have hallowed : payloadLengthOk f.kind n = true ↔ allowed := payloadLengthOk_iff f.kind n
    have hdelivered : delivered own f = true ↔ forMe := delivered_iff own f
    refine ⟨by rw [frameStray_iff, hallowed], fun h => if_pos h, fun h ho => ?_, fun h ho hh => ?_,
      fun h ho hh => ⟨fun hm => ?_, fun hm hf => ?_, fun hm hf => ?_⟩,
      fun hr => if_pos hr, fun hr hc => passFrame_of_closed hr hc⟩
    · rw [processFrame_of_layout h, if_pos ho]
    · rw [processFrame_of_layout h, if_neg ho, if_pos hh]
      rfl
    · rw [processFrame_of_layout h, if_neg ho, if_neg (Nat.not_le.mpr hh), if_pos (hdelivered.mpr (.inl hm)), if_pos hm]
    · rw [processFrame_of_layout h, if_neg ho, if_neg (Nat.not_le.mpr hh), if_pos (hdelivered.mpr hf), if_neg hm]
    · rw [processFrame_of_layout h, if_neg ho, if_neg (Nat.not_le.mpr hh), if_neg (mt hdelivered.mp hf), if_neg hm]
  case delivery =>
    intro f c delay mine v g
    refine ⟨rfl, fun i hi => ?_, ownReturned_of_trip, fun hk hm => ?_, fun hk hm => ?_, ownReturned_of_other, fun hmode => ?_,
      fun hmode => ?_, forwardFrame_of_isolated x⟩
    · intro q accepted t
      have haccepted : sequenceAccepted s.ring.memory[i] f.restart q = true ↔ accepted := sequenceAccepted_iff _ _ _
      refine ⟨fun ha hk => ?_, fun ha hk => ?_, fun ha => ?_⟩
      · rw [deliverTripFrame_of_origin hi, if_pos (haccepted.mpr ha), if_pos hk]
      · rw [deliverTripFrame_of_origin hi, if_pos (haccepted.mpr ha), if_neg (by rw [hk]; decide)]
      · rw [deliverTripFrame_of_origin hi, if_neg (mt haccepted.mp ha)]
    · rw [ownReturned_of_cycle hk, returnCycle_of_mine _ _ _ hm]
      rfl
    · rw [ownReturned_of_cycle hk, returnCycle_of_other _ _ _ hm]
    · refine forwardFrame_of_output x ?_
      rcases hmode with h | h <;> rw [h] <;> rfl
    · exact forwardFrame_of_output x (by rw [hmode]; rfl)

end Sys2Proof.Machine
end

section
/-! Proofs. The arbiter of an output: what it chooses, the frame as it leaves, and how a frame joins an output (R68, R78, R82 to R87). -/

namespace Sys2Proof.Machine

/-! ## The choice (R86) -/

theorem choose_of_urgent {p : FibrePort} {q : Queued} {rest : List Queued} (own : List Frame) (h : p.urgent = q :: rest) :
    p.choose own = .urgent q := by
  unfold FibrePort.choose
  rw [h]

theorem choose_of_cycle {p : FibrePort} {q : Queued} (own : List Frame) (hu : p.urgent = []) (hc : p.cycle = some q) :
    p.choose own = .cycle q := by
  unfold FibrePort.choose
  rw [hu, hc]

theorem choose_of_forwarded {p : FibrePort} {q : Queued} {rest : List Queued} (hu : p.urgent = []) (hc : p.cycle = none)
    (hf : p.forwarded = q :: rest) : p.choose [] = .forwarded q p.bulkTurn := by
  unfold FibrePort.choose
  rw [hu, hc, hf]

theorem choose_of_local {p : FibrePort} {f : Frame} (rest : List Frame) (hu : p.urgent = []) (hc : p.cycle = none)
    (hf : p.forwarded = []) : p.choose (f :: rest) = .localFrame f p.bulkTurn := by
  unfold FibrePort.choose
  rw [hu, hc, hf]

/-- Both BULK queues hold frames: they are served in turn. -/
theorem choose_of_both {p : FibrePort} {q : Queued} {f : Frame} {rest : List Queued} (rest' : List Frame) (hu : p.urgent = [])
    (hc : p.cycle = none) (hf : p.forwarded = q :: rest) :
    p.choose (f :: rest') = match p.bulkTurn with
      | .forwarded => .forwarded q .localQueue
      | .localQueue => .localFrame f .forwarded := by
  unfold FibrePort.choose
  rw [hu, hc, hf]
  cases p.bulkTurn <;> rfl

theorem choose_of_empty {p : FibrePort} (hu : p.urgent = []) (hc : p.cycle = none) (hf : p.forwarded = []) :
    p.choose [] = .nothing := by
  unfold FibrePort.choose
  rw [hu, hc, hf]

/-! ## The outputs with a role (R72), and the arbiter -/

theorem processingOutput_iff (mode : RingMode) (o : FibreSide) :
    RingMode.processingOutput mode = some o ↔
      (o = .b ∧ (mode = .closed ∨ mode = .wrapA)) ∨ (o = .a ∧ mode = .wrapB) := by
  cases mode <;> cases o <;> simp [RingMode.processingOutput]

theorem passOutput_iff (mode : RingMode) (o : FibreSide) :
    RingMode.passOutput mode = some o ↔ o = .a ∧ mode = .closed := by
  cases mode <;> cases o <;> simp [RingMode.passOutput]

theorem hasRole_iff (mode : RingMode) (o : FibreSide) :
    RingMode.hasRole mode o = true ↔ RingMode.processingOutput mode = some o ∨ RingMode.passOutput mode = some o := by
  rw [RingMode.hasRole, Bool.or_eq_true, decide_eq_true_eq, decide_eq_true_eq]

/-- An output has one role at most. -/
theorem not_processingOutput_of_passOutput {mode : RingMode} {o : FibreSide} (h : RingMode.passOutput mode = some o) :
    RingMode.processingOutput mode ≠ some o := by
  obtain ⟨rfl, rfl⟩ := (passOutput_iff mode o).mp h
  decide

/-- The local frames an output serves: the local queue at the processing output, none at the pass-through output. -/
def State.servedQueue (s : State) (o : FibreSide) : List Frame :=
  if RingMode.processingOutput s.ring.mode = some o then s.ring.localQueue else []

theorem arbitrate_of_no_role {s : State} {o : FibreSide} (h : ¬RingMode.hasRole s.ring.mode o = true) : s.arbitrate o = s :=
  if_neg fun hr => h hr.1

theorem arbitrate_of_sending {s : State} {o : FibreSide} (h : (s.fibre o).sending ≠ none) : s.arbitrate o = s :=
  if_neg fun hr => h hr.2

theorem arbitrate_of_free {s : State} {o : FibreSide} {x : Choice} (hrole : RingMode.hasRole s.ring.mode o = true)
    (hfree : (s.fibre o).sending = none) (hx : (s.fibre o).choose (s.servedQueue o) = x) :
    s.arbitrate o =
      let p := s.fibre o
      match (generalizing := false) x with
      | .urgent q => (s.setFibre o { p with urgent := p.urgent.tail }).transmit o (s.asSent q)
      | .cycle q => ((s.setFibre o { p with cycle := none }).transmit o (s.asSent q)).left q
      | .forwarded q turn => (s.setFibre o { p with forwarded := p.forwarded.tail, bulkTurn := turn }).transmit o (s.asSent q)
      | .localFrame f turn =>
        let s1 := s.setFibre o { p with bulkTurn := turn }
        (({ s1 with ring := { s1.ring with localQueue := s.ring.localQueue.tail } } : State).transmit o f).passHeld
      | .nothing => s := by
  subst hx
  have hserves : RingMode.hasRole s.ring.mode o = true ∧ (s.fibre o).sending = none := ⟨hrole, hfree⟩
  exact if_pos hserves

/-- A frame put into the transmitter of a port that has just been written. -/
theorem setFibre_transmit (s : State) (o : FibreSide) (q : FibrePort) (f : Frame) :
    (s.setFibre o q).transmit o f = s.setFibre o { q with sending := some (encodeFrame f) } := by
  cases o <;> rfl

theorem left_of_not_own {q : Queued} (s : State) (h : ∀ number c, q ≠ .ownCycle number c) : s.left q = s := by
  cases q with
  | ownCycle number c => exact absurd rfl (h number c)
  | own f => rfl
  | primary f arrival linkDelay => rfl
  | reverse f arrival linkDelay => rfl

/-- A local frame put into the transmitter. -/
theorem local_transmit (s : State) (o : FibreSide) (q : FibrePort) (queue : List Frame) (f : Frame) :
    (({ s.setFibre o q with ring := { (s.setFibre o q).ring with localQueue := queue } } : State).transmit o f) =
      let t := s.setFibre o { q with sending := some (encodeFrame f) }
      { t with ring := { t.ring with localQueue := queue } } := by
  cases o <;> rfl

/-! ## The held screen frame that takes a freed place (R87, R153) -/

theorem passHeld_of_waiting {s : State} (h : s.screen.hold = [] ∨ 16 ≤ s.ring.localQueue.length) : s.passHeld = s := by
  unfold State.passHeld
  split
  · rfl
  · rename_i x rest hx
    exact if_neg (Nat.not_lt.mpr (h.resolve_left (by simp [hx])))

theorem passHeld_of_room {s : State} {h : HoldFrame} {rest : List HoldFrame} (hh : s.screen.hold = h :: rest)
    (hroom : s.ring.localQueue.length < 16) :
    s.passHeld =
      { s with
        ring := { s.ring with
          localQueue := s.ring.localQueue ++
            [{ kind := h.kind, restart := false, reverse := 0, origin := s.angle.nodeId, dest := h.dest, hop := 0
               seq := s.ring.bulkSequence, payload := h.payload }]
          bulkSequence := s.ring.bulkSequence + 1 }
        screen := { s.screen with hold := rest } } := by
  rw [State.passHeld, hh]
  exact if_pos hroom

/-! ## The end of a frame (R68) -/

theorem setFibre_sendIdle (s : State) (side : FibreSide) (p : FibrePort) (h : p.sending = none) :
    (s.setFibre side p).sendIdle side = s.setFibre side (p.sentIdle s.now) := by
  rw [State.sendIdle, setFibre_fibre, h, setFibre_now]
  cases side <;> rfl

theorem transmitEnds_of_idle {s : State} {side : FibreSide} (h : (s.fibre side).sending = none) : s.transmitEnds side = s := by
  rw [State.transmitEnds, h]
  rfl

theorem transmitEnds_of_sending {s : State} {side : FibreSide} (h : (s.fibre side).sending ≠ none) :
    s.transmitEnds side =
      (s.setFibre side (({ s.fibre side with sending := none } : FibrePort).sentIdle s.now)).arbitrate side := by
  rw [State.transmitEnds, if_pos (Option.isSome_iff_ne_none.mpr h), setFibre_sendIdle s side _ rfl]

/-! ## A frame as it leaves (R78, R82, R83), and how it joins (R85) -/

theorem asSent_primary_of_cycle {f : Frame} (s : State) (arrival linkDelay : Nat) (h : f.kind = .cycle) :
    s.asSent (.primary f arrival linkDelay) =
      { f with payload := writeSlot (writeDelay f.payload linkDelay arrival s.now) s.angle.nodeId (s.ownSlot f.seq) } :=
  if_pos h

theorem asSent_reverse_of_cycle {f : Frame} (s : State) (arrival linkDelay : Nat) (h : f.kind = .cycle) :
    s.asSent (.reverse f arrival linkDelay) =
      { f with reverse := f.reverse + 1, payload := writeDelay f.payload linkDelay arrival s.now } :=
  if_pos h

theorem joinCycle_of_free {s : State} {o : FibreSide} (q : Queued) (h : (s.fibre o).cycle = none) :
    s.joinCycle o q = (s.setFibre o { s.fibre o with cycle := some q }).arbitrate o := by
  rw [State.joinCycle, h]

/-- A CYCLE frame that waits is replaced. -/
theorem joinCycle_of_waiting {s : State} {o : FibreSide} (q : Queued) {w : Queued} (h : (s.fibre o).cycle = some w) :
    s.joinCycle o q =
      ((s.dropForward.left w).setFibre o { (s.dropForward.left w).fibre o with cycle := some q }).arbitrate o := by
  rw [State.joinCycle, h]

theorem joinByClass_of_trip {s : State} {o : FibreSide} {kind : FrameKind} (q : Queued) (h : kind = .trip ∨ kind = .tripClear) :
    s.joinByClass o kind q = s.joinUrgent o q := by
  rcases h with rfl | rfl <;> rfl

theorem joinByClass_of_bulk {s : State} {o : FibreSide} {kind : FrameKind} (q : Queued) (hc : kind ≠ .cycle) (ht : kind ≠ .trip)
    (hl : kind ≠ .tripClear) : s.joinByClass o kind q = s.joinForwarded o q := by
  cases kind with
  | cycle => exact absurd rfl hc
  | trip => exact absurd rfl ht
  | tripClear => exact absurd rfl hl
  | trimStep => rfl
  | imageLine => rfl
  | screenTiles => rfl
  | touch => rfl
  | peerMessage => rfl

/-- Settles O53. -/
theorem arbiterChoosesByClass : Obligations.ArbiterChoosesByClass := by
  refine ⟨fun s side at_ => ?frameEnd, fun p own => ?choice, fun s o => ?arbiter, fun s f arrival linkDelay number c => ?leaves,
    fun s o kind q => ?joins⟩
  case frameEnd =>
    intro p s1
    rw [exec_frameTransmitEnd]
    split
    · rename_i hidle
      exact congrArg Host.Outcome.next (transmitEnds_of_idle (s := s1) hidle)
    · rename_i hsending
      exact congrArg Host.Outcome.next (transmitEnds_of_sending (s := s1) hsending)
  case choice =>
    refine ⟨fun q rest h => choose_of_urgent own h, fun q hu hc => choose_of_cycle own hu hc, fun q rest hu hc hf ho => ?_,
      fun f rest hu hc hf ho => ?_, fun q f rest rest' hu hc hf ho => ?_, fun hu hc hf ho => ?_⟩
    · exact ho ▸ choose_of_forwarded hu hc hf
    · exact ho ▸ choose_of_local rest hu hc hf
    · exact ho ▸ choose_of_both rest' hu hc hf
    · exact ho ▸ choose_of_empty hu hc hf
  case arbiter =>
    intro p processing passing sent queue
    have hprocessing : RingMode.processingOutput s.ring.mode = some o ↔ processing := processingOutput_iff s.ring.mode o
    have hpassing : RingMode.passOutput s.ring.mode = some o ↔ passing := passOutput_iff s.ring.mode o
    refine ⟨fun hp hq => ?_, arbitrate_of_sending, fun own hrole hfree => ?_⟩
    · exact arbitrate_of_no_role fun h => ((hasRole_iff _ _).mp h).elim (mt hprocessing.mp hp) (mt hpassing.mp hq)
    · have hserved : s.servedQueue o = own := by
        rcases hrole with ⟨hp, rfl⟩ | ⟨hp, rfl⟩
        · exact if_pos (hprocessing.mpr hp)
        · exact if_neg (not_processingOutput_of_passOutput (hpassing.mpr hp))
      have hany : RingMode.hasRole s.ring.mode o = true :=
        (hasRole_iff _ _).mpr (hrole.imp (fun h => hprocessing.mpr h.1) fun h => hpassing.mpr h.1)
      subst hserved
      refine ⟨fun q hc => ?_, fun number c hc => ?_, fun q hq hc => ?_, fun q turn hc => ?_, fun f turn hc => ?_, fun hc => ?_⟩
      · exact (arbitrate_of_free hany hfree hc).trans (setFibre_transmit s o _ _)
      · exact (arbitrate_of_free hany hfree hc).trans (congrArg (fun t : State => t.emitted number c) (setFibre_transmit s o _ _))
      · exact (arbitrate_of_free hany hfree hc).trans ((left_of_not_own _ hq).trans (setFibre_transmit s o _ _))
      · exact (arbitrate_of_free hany hfree hc).trans (setFibre_transmit s o _ _)
      · intro t
        have hlocal : s.arbitrate o = ({ t with ring := { t.ring with localQueue := queue } } : State).passHeld :=
          (arbitrate_of_free hany hfree hc).trans (congrArg State.passHeld (local_transmit s o _ _ f))
        have hscreen : t.screen = s.screen := setFibre_screen s o _
        have hangle : t.angle = s.angle := setFibre_angle s o _
        have hbulk : t.ring.bulkSequence = s.ring.bulkSequence := by cases o <;> rfl
        refine ⟨fun hfull => ?_, fun h rest hh hroom => ?_⟩
        · rw [hlocal, passHeld_of_waiting]
          rw [← hscreen] at hfull
          exact hfull
        · rw [hlocal, passHeld_of_room (h := h) (rest := rest) (hscreen ▸ hh) hroom, ← hscreen, ← hangle, ← hbulk]
      · exact arbitrate_of_free hany hfree hc
  case leaves =>
    intro own slot delayed
    exact ⟨rfl, rfl, asSent_primary_of_cycle s arrival linkDelay, fun h => if_neg h, asSent_reverse_of_cycle s arrival linkDelay,
      fun h => if_neg h⟩
  case joins =>
    intro p dropped waits
    refine ⟨fun h => joinByClass_of_trip q h, ?_, ?_, ?_, fun hc ht hl => joinByClass_of_bulk q hc ht hl⟩
    · rintro rfl hcycle
      exact joinCycle_of_free q hcycle
    · rintro number c rfl hcycle
      exact joinCycle_of_waiting q hcycle
    · rintro w rfl hcycle hw
      refine (joinCycle_of_waiting q hcycle).trans ?_
      rw [left_of_not_own _ hw]
      rfl

end Sys2Proof.Machine
end

section
/-! Proofs. The fibre ports' training, use and loss, and the ring mode they form (R68 to R73, R84, R86, R92). -/

namespace Sys2Proof.Machine

/-! ## Idle sets at a port (R68, R69, R71) -/

theorem restartRun_of_training {p : FibrePort} (h : p.state = .training) : p.restartRun = { p with idleRun := 0, samples := [] } :=
  if_pos h

theorem takeIdle_of_dark {p : FibrePort} (x : IdleSet) (arrival : Nat) (h : p.state = .dark) :
    p.takeIdle x arrival = { p with peerOk := x.receivingOk, echo := some (x.timestamp, arrival) } := by
  rw [FibrePort.takeIdle, h]

theorem takeIdle_of_up {p : FibrePort} (x : IdleSet) (arrival : Nat) (h : p.state = .up) :
    p.takeIdle x arrival =
      ({ p with peerOk := x.receivingOk, echo := some (x.timestamp, arrival) } : FibrePort).countOk x.receivingOk := by
  rw [FibrePort.takeIdle, h]

/-- A set that echoes none of the timestamps sent sets the training back. -/
theorem takeIdle_of_foreign {p : FibrePort} {x : IdleSet} (arrival : Nat) (h : p.state = .training)
    (hforeign : ∀ e ∈ p.stamps, x.echo ≠ some e) :
    p.takeIdle x arrival =
      { p with peerOk := x.receivingOk, echo := some (x.timestamp, arrival), idleRun := 0, samples := [] } := by
  unfold FibrePort.takeIdle
  rw [h]
  dsimp only
  split
  · rename_i e he
    have hout : ¬p.stamps.contains e = true := fun hin => hforeign e (List.contains_iff_mem.mp hin) he
    rw [if_neg hout]
    exact restartRun_of_training rfl
  · exact restartRun_of_training rfl

theorem takeIdle_of_echo {p : FibrePort} {x : IdleSet} {e : BitVec 32} (arrival : Nat) (h : p.state = .training)
    (he : e ∈ p.stamps) (hx : x.echo = some e) :
    p.takeIdle x arrival =
      ({ p with peerOk := x.receivingOk, echo := some (x.timestamp, arrival) } : FibrePort).sample (delaySample arrival e x.hold) := by
  rw [FibrePort.takeIdle, h, hx]
  exact if_pos (List.contains_iff_mem.mpr he)

theorem countOk_state (p : FibrePort) (ok : Bool) : (p.countOk ok).state = p.state := by
  cases ok <;> rfl

theorem sample_of_short {p : FibrePort} (x : Nat) (h : p.idleRun + 1 < 8) :
    p.sample x = { p with idleRun := p.idleRun + 1, samples := p.samples ++ [x] } :=
  if_neg (Nat.not_le.mpr h)

theorem sample_of_eighth {p : FibrePort} (x : Nat) (h : 8 ≤ p.idleRun + 1) :
    p.sample x =
      { p with
        state := .up, idleRun := 8, samples := [], linkDelay := min ((p.samples ++ [x]).sum / 8) 65535, okRun := 0 } :=
  if_pos h

theorem idleReceived_of_bad {s : State} (side : FibreSide) (arrival : Nat) {good : Bool} {bs : List Byte}
    (h : good = false ∨ decodeIdle bs = none) :
    s.idleReceived side arrival good bs = s.setFibre side (s.fibre side).restartRun := by
  have hnone : (if good = true then decodeIdle bs else none) = none := by
    rcases h with rfl | h
    · rfl
    · rw [h, ite_self]
  rw [State.idleReceived, hnone]

theorem idleReceived_of_good {s : State} (side : FibreSide) (arrival : Nat) {bs : List Byte} {x : IdleSet} (h : decodeIdle bs = some x) :
    s.idleReceived side arrival true bs =
      (if ((s.fibre side).takeIdle x arrival).state = (s.fibre side).state then s.setFibre side ((s.fibre side).takeIdle x arrival)
        else (s.setFibre side ((s.fibre side).takeIdle x arrival)).postRingState).reformMode := by
  rw [State.idleReceived, if_pos rfl, h]

theorem idleReceived_of_same {s : State} {side : FibreSide} {arrival : Nat} {bs : List Byte} {x : IdleSet} {q : FibrePort}
    (h : decodeIdle bs = some x) (hq : (s.fibre side).takeIdle x arrival = q) (hstate : q.state = (s.fibre side).state) :
    s.idleReceived side arrival true bs = (s.setFibre side q).reformMode := by
  rw [idleReceived_of_good side arrival h, hq, if_pos hstate]

theorem idleReceived_of_changed {s : State} {side : FibreSide} {arrival : Nat} {bs : List Byte} {x : IdleSet} {q : FibrePort}
    (h : decodeIdle bs = some x) (hq : (s.fibre side).takeIdle x arrival = q) (hstate : q.state ≠ (s.fibre side).state) :
    s.idleReceived side arrival true bs = ((s.setFibre side q).postRingState).reformMode := by
  rw [idleReceived_of_good side arrival h, hq, if_neg hstate]

theorem idleSet_hold (p : FibrePort) (now : Nat) :
    p.idleSet now =
      { receivingOk := decide (p.state = .up), timestamp := BitVec.ofNat 32 now, echo := p.echo.map (·.1)
        hold := match p.echo with
          | some e => BitVec.ofNat 32 (now - e.2)
          | none => 0 } := rfl

theorem sendIdle_eq (s : State) (side : FibreSide) :
    s.sendIdle side = if (s.fibre side).sending = none then s.setFibre side ((s.fibre side).sentIdle s.now) else s := by
  unfold State.sendIdle
  dsimp only
  cases (s.fibre side).sending with
  | none => rfl
  | some bs => rfl

theorem setFibre_restartRun (s : State) (side : FibreSide) (p : FibrePort) :
    s.setFibre side p.restartRun =
      if p.state = .training then s.setFibre side { p with idleRun := 0, samples := [] } else s.setFibre side p :=
  apply_ite (s.setFibre side) _ _ _

/-! ## The ring mode (R72) -/

theorem modeOf_eq (a b : Bool) :
    modeOf a b = if a then (if b then .closed else .wrapB) else (if b then .wrapA else .isolated) := by
  cases a <;> cases b <;> rfl

theorem reformMode_eq (s : State) :
    s.reformMode = if modeOf s.ring.a.usable s.ring.b.usable = s.ring.mode then s else s.changeMode (modeOf s.ring.a.usable s.ring.b.usable) :=
  rfl

theorem changeMode_eq (s : State) (new : RingMode) :
    s.changeMode new =
      let s1 : State := { s with ring := { s.ring with mode := new } }
      let s2 := if losesRole s.ring.mode new .a then s1.flush .a else s1
      let s3 := if losesRole s.ring.mode new .b then s2.flush .b else s2
      ((s3.postRingState.setCondition 19 (decide (new ≠ .closed))).arbitrate .a).arbitrate .b := rfl

/-- What follows the change of the mode field leaves it as it is. -/
theorem changeMode_mode (s : State) (new : RingMode) : (s.changeMode new).ring.mode = new := by
  have hflush (c : Prop) [Decidable c] (t : State) (o : FibreSide) (h : t.ring.mode = new) :
      (if c then t.flush o else t).ring.mode = new := by
    split
    · exact (flush_only t o .links (by decide)).1.symm.trans h
    · exact h
  have hrest (t : State) (h : t.ring.mode = new) :
      ((t.postRingState.setCondition ringWrappedSource (decide (new ≠ .closed))).arbitrateBoth).ring.mode = new := by
    have honly : Only tripParts t.postRingState
        ((t.postRingState.setCondition ringWrappedSource (decide (new ≠ .closed))).arbitrateBoth) :=
      Only.after (arbitrateBoth_only _) (Only.up (setCondition_only _ _ _))
    exact (honly .links (by decide)).1.symm.trans h
  exact hrest _ (hflush _ _ .b (hflush _ _ .a rfl))

/-! ## An output that loses its role (R73, R84) -/

theorem losesRole_iff (old new : RingMode) (o : FibreSide) :
    losesRole old new o = true ↔
      (match o with
        | .a => decide (old = .closed ∨ old = .wrapB)
        | .b => decide (old = .closed ∨ old = .wrapA)) = true
      ∧ (match o with
        | .a => decide (new = .closed ∨ new = .wrapB)
        | .b => decide (new = .closed ∨ new = .wrapA)) = false := by
  cases o <;> cases old <;> cases new <;> decide

theorem flush_eq (s : State) (o : FibreSide) :
    s.flush o =
      let p := s.fibre o
      let u := s.setFibre o { p with urgent := [], cycle := none, forwarded := [] }
      let v : State := { u with ring :=
        { u.ring with
          urgentDrops := min (s.ring.urgentDrops + p.urgent.length) 65535
          forwardDrops := min (s.ring.forwardDrops + ((if p.cycle = none then 0 else 1) + p.forwarded.length)) 65535 } }
      match p.cycle with
      | some (.ownCycle number c) => v.emitted number c
      | _ => v := by
  have hurgent (q : FibrePort) : (s.setFibre o q).ring.urgentDrops = s.ring.urgentDrops := by cases o <;> rfl
  have hforward (q : FibrePort) : (s.setFibre o q).ring.forwardDrops = s.ring.forwardDrops := by cases o <;> rfl
  unfold State.flush
  simp only [hurgent, hforward]
  cases (s.fibre o).cycle with
  | none => rfl
  | some q => cases q <;> rfl

theorem postRingState_eq (s : State) :
    let shown (p : FibrePort) : Option Nat := if p.state = .up then some p.linkDelay else none
    s.postRingState = s.post (.ringState s.ring.a.state s.ring.a.usable s.ring.b.state s.ring.b.usable (shown s.ring.a)
      (shown s.ring.b) s.ring.mode (if s.angle.role = .master then some s.ring.lost else none)) := by
  intro shown
  rw [State.postRingState]
  simp only [isMaster_iff]
  rfl

/-- Settles O54. -/
theorem fibrePortsTrainAndFallAndFormTheMode : Obligations.FibrePortsTrainAndFallAndFormTheMode := by
  refine ⟨fun s side at_ => ?ports, fun s => ?mode, fun s new => ?change⟩
  case ports =>
    intro p s1
    refine ⟨rfl, rfl, ?_, ?_, fun good bs hbad => ?_, fun bs x hx => ?_⟩
    · rw [exec_shortLossOfLock]
      exact congrArg Host.Outcome.next (setFibre_restartRun s side p)
    · rw [exec_idleSetSend]
      exact congrArg Host.Outcome.next (sendIdle_eq s1 side)
    · rw [exec_idleSetReceived, idleReceived_of_bad side at_ hbad]
      exact congrArg Host.Outcome.next (setFibre_restartRun s1 side p)
    · intro q run
      have hrun : run = .next (s1.idleReceived side at_ true bs) := exec_idleSetReceived side at_ true bs s
      rw [hrun]
      refine ⟨fun h => ?_, fun h => ?_, fun h hforeign => ?_, fun e he h hecho => ⟨fun hshort => ?_, fun height => ?_⟩⟩
      · exact congrArg Host.Outcome.next (idleReceived_of_same (s := s1) hx (takeIdle_of_dark x at_ h) rfl)
      · rw [idleReceived_of_same (s := s1) hx (takeIdle_of_up x at_ h) (countOk_state _ _)]
        rfl
      · exact congrArg Host.Outcome.next (idleReceived_of_same (s := s1) hx (takeIdle_of_foreign at_ h hforeign) rfl)
      · have hq : p.takeIdle x at_ = _ := (takeIdle_of_echo at_ h he hecho).trans (sample_of_short _ hshort)
        rw [idleReceived_of_same (s := s1) hx hq rfl]
        rfl
      · have hq : p.takeIdle x at_ = _ := (takeIdle_of_echo at_ h he hecho).trans (sample_of_eighth _ height)
        rw [idleReceived_of_changed (s := s1) hx hq fun hup => FibreState.noConfusion (hup.trans h)]
        rfl
  case mode =>
    intro new
    have hnew : modeOf s.ring.a.usable s.ring.b.usable = new := modeOf_eq _ _
    rw [reformMode_eq, hnew]
    refine ⟨rfl, ?_⟩
    split
    · exact Eq.symm ‹_›
    · exact changeMode_mode s new
  case change =>
    intro role flushed shown moved
    refine ⟨?_, postRingState_eq s⟩
    have hflushed (o : FibreSide) (t : State) : (if losesRole s.ring.mode new o then t.flush o else t) = flushed o t :=
      (if_congr (losesRole_iff s.ring.mode new o) (flush_eq t o) rfl).trans (by rfl)
    rw [changeMode_eq]
    dsimp only
    rw [hflushed .a moved, hflushed .b]

end Sys2Proof.Machine
end

section
/-! Proofs. The camera port's triggers and line messages (R119 to R121), the mark unit's work on a line (R137 to R143), and the capture of a
line (R128). -/

namespace Sys2Proof.Machine

/-! ## Triggers (R119, R120) -/

/-- The issue of a trigger, its record written out. -/
theorem issue_eq (at_ : Nat) (c : Camera) (x : Trigger) :
    Camera.issue at_ c x =
      { c with
        tagPins := c.tagCounter, pulses := c.pulses ++ [(at_, c.tagCounter)], tagCounter := (c.tagCounter + 1) % 16
        issued := min (c.issued + 1) 65535
        missing := if 4 ≤ c.outstanding.length then min (c.missing + 1) 65535 else c.missing
        outstanding := (if 4 ≤ c.outstanding.length then c.outstanding.tail else c.outstanding)
          ++ [{ line := x.line, tag := c.tagCounter, stamp := x.stamp, revolution := x.revolution }] } := by
  have hfull {α : Type} (a b : α) :
      (if decide (4 ≤ c.outstanding.length) = true then a else b) = if 4 ≤ c.outstanding.length then a else b :=
    if_congr decide_eq_true_iff rfl rfl
  rw [← hfull, ← hfull]
  rfl

theorem triggerComes_of_none {s : State} (h : s.camera.triggers = []) : s.triggerComes = s := by
  rw [State.triggerComes, h]

theorem triggerComes_of_pending {s : State} {x : Trigger} {rest : List Trigger} (h : s.camera.triggers = x :: rest) :
    s.triggerComes =
      { s.tick x.issueAt with camera := Camera.issue x.issueAt { s.camera with triggers := rest, pulses := [] } x } := by
  rw [State.triggerComes, h]
  rfl

theorem cameraUpdate_of_off {s : State} (e : UpdateEvent) (h : s.camera.on = false) : s.cameraUpdate e = s :=
  if_neg (by simp [h])

theorem cameraUpdate_of_on {s : State} (e : UpdateEvent) (h : s.camera.on = true) :
    s.cameraUpdate e = { s with camera := s.camera.update e } := if_pos h

/-- The camera's work at an update, over the camera after the pending triggers were issued. -/
theorem update_eq (c : Camera) (e : UpdateEvent) :
    c.update e =
      let c1 := c.triggers.foldl (Camera.issue e.at_) { c with pulses := [] }
      let start : Angle := e.angle + BitVec.ofInt 24 (-e.delta)
      let after := (start.toNat / c1.pitch + 1) * c1.pitch % 16777216
      let pointer := if start = c1.lastSeen then c1.pointer.getD after else after
      let gap := (BitVec.ofNat 24 pointer - e.angle).toInt
      let n := if 0 < e.delta ∧ gap ≤ 0 then gap.natAbs / c1.pitch + 1 else 0
      { c1 with
        triggers := (List.range (min n 8)).map fun i =>
          let m := (pointer + i * c1.pitch) % 16777216
          { line := m / c1.pitch, stamp := BitVec.ofNat 24 m
            revolution := if e.angle.toNat < m then e.revolution - 1 else e.revolution
            issueAt := e.at_ + ((e.tu : Int) * (BitVec.ofNat 24 m - start).toInt / e.delta).toNat }
        skipped := min (c1.skipped + (n - 8)) 65535
        pointer := some ((pointer + n * c1.pitch) % 16777216)
        lastSeen := e.angle } := by
  simp only [Camera.update, ite_not]
  rfl

/-! ## Line messages (R121) -/

theorem lineGood_iff (width : Nat) (bs : List Byte) :
    lineGood width bs = true ↔ 5 ≤ bs.length ∧ crc16Good bs = true ∧ fieldAt bs 1 2 = width ∧ bs.length - 5 = width := by
  simp only [lineGood, Bool.and_eq_true, decide_eq_true_eq, and_assoc]

theorem lineMessage_of_bad {s : State} {bs : List Byte} (h : ¬lineGood s.camera.width bs = true) :
    s.lineMessage bs = { s with camera := { s.camera with badLines := min (s.camera.badLines + 1) 65535 } } := if_neg h

/-- The tag of a line message. -/
def lineTag (bs : List Byte) : Nat := (byteAt bs 0).toNat % 16

/-- Whether an entry of the outstanding queue has the tag of a line message. -/
def hasTag (bs : List Byte) (o : Outstanding) : Bool := decide (o.tag = (byteAt bs 0).toNat % 16)

theorem hasTag_iff (bs : List Byte) (o : Outstanding) : hasTag bs o = true ↔ o.tag = (byteAt bs 0).toNat % 16 := decide_eq_true_iff

theorem lineMessage_of_good {s : State} {bs : List Byte} (h : lineGood s.camera.width bs = true) :
    s.lineMessage bs =
      match s.camera.outstanding.findIdx? (hasTag bs), s.camera.outstanding.find? (hasTag bs) with
      | some k, some o =>
        ({ s with camera := s.camera.match_ k }).handLine
          { number := o.line, stamp := o.stamp, revolution := o.revolution, pixels := (bs.drop 3).take s.camera.width }
      | _, _ => { s with camera := { s.camera with unknownTags := bump s.camera.unknownTags } } :=
  if_pos h

theorem lineMessage_of_unknown {s : State} {bs : List Byte} (h : lineGood s.camera.width bs = true)
    (hnone : ∀ o ∈ s.camera.outstanding, o.tag ≠ (byteAt bs 0).toNat % 16) :
    s.lineMessage bs = { s with camera := { s.camera with unknownTags := min (s.camera.unknownTags + 1) 65535 } } := by
  have hfind : s.camera.outstanding.find? (hasTag bs) = none :=
    List.find?_eq_none.mpr fun o ho => mt (hasTag_iff bs o).mp (hnone o ho)
  have hidx : s.camera.outstanding.findIdx? (hasTag bs) = none :=
    List.findIdx?_eq_none_iff.mpr fun o ho => Bool.not_eq_true _ ▸ mt (hasTag_iff bs o).mp (hnone o ho)
  rw [lineMessage_of_good h, hidx, hfind]
  rfl

theorem lineMessage_of_entry {s : State} {bs : List Byte} {older newer : List Outstanding} {o : Outstanding}
    (h : lineGood s.camera.width bs = true) (hlist : s.camera.outstanding = older ++ o :: newer)
    (holder : ∀ x ∈ older, x.tag ≠ (byteAt bs 0).toNat % 16) (ho : o.tag = (byteAt bs 0).toNat % 16) :
    s.lineMessage bs =
      ({ s with camera :=
        { s.camera with
          missing := min (s.camera.missing + older.length) 65535, received := min (s.camera.received + 1) 65535
          outstanding := newer } } : State).handLine
        { number := o.line, stamp := o.stamp, revolution := o.revolution, pixels := (bs.drop 3).take s.camera.width } := by
  have hother : ∀ x ∈ older, ¬hasTag bs x = true := fun x hx => mt (hasTag_iff bs x).mp (holder x hx)
  have hidx : s.camera.outstanding.findIdx? (hasTag bs) = some older.length := by
    have hnone : older.findIdx? (hasTag bs) = none := List.findIdx?_eq_none_iff.mpr fun x hx => Bool.not_eq_true _ ▸ hother x hx
    rw [hlist, List.findIdx?_append, hnone, List.findIdx?_cons, (hasTag_iff bs o).mpr ho]
    simp
  have hfind : s.camera.outstanding.find? (hasTag bs) = some o := by
    rw [hlist, List.find?_append, List.find?_eq_none.mpr hother, List.find?_cons_of_pos ((hasTag_iff bs o).mpr ho)]
    rfl
  have hdrop : s.camera.outstanding.drop (older.length + 1) = newer := by
    rw [hlist, List.drop_append]
    simp
  rw [lineMessage_of_good h, hidx, hfind, ← hdrop]
  rfl

/-! ## The mark unit's work on a line (R137 to R143) -/

theorem passes_eq (last : Option (Nat × Angle)) (stamp point : Angle) :
    passes last stamp point = match last with
      | some x => decide (1 ≤ (point - x.2).toNat ∧ (point - x.2).toNat ≤ (stamp - x.2).toNat)
      | none => false := by
  cases last <;> rfl

theorem predecessor_eq (s : State) (number : Nat) :
    s.predecessor number = match s.marks.lastLine with
      | some x => if number = (x.1 + 1) % (16777216 / s.camera.pitch) then some x.2 else none
      | none => none := by
  unfold State.predecessor
  cases s.marks.lastLine <;> rfl

theorem edge_eq (c : Channel) (pitch : Nat) (before : Option Angle) (stamp : Angle) (n : Nat) :
    c.edge pitch before stamp n = match c.previous with
      | none => none
      | some p =>
        if p < c.width ∧ c.width ≤ n then
          some (match before with
            | some x => x + BitVec.ofNat 24 ((2 * pitch * (c.width - p) + (n - p)) / (2 * (n - p)))
            | none => stamp)
        else none := by
  unfold Channel.edge
  cases c.previous <;> cases before <;> rfl

theorem inGate_iff (c : Channel) (e : Angle) : c.inGate e = true ↔ (e - c.g0).toNat < (c.g1 - c.g0).toNat := decide_eq_true_iff

theorem markLine_of_worked {s t : State} {l : CameraLine}
    (h : followerNumbers.foldl (fun u i => u.workFollower l i) (s.workReference l) = t) :
    s.markLine l = { t with marks := { t.marks with lastLine := some (l.number, l.stamp) } } := by
  subst h
  rfl

/-! ### The reference (R140, R141) -/

theorem workReference_of_off {s : State} (l : CameraLine) (h : (s.channel 0).state = .off) : s.workReference l = s := if_pos h

theorem workReference_of_on {s : State} (l : CameraLine) (h : (s.channel 0).state ≠ .off) :
    s.workReference l =
      let x := s.look 0 l
      let t := (s.setChannel 0 { s.channel 0 with previous := some x.2 }).offerReference x.1
      if passes s.marks.lastLine l.stamp (t.channel 0).g1 then t.closeReference else t := if_neg h

theorem offerReference_of_untaken {s : State} {c : Channel} {edge : Option Angle}
    (h : ∀ e, edge = some e → ¬(c.phase = .opened ∧ c.edgeTaken = none ∧ (e - c.g0).toNat < (c.g1 - c.g0).toNat)) :
    (s.setChannel 0 c).offerReference edge = s.setChannel 0 c := by
  unfold State.offerReference
  rw [setChannel_channel]
  cases edge with
  | none => rfl
  | some e =>
    have hno : ¬(c.phase = .opened ∧ c.edgeTaken = none ∧ c.inGate e = true) :=
      fun ⟨hp, ht, hg⟩ => h e rfl ⟨hp, ht, (inGate_iff c e).mp hg⟩
    exact if_neg hno

theorem offerReference_of_taken {s : State} {c : Channel} {e : Angle}
    (h : c.phase = .opened ∧ c.edgeTaken = none ∧ (e - c.g0).toNat < (c.g1 - c.g0).toNat) :
    (s.setChannel 0 c).offerReference (some e) =
      followerNumbers.foldl (fun t i => t.arm e i) (s.setChannel 0 { c with edgeTaken := some e, lastEdge := some e }) := by
  have hyes : c.phase = .opened ∧ c.edgeTaken = none ∧ c.inGate e = true := ⟨h.1, h.2.1, (inGate_iff c e).mpr h.2.2⟩
  rw [State.offerReference, setChannel_channel, setChannel_setChannel]
  exact if_pos hyes

theorem closeReference_of_unopened {s : State} (h : (s.channel 0).phase ≠ .opened) :
    s.closeReference = followerNumbers.foldl State.leavePartial (s.setChannel 0 { s.channel 0 with phase := .opened }) := by
  unfold State.closeReference
  dsimp only
  rw [if_neg h]

theorem closeReference_of_found {s : State} {e : Angle} (h : (s.channel 0).phase = .opened) (he : (s.channel 0).edgeTaken = some e) :
    s.closeReference = followerNumbers.foldl State.leavePartial (s.putChannel 0 ((s.channel 0).judgedFound e)) := by
  unfold State.closeReference
  dsimp only
  rw [if_pos h, he]

theorem closeReference_of_missed {s : State} (h : (s.channel 0).phase = .opened) (he : (s.channel 0).edgeTaken = none) :
    s.closeReference =
      followerNumbers.foldl State.leavePartial (followerNumbers.foldl State.missWaiting (s.putChannel 0 (s.channel 0).judgedMiss)) := by
  unfold State.closeReference
  dsimp only
  rw [if_pos h, he]

/-! ### The followers (R142, R143) -/

theorem workFollower_of_off {s : State} (l : CameraLine) {i : Fin 8} (h : (s.channel i).state = .off) : s.workFollower l i = s := if_pos h

theorem workFollower_of_on {s : State} (l : CameraLine) {i : Fin 8} (h : (s.channel i).state ≠ .off) :
    s.workFollower l i =
      let x := s.look i l
      let c := ({ s.channel i with previous := some x.2 } : Channel).offer x.1
      if c.endPassed s.marks.lastLine l.stamp then (s.setChannel i c).closeSpan i else s.setChannel i c := by
  refine (if_neg h).trans ?_
  dsimp only
  rw [setChannel_channel]

/-- A follower takes an edge that lies in its span. -/
theorem offer_of_taken {c : Channel} {e a : Angle} (ha : c.armed = some a)
    (h : c.phase = .armed ∧ c.edgeTaken = none ∧ (e - (a + BitVec.ofInt 24 (c.spacing - c.span))).toNat ≤ 2 * c.span) :
    c.offer (some e) = { c with edgeTaken := some e } := by
  have hyes : c.phase = .armed ∧ c.edgeTaken = none ∧ c.inSpan a e = true := ⟨h.1, h.2.1, decide_eq_true h.2.2⟩
  unfold Channel.offer
  split
  · rename_i e' a' he ha'
    obtain rfl : e = e' := Option.some.inj he
    obtain rfl : a = a' := Option.some.inj (ha.symm.trans ha')
    exact if_pos hyes
  · rename_i hnone
    exact absurd ha (hnone e a rfl)

theorem offer_of_untaken {c : Channel} {edge : Option Angle}
    (h : ∀ e a, edge = some e → ¬(c.armed = some a ∧ c.phase = .armed ∧ c.edgeTaken = none
      ∧ (e - (a + BitVec.ofInt 24 (c.spacing - c.span))).toNat ≤ 2 * c.span)) :
    c.offer edge = c := by
  unfold Channel.offer
  split
  · rename_i e a ha
    have hno : ¬(c.phase = .armed ∧ c.edgeTaken = none ∧ c.inSpan a e = true) :=
      fun ⟨hp, ht, hs⟩ => h e a rfl ⟨ha, hp, ht, of_decide_eq_true hs⟩
    exact if_neg hno
  · rfl

theorem endPassed_iff (c : Channel) (last : Option (Nat × Angle)) (stamp : Angle) :
    c.endPassed last stamp = true ↔
      c.phase = .armed ∧ ∃ a, c.armed = some a ∧ passes last stamp (a + BitVec.ofInt 24 (c.spacing + c.span)) = true := by
  unfold Channel.endPassed
  cases c.armed with
  | none => simp
  | some a => simp [Angle.plus]

theorem closeSpan_of_missed {s : State} {i : Fin 8} (h : (s.channel i).edgeTaken = none ∨ (s.channel i).armed = none) :
    s.closeSpan i = s.putChannel i ({ s.channel i with phase := .waiting, armed := none, edgeTaken := none } : Channel).judgedMiss := by
  unfold State.closeSpan
  dsimp only
  split
  · rename_i e a he ha
    simp [he, ha] at h
  · rfl

theorem putLine_eq (s : State) (i : Fin 4) (l : LineWrite) :
    s.putLine i l =
      if (s.map i).write = none then s.startWrite i l else s.setMap i { s.map i with waiting := (s.map i).waiting ++ [l] } := by
  unfold State.putLine
  by_cases h : (s.map i).write = none
  · rw [if_pos h, if_neg (by simp [h])]
  · rw [if_neg h, if_pos (Option.isSome_iff_ne_none.mpr h)]

theorem capture_eq (s : State) (l : CameraLine) :
    let m := s.map 0
    let w : LineWrite :=
      { slot := l.number / s.store.decimation, revolution := l.revolution, address := 0
        bytes := (List.range s.store.stored).map fun i => byteAt l.pixels (i * s.store.hStep) }
    s.capture l =
      if m.state ≠ .active ∨ l.number % s.store.decimation ≠ 0 then s
      else if m.write = none then s.startWrite 0 w
      else s.setMap 0 { m with waiting := m.waiting ++ [w] } := by
  intro m w
  have hcapture : s.capture l = if m.state = .active ∧ l.number % s.store.decimation = 0 then s.putLine 0 w else s := rfl
  rw [hcapture, putLine_eq]
  by_cases htaken : m.state = .active ∧ l.number % s.store.decimation = 0
  · have hno : ¬(m.state ≠ .active ∨ l.number % s.store.decimation ≠ 0) := fun h => h.elim (fun h => h htaken.1) fun h => h htaken.2
    rw [if_pos htaken, if_neg hno]
  · rw [if_neg htaken, if_pos (not_and_or.mp htaken)]

/-- Settles O55. -/
theorem triggersAndLineMessages : Obligations.TriggersAndLineMessages := by
  unfold Obligations.TriggersAndLineMessages
  intro issued
  have hissue (at_ : Nat) : Camera.issue at_ = issued at_ := funext fun c => funext fun x => issue_eq at_ c x
  refine ⟨fun s h => ?idle, fun s x rest h => ?trigger, fun s e => ?update, fun s bs => ?line, fun s l => ?marks⟩
  case idle => rw [exec_triggerIssue, triggerComes_of_none h]
  case trigger => rw [exec_triggerIssue, triggerComes_of_pending h, hissue]
  case update =>
    refine ⟨cameraUpdate_of_off e, fun h => ?_⟩
    rw [cameraUpdate_of_on e h, update_eq, hissue]
  case line =>
    intro c good tag
    have hgood : lineGood s.camera.width bs = true ↔ good := lineGood_iff _ _
    rw [exec_lineMessage]
    refine ⟨fun h => ?_, fun h hnone => ?_, fun older o newer h hlist holder ho => ?_⟩
    · rw [lineMessage_of_bad (mt hgood.mp h)]
    · rw [lineMessage_of_unknown (hgood.mpr h) hnone]
    · exact congrArg Host.Outcome.next (lineMessage_of_entry (hgood.mpr h) hlist holder ho)
  case marks =>
    intro pitch last before dark edge passed marked
    have hbefore : s.predecessor l.number = before := predecessor_eq s l.number
    have hlook (i : Fin 8) : s.look i l = (edge (s.channel i), dark (s.channel i)) := by
      rw [State.look, hbefore]
      exact Prod.ext (edge_eq _ _ _ _ _) rfl
    have hpassed (point : Angle) : passes s.marks.lastLine l.stamp point = passed point := passes_eq _ _ _
    have hmarked : followerNumbers.foldl (fun t i => t.workFollower l i) (s.workReference l) = marked := rfl
    clear_value marked
    refine ⟨markLine_of_worked hmarked, workReference_of_off l, fun hon => ?_, fun i => workFollower_of_off l, fun i hon => ?_, fun e i => ?_,
      fun i => closeSpan_of_missed, ?_, capture_eq s l⟩
    · intro c seen taken closes
      have hwork : s.workReference l = closes ((s.setChannel 0 seen).offerReference (edge c)) := by
        rw [workReference_of_on l hon, hlook]
        simp only [hpassed]
        rfl
      rw [hwork]
      refine ⟨fun he => ?_, fun e he hno => ?_, fun e he htaken => ?_⟩
      · rw [he]
        rfl
      · rw [offerReference_of_untaken]
        exact fun e' he' => Option.some.inj (he.symm.trans he') ▸ hno
      · rw [he]
        exact congrArg closes (offerReference_of_taken (c := seen) htaken)
    · intro c seen taken closes
      have hend (d : Channel) (hp : d.phase = c.phase) (ha : d.armed = c.armed) (hs : d.spacing = c.spacing) (hw : d.span = c.span) :
          (if d.endPassed s.marks.lastLine l.stamp then (s.setChannel i d).closeSpan i else s.setChannel i d) = closes (s.setChannel i d) := by
        refine if_congr ?_ rfl rfl
        rw [endPassed_iff, hp, ha, hs, hw]
        simp only [hpassed]
      have hwork : s.workFollower l i =
          if (seen.offer (edge c)).endPassed s.marks.lastLine l.stamp then (s.setChannel i (seen.offer (edge c))).closeSpan i
          else s.setChannel i (seen.offer (edge c)) := by
        rw [workFollower_of_on l hon, hlook]
      rw [hwork]
      refine ⟨fun e a he htaken => ?_, fun hno => ?_⟩
      · obtain ⟨ha, htaken⟩ := htaken
        rw [he, offer_of_taken (c := seen) ha htaken]
        exact hend _ rfl rfl rfl rfl
      · rw [offer_of_untaken (c := seen) hno]
        exact hend seen rfl rfl rfl rfl
    · rfl
    · intro c leave miss
      exact ⟨closeReference_of_unopened, fun e h he => closeReference_of_found h he, closeReference_of_missed⟩

end Sys2Proof.Machine
end

section
/-! Proofs. A line on its way into a page: the start and the end of a write (R127), the streaming of map 0's lines (R129), and the
IMAGE_LINE frames of other nodes (R130). -/

namespace Sys2Proof.Machine

/-! ## The start of a write (R127) -/

theorem startWrite_of_active {s : State} {i : Fin 4} (l : LineWrite) (h : (s.map i).state = .active) :
    s.startWrite i l =
      let m := s.map i
      let e := m.entry (m.pageOf l.slot)
      if e.valid = false then
        (s.setMap i { m with state := .faulted, fault := some ⟨m.pageOf l.slot, l.slot, l.revolution⟩ }).postMapState i
      else if e.writeProtect then s.setMap i { m with frozen := min (m.frozen + 1) 65535 }
      else s.beginWrite i l :=
  if_neg (not_not_intro h)

theorem beginWrite_eq (s : State) (i : Fin 4) (l : LineWrite) :
    let m := s.map i
    let r := m.slot l.slot
    let t := s.setMap i
      { m.setSlot l.slot { r with writing := true, writeNumber := r.writeNumber + 1 } with
        write := some { l with address := (m.entry (l.slot * m.stride / 2048)).page * 2048 + l.slot * m.stride % 2048 } }
    s.beginWrite i l = if i = 0 then t.stream l else t := rfl

theorem stream_of_no_dest {s : State} (w : LineWrite) (h : s.store.streamDest = 0) : s.stream w = s := if_pos h

/-! ## Streaming (R129) -/

theorem stream_of_dest {s : State} (w : LineWrite) (h : s.store.streamDest ≠ 0) :
    s.stream w =
      let x := s.originate .imageLine s.store.streamDest
        (u16 w.revolution.toNat ++ u16 w.slot ++ u16 (s.map 0).stride ++ u16 w.bytes.length ++ w.bytes)
      if x.2 then x.1 else { x.1 with store := { x.1.store with streamSkips := bump x.1.store.streamSkips } } := if_neg h

theorem stream_of_room {s : State} (w : LineWrite) (h : s.store.streamDest ≠ 0) (hroom : s.ring.localQueue.length < 16) :
    s.stream w =
      (s.joinLocal .imageLine s.store.streamDest
        (u16 w.revolution.toNat ++ u16 w.slot ++ u16 (s.map 0).stride ++ u16 w.bytes.length ++ w.bytes)).serveLocal := by
  rw [stream_of_dest w h, originate_room _ _ _ _ hroom]
  rfl

theorem stream_of_full {s : State} (w : LineWrite) (h : s.store.streamDest ≠ 0) (hfull : ¬s.ring.localQueue.length < 16) :
    s.stream w =
      { s with
        ring := { s.ring with bulkSequence := s.ring.bulkSequence + 1 }
        store := { s.store with streamSkips := min (s.store.streamSkips + 1) 65535 } } := by
  rw [stream_of_dest w h, originate_full _ _ _ _ hfull]
  rfl

/-! ## The end of a write (R127) -/

theorem endWrite_of_write {s : State} {i : Fin 4} {w : LineWrite} (h : (s.map i).write = some w) :
    s.endWrite i = (s.finishWrite i w).serveWaiting i (s.map i).waiting := by
  rw [State.endWrite, h]

/-- The pages once the write is over: the lines that begin after it write nothing yet. -/
theorem endWrite_pages {s : State} {i : Fin 4} {w : LineWrite} (h : (s.map i).write = some w) :
    (s.endWrite i).store.pages = Memory.writeBytes s.store.pages w.address w.bytes := by
  rw [endWrite_of_write h]
  exact (serveWaiting_only _ i _ .pages (by decide)).symm

/-- The record of a map once the write of a line into it is over. -/
def ImageMap.finished (m : ImageMap) (w : LineWrite) : ImageMap :=
  { m.setSlot w.slot { m.slot w.slot with present := true, stamp := w.revolution, writing := false } with
    write := none, written := min (m.written + 1) 65535 }

theorem finishWrite_map (s : State) (i : Fin 4) (w : LineWrite) : (s.finishWrite i w).map i = (s.map i).finished w :=
  setMap_map s i _

theorem finished_waiting {m : ImageMap} (w : LineWrite) (h : m.waiting = []) :
    { m.finished w with waiting := [] } = m.finished w := by
  rw [← h]
  rfl

theorem endWrite_of_last {s : State} {i : Fin 4} {w : LineWrite} (h : (s.map i).write = some w) (hlast : (s.map i).waiting = []) :
    s.endWrite i =
      { s with store :=
        { s.store with
          pages := Memory.writeBytes s.store.pages w.address w.bytes
          maps := s.store.maps.set i ((s.map i).finished w) } } := by
  have hserve : (s.finishWrite i w).serveWaiting i [] = (s.finishWrite i w).setMap i { (s.finishWrite i w).map i with waiting := [] } := rfl
  have hfinish : s.finishWrite i w = { s with store :=
      { s.store with
        pages := Memory.writeBytes s.store.pages w.address w.bytes
        maps := s.store.maps.set i ((s.map i).finished w) } } := rfl
  rw [endWrite_of_write h, hlast, hserve, finishWrite_map, finished_waiting w hlast, hfinish]
  simp only [State.setMap, Vector.set_set]

/-! ## IMAGE_LINE frames of other nodes (R130) -/

theorem mapOf_eq_none {s : State} {origin : Nat} (h : ∀ i : Fin 4, i ≠ 0 → (s.map i).origin ≠ origin) : s.mapOf origin = none := by
  refine List.find?_eq_none.mpr fun i hi => ?_
  have hi0 : i ≠ 0 := by
    rintro rfl
    simp at hi
  simpa using h i hi0

/-- The first of maps 1 to 3 that passes a test. -/
theorem find_map_of_first {p : Fin 4 → Bool} {i : Fin 4} (hi : i ≠ 0) (hp : p i = true)
    (hfirst : ∀ j : Fin 4, j ≠ 0 → j < i → ¬p j = true) : [1, 2, 3].find? p = some i := by
  match i with
  | 0 => exact absurd rfl hi
  | 1 => exact List.find?_cons_of_pos hp
  | 2 =>
    rw [List.find?_cons_of_neg (hfirst 1 (by decide) (by decide))]
    exact List.find?_cons_of_pos hp
  | 3 =>
    rw [List.find?_cons_of_neg (hfirst 1 (by decide) (by decide)), List.find?_cons_of_neg (hfirst 2 (by decide) (by decide))]
    exact List.find?_cons_of_pos hp

theorem mapOf_eq_some {s : State} {origin : Nat} {i : Fin 4} (hi : i ≠ 0) (ho : (s.map i).origin = origin)
    (hfirst : ∀ j : Fin 4, j ≠ 0 → j < i → (s.map j).origin ≠ origin) : s.mapOf origin = some i :=
  find_map_of_first hi (decide_eq_true ho) fun j hj hlt => by simpa using hfirst j hj hlt

theorem deliverImageLine_of_map {s : State} {origin : Nat} {i : Fin 4} (payload : List Byte) (hi : i ≠ 0) (hmap : s.mapOf origin = some i) :
    let m := s.map i
    let slot := fieldAt payload 2 2
    let count := fieldAt payload 6 2
    s.deliverImageLine origin payload =
      if m.state ≠ .active ∨ fieldAt payload 4 2 ≠ m.stride ∨ m.slotCount ≤ slot ∨ m.stride < count ∨ count ≠ payload.length - 8 then
        s.setMap i { m with dropped := min (m.dropped + 1) 65535 }
      else s.putLine i { slot := slot, revolution := BitVec.ofNat 16 (fieldAt payload 0 2), bytes := payload.drop 8 } := by
  intro m slot count
  have hdrop : s.dropLine i = s.setMap i { m with dropped := min (m.dropped + 1) 65535 } := if_neg hi
  rw [State.deliverImageLine, hmap, ← hdrop]

/-- Settles O56. -/
theorem lineIsWrittenIntoItsPage : Obligations.LineIsWrittenIntoItsPage := by
  refine ⟨fun s i l hactive => ?start, fun s l => ?stream, fun s i => ⟨fun h => ?idle, fun w hw hwf => ?finish⟩, fun s origin payload => ?remote⟩
  case start =>
    intro m page e r
    rw [startWrite_of_active l hactive]
    refine ⟨fun hv => ?_, fun hv hp => ?_, fun hv hp => ?_⟩
    · exact (if_pos hv).trans (postMapState_setMap s i _)
    · have hvalid : ¬e.valid = false := by simp [hv]
      exact (if_neg hvalid).trans (if_pos hp)
    · intro t
      have hvalid : ¬e.valid = false := by simp [hv]
      have hopen : ¬e.writeProtect = true := by simp [hp]
      have hbegin : s.beginWrite i l = if i = 0 then t.stream l else t := beginWrite_eq s i l
      refine ⟨fun hquiet => ?_, fun hi hdest => ?_⟩
      · refine (if_neg hvalid).trans ((if_neg hopen).trans (hbegin.trans ?_))
        by_cases hi : i = 0
        · rw [if_pos hi]
          exact stream_of_no_dest (s := t) l (hquiet.resolve_left (not_not_intro hi))
        · rw [if_neg hi]
      · exact (if_neg hvalid).trans ((if_neg hopen).trans (hbegin.trans (if_pos hi)))
  case stream =>
    intro f t hdest
    by_cases hroom : s.ring.localQueue.length < 16
    · rw [if_pos hroom]
      exact stream_of_room l hdest hroom
    · rw [if_neg hroom]
      exact stream_of_full l hdest hroom
  case idle => rw [exec_lineWriteEnd, endWrite_of_idle h]
  case finish =>
    intro m r pages
    refine ⟨s.endWrite i, exec_lineWriteEnd i s, fun a => ?_, fun hlast => endWrite_of_last hw hlast, (endWrite_only s i).up⟩
    rw [endWrite_pages hw, Memory.read_writeBytes _ _ _ _ hwf]
  case remote =>
    intro slot count l
    refine ⟨fun hnone => ?_, fun i hi ho hfirst => ?_⟩
    · rw [State.deliverImageLine, mapOf_eq_none hnone]
      rfl
    · intro m
      rw [deliverImageLine_of_map payload hi (mapOf_eq_some hi ho hfirst), putLine_eq]

end Sys2Proof.Machine
end

section
/-! Proofs. Ring frames and CYCLE payloads are read back from the bytes they are sent as (10.1, 10.2). -/

namespace Sys2Proof.Machine

/-! ## Numbers in bytes (section 0.5) -/

theorem byte_toNat {n : Nat} (h : n < 256) : (BitVec.ofNat 8 n).toNat = n := Nat.mod_eq_of_lt h

theorem beNat_u16 {n : Nat} (h : n < 65536) : beNat (u16 n) = n := by
  simp only [beNat, u16, List.foldl_cons, List.foldl_nil, BitVec.toNat_ofNat]
  omega

theorem beNat_u24 {n : Nat} (h : n < 16777216) : beNat (u24 n) = n := by
  simp only [beNat, u24, List.foldl_cons, List.foldl_nil, BitVec.toNat_ofNat]
  omega

/-! ## The frame (10.1) -/

theorem frameKindOf_code (k : FrameKind) : frameKindOf (BitVec.ofNat 8 (FrameKind.code k)).toNat = some k := by
  cases k <;> rfl

/-- The byte of the restart flag and the reverse hop count. -/
def frameFlags (restart : Bool) (reverse : Nat) : Byte := BitVec.ofNat 8 ((if restart then 128 else 0) + reverse % 32)

theorem frameFlags_toNat (restart : Bool) (reverse : Nat) :
    (frameFlags restart reverse).toNat = (if restart then 128 else 0) + reverse % 32 := by
  refine byte_toNat ?_
  split <;> omega

theorem frameFlags_restart (restart : Bool) (reverse : Nat) : (frameFlags restart reverse).getLsbD 7 = restart := by
  rw [← BitVec.testBit_toNat, frameFlags_toNat, Nat.testBit_eq_decide_div_mod_eq]
  cases restart with
  | true => exact decide_eq_true (by simp; omega)
  | false => exact decide_eq_false (by simp; omega)

theorem frameFlags_reverse (restart : Bool) {reverse : Nat} (h : reverse < 32) : (frameFlags restart reverse).toNat % 32 = reverse := by
  rw [frameFlags_toNat]
  split <;> omega

/-- The header of a frame. -/
def frameHeader (f : Frame) : List Byte :=
  [BitVec.ofNat 8 (FrameKind.code f.kind), frameFlags f.restart f.reverse, BitVec.ofNat 8 f.origin, BitVec.ofNat 8 f.dest,
    BitVec.ofNat 8 f.hop] ++ u16 f.seq.toNat ++ u16 f.payload.length ++ [0, 0, 0]

theorem encodeFrame_eq (f : Frame) :
    encodeFrame f = frameHeader f ++ (f.payload ++ u32 (crc32 (frameHeader f ++ f.payload)).toNat) := by
  have hframe : encodeFrame f = withCrc32 (frameHeader f ++ f.payload) := rfl
  rw [hframe, withCrc32, List.append_assoc]

theorem encodeFrame_length (f : Frame) : (encodeFrame f).length = 16 + f.payload.length := by
  rw [encodeFrame, withCrc32_length]
  simp [u8, u16]
  omega

theorem encodeFrame_payloadLength {f : Frame} (h : f.payload.length ≤ 512) : fieldAt (encodeFrame f) 7 2 = f.payload.length := by
  rw [encodeFrame_eq]
  exact beNat_u16 (by omega)

theorem encodeFrame_header (f : Frame) :
    byteAt (encodeFrame f) 0 = BitVec.ofNat 8 (FrameKind.code f.kind) ∧ byteAt (encodeFrame f) 1 = frameFlags f.restart f.reverse
      ∧ byteAt (encodeFrame f) 2 = BitVec.ofNat 8 f.origin ∧ byteAt (encodeFrame f) 3 = BitVec.ofNat 8 f.dest
      ∧ byteAt (encodeFrame f) 4 = BitVec.ofNat 8 f.hop ∧ fieldAt (encodeFrame f) 5 2 = f.seq.toNat := by
  rw [encodeFrame_eq]
  exact ⟨rfl, rfl, rfl, rfl, rfl, beNat_u16 f.seq.isLt⟩

theorem encodeFrame_payload (f : Frame) :
    ((encodeFrame f).drop 12).take ((encodeFrame f).length - 16) = f.payload := by
  rw [encodeFrame_length, Nat.add_sub_cancel_left, encodeFrame_eq]
  exact List.take_left' rfl

theorem decodeFrame_encodeFrame {f : Frame} (hreverse : f.reverse < 32) (horigin : f.origin < 256) (hdest : f.dest < 256)
    (hhop : f.hop < 256) : decodeFrame (encodeFrame f) = some f := by
  obtain ⟨hkind, hflags, hbyte2, hbyte3, hbyte4, hseq⟩ := encodeFrame_header f
  rw [decodeFrame, hkind, frameKindOf_code, Option.map_some, hflags, frameFlags_restart, frameFlags_reverse f.restart hreverse, hbyte2,
    byte_toNat horigin, hbyte3, byte_toNat hdest, hbyte4, byte_toNat hhop, hseq, BitVec.ofNat_toNat, BitVec.setWidth_eq,
    encodeFrame_payload]

theorem frameBad_encodeFrame {f : Frame} (h : f.payload.length ≤ 512) : ¬frameBad (encodeFrame f) = true := by
  rw [frameBad_iff, encodeFrame_length, encodeFrame_payloadLength h, show crc32Good (encodeFrame f) = true from crc32Good_withCrc32 _]
  simp
  omega

/-! ## The CYCLE payload (10.2) -/

theorem periodOf_code (p : Period) : periodOf (BitVec.ofNat 8 (Period.code p)).toNat = p := by cases p <;> rfl

theorem lineStateOf_code (l : LineState) : lineStateOf (BitVec.ofNat 8 (LineState.code l)).toNat = l := by cases l <;> rfl

/-- The two bytes of a status slot. -/
def slotFirst (x : StatusSlot) : Byte :=
  BitVec.ofNat 8 ((if x.present then 128 else 0) + (if x.passMark then 64 else 0) + x.worst.code)
def slotSecond (x : StatusSlot) : Byte :=
  BitVec.ofNat 8 (RingMode.code x.ringMode + (if x.axesCoupled then 4 else 0) + (if x.marksLocked then 8 else 0))

theorem encodeSlot_eq (x : StatusSlot) : encodeSlot x = [slotFirst x, slotSecond x] := rfl

theorem slotFirst_fields (x : StatusSlot) :
    (slotFirst x).getLsbD 7 = x.present ∧ (slotFirst x).getLsbD 6 = x.passMark ∧ classOf ((slotFirst x).toNat % 8) = x.worst := by
  unfold slotFirst
  cases x.present <;> cases x.passMark <;> cases x.worst <;> decide

theorem slotSecond_fields (x : StatusSlot) :
    ringModeOf (slotSecond x).toNat = x.ringMode ∧ (slotSecond x).getLsbD 2 = x.axesCoupled ∧ (slotSecond x).getLsbD 3 = x.marksLocked := by
  unfold slotSecond
  cases x.ringMode <;> cases x.axesCoupled <;> cases x.marksLocked <;> decide

theorem decodeSlot_encoded (x : StatusSlot) : decodeSlot (slotFirst x) (slotSecond x) = x := by
  obtain ⟨hpresent, hmark, hworst⟩ := slotFirst_fields x
  obtain ⟨hmode, haxes, hmarks⟩ := slotSecond_fields x
  rw [decodeSlot, hpresent, hmark, hworst, hmode, haxes, hmarks]

/-- The bytes of slot `i` in a run of slots. -/
theorem byteAt_slots (l : List StatusSlot) {i : Nat} (h : i < l.length) :
    byteAt (l.flatMap encodeSlot) (2 * i) = slotFirst l[i] ∧ byteAt (l.flatMap encodeSlot) (2 * i + 1) = slotSecond l[i] := by
  induction l generalizing i with
  | nil => exact absurd h (Nat.not_lt_zero i)
  | cons x l ih =>
    cases i with
    | zero => exact ⟨rfl, rfl⟩
    | succ j => exact ih (Nat.lt_of_succ_lt_succ h)

theorem slots_length (l : List StatusSlot) : (l.flatMap encodeSlot).length = 2 * l.length := by
  simp [List.length_flatMap, encodeSlot_eq, Nat.mul_comm]

/-- The fields of a CYCLE payload before its slots. -/
def cycleHeader (c : CycleFields) : List Byte :=
  u8 (Period.code c.period) ++ u8 (LineState.code c.lineState) ++ u24 c.aM.toNat ++ u16 c.revolution.toNat ++ u24 c.v ++ u16 c.dAcc

theorem encodeCycle_eq (c : CycleFields) : encodeCycle c = cycleHeader c ++ c.vector.toList.flatMap encodeSlot := rfl

theorem encodeCycle_length (c : CycleFields) : (encodeCycle c).length = 76 := by
  rw [encodeCycle_eq, List.length_append, slots_length, Vector.length_toList]
  rfl

theorem encodeCycle_header (c : CycleFields) (hv : c.v < 4194304) (hd : c.dAcc < 65536) :
    byteAt (encodeCycle c) 0 = BitVec.ofNat 8 (Period.code c.period) ∧ byteAt (encodeCycle c) 1 = BitVec.ofNat 8 (LineState.code c.lineState)
      ∧ fieldAt (encodeCycle c) 2 3 = c.aM.toNat ∧ fieldAt (encodeCycle c) 5 2 = c.revolution.toNat ∧ fieldAt (encodeCycle c) 7 3 = c.v
      ∧ fieldAt (encodeCycle c) 10 2 = c.dAcc := by
  rw [encodeCycle_eq]
  exact ⟨rfl, rfl, beNat_u24 c.aM.isLt, beNat_u16 c.revolution.isLt, beNat_u24 (by omega), beNat_u16 hd⟩

theorem encodeCycle_slot (c : CycleFields) (i : Fin 32) :
    byteAt (encodeCycle c) (12 + 2 * i.val) = slotFirst c.vector[i] ∧ byteAt (encodeCycle c) (13 + 2 * i.val) = slotSecond c.vector[i] := by
  have hafter (n : Nat) : byteAt (encodeCycle c) (12 + n) = byteAt (c.vector.toList.flatMap encodeSlot) n := by
    have hheader : (cycleHeader c).length = 12 := rfl
    rw [encodeCycle_eq, byteAt, byteAt, List.getD_append_right _ _ _ _ (by omega), hheader, Nat.add_sub_cancel_left]
  have hslots := byteAt_slots c.vector.toList (i := i.val) (by simp)
  rw [Vector.getElem_toList] at hslots
  rw [hafter, show 13 + 2 * i.val = 12 + (2 * i.val + 1) by omega, hafter]
  exact hslots

theorem decodeCycle_encodeCycle {c : CycleFields} (hv : c.v < 4194304) (hd : c.dAcc < 65536) : decodeCycle (encodeCycle c) = c := by
  obtain ⟨hperiod, hline, haM, hrevolution, hspeed, hdelay⟩ := encodeCycle_header c hv hd
  have hvector : (Vector.ofFn fun i : Fin 32 =>
      decodeSlot (byteAt (encodeCycle c) (12 + 2 * i.val)) (byteAt (encodeCycle c) (13 + 2 * i.val))) = c.vector := by
    ext i hi
    obtain ⟨hfirst, hsecond⟩ := encodeCycle_slot c ⟨i, hi⟩
    rw [Vector.getElem_ofFn, hfirst, hsecond, decodeSlot_encoded]
    rfl
  rw [decodeCycle, hperiod, periodOf_code, hline, lineStateOf_code, haM, BitVec.ofNat_toNat, BitVec.setWidth_eq, hrevolution,
    BitVec.ofNat_toNat, BitVec.setWidth_eq, hspeed, Nat.mod_eq_of_lt hv, hdelay, hvector]

/-- Settles O57. -/
theorem ringFramesAreReadBackAsSent : Obligations.RingFramesAreReadBackAsSent :=
  ⟨fun _ hreverse horigin hdest hhop hlength =>
      ⟨decodeFrame_encodeFrame hreverse horigin hdest hhop, Bool.eq_false_of_not_eq_true (frameBad_encodeFrame hlength)⟩,
    fun c hv hd => ⟨decodeCycle_encodeCycle hv hd, encodeCycle_length c⟩⟩

end Sys2Proof.Machine
end
